-- ==== Sys2Proof/Word.lean ====
section
/-! DEFINITION. The machine's two word types: the byte of the memory port (R82) and the 32-bit register word (R33). -/

namespace Sys2Proof

/-- A byte of memory, of the bitstream or of the CHUNK buffer (R82, R85). -/
abbrev Byte := BitVec 8

/-- A register, an address or a command word (R8: ADDR_W = 32, registers 32 bits wide). -/
abbrev Word := BitVec 32

end Sys2Proof
end

