-- ==== Sys2Proof/Config.lean ====
section
/-! DEFINITION. What the platform fixes (R9: REG_BASE, CHUNK_BYTES, MEM_ADMITS) as plain data, and the one source of
free values, a constant with no body (log 1, log 4). -/

namespace Sys2Proof

/-- The two kinds of byte access MEM_ADMITS distinguishes (R9). -/
inductive AccessKind where
  | read
  | write
  deriving DecidableEq, Repr

/-- A run of `size` addresses from `base` upwards, modulo 2^32, with what the memory accepts there (R9, R92). -/
structure Region where
  base : Word
  size : Nat
  readable : Bool
  writable : Bool
  deriving DecidableEq, Repr

/-- The parameters R9 leaves open: REG_BASE, CHUNK_BYTES and MEM_ADMITS (an address and kind are admitted when some
region says so). Every predicate on the 2^32 addresses can be written as such a list. -/
structure Platform where
  regBase : Word
  chunkBytes : Nat
  regions : List Region
  deriving DecidableEq, Repr

/-- DESIGN CHOICE (log 1), unsafe for statements about `State.reset` alone: the platform `State.reset` is taken on.
CHUNK_BYTES = 4 is the value most vectors of 95_test_vectors.md use; every address outside the window is admitted. -/
def Config.platform : Platform :=
  { regBase := 0xF0000000#32
    chunkBytes := 4
    regions := [{ base := 0#32, size := 4294967296, readable := true, writable := true }] }

/-- The free values (R306, R63, R91, R340): draw number `k` of a run. It has no body, so nothing can be proved of a
value it gives; a narrower free value is its low bits (log 4). -/
opaque Config.freeWord : Nat → Word

end Sys2Proof
end

