-- ==== Sys2Proof/Syntax.lean ====
section
/-! DEFINITION. The instructions: the 23 commands of R113 and the 16 code units of R118 and R119, one constructor per row
of spec/opcode_table.json. -/

namespace Sys2Proof

/-- One constructor per row of the opcode table. `n` is a field width and `s` a shift, both the unsigned integer IMM
(R111); `fmt` is the unsigned integer FLG and `stats` is FLG[0] (R112). Of a code unit, `sign` is the SIGN bit
(true = delta non-negative), `mag` the magnitude (R118) and `raw` the 16 raw bits (R119). -/
inductive Instr where
  | nop
  | softReset
  | accClear
  | accPush (n : Nat)
  | accPop (n : Nat)
  | bitsNeeded
  | bwInit
  | bwWrite (n : Nat)
  | bwClose
  | bwLength
  | brInitFlat
  | brInitStream
  | brRead (n : Nat)
  | stBindMem
  | stBindChunk
  | stGet
  | stGet16
  | compress (s : Nat) (stats : Bool)
  | lexpand (s : Nat)
  | expInit (s : Nat) (fmt : Nat)
  | expExpand
  | expExpand2
  | expDone
  | cuD1 (sign : Bool) (mag : Nat)
  | cuD2 (sign : Bool) (mag : Nat)
  | cuD3 (sign : Bool) (mag : Nat)
  | cuD4 (sign : Bool) (mag : Nat)
  | cuD5 (sign : Bool) (mag : Nat)
  | cuD6 (sign : Bool) (mag : Nat)
  | cuD7 (sign : Bool) (mag : Nat)
  | cuD8 (sign : Bool) (mag : Nat)
  | cuD9 (sign : Bool) (mag : Nat)
  | cuD10 (sign : Bool) (mag : Nat)
  | cuD11 (sign : Bool) (mag : Nat)
  | cuD12 (sign : Bool) (mag : Nat)
  | cuD13 (sign : Bool) (mag : Nat)
  | cuD14 (sign : Bool) (mag : Nat)
  | cuD15 (sign : Bool) (mag : Nat)
  | cuEsc (raw : Nat)
  deriving DecidableEq, Repr

/-- A code unit as the decoder reads it from the bitstream (R120, R240): CODE 0 to 14 with a sign and a magnitude, or
the escape with its raw bits. -/
inductive CodeUnit where
  | normal (code : Nat) (sign : Bool) (mag : Nat)
  | escape (raw : Nat)
  deriving DecidableEq, Repr

end Sys2Proof
end

