-- ==== Sys2Proof/Machine/State.lean ====
section
/-! DEFINITION. The state: every register of R34, the CHUNK buffer (R55), the memory (R80), the running command (R30),
and the model's own fields (plat, host, rdata, draws, raced, unread). Registers are grouped as R294 groups them. -/

namespace Sys2Proof.Machine

/-- Memory as address and byte pairs (R80) in the canonical form of `Memory.wf`. -/
abbrev Memory := List Host.Cell

/-! ## Register groups -/

/-- STATUS.EXP_STATE (R36, R260). The values 4 to 7 never occur. -/
inductive ExpState where
  | unbound
  | idle
  | active
  | done
  deriving DecidableEq, Repr

/-- BR_MODE (R47). The value 3 never occurs. -/
inductive BrMode where
  | none
  | flat
  | stream
  deriving DecidableEq, Repr

/-- ST_KIND (R51). The value 3 never occurs. -/
inductive StKind where
  | none
  | mem
  | chunk
  deriving DecidableEq, Repr

/-- ERR.CAUSE, ERR.OP and ERR_INFO (R37, R38). -/
structure ErrRegs where
  cause : Byte
  op : Byte
  info : Word
  deriving DecidableEq, Repr

/-- ARG0 to ARG3 (R39). -/
structure ArgRegs where
  arg0 : Word
  arg1 : Word
  arg2 : Word
  arg3 : Word
  deriving DecidableEq, Repr

/-- ACC_VAL and ACC_USED (R42, R43). -/
structure AccRegs where
  val : Word
  used : BitVec 6
  deriving DecidableEq, Repr

/-- BW_BASE, BW_CAP, BW_EMITTED, BW_STAGE, BW_USED (R44 to R46). -/
structure PackerRegs where
  base : Word
  cap : Word
  emitted : Word
  stage : Byte
  used : BitVec 4
  deriving DecidableEq, Repr

/-- BR_MODE, BR_BASE, BR_LIMIT, BR_CONSUMED, BR_ACC, BR_USED (R47 to R50). -/
structure UnpackerRegs where
  mode : BrMode
  base : Word
  limit : Word
  consumed : Word
  acc : Byte
  used : BitVec 4
  deriving DecidableEq, Repr

/-- ST_KIND, ST_BASE, ST_SIZE, ST_POS, ST_FILL, ST_IDX (R51 to R54). -/
structure StreamRegs where
  kind : StKind
  base : Word
  size : Word
  pos : Word
  fill : BitVec 17
  idx : BitVec 17
  deriving DecidableEq, Repr

/-- CTX_PREV1 to CTX_PREV3, two's complement (R56). -/
structure ContextRegs where
  prev1 : BitVec 16
  prev2 : BitVec 16
  prev3 : BitVec 16
  deriving DecidableEq, Repr

/-- STATUS.EXP_STATE, EXP_NSAMPLES, EXP_POS, EXP_FORMAT, EXP_SHIFT (R36, R57, R58). -/
structure ExpanderRegs where
  state : ExpState
  nSamples : Word
  pos : Word
  format : BitVec 1
  shift : BitVec 4
  deriving DecidableEq, Repr

/-- REFILL_OFFSET and REFILL_MAX (R59). -/
structure RefillRegs where
  offset : Word
  max : BitVec 17
  deriving DecidableEq, Repr

/-- STAT_HIST[0..15] and STAT_ESC (R61). -/
structure StatRegs where
  hist : Vector Word 16
  esc : Word
  deriving DecidableEq, Repr

/-! ## The running command (R30, R212) -/

/-- Which decoding command runs, with what it latched from its word and ARG2: LEXPAND's shift (R243), EXP_EXPAND
(R265), or EXP_EXPAND2's volume (R266). -/
inductive DecodeCmd where
  | lexpand (shift : Nat)
  | expand
  | expand2 (vol : Word)
  deriving DecidableEq, Repr

/-- A decoding command between two samples: its target address, its sample count and its loop index (R30, R352). -/
structure Frame where
  cmd : DecodeCmd
  target : Word
  n : Word
  i : Word
  deriving DecidableEq, Repr

/-- How far DecodeUnit has read the current code unit (R240): the field it is in, the bits of that field gathered so
far as a number `r`, and how many bits of it are `left`. -/
inductive UnitPhase where
  | code (r left : Nat)
  | sign (code : Nat)
  | mag (code : Nat) (sign : Bool) (r left : Nat)
  | raw (r left : Nat)
  deriving DecidableEq, Repr

/-- A point inside a command at which StreamGet may be held by a refill wait (R211, R212): ST_GET, the first or second
byte of ST_GET16, a byte of BR_READ, a byte of a code unit, or a byte of a format-0 sample. -/
inductive HoldPoint where
  | get
  | get16Lo
  | get16Hi (lo : Byte)
  | read (r left : Nat)
  | unit (f : Frame) (phase : UnitPhase)
  | sampleLo (f : Frame)
  | sampleHi (f : Frame) (lo : Byte)
  deriving DecidableEq, Repr

/-- What the engine is doing. STATUS.BUSY is 1 in every case but `idle`, and STATUS.REFILL_REQ is 1 in `refill`
(R301, R212; log 22). -/
inductive Task where
  /-- No command runs. -/
  | idle
  /-- A word was accepted (R300) and has not run yet. -/
  | issued (w : Word)
  /-- RefillWait holds the engine (R212). -/
  | refill (p : HoldPoint)
  /-- REFILL_COUNT was written with `k` (R213); the engine has not resumed yet. -/
  | answered (k : Word) (p : HoldPoint)
  /-- A decoding command is about to produce its next sample. -/
  | sample (f : Frame)
  deriving DecidableEq, Repr

/-! ## The host side -/

/-- What happens on the host side of the engine (R10, R33, R95, R340), one entry a step. -/
inductive Access where
  /-- A 32-bit write of a host address. -/
  | write (addr : Word) (v : Word)
  /-- A 32-bit read of a host address. -/
  | read (addr : Word)
  /-- A register access `bytes` wide, other than 4 (R33: not admitted). -/
  | otherWidth (addr : Word) (bytes : Nat)
  /-- Another agent stores a byte in memory (R95, R351). -/
  | store (addr : Word) (b : Byte)
  /-- Another agent loads a byte from memory (R95, R351). -/
  | load (addr : Word)
  /-- The platform asserts hardware reset (R340). -/
  | hardwareReset
  /-- No access: the engine's turn. -/
  | engine
  deriving DecidableEq, Repr

/-- What makes bytes that the running command reads or writes unspecified: its buffers overlap (R91, log 13); `touched`,
the addresses other agents store to in the command's window (R351); and `watched`, the addresses other agents access
later, of which the engine keeps the ones it writes in `State.unread` (R351, log 14). -/
structure Races where
  overlap : Bool
  touched : List Word
  watched : List Word
  deriving DecidableEq, Repr

/-- No races. -/
def Races.none : Races := { overlap := false, touched := [], watched := [] }

/-- A run of `size` byte addresses from `base`, modulo 2^32 (R81). -/
structure Span where
  base : Word
  size : Nat
  deriving DecidableEq, Repr

/-! ## Faults and refusals of the model -/

/-- Why the model stops with a fault. The engine's own faults (R302) are no such stop: fault entry is a next state. -/
inductive Fault where
  /-- Raised by a code unit's meaning when no decoding command is between two samples. The spec reads code units only
  inside DecodeUnit (R240), and no step gets there: safe (log 8). -/
  | strayCodeUnit
  deriving DecidableEq, Repr

/-- Why the model refuses a step. -/
inductive Refusal where
  /-- Raised by `exec` for an instruction without a meaning: none is left. Safe. -/
  | notModelled (mnemonic : String)
  /-- Raised for a host register access that is not 32 bits wide or not 4-byte aligned: R33, "a model refuses the host
  step". Safe. -/
  | hostAccess (addr : Word) (bytes : Nat)
  deriving DecidableEq, Repr

/-! ## The state -/

/-- The whole machine. -/
structure State where
  /-- R9: REG_BASE, CHUNK_BYTES, MEM_ADMITS; the model's own field, which no step changes (log 1). -/
  plat : Platform
  /-- STATUS.FAULT (R36). -/
  fault : Bool
  /-- STATUS.LOST (R36). -/
  lost : Bool
  /-- ERR and ERR_INFO (R37, R38). -/
  err : ErrRegs
  /-- ARG0 to ARG3 (R39). -/
  args : ArgRegs
  /-- RESULT (R40). -/
  result : Word
  /-- The scratch accumulator (R42, R43). -/
  acc : AccRegs
  /-- The bit packer, "BW*" of R294. -/
  bw : PackerRegs
  /-- The bit unpacker, "BR*" of R294. -/
  br : UnpackerRegs
  /-- The stream unit, "ST*" of R294. -/
  st : StreamRegs
  /-- The working buffer CHUNK (R55), CHUNK_BYTES bytes long. -/
  chunk : List Byte
  /-- The Context, "CTX" of R294. -/
  ctx : ContextRegs
  /-- The expander (R57, R58) with STATUS.EXP_STATE. -/
  exp : ExpanderRegs
  /-- REFILL_OFFSET and REFILL_MAX (R59). -/
  refill : RefillRegs
  /-- The statistics, "STAT" of R294. -/
  stat : StatRegs
  /-- The running command (R30), with STATUS.BUSY and STATUS.REFILL_REQ. -/
  task : Task
  /-- The memory agent's bytes (R80). -/
  mem : Memory
  /-- The model's own: all the host-side accesses still to come (log 3). -/
  host : List Access
  /-- The model's own: what the last host read or load returned (log 6). -/
  rdata : Word
  /-- The model's own: how many free values have been drawn (log 4). -/
  draws : Nat
  /-- The model's own: what makes bytes of the running command unspecified (R91, R351). -/
  raced : Races
  /-- The model's own: the bytes written by commands for which the host has not yet read STATUS.BUSY = 0, of those that
  other agents access later (R351, log 14). -/
  unread : List Word
  deriving DecidableEq, Repr

/-! ## Reset values (R34, R340) -/

/-- ERR and ERR_INFO after reset. -/
def ErrRegs.zero : ErrRegs := { cause := 0#8, op := 0#8, info := 0#32 }

/-- ARG0 to ARG3 after hardware reset. -/
def ArgRegs.zero : ArgRegs := { arg0 := 0#32, arg1 := 0#32, arg2 := 0#32, arg3 := 0#32 }

/-- The accumulator after reset: empty. -/
def AccRegs.zero : AccRegs := { val := 0#32, used := 0#6 }

/-- The packer after reset. -/
def PackerRegs.zero : PackerRegs := { base := 0#32, cap := 0#32, emitted := 0#32, stage := 0#8, used := 0#4 }

/-- The unpacker after reset: not bound. -/
def UnpackerRegs.zero : UnpackerRegs :=
  { mode := .none, base := 0#32, limit := 0#32, consumed := 0#32, acc := 0#8, used := 0#4 }

/-- The stream unit after reset: not bound. -/
def StreamRegs.zero : StreamRegs :=
  { kind := .none, base := 0#32, size := 0#32, pos := 0#32, fill := 0#17, idx := 0#17 }

/-- The Context after reset, and after CtxClear (R233). -/
def ContextRegs.zero : ContextRegs := { prev1 := 0#16, prev2 := 0#16, prev3 := 0#16 }

/-- The expander after reset: UNBOUND. -/
def ExpanderRegs.zero : ExpanderRegs :=
  { state := .unbound, nSamples := 0#32, pos := 0#32, format := 0#1, shift := 0#4 }

/-- The refill registers after reset. -/
def RefillRegs.zero : RefillRegs := { offset := 0#32, max := 0#17 }

/-- The statistics after reset. -/
def StatRegs.zero : StatRegs := { hist := Vector.replicate 16 0#32, esc := 0#32 }

/-- `n` free bytes, the draws from number `d` on (R340: each CHUNK byte is a free value; log 5). -/
def freeBytes (d : Nat) : Nat → List Byte
  | 0 => []
  | n + 1 => (Config.freeWord d).setWidth 8 :: freeBytes (d + 1) n

/-- The state R340 gives after hardware reset on platform `p`: every register at its reset value, CHUNK free, no
command running. The memory is as power-on leaves it (log 2) and no host access is waiting (log 3). -/
def State.resetOn (p : Platform) : State :=
  { plat := p
    fault := false
    lost := false
    err := .zero
    args := .zero
    result := 0#32
    acc := .zero
    bw := .zero
    br := .zero
    st := .zero
    chunk := freeBytes 0 p.chunkBytes
    ctx := .zero
    exp := .zero
    refill := .zero
    stat := .zero
    task := .idle
    mem := []
    host := []
    rdata := 0#32
    draws := p.chunkBytes
    raced := .none
    unread := [] }

/-- The machine right after hardware reset (R340), on the platform of log 1. -/
def State.reset : State := State.resetOn Config.platform

end Sys2Proof.Machine
end

