-- ==== Sys2Proof/Machine/Flags.lean ====
section
/-! DEFINITION. STATUS and ERR as the host reads them (R36, R37). The engine has no arithmetic flags (R18); these are
all the flags there are. -/

namespace Sys2Proof.Machine

/-- STATUS.BUSY (R36, R301): a command is accepted and has not completed or faulted. -/
def State.busy (s : State) : Bool :=
  match s.task with
  | .idle => false
  | _ => true

/-- STATUS.REFILL_REQ (R36, R212): the engine waits in a refill that has no answer yet. -/
def State.refillReq (s : State) : Bool :=
  match s.task with
  | .refill _ => true
  | _ => false

/-- The code of an expander state in STATUS[6:4] (R36). -/
def ExpState.code (e : ExpState) : Nat :=
  match e with
  | .unbound => 0
  | .idle => 1
  | .active => 2
  | .done => 3

/-- The code of BR_MODE (R47). -/
def BrMode.code (m : BrMode) : Nat :=
  match m with
  | .none => 0
  | .flat => 1
  | .stream => 2

/-- The code of ST_KIND (R51). -/
def StKind.code (k : StKind) : Nat :=
  match k with
  | .none => 0
  | .mem => 1
  | .chunk => 2

/-- The STATUS register (R36): BUSY [0], FAULT [1], REFILL_REQ [2], LOST [3], EXP_STATE [6:4], the rest 0. -/
def State.statusWord (s : State) : Word :=
  BitVec.ofNat 32
    (s.busy.toNat + 2 * s.fault.toNat + 4 * s.refillReq.toNat + 8 * s.lost.toNat + 16 * s.exp.state.code)

/-- The ERR register (R37): CAUSE [7:0], OP [15:8], the rest 0. -/
def State.errWord (s : State) : Word :=
  BitVec.ofNat 32 (s.err.cause.toNat + 256 * s.err.op.toNat)

/-- STATUS.LOST set by a dropped host write (R36, R64, R300). -/
def State.setLost (s : State) : State := { s with lost := true }

/-- A host write of `v` to STATUS: bit 3 = 1 clears LOST, every other bit is ignored (R36). -/
def State.writeStatus (v : Word) (s : State) : State :=
  if v.getLsbD 3 then { s with lost := false } else s

end Sys2Proof.Machine
end

