-- ==== Sys2Proof/Machine/Memory.lean ====
section
/-! DEFINITION. The memory agent (R80, R90): plain bytes by address, kept in one canonical form. -/

namespace Sys2Proof.Machine

/-- What an unlisted address reads as. The spec gives no power-on contents (R340: memory is not touched by reset):
DESIGN CHOICE 0, unsafe (log 2). -/
def Memory.unlisted : Byte := 0#8

/-- The byte at address `a` (R82). -/
def Memory.read : Memory → Nat → Byte
  | [], _ => Memory.unlisted
  | (a, b) :: rest, x => if a = x then b else Memory.read rest x

/-- Stores byte `v` at address `x` (R82), keeping the canonical form. -/
def Memory.write : Memory → Nat → Byte → Memory
  | [], x, v => if v = Memory.unlisted then [] else [(x, v)]
  | (a, b) :: rest, x, v =>
    if x < a then (if v = Memory.unlisted then (a, b) :: rest else (x, v) :: (a, b) :: rest)
    else if x = a then (if v = Memory.unlisted then rest else (x, v) :: rest)
    else (a, b) :: Memory.write rest x v

/-- The canonical form: addresses of the 2^32-byte space (R80), strictly rising, no entry equal to what an unlisted
address reads as. -/
def Memory.wf : Memory → Bool
  | [] => true
  | (a, b) :: rest => a < 4294967296 && b != Memory.unlisted && rest.all (fun c => a < c.1) && Memory.wf rest

end Sys2Proof.Machine
end

