-- ==== Sys2Proof/Machine/Operands.lean ====
section
/-! DEFINITION. The operand forms of the commands: widths and values (R111, R143, R164), shifts and quantised samples
(R234), 16-bit samples (R13, R15), the remaining count of a session (R265), and buffer regions (R91, R351). -/

namespace Sys2Proof.Machine

/-- `sext_16` of a 16-bit field given as a natural number (R13). -/
def sext16 (v : Nat) : Int := (BitVec.ofNat 16 v).toInt

/-- `asr(v, s) = floor(v / 2^s)` (R13, R234). -/
def asr (v : Int) (s : Nat) : Int := v / 2 ^ s

/-- `v mod 2^n` of an exact integer as an unsigned field (R13, R265, R266). -/
def lowBits (n : Nat) (v : Int) : Nat := (v % 2 ^ n).toNat

/-- `BitsNeeded(v) = max(1, bitlength(v))` (R141). -/
def bitsNeededOf (v : Nat) : Nat := max 1 (if v = 0 then 0 else Nat.log2 v + 1)

/-- The value check of ACC_PUSH and BW_WRITE: `v` fits in `n` bits (R143, R164; a 32-bit `v` always fits 32). -/
def fitsWidth (v : Word) (n : Nat) : Bool := v.toNat < 2 ^ n

/-- `remaining`: the samples the session still has, 0 while UNBOUND (R260, R265). -/
def State.remaining (s : State) : Nat :=
  match s.exp.state with
  | .unbound => 0
  | _ => s.exp.nSamples.toNat - s.exp.pos.toNat

/-- The span holds address `a` (R81). -/
def Span.has (r : Span) (a : Word) : Bool := (a - r.base).toNat < r.size

/-- Two spans share a byte (R91). -/
def Span.meets (r t : Span) : Bool := 0 < r.size && 0 < t.size && (r.has t.base || t.has r.base)

/-- No bytes. -/
def Span.empty : Span := { base := 0#32, size := 0 }

end Sys2Proof.Machine
end

