-- ==== Sys2Proof/Machine/Ops.lean ====
section
/-! DEFINITION. The shared operations: results of a procedure that may raise or hold, the memory port (R82, R83), free
values (R306), fault entry (R306) and fault exit (R291), completion (R301). -/

namespace Sys2Proof.Machine

/-! ## Causes and results -/

/-- The fault causes (R302). -/
inductive Cause where
  | bufferOverflow
  | streamExhausted
  | outOfBounds
  | sampleRange
  | illegalCommand
  | refillOverrun
  | busError
  deriving DecidableEq, Repr

/-- The cause code held in ERR.CAUSE (R302). -/
def Cause.code (c : Cause) : Byte :=
  match c with
  | .bufferOverflow => 1#8
  | .streamExhausted => 2#8
  | .outOfBounds => 3#8
  | .sampleRange => 4#8
  | .illegalCommand => 5#8
  | .refillOverrun => 6#8
  | .busError => 7#8

/-- What a procedure of the pseudocode does (R16): it returns a value, raises a cause with its ERR_INFO value, or is
held at a point by a refill wait (R212). The state is the one reached there. -/
inductive Res (α : Type) where
  | ok (a : α) (s : State)
  | raise (c : Cause) (info : Word) (s : State)
  | hold (p : HoldPoint) (s : State)

/-- Runs `k` on what `r` returns; nothing after a raise or a hold happens (R16). -/
def Res.bind {α β : Type} (r : Res α) (k : α → State → Res β) : Res β :=
  match r with
  | .ok a s => k a s
  | .raise c info s => .raise c info s
  | .hold p s => .hold p s

/-- ERR_INFO of a fault inside the iteration `i` of a command's loop: the refused address for BusError, the index for
every other cause (R305). -/
def Res.indexed {α : Type} (i : Word) (r : Res α) : Res α :=
  match r with
  | .ok a s => .ok a s
  | .raise c info s => .raise c (if c = .busError then info else i) s
  | .hold p s => .hold p s

/-! ## Free values -/

/-- The free value `k` draws after the ones already used (log 4). -/
def State.free (s : State) (k : Nat) : Word := Config.freeWord (s.draws + k)

/-- `k` free values have been used. -/
def State.drawn (k : Nat) (s : State) : State := { s with draws := s.draws + k }

/-! ## The memory port -/

/-- The register window's size in bytes: the CHUNK window ends it (R34). -/
def windowBytes (p : Platform) : Nat := 4096 + 4 * ((p.chunkBytes + 3) / 4)

/-- Address `a` lies in the register window (R33, R80). -/
def inWindow (p : Platform) (a : Word) : Bool := (a - p.regBase).toNat < windowBytes p

/-- MEM_ADMITS(a, k) (R9, R82): some region of the platform accepts the access, and never on the register window (R80;
log 15). -/
def memAdmits (p : Platform) (a : Word) (k : AccessKind) : Bool :=
  !inWindow p a &&
    p.regions.any fun r =>
      (Span.mk r.base r.size).has a &&
        (match k with
         | .read => r.readable
         | .write => r.writable)

/-- The races of a command whose buffers overlap if `b` (R91). -/
def Races.overlapped (b : Bool) (r : Races) : Races := { r with overlap := r.overlap || b }

/-- The running command's byte at `a` is unspecified (R91, R351). -/
def Races.spoils (a : Word) (r : Races) : Bool := r.overlap || r.touched.contains a

/-- The bytes not to be touched before BUSY = 0 is read, once the engine has written the one at `a` (R351). -/
def State.noteWritten (a : Word) (s : State) : List Word :=
  if s.raced.watched.contains a then a :: s.unread else s.unread

/-- A byte read at `a` (R82). A byte that a race spoils is read as a free value (R91, R351); what the command derives from
it is computed from that value (log 14). -/
def readByte (a : Word) (s : State) : Res Byte :=
  if memAdmits s.plat a .read then
    if s.raced.spoils a then .ok ((s.free 0).setWidth 8) (s.drawn 1) else .ok (s.mem.read a.toNat) s
  else .raise .busError a s

/-- A byte write of `b` at `a` (R82). Where a race spoils the byte, the one stored is a free value (R91, R351). -/
def writeByte (a : Word) (b : Byte) (s : State) : Res Unit :=
  if memAdmits s.plat a .write then
    if s.raced.spoils a then
      .ok () ({ s with mem := s.mem.write a.toNat ((s.free 0).setWidth 8), unread := s.noteWritten a }.drawn 1)
    else .ok () { s with mem := s.mem.write a.toNat b, unread := s.noteWritten a }
  else .raise .busError a s

/-- `MemRead(a, 2)` (R15, R83): little-endian, the low byte first. -/
def memRead16 (a : Word) (s : State) : Res Nat :=
  (readByte a s).bind fun lo s =>
    (readByte (a + 1#32) s).bind fun hi s => .ok (lo.toNat + 256 * hi.toNat) s

/-- `MemWrite(a, n, v)` (R15, R83): the low `n` bytes of `v` at ascending addresses, little-endian. -/
def memWrite : Nat → Word → Nat → State → Res Unit
  | 0, _, _, s => .ok () s
  | n + 1, a, v, s =>
    (writeByte a (BitVec.ofNat 8 v) s).bind fun _ s => memWrite n (a + 1#32) (v / 256) s

/-! ## Completion, fault entry and fault exit -/

/-- Completion (R300, R301): BUSY returns to 0. -/
def State.finish (s : State) : State := { s with task := .idle, raced := .none }

/-- RESULT takes `v` (R40). -/
def State.setResult (v : Word) (s : State) : State := { s with result := v }

/-- RESULT takes the value a command over buffers returns; a free value if the buffers overlap (R91). -/
def State.setReturned (v : Word) (s : State) : State :=
  if s.raced.overlap then { s with result := s.free 0 }.drawn 1 else { s with result := v }

/-- `InvalidateSession()` (R262): EXP_STATE becomes UNBOUND, nothing else changes. -/
def State.invalidateSession (s : State) : State := { s with exp := { s.exp with state := .unbound } }

/-- Fault entry (R306): ERR, ERR_INFO, FAULT, EXP_STATE; BUSY and REFILL_REQ return to 0. `op` is bits [7:0] of the
command word. -/
def faultEntry (c : Cause) (op : Nat) (info : Word) (s : State) : State :=
  { s with
    err := { cause := c.code, op := BitVec.ofNat 8 op, info := info }
    fault := true
    exp := { s.exp with state := .unbound }
    task := .idle
    raced := .none }

/-- Fault exit, and every other effect of SOFT_RESET (R291, R320, R341): all registers take their reset values but
ARG0 to ARG3; CHUNK and memory are kept. -/
def softResetState (s : State) : State :=
  { s with
    fault := false
    lost := false
    err := .zero
    result := 0#32
    acc := .zero
    bw := .zero
    br := .zero
    st := .zero
    ctx := .zero
    exp := .zero
    refill := .zero
    stat := .zero
    task := .idle
    raced := .none }

/-- The end of a command (R300, R306, R212): `done` on what it returns; fault entry after `spoil`, which gives the
command's write set free values (R306 (b)); or the refill wait. A fault that no argument check raised frees the write
set even where nothing had changed, and memory keeps what was stored before it (DEDUCED, log 11, log 12). -/
def conclude {α : Type} (op : Nat) (spoil : State → State) (done : α → State → State) (r : Res α) : State :=
  match r with
  | .ok a s => done a s
  | .raise c info s => faultEntry c op info (spoil s)
  | .hold p s => { s with task := .refill p }

/-! ## Write sets after a fault (R306 (b), R294): a free value of its width for each register -/

/-- RESULT. -/
def spoilResult (s : State) : State := { s with result := s.free 0 }.drawn 1

/-- BW_EMITTED, BW_STAGE, BW_USED. -/
def spoilPackerFill (s : State) : State :=
  { s with bw := { s.bw with
      emitted := s.free 0
      stage := (s.free 1).setWidth 8
      used := (s.free 2).setWidth 4 } }.drawn 3

/-- "BW*": the whole packer. -/
def spoilPacker (s : State) : State :=
  spoilPackerFill ({ s with bw := { s.bw with base := s.free 0, cap := s.free 1 } }.drawn 2)

/-- BR_CONSUMED, BR_ACC, BR_USED. -/
def spoilUnpackerFill (s : State) : State :=
  { s with br := { s.br with
      consumed := s.free 0
      acc := (s.free 1).setWidth 8
      used := (s.free 2).setWidth 4 } }.drawn 3

/-- A free one of the three values BR_MODE can have (R47: 3 never occurs; log 17). -/
def BrMode.ofFree (w : Word) : BrMode :=
  match w.toNat % 3 with
  | 0 => .none
  | 1 => .flat
  | _ => .stream

/-- "BR*": the whole unpacker. -/
def spoilUnpacker (s : State) : State :=
  spoilUnpackerFill
    ({ s with br := { s.br with mode := .ofFree (s.free 0), base := s.free 1, limit := s.free 2 } }.drawn 3)

/-- ST_POS, ST_FILL, ST_IDX and "refill": REFILL_OFFSET, REFILL_MAX. REFILL_REQ and CHUNK are fault entry's own
matter (R306). -/
def spoilStreamFill (s : State) : State :=
  { s with
    st := { s.st with pos := s.free 0, fill := (s.free 1).setWidth 17, idx := (s.free 2).setWidth 17 }
    refill := { offset := s.free 3, max := (s.free 4).setWidth 17 } }.drawn 5

/-- "CTX": the Context. -/
def spoilContext (s : State) : State :=
  { s with ctx :=
      { prev1 := (s.free 0).setWidth 16
        prev2 := (s.free 1).setWidth 16
        prev3 := (s.free 2).setWidth 16 } }.drawn 3

/-- "STAT": the statistics. -/
def spoilStat (s : State) : State :=
  { s with stat := { hist := Vector.ofFn fun k => s.free k.val, esc := s.free 16 } }.drawn 17

/-- EXP_POS. -/
def spoilExpPos (s : State) : State := { s with exp := { s.exp with pos := s.free 0 } }.drawn 1

end Sys2Proof.Machine
end

