-- ==== Sys2Proof/Machine/Accumulator.lean ====
section
/-! DEFINITION. Bit accumulator commands (40_bit_accumulator.md): a first-in, first-out queue of at most 32 bits (R140). -/

namespace Sys2Proof.Machine

/-- ACC_CLEAR (R142). -/
def execAccClear (s : State) : Host.Outcome State Fault Refusal := .next { s with acc := .zero }.finish

/-- The accumulator after `n` bits of `v` were appended at the tail (R143; outside R62's invariants the low bits are
kept, log 23). -/
def AccRegs.push (n : Nat) (v : Word) (a : AccRegs) : AccRegs :=
  { val := BitVec.ofNat 32 (a.val.toNat * 2 ^ n + v.toNat), used := BitVec.ofNat 6 (a.used.toNat + n) }

/-- ACC_PUSH n (R143): the three checks in order, then the append. -/
def execAccPush (n : Nat) (s : State) : Host.Outcome State Fault Refusal :=
  if 32 < n then .next (faultEntry .outOfBounds 0x11 0#32 s)
  else if 32 < s.acc.used.toNat + n then .next (faultEntry .outOfBounds 0x11 0#32 s)
  else if n < 32 ∧ ¬ fitsWidth s.args.arg0 n then .next (faultEntry .outOfBounds 0x11 0#32 s)
  else .next { s with acc := s.acc.push n s.args.arg0 }.finish

/-- The oldest `n` pending bits, oldest as the most significant (R144). -/
def AccRegs.head (n : Nat) (a : AccRegs) : Word := BitVec.ofNat 32 (a.val.toNat / 2 ^ (a.used.toNat - n))

/-- The accumulator after its oldest `n` bits were removed (R144). -/
def AccRegs.pop (n : Nat) (a : AccRegs) : AccRegs :=
  { val := BitVec.ofNat 32 (a.val.toNat % 2 ^ (a.used.toNat - n)), used := BitVec.ofNat 6 (a.used.toNat - n) }

/-- ACC_POP n (R144): the two checks in order, then RESULT and the removal. -/
def execAccPop (n : Nat) (s : State) : Host.Outcome State Fault Refusal :=
  if 32 < n then .next (faultEntry .outOfBounds 0x12 0#32 s)
  else if s.acc.used.toNat < n then .next (faultEntry .outOfBounds 0x12 0#32 s)
  else .next ({ s with acc := s.acc.pop n }.setResult (s.acc.head n)).finish

/-- BITS_NEEDED (R145). -/
def execBitsNeeded (s : State) : Host.Outcome State Fault Refusal :=
  .next (s.setResult (BitVec.ofNat 32 (bitsNeededOf s.args.arg0.toNat))).finish

end Sys2Proof.Machine
end

