-- ==== Sys2Proof/Machine/Packer.lean ====
section
/-! DEFINITION. The bit packer (41_bit_packer.md): Emit, PackBits, and BW_INIT, BW_WRITE, BW_CLOSE, BW_LENGTH. -/

namespace Sys2Proof.Machine

/-! ## Shared procedures -/

/-- The packer bound to a destination, empty (R161, R238). -/
def PackerRegs.bound (dst cap : Word) : PackerRegs :=
  { base := dst, cap := cap, emitted := 0#32, stage := 0#8, used := 0#4 }

/-- `Emit(b)` (R162): the overflow check precedes the byte write (R308). -/
def emit (b : Byte) (s : State) : Res Unit :=
  if s.bw.emitted = s.bw.cap then .raise .bufferOverflow 0#32 s
  else
    (writeByte (s.bw.base + s.bw.emitted) b s).bind fun _ s =>
      .ok () { s with bw := { s.bw with emitted := s.bw.emitted + 1#32 } }

/-- One bit into the stage; a full stage is emitted (the loop body of R163). -/
def packBit (bit : Bool) (s : State) : Res Unit :=
  let stage := BitVec.ofNat 8 (s.bw.stage.toNat * 2 + bit.toNat)
  let used := s.bw.used + 1#4
  let s := { s with bw := { s.bw with stage := stage, used := used } }
  if used = 8#4 then
    (emit stage s).bind fun _ s => .ok () { s with bw := { s.bw with stage := 0#8, used := 0#4 } }
  else .ok () s

/-- `PackBits(v, n)` (R163): the `n` low bits of `v`, most significant first. -/
def packBits (v : Nat) : Nat → State → Res Unit
  | 0, s => .ok () s
  | j + 1, s => (packBit (v.testBit j) s).bind fun _ s => packBits v j s

/-- The flush of a pending partial byte, zero bits below it (R165, R238). -/
def flushPacker (s : State) : Res Unit :=
  if s.bw.used = 0#4 then .ok () s
  else
    (emit (BitVec.ofNat 8 (s.bw.stage.toNat * 2 ^ (8 - s.bw.used.toNat))) s).bind fun _ s =>
      .ok () { s with bw := { s.bw with stage := 0#8, used := 0#4 } }

/-! ## Commands -/

/-- BW_INIT (R161). -/
def execBwInit (s : State) : Host.Outcome State Fault Refusal :=
  .next { s with bw := .bound s.args.arg0 s.args.arg1 }.finish

/-- BW_WRITE n (R164): the checks before any change, then PackBits. -/
def execBwWrite (n : Nat) (s : State) : Host.Outcome State Fault Refusal :=
  if 32 < n then .next (faultEntry .outOfBounds 0x21 0#32 s)
  else if n < 32 ∧ ¬ fitsWidth s.args.arg0 n then .next (faultEntry .outOfBounds 0x21 0#32 s)
  else .next (conclude 0x21 spoilPackerFill (fun _ s => s.finish) (packBits s.args.arg0.toNat n s))

/-- BW_CLOSE (R165). -/
def execBwClose (s : State) : Host.Outcome State Fault Refusal :=
  .next (conclude 0x22 (fun s => spoilResult (spoilPackerFill s)) (fun _ s => (s.setResult s.bw.emitted).finish)
    (flushPacker s))

/-- BW_LENGTH (R166). A length of 2^32 has no 32-bit value and the spec states none: free (log 16). -/
def execBwLength (s : State) : Host.Outcome State Fault Refusal :=
  let length := s.bw.emitted.toNat + (if s.bw.used = 0#4 then 0 else 1)
  if length < 4294967296 then .next (s.setResult (BitVec.ofNat 32 length)).finish
  else .next (spoilResult s).finish

end Sys2Proof.Machine
end

