-- ==== Sys2Proof/Machine/Stream.lean ====
section
/-! DEFINITION. The stream unit (43_stream.md): StreamGet and its refill, StreamGet16, and ST_BIND_MEM, ST_BIND_CHUNK,
ST_GET, ST_GET16. -/

namespace Sys2Proof.Machine

/-! ## Shared procedures -/

/-- The next byte of a working buffer that holds one (R211): ST_IDX and ST_POS advance. -/
def chunkTake (s : State) : Res Byte :=
  .ok (s.chunk.getD s.st.idx.toNat 0#8)
    { s with st := { s.st with idx := s.st.idx + 1#17, pos := s.st.pos + 1#32 } }

/-- `min(CHUNK_BYTES, ST_SIZE − ST_POS)`: the largest refill R211 asks for. -/
def refillMax (s : State) : Nat := min s.plat.chunkBytes (s.st.size.toNat - s.st.pos.toNat)

/-- `StreamGet()` (R211), called from the point `p`: when the working buffer is exhausted it requests a refill and is
held there (R212). -/
def streamGet (p : HoldPoint) (s : State) : Res Byte :=
  match s.st.kind with
  | .none => .raise .streamExhausted 0#32 s
  | .mem =>
    if s.st.pos = s.st.size then .raise .streamExhausted 0#32 s
    else
      (readByte (s.st.base + s.st.pos) s).bind fun b s =>
        .ok b { s with st := { s.st with pos := s.st.pos + 1#32 } }
  | .chunk =>
    if s.st.pos = s.st.size then .raise .streamExhausted 0#32 s
    else if s.st.idx = s.st.fill then
      .hold p { s with refill := { offset := s.st.pos, max := BitVec.ofNat 17 (refillMax s) } }
    else chunkTake s

/-- The rest of StreamGet once the refill was answered with `k` (R212, R211): an overrun, the end of the medium, or
the first byte of the new chunk. -/
def streamResume (k : Word) (s : State) : Res Byte :=
  if s.refill.max.toNat < k.toNat then .raise .refillOverrun 0#32 s
  else if k = 0#32 then .raise .streamExhausted 0#32 s
  else chunkTake { s with st := { s.st with fill := k.setWidth 17, idx := 0#17 } }

/-- The value StreamGet16 returns (R214). -/
def get16Value (lo hi : Byte) : Nat := lo.toNat + 256 * hi.toNat

/-! ## Commands -/

/-- ST_BIND_MEM (R201). -/
def execStBindMem (s : State) : Host.Outcome State Fault Refusal :=
  .next { s.invalidateSession with
    st := { kind := .mem, base := s.args.arg0, size := s.args.arg1, pos := 0#32, fill := 0#17, idx := 0#17 } }.finish

/-- ST_BIND_CHUNK (R202). -/
def execStBindChunk (s : State) : Host.Outcome State Fault Refusal :=
  .next { s.invalidateSession with
    st := { kind := .chunk, base := 0#32, size := s.args.arg1, pos := 0#32, fill := 0#17, idx := 0#17 } }.finish

/-- The write set of ST_GET and ST_GET16 after a fault (R294, R306). -/
def spoilGet (s : State) : State := spoilResult (spoilStreamFill s)

/-- The end of ST_GET: RESULT is the byte, zero-extended (R215). -/
def endGet (r : Res Byte) : State :=
  conclude 0x42 spoilGet (fun b s => (s.setResult (BitVec.ofNat 32 b.toNat)).finish) r

/-- ST_GET (R215). -/
def execStGet (s : State) : Host.Outcome State Fault Refusal := .next (endGet (streamGet .get s))

/-- The end of ST_GET16: RESULT is the 16-bit value, zero-extended (R216). -/
def endGet16 (r : Res Nat) : State :=
  conclude 0x43 spoilGet (fun v s => (s.setResult (BitVec.ofNat 32 v)).finish) r

/-- ST_GET16 from its second byte on (R214). -/
def get16Second (lo : Byte) (s : State) : Res Nat :=
  (streamGet (.get16Hi lo) s).bind fun hi s => .ok (get16Value lo hi) s

/-- ST_GET16 (R216). -/
def execStGet16 (s : State) : Host.Outcome State Fault Refusal :=
  .next (endGet16 ((streamGet .get16Lo s).bind get16Second))

end Sys2Proof.Machine
end

