-- ==== Sys2Proof/Machine/Unpacker.lean ====
section
/-! DEFINITION. The bit unpacker (42_bit_unpacker.md): BrFetch, UnpackBits, and BR_INIT_FLAT, BR_INIT_STREAM, BR_READ. -/

namespace Sys2Proof.Machine

/-! ## Shared procedures -/

/-- The unpacker bound to a byte source, empty (R181, R184, R243, R263). -/
def UnpackerRegs.bound (mode : BrMode) (base limit : Word) : UnpackerRegs :=
  { mode := mode, base := base, limit := limit, consumed := 0#32, acc := 0#8, used := 0#4 }

/-- BR_CONSUMED counts one more byte (R182). In STREAM mode the count can pass 2^32 − 1, for which the spec states no
value: free (log 16). -/
def countFetch (s : State) : State :=
  if s.br.consumed = 0xFFFFFFFF#32 then { s with br := { s.br with consumed := s.free 0 } }.drawn 1
  else { s with br := { s.br with consumed := s.br.consumed + 1#32 } }

/-- What BrFetch and UnpackBits do with a fetched byte: count it and hold its eight bits (R182, R183). -/
def loadByte (b : Byte) (s : State) : State :=
  let s := countFetch s
  { s with br := { s.br with acc := b, used := 8#4 } }

/-- `BrFetch()` up to the byte's arrival (R182), called from the point `p`. -/
def brFetch (p : HoldPoint) (s : State) : Res Byte :=
  match s.br.mode with
  | .flat =>
    if s.br.consumed = s.br.limit then .raise .streamExhausted 0#32 s
    else readByte (s.br.base + s.br.consumed) s
  | .stream => streamGet p s
  | .none => .raise .streamExhausted 0#32 s

/-- A byte is fetched only when a bit is needed and none is held (R183). -/
def needBit (p : HoldPoint) (s : State) : Res Unit :=
  if s.br.used = 0#4 then (brFetch p s).bind fun b s => .ok () (loadByte b s) else .ok () s

/-- The next bit held: `BR_ACC[BR_USED − 1]` (R183). -/
def headBit (s : State) : Bool := s.br.acc.getLsbD (s.br.used.toNat - 1)

/-- The accumulator after its next bit was read (R183). -/
def dropBit (s : State) : State :=
  { s with br := { s.br with
      used := s.br.used - 1#4
      acc := BitVec.ofNat 8 (s.br.acc.toNat % 2 ^ (s.br.used.toNat - 1)) } }

/-- `UnpackBits` with `left` bits still to read and the bits read so far in `r` (R183); `point r left` is where it may
be held. -/
def unpackFrom (point : Nat → Nat → HoldPoint) : Nat → Nat → State → Res Nat
  | 0, r, s => .ok r s
  | left + 1, r, s =>
    (needBit (point r (left + 1)) s).bind fun _ s =>
      unpackFrom point left (2 * r + (headBit s).toNat) (dropBit s)

/-! ## Commands -/

/-- BR_INIT_FLAT (R181). -/
def execBrInitFlat (s : State) : Host.Outcome State Fault Refusal :=
  .next { s.invalidateSession with br := .bound .flat s.args.arg0 s.args.arg1 }.finish

/-- BR_INIT_STREAM (R184). -/
def execBrInitStream (s : State) : Host.Outcome State Fault Refusal :=
  .next { s.invalidateSession with br := .bound .stream 0#32 0#32 }.finish

/-- The write set of BR_READ after a fault: the stream's part only in STREAM mode (R294, R306). -/
def spoilRead (s : State) : State :=
  match s.br.mode with
  | .stream => spoilResult (spoilStreamFill (spoilUnpackerFill s))
  | _ => spoilResult (spoilUnpackerFill s)

/-- The end of BR_READ: RESULT is the bits read, zero-extended (R185). -/
def endRead (r : Res Nat) : State :=
  conclude 0x32 spoilRead (fun v s => (s.setResult (BitVec.ofNat 32 v)).finish) r

/-- BR_READ n (R185). -/
def execBrRead (n : Nat) (s : State) : Host.Outcome State Fault Refusal :=
  if 32 < n then .next (faultEntry .outOfBounds 0x32 0#32 s)
  else .next (endRead (unpackFrom .read n 0 s))

end Sys2Proof.Machine
end

