-- ==== Sys2Proof/Machine/Predictor.lean ====
section
/-! DEFINITION. The predictor and the code unit in both directions (R230 to R242): Guess, CtxPush, EncodeUnit, and
DecodeUnit split into reading a unit and executing it. -/

namespace Sys2Proof.Machine

/-- `Guess()` (R231), in exact signed arithmetic (R235). -/
def ContextRegs.guess (c : ContextRegs) : Int := 3 * c.prev1.toInt - 3 * c.prev2.toInt + c.prev3.toInt

/-- `CtxPush(x)` (R232). -/
def ContextRegs.push (x : Int) (c : ContextRegs) : ContextRegs :=
  { prev1 := BitVec.ofInt 16 x, prev2 := c.prev1, prev3 := c.prev2 }

/-! ## Encoding a sample -/

/-- The bits of one sample's code unit through the packer (R236): a normal unit when BitsNeeded(|delta|) is at most
15, else the escape unit. -/
def packUnit (x : Int) (s : State) : Res Unit :=
  let delta := x - s.ctx.guess
  let w := bitsNeededOf delta.natAbs
  if w ≤ 15 then
    (packBits (w - 1) 4 s).bind fun _ s =>
      (packBits (if 0 ≤ delta then 1 else 0) 1 s).bind fun _ s => packBits delta.natAbs w s
  else (packBits 15 4 s).bind fun _ s => packBits (lowBits 16 x) 16 s

/-- The 4-bit code EncodeUnit uses and returns (R236). -/
def unitCode (x : Int) (c : ContextRegs) : Nat :=
  let w := bitsNeededOf (x - c.guess).natAbs
  if w ≤ 15 then w - 1 else 15

/-- `EncodeUnit(x)` (R236). -/
def encodeUnit (x : Int) (s : State) : Res Nat :=
  let code := unitCode x s.ctx
  (packUnit x s).bind fun _ s => .ok code { s with ctx := s.ctx.push x }

/-! ## Decoding a sample -/

/-- Reads a code unit's magnitude or its rest (R240). -/
def readMag (f : Frame) (code : Nat) (sign : Bool) (r left : Nat) (s : State) : Res CodeUnit :=
  (unpackFrom (fun r left => .unit f (.mag code sign r left)) left r s).bind fun mag s =>
    .ok (.normal code sign mag) s

/-- Reads a code unit from its sign bit on (R240). -/
def readSign (f : Frame) (code : Nat) (s : State) : Res CodeUnit :=
  (unpackFrom (fun _ _ => .unit f (.sign code)) 1 0 s).bind fun sign s =>
    readMag f code (sign == 1) 0 (code + 1) s

/-- Reads an escape unit's raw bits or their rest (R240). -/
def readRaw (f : Frame) (r left : Nat) (s : State) : Res CodeUnit :=
  (unpackFrom (fun r left => .unit f (.raw r left)) left r s).bind fun raw s => .ok (.escape raw) s

/-- Reads a code unit's CODE or its rest, then what follows it (R240). -/
def readCode (f : Frame) (r left : Nat) (s : State) : Res CodeUnit :=
  (unpackFrom (fun r left => .unit f (.code r left)) left r s).bind fun code s =>
    if code = 15 then readRaw f 0 16 s else readSign f code s

/-- Reads the current code unit of frame `f` from phase `phase` on (R240). -/
def readUnitFrom (f : Frame) (phase : UnitPhase) (s : State) : Res CodeUnit :=
  match phase with
  | .code r left => readCode f r left s
  | .sign code => readSign f code s
  | .mag code sign r left => readMag f code sign r left s
  | .raw r left => readRaw f r left s

/-- Reads the next code unit of frame `f` (R240). -/
def readUnit (f : Frame) (s : State) : Res CodeUnit := readUnitFrom f (.code 0 4) s

/-- The quantised sample of a normal unit (R240): the guess plus or minus the magnitude. -/
def normalSample (sign : Bool) (mag : Nat) (c : ContextRegs) : Int :=
  if sign then c.guess + mag else c.guess - mag

/-- The quantised sample of an escape unit (R240): its raw bits as two's complement. -/
def escapeSample (raw : Nat) : Int := sext16 raw

/-- The quantised sample of a code unit (R240). -/
def unitSample (u : CodeUnit) (c : ContextRegs) : Int :=
  match u with
  | .normal _ sign mag => normalSample sign mag c
  | .escape raw => escapeSample raw

/-- A quantised sample that a shift of `sh` reconstructs to 16 bits (R241). -/
def inSampleRange (x : Int) (sh : Nat) : Bool := -(2 ^ (15 - sh)) ≤ x && x ≤ 2 ^ (15 - sh) - 1

/-! ## The decoding commands' loop body (R243, R265, R266) -/

/-- The shift of the running command (R243, R264). -/
def Frame.shift (f : Frame) (s : State) : Nat :=
  match f.cmd with
  | .lexpand shift => shift
  | _ => s.exp.shift.toNat

/-- The opcode of the running command (R113). -/
def Frame.op (f : Frame) : Nat :=
  match f.cmd with
  | .lexpand _ => 0x51
  | .expand => 0x61
  | .expand2 _ => 0x62

/-- The bytes one sample takes at the target (R88). -/
def Frame.stride (f : Frame) : Nat :=
  match f.cmd with
  | .expand2 _ => 8
  | _ => 2

/-- The address of the current sample's output: ARG3 + 2i, t + 2i or t + 8i (R243, R265, R266). -/
def Frame.address (f : Frame) : Word := f.target + BitVec.ofNat 32 (f.stride * f.i.toNat)

/-- The write set after a fault in the loop (R294, R306): LEXPAND's, or EXP_EXPAND's and EXP_EXPAND2's. -/
def spoilDecode (f : Frame) (s : State) : State :=
  match f.cmd with
  | .lexpand _ => spoilResult (spoilUnpacker (spoilContext s))
  | _ => spoilResult (spoilStreamFill (spoilUnpackerFill (spoilContext (spoilExpPos s))))

/-- EXP_POS and EXP_STATE after a sample was produced (R261, R265). -/
def ExpanderRegs.advance (e : ExpanderRegs) : ExpanderRegs :=
  { e with
    pos := e.pos + 1#32
    state := if e.pos + 1#32 = e.nSamples then .done else .active }

/-- The output of a reconstructed sample `y` (R243, R265, R266), and the session's advance. -/
def writeSample (y : Int) (f : Frame) (s : State) : Res Unit :=
  match f.cmd with
  | .lexpand _ => memWrite 2 f.address (lowBits 16 y) s
  | .expand =>
    (memWrite 2 f.address (lowBits 16 y) s).bind fun _ s => .ok () { s with exp := s.exp.advance }
  | .expand2 vol =>
    let p := lowBits 32 (y * vol.toNat)
    (memWrite 4 f.address p s).bind fun _ s =>
      (memWrite 4 (f.address + 4#32) p s).bind fun _ s => .ok () { s with exp := s.exp.advance }

/-- The part of DecodeUnit after the bits were read (R240, R241): the range check before any change, the Context's
advance, then the output of `x << shift`. -/
def acceptSample (x : Int) (f : Frame) (s : State) : Res Unit :=
  if inSampleRange x (f.shift s) then
    writeSample (x * 2 ^ f.shift s) f { s with ctx := s.ctx.push x }
  else .raise .sampleRange 0#32 s

/-- Completion of a decoding command (R243, R265, R266): RESULT is BR_CONSUMED or EXP_POS. -/
def completeDecode (f : Frame) (s : State) : State :=
  match f.cmd with
  | .lexpand _ => (s.setReturned s.br.consumed).finish
  | _ => (s.setReturned s.exp.pos).finish

/-- Between two samples (R30): the loop goes on, or the command completes. -/
def beginSample (f : Frame) (s : State) : State :=
  if f.i = f.n then completeDecode f s else { s with task := .sample f }

/-- The loop's next iteration after sample `i`. -/
def nextSample (f : Frame) (s : State) : State := beginSample { f with i := f.i + 1#32 } s

/-- A sample of frame `f` is a raw 16-bit value of a format-0 session (R264). -/
def Frame.isRaw (f : Frame) (s : State) : Bool :=
  match f.cmd with
  | .lexpand _ => false
  | _ => s.exp.format == 0#1

/-- The end of one iteration of the loop: the next one, or the fault with its index (R305). -/
def endSample (f : Frame) (r : Res Unit) : State :=
  conclude f.op (spoilDecode f) (fun _ s => nextSample f s) (r.indexed f.i)

/-- Executes a quantised sample `x` that a code unit gave, in the loop of frame `f` (R240, R243, R265, R266). -/
def runSample (x : Int) (f : Frame) (s : State) : State := endSample f (acceptSample x f s)

/-- A format-0 sample from its second byte on (R264, R214). -/
def rawSampleSecond (f : Frame) (lo : Byte) (s : State) : Res Unit :=
  (streamGet (.sampleHi f lo) s).bind fun hi s => writeSample (sext16 (get16Value lo hi)) f s

/-- A format-0 sample (R264): no prediction, no shift. -/
def rawSample (f : Frame) (s : State) : Res Unit :=
  (streamGet (.sampleLo f) s).bind fun lo s => rawSampleSecond f lo s

/-- The end of reading a code unit in the loop of frame `f`. -/
def endUnit (f : Frame) (done : CodeUnit → State → State) (r : Res CodeUnit) : State :=
  conclude f.op (spoilDecode f) done (r.indexed f.i)

/-- One iteration of the loop (R243, R265, R266): read a code unit and execute it, or take a raw sample. -/
def sampleStep (f : Frame) (s : State) : State :=
  if f.isRaw s then endSample f (rawSample f s)
  else endUnit f (fun u s => runSample (unitSample u s.ctx) f s) (readUnit f s)

/-- Up to `k` iterations of the loop, while the command is between two samples. -/
def runSamples : Nat → State → State
  | 0, s => s
  | k + 1, s =>
    match s.task with
    | .sample f => runSamples k (sampleStep f s)
    | _ => s

/-- A decoding command's loop from its first sample on, up to its end, its fault or its first refill wait (R11). -/
def runDecode (f : Frame) (s : State) : State := runSamples f.n.toNat (beginSample f s)

end Sys2Proof.Machine
end

