-- ==== Sys2Proof/Machine/CodeUnits.lean ====
section
/-! DEFINITION. The code units as instructions (R118, R119): what DecodeUnit does with a unit once its bits are read
(R240), in the loop of the decoding command that is between two samples (log 8). -/

namespace Sys2Proof.Machine

/-- Executes a code unit that gives the quantised sample `x` (R240). Outside a decoding command the spec gives code
units no effect, and none is ever fetched there. -/
def execUnit (x : Int) (s : State) : Host.Outcome State Fault Refusal :=
  match s.task with
  | .sample f => .next (runSample x f s)
  | _ => .fault .strayCodeUnit

/-- CU_D1: a normal code unit of magnitude width 1 (R118, R240, R242). -/
def execCuD1 (sign : Bool) (mag : Nat) (s : State) : Host.Outcome State Fault Refusal :=
  execUnit (normalSample sign mag s.ctx) s

/-- CU_D2: a normal code unit of magnitude width 2 (R118, R240, R242). -/
def execCuD2 (sign : Bool) (mag : Nat) (s : State) : Host.Outcome State Fault Refusal :=
  execUnit (normalSample sign mag s.ctx) s

/-- CU_D3: a normal code unit of magnitude width 3 (R118, R240, R242). -/
def execCuD3 (sign : Bool) (mag : Nat) (s : State) : Host.Outcome State Fault Refusal :=
  execUnit (normalSample sign mag s.ctx) s

/-- CU_D4: a normal code unit of magnitude width 4 (R118, R240, R242). -/
def execCuD4 (sign : Bool) (mag : Nat) (s : State) : Host.Outcome State Fault Refusal :=
  execUnit (normalSample sign mag s.ctx) s

/-- CU_D5: a normal code unit of magnitude width 5 (R118, R240, R242). -/
def execCuD5 (sign : Bool) (mag : Nat) (s : State) : Host.Outcome State Fault Refusal :=
  execUnit (normalSample sign mag s.ctx) s

/-- CU_D6: a normal code unit of magnitude width 6 (R118, R240, R242). -/
def execCuD6 (sign : Bool) (mag : Nat) (s : State) : Host.Outcome State Fault Refusal :=
  execUnit (normalSample sign mag s.ctx) s

/-- CU_D7: a normal code unit of magnitude width 7 (R118, R240, R242). -/
def execCuD7 (sign : Bool) (mag : Nat) (s : State) : Host.Outcome State Fault Refusal :=
  execUnit (normalSample sign mag s.ctx) s

/-- CU_D8: a normal code unit of magnitude width 8 (R118, R240, R242). -/
def execCuD8 (sign : Bool) (mag : Nat) (s : State) : Host.Outcome State Fault Refusal :=
  execUnit (normalSample sign mag s.ctx) s

/-- CU_D9: a normal code unit of magnitude width 9 (R118, R240, R242). -/
def execCuD9 (sign : Bool) (mag : Nat) (s : State) : Host.Outcome State Fault Refusal :=
  execUnit (normalSample sign mag s.ctx) s

/-- CU_D10: a normal code unit of magnitude width 10 (R118, R240, R242). -/
def execCuD10 (sign : Bool) (mag : Nat) (s : State) : Host.Outcome State Fault Refusal :=
  execUnit (normalSample sign mag s.ctx) s

/-- CU_D11: a normal code unit of magnitude width 11 (R118, R240, R242). -/
def execCuD11 (sign : Bool) (mag : Nat) (s : State) : Host.Outcome State Fault Refusal :=
  execUnit (normalSample sign mag s.ctx) s

/-- CU_D12: a normal code unit of magnitude width 12 (R118, R240, R242). -/
def execCuD12 (sign : Bool) (mag : Nat) (s : State) : Host.Outcome State Fault Refusal :=
  execUnit (normalSample sign mag s.ctx) s

/-- CU_D13: a normal code unit of magnitude width 13 (R118, R240, R242). -/
def execCuD13 (sign : Bool) (mag : Nat) (s : State) : Host.Outcome State Fault Refusal :=
  execUnit (normalSample sign mag s.ctx) s

/-- CU_D14: a normal code unit of magnitude width 14 (R118, R240, R242). -/
def execCuD14 (sign : Bool) (mag : Nat) (s : State) : Host.Outcome State Fault Refusal :=
  execUnit (normalSample sign mag s.ctx) s

/-- CU_D15: a normal code unit of magnitude width 15 (R118, R240, R242). -/
def execCuD15 (sign : Bool) (mag : Nat) (s : State) : Host.Outcome State Fault Refusal :=
  execUnit (normalSample sign mag s.ctx) s

/-- CU_ESC: the escape code unit (R119, R240). -/
def execCuEsc (raw : Nat) (s : State) : Host.Outcome State Fault Refusal := execUnit (escapeSample raw) s

end Sys2Proof.Machine
end

