-- ==== Sys2Proof/Machine/Codec.lean ====
section
/-! DEFINITION. The one-shot codec commands COMPRESS and LEXPAND (R238, R243). -/

namespace Sys2Proof.Machine

/-! ## COMPRESS -/

/-- The samples COMPRESS reads (R238, R88). -/
def compressSource (a : ArgRegs) : Span := { base := a.arg0, size := 2 * a.arg1.toNat }

/-- The bytes COMPRESS may write: the destination up to its capacity, and never more than the longest output of its
samples, ceil(20n / 8) (R237, R238; log 13). -/
def compressTarget (a : ArgRegs) : Span :=
  { base := a.arg2, size := min a.arg3.toNat ((20 * a.arg1.toNat + 7) / 8) }

/-- COMPRESS up to its loop (R238). -/
def compressStart (stats : Bool) (s : State) : State :=
  let s := s.invalidateSession
  { s with
    ctx := .zero
    bw := .bound s.args.arg2 s.args.arg3
    stat := if stats then .zero else s.stat
    raced := s.raced.overlapped ((compressSource s.args).meets (compressTarget s.args)) }

/-- STAT_HIST and STAT_ESC after a sample of code `code` (R238, R245). -/
def StatRegs.count (code : Nat) (t : StatRegs) : StatRegs :=
  { hist := Vector.ofFn fun k => if k.val = code then t.hist[k] + 1#32 else t.hist[k]
    esc := if code = 15 then t.esc + 1#32 else t.esc }

/-- One iteration of COMPRESS's loop (R238). -/
def compressSample (sh : Nat) (stats : Bool) (i : Nat) (s : State) : Res Unit :=
  (memRead16 (s.args.arg0 + BitVec.ofNat 32 (2 * i)) s).bind fun r s =>
    (encodeUnit (asr (sext16 r) sh) s).bind fun code s =>
      .ok () (if stats then { s with stat := s.stat.count code } else s)

/-- `k` iterations of COMPRESS's loop from index `i` on (R238); a fault carries its index (R305). -/
def compressLoop (sh : Nat) (stats : Bool) : Nat → Nat → State → Res Unit
  | 0, _, s => .ok () s
  | k + 1, i, s =>
    ((compressSample sh stats i s).indexed (BitVec.ofNat 32 i)).bind fun _ s => compressLoop sh stats k (i + 1) s

/-- COMPRESS's loop and final flush (R238); a fault of the flush carries the sample count (R305). -/
def compressBody (sh : Nat) (stats : Bool) (s : State) : Res Unit :=
  (compressLoop sh stats s.args.arg1.toNat 0 s).bind fun _ s => (flushPacker s).indexed s.args.arg1

/-- The write set of COMPRESS after a fault (R294, R306). -/
def spoilCompress (stats : Bool) (s : State) : State :=
  spoilResult (spoilPacker (spoilContext (if stats then spoilStat s else s)))

/-- COMPRESS s, st (R238). -/
def execCompress (sh : Nat) (stats : Bool) (s : State) : Host.Outcome State Fault Refusal :=
  if 15 < sh then .next (faultEntry .outOfBounds 0x50 0#32 s)
  else
    .next (conclude 0x50 (spoilCompress stats) (fun _ s => (s.setReturned s.bw.emitted).finish)
      (compressBody sh stats (compressStart stats s)))

/-! ## LEXPAND -/

/-- The bitstream LEXPAND reads (R243, R88). -/
def lexpandSource (a : ArgRegs) : Span := { base := a.arg0, size := a.arg1.toNat }

/-- The samples LEXPAND writes (R243, R88). -/
def lexpandTarget (a : ArgRegs) : Span := { base := a.arg3, size := 2 * a.arg2.toNat }

/-- LEXPAND up to its loop (R243). -/
def lexpandStart (s : State) : State :=
  let s := s.invalidateSession
  { s with
    ctx := .zero
    br := .bound .flat s.args.arg0 s.args.arg1
    raced := s.raced.overlapped ((lexpandSource s.args).meets (lexpandTarget s.args)) }

/-- LEXPAND's frame before its first sample (R243). -/
def lexpandFrame (sh : Nat) (a : ArgRegs) : Frame :=
  { cmd := .lexpand sh, target := a.arg3, n := a.arg2, i := 0#32 }

/-- LEXPAND s (R243). -/
def execLexpand (sh : Nat) (s : State) : Host.Outcome State Fault Refusal :=
  if 15 < sh then .next (faultEntry .outOfBounds 0x51 0#32 s)
  else .next (runDecode (lexpandFrame sh s.args) (lexpandStart s))

end Sys2Proof.Machine
end

