-- ==== Sys2Proof/Machine/Control.lean ====
section
/-! DEFINITION. Engine control commands: NOP, SOFT_RESET (46_engine_control.md). -/

namespace Sys2Proof.Machine

/-- NOP: nothing but the BUSY pulse (R290). -/
def execNop (s : State) : Host.Outcome State Fault Refusal := .next s.finish

/-- SOFT_RESET (R291, R341). -/
def execSoftReset (s : State) : Host.Outcome State Fault Refusal := .next (softResetState s)

end Sys2Proof.Machine
end

