-- ==== Sys2Proof/Machine/Expander.lean ====
section
/-! DEFINITION. The streaming expander's commands (45_expander.md): EXP_INIT, EXP_EXPAND, EXP_EXPAND2, EXP_DONE. -/

namespace Sys2Proof.Machine

/-- The expander after EXP_INIT (R263): DONE when there is nothing to produce (R261). -/
def ExpanderRegs.init (sh fmt : Nat) (n : Word) : ExpanderRegs :=
  { state := if n = 0#32 then .done else .idle
    nSamples := n
    pos := 0#32
    format := BitVec.ofNat 1 fmt
    shift := BitVec.ofNat 4 sh }

/-- EXP_INIT s, fmt (R263). -/
def execExpInit (sh fmt : Nat) (s : State) : Host.Outcome State Fault Refusal :=
  if 15 < sh then .next (faultEntry .outOfBounds 0x60 0#32 s)
  else if 1 < fmt then .next (faultEntry .outOfBounds 0x60 0#32 s)
  else
    .next { s with
      ctx := .zero
      br := .bound .stream 0#32 0#32
      exp := .init sh fmt s.args.arg1 }.finish

/-- A MEM stream's bytes not yet delivered (R91). -/
def undelivered (s : State) : Span :=
  match s.st.kind with
  | .mem => { base := s.st.base + s.st.pos, size := s.st.size.toNat - s.st.pos.toNat }
  | _ => Span.empty

/-- The bytes a decoding command of frame `f` writes (R88). -/
def Frame.output (f : Frame) : Span := { base := f.target, size := f.stride * f.n.toNat }

/-- The session's command starts: overlapping buffers are noted (R91). -/
def expandStart (f : Frame) (s : State) : State :=
  { s with raced := s.raced.overlapped ((undelivered s).meets f.output) }

/-- EXP_EXPAND's frame before its first sample (R265). -/
def expandFrame (a : ArgRegs) : Frame := { cmd := .expand, target := a.arg0, n := a.arg1, i := 0#32 }

/-- EXP_EXPAND2's frame before its first sample (R266). -/
def expand2Frame (a : ArgRegs) : Frame := { cmd := .expand2 a.arg2, target := a.arg0, n := a.arg1, i := 0#32 }

/-- EXP_EXPAND (R265). -/
def execExpExpand (s : State) : Host.Outcome State Fault Refusal :=
  if s.remaining < s.args.arg1.toNat then .next (faultEntry .outOfBounds 0x61 0#32 s)
  else .next (runDecode (expandFrame s.args) (expandStart (expandFrame s.args) s))

/-- EXP_EXPAND2 (R266): the count check precedes the volume check. -/
def execExpExpand2 (s : State) : Host.Outcome State Fault Refusal :=
  if s.remaining < s.args.arg1.toNat then .next (faultEntry .outOfBounds 0x62 0#32 s)
  else if 65536 < s.args.arg2.toNat then .next (faultEntry .outOfBounds 0x62 0#32 s)
  else .next (runDecode (expand2Frame s.args) (expandStart (expand2Frame s.args) s))

/-- EXP_DONE (R267). -/
def execExpDone (s : State) : Host.Outcome State Fault Refusal :=
  .next (s.setResult (if s.exp.state = .done then 1#32 else 0#32)).finish

end Sys2Proof.Machine
end

