-- ==== Sys2Proof/Machine/Dispatch.lean ====
section
/-! DEFINITION. One arm per instruction (R113, R117): a direct call of its meaning. -/

namespace Sys2Proof.Machine

/-- The effect of one instruction: the rule of its opcode-table row, up to its completion, its fault or its first
refill wait (R11, R300). -/
def exec (i : Instr) (s : State) : Host.Outcome State Fault Refusal :=
  match i with
  | .nop => Sys2Proof.Machine.execNop s
  | .softReset => Sys2Proof.Machine.execSoftReset s
  | .accClear => Sys2Proof.Machine.execAccClear s
  | .accPush n => Sys2Proof.Machine.execAccPush n s
  | .accPop n => Sys2Proof.Machine.execAccPop n s
  | .bitsNeeded => Sys2Proof.Machine.execBitsNeeded s
  | .bwInit => Sys2Proof.Machine.execBwInit s
  | .bwWrite n => Sys2Proof.Machine.execBwWrite n s
  | .bwClose => Sys2Proof.Machine.execBwClose s
  | .bwLength => Sys2Proof.Machine.execBwLength s
  | .brInitFlat => Sys2Proof.Machine.execBrInitFlat s
  | .brInitStream => Sys2Proof.Machine.execBrInitStream s
  | .brRead n => Sys2Proof.Machine.execBrRead n s
  | .stBindMem => Sys2Proof.Machine.execStBindMem s
  | .stBindChunk => Sys2Proof.Machine.execStBindChunk s
  | .stGet => Sys2Proof.Machine.execStGet s
  | .stGet16 => Sys2Proof.Machine.execStGet16 s
  | .compress sh stats => Sys2Proof.Machine.execCompress sh stats s
  | .lexpand sh => Sys2Proof.Machine.execLexpand sh s
  | .expInit sh fmt => Sys2Proof.Machine.execExpInit sh fmt s
  | .expExpand => Sys2Proof.Machine.execExpExpand s
  | .expExpand2 => Sys2Proof.Machine.execExpExpand2 s
  | .expDone => Sys2Proof.Machine.execExpDone s
  | .cuD1 sign mag => Sys2Proof.Machine.execCuD1 sign mag s
  | .cuD2 sign mag => Sys2Proof.Machine.execCuD2 sign mag s
  | .cuD3 sign mag => Sys2Proof.Machine.execCuD3 sign mag s
  | .cuD4 sign mag => Sys2Proof.Machine.execCuD4 sign mag s
  | .cuD5 sign mag => Sys2Proof.Machine.execCuD5 sign mag s
  | .cuD6 sign mag => Sys2Proof.Machine.execCuD6 sign mag s
  | .cuD7 sign mag => Sys2Proof.Machine.execCuD7 sign mag s
  | .cuD8 sign mag => Sys2Proof.Machine.execCuD8 sign mag s
  | .cuD9 sign mag => Sys2Proof.Machine.execCuD9 sign mag s
  | .cuD10 sign mag => Sys2Proof.Machine.execCuD10 sign mag s
  | .cuD11 sign mag => Sys2Proof.Machine.execCuD11 sign mag s
  | .cuD12 sign mag => Sys2Proof.Machine.execCuD12 sign mag s
  | .cuD13 sign mag => Sys2Proof.Machine.execCuD13 sign mag s
  | .cuD14 sign mag => Sys2Proof.Machine.execCuD14 sign mag s
  | .cuD15 sign mag => Sys2Proof.Machine.execCuD15 sign mag s
  | .cuEsc raw => Sys2Proof.Machine.execCuEsc raw s

end Sys2Proof.Machine
end

