-- ==== Sys2Proof/WellFormed.lean ====
section
/-! DEFINITION. Which instruction terms an encoding can hold: each field fits the bits R110, R118 and R119 give it.
A width above 32 or a shift above 15 is well formed (R111: the word is legal and is rejected at execution). -/

namespace Sys2Proof

/-- Every field of the instruction fits its encoding field (R110 to R112, R118, R119). -/
def WellFormed (i : Instr) : Bool :=
  match i with
  | .nop | .softReset | .accClear | .bitsNeeded | .bwInit | .bwClose | .bwLength | .brInitFlat | .brInitStream
  | .stBindMem | .stBindChunk | .stGet | .stGet16 | .expExpand | .expExpand2 | .expDone => true
  | .accPush n | .accPop n | .bwWrite n | .brRead n => n < 256
  | .compress s _ => s < 256
  | .lexpand s => s < 256
  | .expInit s fmt => s < 256 && fmt < 256
  | .cuD1 _ mag => mag < 2 ^ 1
  | .cuD2 _ mag => mag < 2 ^ 2
  | .cuD3 _ mag => mag < 2 ^ 3
  | .cuD4 _ mag => mag < 2 ^ 4
  | .cuD5 _ mag => mag < 2 ^ 5
  | .cuD6 _ mag => mag < 2 ^ 6
  | .cuD7 _ mag => mag < 2 ^ 7
  | .cuD8 _ mag => mag < 2 ^ 8
  | .cuD9 _ mag => mag < 2 ^ 9
  | .cuD10 _ mag => mag < 2 ^ 10
  | .cuD11 _ mag => mag < 2 ^ 11
  | .cuD12 _ mag => mag < 2 ^ 12
  | .cuD13 _ mag => mag < 2 ^ 13
  | .cuD14 _ mag => mag < 2 ^ 14
  | .cuD15 _ mag => mag < 2 ^ 15
  | .cuEsc raw => raw < 2 ^ 16

end Sys2Proof
end

