-- ==== Sys2Proof/Decode.lean ====
section
/-! DEFINITION. Decoding of command words (R110 to R116) and of code units (R117 to R120), the encoder, and the form in
which the opcode table gives a row. -/

namespace Sys2Proof

/-- Why bits are no instruction (R114, R116, and for code units R117). -/
inductive Reject where
  /-- R110: a bit of [31:24] is set. -/
  | reservedBits
  /-- R116: an OP value that R115 does not list. -/
  | reservedOpcode (op : Nat)
  /-- R114: a listed OP with a nonzero IMM or FLG bit the command does not use. -/
  | unusedBits (op : Nat)
  /-- The bits end before the code unit does (R120 gives its length). -/
  | unitTruncated
  /-- Bits are left over after the one code unit `decode` was given. -/
  | unitOverlong
  deriving DecidableEq, Repr

/-! ## Command words -/

/-- OP = w[7:0] (R110). -/
def wordOp (w : Word) : Nat := w.toNat % 256

/-- IMM = w[15:8], zero-extended (R111). -/
def wordImm (w : Word) : Nat := w.toNat / 256 % 256

/-- FLG = w[23:16], zero-extended (R112). -/
def wordFlg (w : Word) : Nat := w.toNat / 65536 % 256

/-- w[31:24], reserved and required 0 (R110). -/
def wordReserved (w : Word) : Nat := w.toNat / 16777216

/-- The command a word stands for (R113 to R116): the OP chooses the row, every unused bit must be 0. -/
def decodeCommand (w : Word) : Except Reject Instr :=
  let op := wordOp w
  let imm := wordImm w
  let flg := wordFlg w
  if wordReserved w ≠ 0 then .error .reservedBits
  else
    match op with
    | 0x00 => if imm = 0 ∧ flg = 0 then .ok .nop else .error (.unusedBits op)
    | 0x01 => if imm = 0 ∧ flg = 0 then .ok .softReset else .error (.unusedBits op)
    | 0x10 => if imm = 0 ∧ flg = 0 then .ok .accClear else .error (.unusedBits op)
    | 0x11 => if flg = 0 then .ok (.accPush imm) else .error (.unusedBits op)
    | 0x12 => if flg = 0 then .ok (.accPop imm) else .error (.unusedBits op)
    | 0x13 => if imm = 0 ∧ flg = 0 then .ok .bitsNeeded else .error (.unusedBits op)
    | 0x20 => if imm = 0 ∧ flg = 0 then .ok .bwInit else .error (.unusedBits op)
    | 0x21 => if flg = 0 then .ok (.bwWrite imm) else .error (.unusedBits op)
    | 0x22 => if imm = 0 ∧ flg = 0 then .ok .bwClose else .error (.unusedBits op)
    | 0x23 => if imm = 0 ∧ flg = 0 then .ok .bwLength else .error (.unusedBits op)
    | 0x30 => if imm = 0 ∧ flg = 0 then .ok .brInitFlat else .error (.unusedBits op)
    | 0x31 => if imm = 0 ∧ flg = 0 then .ok .brInitStream else .error (.unusedBits op)
    | 0x32 => if flg = 0 then .ok (.brRead imm) else .error (.unusedBits op)
    | 0x40 => if imm = 0 ∧ flg = 0 then .ok .stBindMem else .error (.unusedBits op)
    | 0x41 => if imm = 0 ∧ flg = 0 then .ok .stBindChunk else .error (.unusedBits op)
    | 0x42 => if imm = 0 ∧ flg = 0 then .ok .stGet else .error (.unusedBits op)
    | 0x43 => if imm = 0 ∧ flg = 0 then .ok .stGet16 else .error (.unusedBits op)
    | 0x50 => if flg < 2 then .ok (.compress imm (flg == 1)) else .error (.unusedBits op)
    | 0x51 => if flg = 0 then .ok (.lexpand imm) else .error (.unusedBits op)
    | 0x60 => .ok (.expInit imm flg)
    | 0x61 => if imm = 0 ∧ flg = 0 then .ok .expExpand else .error (.unusedBits op)
    | 0x62 => if imm = 0 ∧ flg = 0 then .ok .expExpand2 else .error (.unusedBits op)
    | 0x63 => if imm = 0 ∧ flg = 0 then .ok .expDone else .error (.unusedBits op)
    | _ => .error (.reservedOpcode op)

/-! ## Code units -/

/-- The next `n` bits of a bit sequence as an unsigned integer above `acc`, the first bit the most significant (R85). -/
def takeBits : Nat → Nat → List Bool → Option (Nat × List Bool)
  | 0, acc, bits => some (acc, bits)
  | _ + 1, _, [] => none
  | n + 1, acc, b :: bits => takeBits n (2 * acc + b.toNat) bits

/-- The opcode-table row of a code unit: CODE c is CU_D(c+1) for c ≤ 14, and CU_ESC for 15 (R118, R119). A unit read
from a bitstream has a CODE of four bits, so the last arm of the normal units is CODE 14. -/
def CodeUnit.instr (u : CodeUnit) : Instr :=
  match u with
  | .normal 0 sign mag => .cuD1 sign mag
  | .normal 1 sign mag => .cuD2 sign mag
  | .normal 2 sign mag => .cuD3 sign mag
  | .normal 3 sign mag => .cuD4 sign mag
  | .normal 4 sign mag => .cuD5 sign mag
  | .normal 5 sign mag => .cuD6 sign mag
  | .normal 6 sign mag => .cuD7 sign mag
  | .normal 7 sign mag => .cuD8 sign mag
  | .normal 8 sign mag => .cuD9 sign mag
  | .normal 9 sign mag => .cuD10 sign mag
  | .normal 10 sign mag => .cuD11 sign mag
  | .normal 11 sign mag => .cuD12 sign mag
  | .normal 12 sign mag => .cuD13 sign mag
  | .normal 13 sign mag => .cuD14 sign mag
  | .normal _ sign mag => .cuD15 sign mag
  | .escape raw => .cuEsc raw

/-- Reads one code unit from a bit sequence in stream order, and what is left of it (R118 to R120). -/
def decodeUnit (bits : List Bool) : Except Reject (Instr × List Bool) :=
  match takeBits 4 0 bits with
  | none => .error .unitTruncated
  | some (15, rest) =>
    match takeBits 16 0 rest with
    | none => .error .unitTruncated
    | some (raw, rest') => .ok ((CodeUnit.escape raw).instr, rest')
  | some (code, rest) =>
    match takeBits 1 0 rest with
    | none => .error .unitTruncated
    | some (sign, rest') =>
      match takeBits (code + 1) 0 rest' with
      | none => .error .unitTruncated
      | some (mag, rest'') => .ok ((CodeUnit.normal code (sign == 1) mag).instr, rest'')

/-! ## The encoder -/

/-- An encoded instruction: a 32-bit command word (R110) or the bits of a code unit in stream order (R118, R119). -/
inductive Encoded where
  | command (w : Word)
  | unit (bits : List Bool)
  deriving DecidableEq, Repr

/-- The word `(flg << 16) | (imm << 8) | OP` (R125). -/
def commandWord (op imm flg : Nat) : Word := BitVec.ofNat 32 (op + 256 * imm + 65536 * flg)

/-- The low `n` bits of `v`, most significant first (R85). -/
def bitsMsb : Nat → Nat → List Bool
  | 0, _ => []
  | n + 1, v => v.testBit n :: bitsMsb n v

/-- The bits of a normal code unit of magnitude width `w`: CODE, SIGN, MAG (R118). -/
def unitBits (code : Nat) (sign : Bool) (mag w : Nat) : List Bool :=
  bitsMsb 4 code ++ sign :: bitsMsb w mag

/-- The encoding of an instruction, from the tables of R113, R118 and R119. -/
def encode (i : Instr) : Encoded :=
  match i with
  | .nop => .command (commandWord 0x00 0 0)
  | .softReset => .command (commandWord 0x01 0 0)
  | .accClear => .command (commandWord 0x10 0 0)
  | .accPush n => .command (commandWord 0x11 n 0)
  | .accPop n => .command (commandWord 0x12 n 0)
  | .bitsNeeded => .command (commandWord 0x13 0 0)
  | .bwInit => .command (commandWord 0x20 0 0)
  | .bwWrite n => .command (commandWord 0x21 n 0)
  | .bwClose => .command (commandWord 0x22 0 0)
  | .bwLength => .command (commandWord 0x23 0 0)
  | .brInitFlat => .command (commandWord 0x30 0 0)
  | .brInitStream => .command (commandWord 0x31 0 0)
  | .brRead n => .command (commandWord 0x32 n 0)
  | .stBindMem => .command (commandWord 0x40 0 0)
  | .stBindChunk => .command (commandWord 0x41 0 0)
  | .stGet => .command (commandWord 0x42 0 0)
  | .stGet16 => .command (commandWord 0x43 0 0)
  | .compress s stats => .command (commandWord 0x50 s (if stats then 1 else 0))
  | .lexpand s => .command (commandWord 0x51 s 0)
  | .expInit s fmt => .command (commandWord 0x60 s fmt)
  | .expExpand => .command (commandWord 0x61 0 0)
  | .expExpand2 => .command (commandWord 0x62 0 0)
  | .expDone => .command (commandWord 0x63 0 0)
  | .cuD1 sign mag => .unit (unitBits 0 sign mag 1)
  | .cuD2 sign mag => .unit (unitBits 1 sign mag 2)
  | .cuD3 sign mag => .unit (unitBits 2 sign mag 3)
  | .cuD4 sign mag => .unit (unitBits 3 sign mag 4)
  | .cuD5 sign mag => .unit (unitBits 4 sign mag 5)
  | .cuD6 sign mag => .unit (unitBits 5 sign mag 6)
  | .cuD7 sign mag => .unit (unitBits 6 sign mag 7)
  | .cuD8 sign mag => .unit (unitBits 7 sign mag 8)
  | .cuD9 sign mag => .unit (unitBits 8 sign mag 9)
  | .cuD10 sign mag => .unit (unitBits 9 sign mag 10)
  | .cuD11 sign mag => .unit (unitBits 10 sign mag 11)
  | .cuD12 sign mag => .unit (unitBits 11 sign mag 12)
  | .cuD13 sign mag => .unit (unitBits 12 sign mag 13)
  | .cuD14 sign mag => .unit (unitBits 13 sign mag 14)
  | .cuD15 sign mag => .unit (unitBits 14 sign mag 15)
  | .cuEsc raw => .unit (bitsMsb 4 15 ++ bitsMsb 16 raw)

/-- Decoding of an encoded instruction; a code unit must use all its bits. -/
def decode (e : Encoded) : Except Reject Instr :=
  match e with
  | .command w => decodeCommand w
  | .unit bits =>
    match decodeUnit bits with
    | .ok (i, []) => .ok i
    | .ok (_, _ :: _) => .error .unitOverlong
    | .error r => .error r

/-! ## The opcode table's own form of a row -/

/-- The instruction read from an opcode-table word: rows of 32 bits are command words; a shorter row is a code unit
whose first stream bit is the most significant of the `nbits` (R118: CU_D3 has CODE in bits 7..4, CU_D11 in bits
15..12), with zero bits after it (DEDUCED, log 9). -/
def decodeTableWord (nbits w : Nat) : Option Instr :=
  if 32 ≤ nbits then
    match decodeCommand (BitVec.ofNat 32 w) with
    | .ok i => some i
    | .error _ => none
  else
    match decodeUnit (bitsMsb nbits w ++ bitsMsb 20 0) with
    | .ok (i, _) => some i
    | .error _ => none

end Sys2Proof
end

