-- ==== Sys2Proof/Machine/Fetch.lean ====
section
/-! DEFINITION. What the engine runs in its turn: the accepted command word (R300), or the next code unit of a decoding
command (R240), also after a refill wait (R212, R213). -/

namespace Sys2Proof.Machine

/-- What the engine's turn begins with: an instruction to execute in a state, or a state that the turn already ends
in. -/
inductive Fetched where
  | instr (i : Instr) (s : State)
  | settled (s : State)

/-- The code unit just read in the loop of frame `f` is the instruction; a fault or a refill wait ends the turn. -/
def fetchedUnit (f : Frame) (r : Res CodeUnit) : Fetched :=
  match r.indexed f.i with
  | .ok u s => .instr u.instr { s with task := .sample f }
  | .raise c info s => .settled (faultEntry c f.op info (spoilDecode f s))
  | .hold p s => .settled { s with task := .refill p }

/-- The accepted word (R300): a legal one is executed, any other raises IllegalCommand before any change (R303). -/
def fetchCommand (w : Word) (s : State) : Fetched :=
  match decodeCommand w with
  | .ok i => .instr i s
  | .error _ => .settled (faultEntry .illegalCommand (wordOp w) 0#32 s)

/-- The next sample of frame `f` (R264): a code unit, or a raw sample that is no instruction. -/
def fetchSample (f : Frame) (s : State) : Fetched :=
  if f.isRaw s then .settled (sampleStep f s) else fetchedUnit f (readUnit f s)

/-- The engine resumes at point `p` after the refill was answered with `k` (R212, R213). -/
def fetchResumed (k : Word) (p : HoldPoint) (s : State) : Fetched :=
  match p with
  | .get => .settled (endGet (streamResume k s))
  | .get16Lo => .settled (endGet16 ((streamResume k s).bind get16Second))
  | .get16Hi lo => .settled (endGet16 ((streamResume k s).bind fun hi s => .ok (get16Value lo hi) s))
  | .read r left =>
    .settled (endRead ((streamResume k s).bind fun b s => unpackFrom .read left r (loadByte b s)))
  | .unit f phase => fetchedUnit f ((streamResume k s).bind fun b s => readUnitFrom f phase (loadByte b s))
  | .sampleLo f => .settled (endSample f ((streamResume k s).bind fun lo s => rawSampleSecond f lo s))
  | .sampleHi f lo =>
    .settled (endSample f ((streamResume k s).bind fun hi s => writeSample (sext16 (get16Value lo hi)) f s))

/-! ## What other agents will do in the command's window (R351) -/

/-- The addresses other agents store to or load from before the next hardware reset. -/
def accessesAhead : List Access → List Word
  | [] => []
  | a :: rest =>
    match a with
    | .store addr _ => addr :: accessesAhead rest
    | .load addr => addr :: accessesAhead rest
    | .hardwareReset => []
    | _ => accessesAhead rest

/-- The engine's turn begins: the bytes at the addresses `touched`, which other agents store to before the host reads
BUSY = 0, are unspecified for this turn already (R351: the window goes on after the command's completion), and the
bytes that other agents access later are watched (log 14). -/
def State.foreseen (touched : List Word) (s : State) : State :=
  { s with raced := { s.raced with
      touched := touched ++ s.raced.touched
      watched := accessesAhead s.host ++ s.raced.watched } }

/-- The engine's turn up to the instruction it executes, when other agents store to the addresses `touched` before the
host reads BUSY = 0. An idle engine and one in a refill wait stay as they are (R212; log 19). -/
def fetch (touched : List Word) (s : State) : Fetched :=
  match s.task with
  | .idle => .settled s
  | .issued w => fetchCommand w (s.foreseen touched)
  | .refill _ => .settled s
  | .answered k p => fetchResumed k p (s.foreseen touched)
  | .sample f => fetchSample f (s.foreseen touched)

/-! ## Placing an instruction where the engine fetches it -/

/-- Stores the bytes of a code unit, most significant first, at ascending addresses from `a`. -/
def placeBytes : Nat → Nat → Nat → Memory → Memory
  | 0, _, _, m => m
  | n + 1, a, v, m => placeBytes n (a + 1) v (m.write a (BitVec.ofNat 8 (v / 256 ^ n)))

/-- A frame of LEXPAND with one sample to go, shift 0, and its output at 0x1000 (log 10). -/
def placedFrame : Frame := { cmd := .lexpand 0, target := 0x1000#32, n := 1#32, i := 0#32 }

/-- The engine has the next turn: it has it anyway when no host-side access is to come. -/
def engineFirst (h : List Access) : List Access :=
  match h with
  | [] => []
  | a :: rest => .engine :: a :: rest

/-- A command word accepted and not yet run (R300). -/
def placeCommand (w : Word) (s : State) : State := { s with task := .issued w, host := engineFirst s.host }

/-- A code unit of at most `nbits` < 32 bits, the rest zeros, at the head of a FLAT bitstream of four bytes at address
0, about to be read by a LEXPAND (R117, R240, R243; log 10). -/
def placeUnit (nbits w : Nat) (s : State) : State :=
  { s with
    task := .sample placedFrame
    br := .bound .flat 0#32 4#32
    mem := placeBytes 4 0 (w % 2 ^ nbits * 2 ^ (32 - nbits)) s.mem
    raced := .none
    host := engineFirst s.host }

end Sys2Proof.Machine
end

