-- ==== Sys2Proof/Machine/HostBus.lean ====
section
/-! DEFINITION. The host's side: reads and writes of the register window (R33 to R64, R213, R300), byte accesses of
memory by other agents (R95, R351), hardware reset (R340). -/

namespace Sys2Proof.Machine

/-! ## The buffers of a command (R88, R351) -/

/-- The bytes a command about to run will read or write (R88). -/
structure Buffers where
  reads : Span
  writes : Span
  deriving DecidableEq, Repr

/-- No buffers. -/
def Buffers.none : Buffers := { reads := .empty, writes := .empty }

/-- The next `n` bytes of the stream unit, when they come from memory (R88). -/
def streamSpan (n : Nat) (s : State) : Span :=
  match s.st.kind with
  | .mem => { base := s.st.base + s.st.pos, size := n }
  | _ => .empty

/-- The next `n` bytes the unpacker fetches, when they come from memory (R88). -/
def fetchSpan (n : Nat) (s : State) : Span :=
  match s.br.mode with
  | .flat => { base := s.br.base + s.br.consumed, size := n }
  | .stream => streamSpan n s
  | .none => .empty

/-- How many bytes the packer still has room for (R162). -/
def packerRoom (s : State) : Nat := s.bw.cap.toNat - s.bw.emitted.toNat

/-- How many bytes the stream unit has still to deliver (R211). -/
def streamLeft (s : State) : Nat := s.st.size.toNat - s.st.pos.toNat

/-- How many bytes the unpacker's source has still to deliver (R182). -/
def sourceLeft (s : State) : Nat :=
  match s.br.mode with
  | .flat => s.br.limit.toNat - s.br.consumed.toNat
  | .stream => streamLeft s
  | .none => 0

/-- How many bytes `n` code units take at most, of which `held` bits are at hand (R120: 20 bits a unit). -/
def unitBytes (n held : Nat) : Nat := (20 * n - held + 7) / 8

/-- The bytes an expansion of `n` more samples may still read of the stream (R88, R264). -/
def expandInput (n : Nat) (s : State) : Span :=
  if s.exp.format = 0#1 then streamSpan (min (streamLeft s) (2 * n)) s
  else streamSpan (min (streamLeft s) (unitBytes n s.br.used.toNat)) s

/-- The bytes LEXPAND may read of its bitstream (R88). -/
def lexpandInput (a : ArgRegs) : Span := { base := a.arg0, size := min a.arg1.toNat (unitBytes a.arg2.toNat 0) }

/-- The bytes a decoding command of frame `f` may still read (R88). -/
def Frame.input (f : Frame) (s : State) : Span :=
  let left := f.n.toNat - f.i.toNat
  match f.cmd with
  | .lexpand _ => fetchSpan (min (sourceLeft s) (unitBytes left s.br.used.toNat)) s
  | _ => expandInput left s

/-- The buffers of an accepted command (R88); none for one that an argument check stops, which touches no memory. A read
of n bits fetches ceil((n − BR_USED) / 8) bytes (R183) and a write of n bits completes floor((BW_USED + n) / 8) bytes
(R164), as far as the source and the destination reach. -/
def commandBuffers (i : Instr) (s : State) : Buffers :=
  let packed := s.bw.base + s.bw.emitted
  match i with
  | .bwWrite n =>
    if n ≤ 32 ∧ (n = 32 ∨ fitsWidth s.args.arg0 n) then
      { reads := .empty, writes := { base := packed, size := min (packerRoom s) ((s.bw.used.toNat + n) / 8) } }
    else .none
  | .bwClose =>
    { reads := .empty, writes := { base := packed, size := if s.bw.used = 0#4 then 0 else min (packerRoom s) 1 } }
  | .brRead n =>
    if n ≤ 32 then
      { reads := fetchSpan (min (sourceLeft s) ((n - s.br.used.toNat + 7) / 8)) s, writes := .empty }
    else .none
  | .stGet => { reads := streamSpan (min (streamLeft s) 1) s, writes := .empty }
  | .stGet16 => { reads := streamSpan (min (streamLeft s) 2) s, writes := .empty }
  | .compress sh _ =>
    if sh ≤ 15 then { reads := compressSource s.args, writes := compressTarget s.args } else .none
  | .lexpand sh => if sh ≤ 15 then { reads := lexpandInput s.args, writes := lexpandTarget s.args } else .none
  | .expExpand =>
    if s.args.arg1.toNat ≤ s.remaining then
      { reads := expandInput s.args.arg1.toNat s, writes := (expandFrame s.args).output }
    else .none
  | .expExpand2 =>
    if s.args.arg1.toNat ≤ s.remaining ∧ s.args.arg2.toNat ≤ 65536 then
      { reads := expandInput s.args.arg1.toNat s, writes := (expand2Frame s.args).output }
    else .none
  | _ => .none

/-- The buffers of an accepted word: none if it is no command (R303). -/
def wordBuffers (w : Word) (s : State) : Buffers :=
  match decodeCommand w with
  | .ok i => commandBuffers i s
  | .error _ => .none

/-- The buffers of a decoding command of frame `f` (R88). -/
def frameBuffers (f : Frame) (s : State) : Buffers := { reads := f.input s, writes := f.output }

/-- The buffers of a command held at, or resuming from, point `p` (R88). Its stream is a CHUNK stream, so only the
output of a decoding command is in memory. -/
def pointBuffers (p : HoldPoint) (s : State) : Buffers :=
  match p with
  | .unit f _ => frameBuffers f s
  | .sampleLo f => frameBuffers f s
  | .sampleHi f _ => frameBuffers f s
  | _ => .none

/-- The running command's buffers (R88, R95). -/
def State.buffers (s : State) : Buffers :=
  match s.task with
  | .idle => .none
  | .issued w => wordBuffers w s
  | .refill p => pointBuffers p s
  | .answered _ p => pointBuffers p s
  | .sample f => frameBuffers f s

/-! ## Register reads -/

/-- Byte `j` of CHUNK, 0 at or beyond CHUNK_BYTES (R55). -/
def chunkByte (s : State) (j : Nat) : Nat := (s.chunk.getD j 0#8).toNat

/-- Window word `j` of CHUNK, little-endian (R55). -/
def chunkWord (s : State) (j : Nat) : Word :=
  BitVec.ofNat 32
    (chunkByte s (4 * j) + 256 * chunkByte s (4 * j + 1) + 65536 * chunkByte s (4 * j + 2)
      + 16777216 * chunkByte s (4 * j + 3))

/-- Offset `off` lies in the CHUNK window (R34). -/
def isChunkOffset (p : Platform) (off : Nat) : Bool := 4096 ≤ off && off < windowBytes p

/-- The named registers (R34), the bits above the width used read 0; none for an offset that names no register. -/
def namedRegister (off : Nat) (s : State) : Option Word :=
  match off with
  | 0x000 => some 0#32
  | 0x004 => some s.statusWord
  | 0x008 => some s.errWord
  | 0x00C => some s.err.info
  | 0x010 => some s.args.arg0
  | 0x014 => some s.args.arg1
  | 0x018 => some s.args.arg2
  | 0x01C => some s.args.arg3
  | 0x020 => some s.result
  | 0x024 => some (BitVec.ofNat 32 s.plat.chunkBytes)
  | 0x040 => some s.acc.val
  | 0x044 => some (s.acc.used.setWidth 32)
  | 0x050 => some s.bw.base
  | 0x054 => some s.bw.cap
  | 0x058 => some s.bw.emitted
  | 0x05C => some (s.bw.stage.setWidth 32)
  | 0x060 => some (s.bw.used.setWidth 32)
  | 0x070 => some (BitVec.ofNat 32 s.br.mode.code)
  | 0x074 => some s.br.base
  | 0x078 => some s.br.limit
  | 0x07C => some s.br.consumed
  | 0x080 => some (s.br.acc.setWidth 32)
  | 0x084 => some (s.br.used.setWidth 32)
  | 0x090 => some (BitVec.ofNat 32 s.st.kind.code)
  | 0x094 => some s.st.base
  | 0x098 => some s.st.size
  | 0x09C => some s.st.pos
  | 0x0A0 => some (s.st.fill.setWidth 32)
  | 0x0A4 => some (s.st.idx.setWidth 32)
  | 0x0B0 => some (s.ctx.prev1.signExtend 32)
  | 0x0B4 => some (s.ctx.prev2.signExtend 32)
  | 0x0B8 => some (s.ctx.prev3.signExtend 32)
  | 0x0C0 => some s.exp.nSamples
  | 0x0C4 => some s.exp.pos
  | 0x0C8 => some (s.exp.format.setWidth 32)
  | 0x0CC => some (s.exp.shift.setWidth 32)
  | 0x0D0 => some s.refill.offset
  | 0x0D4 => some (s.refill.max.setWidth 32)
  | 0x0D8 => some 0#32
  | 0x140 => some s.stat.esc
  | _ => none

/-- Every register of the window by offset: the named ones, STAT_HIST (R61) and the CHUNK window (R55). -/
def readRegister (off : Nat) (s : State) : Option Word :=
  if 256 ≤ off ∧ off < 320 then some (s.stat.hist.toList.getD ((off - 256) / 4) 0#32)
  else if isChunkOffset s.plat off then some (chunkWord s ((off - 4096) / 4))
  else namedRegister off s

/-- The registers a host may read while BUSY = 1 (R63): STATUS, REFILL_OFFSET, REFILL_MAX, HWPARAM, ARG0 to ARG3 and
the CHUNK window. -/
def readableWhileBusy (p : Platform) (off : Nat) : Bool :=
  off == 0x004 || off == 0x0D0 || off == 0x0D4 || off == 0x024 || (0x010 ≤ off && off ≤ 0x01C) || isChunkOffset p off

/-- A free value as the host reads it (R63). -/
def readFree (s : State) : State := { s with rdata := s.free 0 }.drawn 1

/-- What a register read tells the host: a read of STATUS with BUSY = 0 ends R351's window of the commands before it.
No register changes (R33). -/
def State.noted (off : Nat) (s : State) : State := if off = 0x004 ∧ s.busy = false then { s with unread := [] } else s

/-- A host read of the register at offset `off` (R33, R63). While busy the registers R63 does not name read free values,
CMD and REFILL_COUNT too (DEDUCED, log 18). -/
def hostRead (off : Nat) (s : State) : State :=
  match readRegister off s with
  | none => { s with rdata := 0#32 }
  | some v => if s.busy && !readableWhileBusy s.plat off then readFree s else { s.noted off with rdata := v }

/-! ## Register writes -/

/-- A host write of CMD (R300): dropped while busy, or while faulted unless the word is SOFT_RESET; else accepted. -/
def writeCmd (w : Word) (s : State) : State :=
  if s.busy then s.setLost
  else if s.fault ∧ w ≠ 1#32 then s.setLost
  else { s with task := .issued w }

/-- A host write of an ARG register (R39): dropped while busy (R64). -/
def writeArg (f : ArgRegs → ArgRegs) (s : State) : State :=
  if s.busy then s.setLost else { s with args := f s.args }

/-- A host write of REFILL_COUNT (R60, R213): answers the pending refill, else ignored. -/
def writeRefillCount (k : Word) (s : State) : State :=
  match s.task with
  | .refill p => { s with task := .answered k p }
  | _ => s

/-- Byte `k` of CHUNK becomes `b` if the refill may deliver it: index < REFILL_MAX (R55). -/
def putChunkByte (k : Nat) (b : Nat) (s : State) : State :=
  if k < s.refill.max.toNat then { s with chunk := s.chunk.set k (BitVec.ofNat 8 b) } else s

/-- A host write of CHUNK window word `j` (R55): accepted only in a refill wait. -/
def writeChunk (j : Nat) (v : Word) (s : State) : State :=
  if s.refillReq then
    putChunkByte (4 * j + 3) (v.toNat / 16777216)
      (putChunkByte (4 * j + 2) (v.toNat / 65536)
        (putChunkByte (4 * j + 1) (v.toNat / 256) (putChunkByte (4 * j) v.toNat s)))
  else s

/-- A host write of `v` to the register at offset `off`; read-only registers and offsets that name no register ignore
it (R33). -/
def hostWrite (off : Nat) (v : Word) (s : State) : State :=
  if isChunkOffset s.plat off then writeChunk ((off - 4096) / 4) v s
  else
    match off with
    | 0x000 => writeCmd v s
    | 0x004 => s.writeStatus v
    | 0x010 => writeArg (fun a => { a with arg0 := v }) s
    | 0x014 => writeArg (fun a => { a with arg1 := v }) s
    | 0x018 => writeArg (fun a => { a with arg2 := v }) s
    | 0x01C => writeArg (fun a => { a with arg3 := v }) s
    | 0x0D8 => writeRefillCount v s
    | _ => s

/-! ## Memory accesses of other agents (R95, R351) -/

/-- Another agent stores byte `b` at `a` (R95). While a command runs, that command reads or writes the byte as a free value
from then on (R351). Where a command has written the byte and the host has not read BUSY = 0, the byte that stands is a
free value (R351, log 14; byte by byte, log 20). -/
def hostStore (a : Word) (b : Byte) (s : State) : State :=
  let raced := if s.busy then { s.raced with touched := a :: s.raced.touched } else s.raced
  if s.unread.contains a then { s with mem := s.mem.write a.toNat ((s.free 0).setWidth 8), raced := raced }.drawn 1
  else { s with mem := s.mem.write a.toNat b, raced := raced }

/-- A load of the byte at `a` by another agent sees nothing the spec promises: the byte is in a source or a destination of
the running command (R95), or a command has written it and the host has not read BUSY = 0 (R351). -/
def State.unpromised (a : Word) (s : State) : Bool :=
  s.buffers.reads.has a || s.buffers.writes.has a || s.unread.contains a

/-- Another agent loads the byte at `a` (R95): a free value where the spec promises none, sources of the running command
among them (DEDUCED from R95, log 14). -/
def hostLoad (a : Word) (s : State) : State :=
  if s.unpromised a then readFree s else { s with rdata := (s.mem.read a.toNat).setWidth 32 }

/-! ## Hardware reset -/

/-- Hardware reset (R340): every register at its reset value, each CHUNK byte a free value, a running command
abandoned. Memory, and what is still to come on the host side, stay (DEDUCED, log 21). -/
def hardwareReset (s : State) : State :=
  { State.resetOn s.plat with
    chunk := freeBytes s.draws s.plat.chunkBytes
    mem := s.mem
    host := s.host
    rdata := s.rdata
    draws := s.draws + s.plat.chunkBytes }

end Sys2Proof.Machine
end

