-- ==== Sys2Proof/Machine/Turn.lean ====
section
/-! DEFINITION. The turns of the agents (R10, R11, R325): one host-side access, or the engine's turn, which R351 makes
depend on the stores other agents make before the host reads BUSY = 0 (log 14). -/

namespace Sys2Proof.Machine

/-! ## One host-side access -/

/-- A register access is admitted: 4-byte aligned from REG_BASE (R33). -/
def aligned (p : Platform) (addr : Word) : Bool := (addr - p.regBase).toNat % 4 == 0

/-- The offset of a host address in the register window (R33). -/
def offsetOf (p : Platform) (addr : Word) : Nat := (addr - p.regBase).toNat

/-- One host-side access (R10); `turn` is the engine's turn. -/
def accessStep (turn : State → Host.Outcome State Fault Refusal) (a : Access) (s : State) :
    Host.Outcome State Fault Refusal :=
  match a with
  | .write addr v =>
    if aligned s.plat addr then .next (hostWrite (offsetOf s.plat addr) v s) else .refused (.hostAccess addr 4)
  | .read addr =>
    if aligned s.plat addr then .next (hostRead (offsetOf s.plat addr) s) else .refused (.hostAccess addr 4)
  | .otherWidth addr bytes => .refused (.hostAccess addr bytes)
  | .store addr b => .next (hostStore addr b s)
  | .load addr => .next (hostLoad addr s)
  | .hardwareReset => .next (hardwareReset s)
  | .engine => turn s

/-- The next access to come, or the engine's turn when none is (log 3). -/
def agentStep (turn : State → Host.Outcome State Fault Refusal) (s : State) : Host.Outcome State Fault Refusal :=
  match s.host with
  | [] => turn s
  | a :: rest => accessStep turn a { s with host := rest }

/-! ## The engine's turn -/

/-- The engine's turn (R11) when other agents store to the addresses `touched` before the host reads BUSY = 0: it fetches
what it runs next and executes it (log 7). -/
def turnWith (touched : List Word) (s : State) : Host.Outcome State Fault Refusal :=
  match fetch touched s with
  | .instr i t => exec i t
  | .settled t => .next t

/-- The access ends R351's window of the commands before it: the host reads STATUS with BUSY = 0, or hardware reset. -/
def endsWindow (a : Access) (s : State) : Bool :=
  match a with
  | .read addr => addr == s.plat.regBase + 4#32 && !s.busy
  | .hardwareReset => true
  | _ => false

/-- The address an access stores to. -/
def Access.stored (a : Access) : List Word :=
  match a with
  | .store addr _ => [addr]
  | _ => []

/-- The addresses other agents store to, from `s` on, before the window ends, found by running the next `k` accesses. -/
def windowStores (turn : State → Host.Outcome State Fault Refusal) : Nat → State → List Word
  | 0, _ => []
  | k + 1, s =>
    match s.host with
    | [] => []
    | a :: _ =>
      if endsWindow a s then []
      else
        match agentStep turn s with
        | .next t => a.stored ++ windowStores turn k t
        | _ => a.stored

/-- The stores in the window after an outcome of the engine's turn. -/
def storesAfter (turn : State → Host.Outcome State Fault Refusal) (o : Host.Outcome State Fault Refusal) : List Word :=
  match o with
  | .next t => windowStores turn t.host.length t
  | _ => []

/-- Every address of `l` is in `m`. -/
def within (l m : List Word) : Bool := l.all fun a => m.contains a

/-- The addresses other agents store to, in order, as far as a window can reach in any run: to the first read of STATUS
when no command can be running (`busy`: one can), or to hardware reset. -/
def storesAhead (p : Platform) : Bool → List Access → List Word
  | _, [] => []
  | busy, .store addr _ :: rest => addr :: storesAhead p busy rest
  | busy, .write addr _ :: rest => storesAhead p (busy || addr == p.regBase) rest
  | busy, .read addr :: rest => if !busy && addr == p.regBase + 4#32 then [] else storesAhead p busy rest
  | _, .hardwareReset :: _ => []
  | busy, .otherWidth _ _ :: rest => storesAhead p busy rest
  | busy, .load _ :: rest => storesAhead p busy rest
  | busy, .engine :: rest => storesAhead p busy rest

/-- A command can be running after the engine's turn: an accepted word's outcome shows it, which no unspecified byte
changes, since only a CHUNK stream holds a command. -/
def mayBeBusy (s : State) (plain : Host.Outcome State Fault Refusal) : Bool :=
  match s.task, plain with
  | .issued _, .next t => t.busy
  | _, _ => true

/-- How many free values a turn from `s` has drawn. -/
def drawsOf (s : State) (o : Host.Outcome State Fault Refusal) : Nat :=
  match o with
  | .next t => t.draws - s.draws
  | _ => 0

/-- The engine's turn that fits its own window: the bytes it takes as unspecified are stored to before the host reads
BUSY = 0 in the very run that follows. In every run the window's stores are the first ones of `ahead`, so it starts with
the first `m` of them; if the run that this gives has fewer in its window, it takes those instead, with `k` free values
drawn meanwhile, so that the new turn's are others. A store in the window of every run is thus always taken (R351,
log 14). -/
def fittingTurn (window : Host.Outcome State Fault Refusal → List Word) (s : State) (ahead : List Word) :
    Nat → Nat → Nat → Host.Outcome State Fault Refusal
  | 0, _, k => turnWith [] (s.drawn k)
  | fuel + 1, m, k =>
    let o := turnWith (ahead.take m) (s.drawn k)
    if within (ahead.take m) (window o) then o
    else fittingTurn window s ahead fuel (min (m - 1) (window o).length) (drawsOf s o)

/-- The engine's turn, with at most `n` accesses to come (R11, R351). -/
def turnAhead : Nat → State → Host.Outcome State Fault Refusal
  | 0, s => turnWith [] s
  | n + 1, s =>
    let ahead := storesAhead s.plat (mayBeBusy s (turnWith [] s)) s.host
    fittingTurn (storesAfter (turnAhead n)) s ahead (ahead.length + 1) ahead.length 0

/-- The engine's turn (R11, R351, log 14). -/
def engineTurn (s : State) : Host.Outcome State Fault Refusal := turnAhead s.host.length s

end Sys2Proof.Machine
end

