-- ==== Sys2Proof/Machine/Step.lean ====
section
/-! DEFINITION. One step: the next host-side access, or the engine's turn (R10, R11, R300, R325). -/

namespace Sys2Proof.Machine

/-- One step of the machine: the first of the accesses still to come, or the engine's turn when none is (log 3). -/
def step (s : State) : Host.Outcome State Fault Refusal := agentStep engineTurn s

/-- Places the opcode-table word `w` of `nbits` bits where the engine fetches its next instruction, and gives the
engine the next turn (log 10): a command word as the accepted word, a shorter one as the code unit at the head of a
decoding command's bitstream. -/
def State.withFetchWord (s : State) (nbits w : Nat) : State :=
  if 32 ≤ nbits then placeCommand (BitVec.ofNat 32 w) s else placeUnit nbits w s

end Sys2Proof.Machine
end

