-- ==== Sys2Proof/Safety.lean ====
section
/-! DEFINITION. What a healthy machine is: the invariants of R62, and what a running command keeps true between two
steps (R54, R59, R211, R212, R240, R264, R306); and the words the claims use: bytes of memory and of a stream, bits of
a bitstream, the code units of a sequence of samples. -/

namespace Sys2Proof

open Sys2Proof.Machine

/-- The parameters are in their ranges (R9). -/
def PlatformOk (p : Platform) : Prop := 1 ≤ p.chunkBytes ∧ p.chunkBytes ≤ 65536

/-- R62, the accumulator: `ACC_USED ≤ 32` and `ACC_VAL < 2^ACC_USED`. -/
def AccOk (a : AccRegs) : Prop := a.used.toNat ≤ 32 ∧ a.val.toNat < 2 ^ a.used.toNat

/-- R62, the packer: `BW_USED ≤ 7`, `BW_STAGE < 2^BW_USED`, `BW_EMITTED ≤ BW_CAP`. -/
def PackerOk (b : PackerRegs) : Prop :=
  b.used.toNat ≤ 7 ∧ b.stage.toNat < 2 ^ b.used.toNat ∧ b.emitted.toNat ≤ b.cap.toNat

/-- R62, the unpacker: `BR_USED ≤ 8`, `BR_ACC < 2^BR_USED`, and in FLAT mode `BR_CONSUMED ≤ BR_LIMIT`. -/
def UnpackerOk (b : UnpackerRegs) : Prop :=
  b.used.toNat ≤ 8 ∧ b.acc.toNat < 2 ^ b.used.toNat ∧ (b.mode = .flat → b.consumed.toNat ≤ b.limit.toNat)

/-- R62, the stream unit: `ST_POS ≤ ST_SIZE` and `ST_IDX ≤ ST_FILL ≤ CHUNK_BYTES`. -/
def StreamOk (p : Platform) (t : StreamRegs) : Prop :=
  t.pos.toNat ≤ t.size.toNat ∧ t.idx.toNat ≤ t.fill.toNat ∧ t.fill.toNat ≤ p.chunkBytes

/-- R62, the expander: `EXP_POS ≤ EXP_NSAMPLES` when EXP_STATE is not UNBOUND; EXP_STATE is DONE exactly when it is not
UNBOUND and `EXP_POS = EXP_NSAMPLES`. -/
def ExpanderOk (e : ExpanderRegs) : Prop :=
  (e.state ≠ .unbound → e.pos.toNat ≤ e.nSamples.toNat) ∧
    (e.state = .done ↔ e.state ≠ .unbound ∧ e.pos = e.nSamples)

/-- The invariants of R62 together. -/
def RegistersOk (s : State) : Prop :=
  AccOk s.acc ∧ PackerOk s.bw ∧ UnpackerOk s.br ∧ StreamOk s.plat s.st ∧ ExpanderOk s.exp

/-- A decoding command between two samples: it has samples to go, and LEXPAND has a legal shift and a FLAT unpacker
(R243), or the session has that many samples left (R265). -/
def FrameOk (f : Frame) (s : State) : Prop :=
  f.i.toNat < f.n.toNat ∧
    match f.cmd with
    | .lexpand shift => shift ≤ 15 ∧ s.br.mode = .flat
    | _ => s.exp.state ≠ .unbound ∧ s.exp.pos.toNat + (f.n.toNat - f.i.toNat) ≤ s.exp.nSamples.toNat

/-- A field of `width` bits with `left` of them, at least one, still to read and the others in `r` (R183). -/
def FieldOk (r left width : Nat) : Prop := 1 ≤ left ∧ left ≤ width ∧ r < 2 ^ (width - left)

/-- How far a code unit has been read is a place in R240's order of fields. -/
def PhaseOk (p : UnitPhase) : Prop :=
  match p with
  | .code r left => FieldOk r left 4
  | .sign code => code ≤ 14
  | .mag code _ r left => code ≤ 14 ∧ FieldOk r left (code + 1)
  | .raw r left => FieldOk r left 16

/-- A point at which a command is held by a refill: what is read through the unpacker is held with the accumulator
empty in STREAM mode (R182, R183). -/
def PointOk (p : HoldPoint) (s : State) : Prop :=
  match p with
  | .get | .get16Lo | .get16Hi _ => True
  | .read r left => FieldOk r left 32 ∧ s.br.mode = .stream ∧ s.br.used = 0#4
  | .unit f phase => FrameOk f s ∧ PhaseOk phase ∧ s.br.mode = .stream ∧ s.br.used = 0#4
  | .sampleLo f => FrameOk f s
  | .sampleHi f _ => FrameOk f s

/-- A pending refill (R211, R212): a CHUNK stream whose working buffer is exhausted short of its declared size, asked
from ST_POS on for `1 ≤ REFILL_MAX ≤ CHUNK_BYTES` bytes (R59). -/
def RefillOk (s : State) : Prop :=
  s.st.kind = .chunk ∧ s.st.pos.toNat < s.st.size.toNat ∧ s.st.idx = s.st.fill ∧ s.refill.offset = s.st.pos ∧
    s.refill.max.toNat = refillMax s

/-- What the engine is doing fits the registers. -/
def TaskOk (s : State) : Prop :=
  match s.task with
  | .idle => True
  | .issued _ => True
  | .refill p => RefillOk s ∧ PointOk p s
  | .answered _ p => RefillOk s ∧ PointOk p s
  | .sample f => FrameOk f s

/-- While STATUS.FAULT = 1 only SOFT_RESET runs (R300, R320). -/
def FaultOk (s : State) : Prop := s.fault = true → s.task = .idle ∨ s.task = .issued 1#32

/-- The invariant every step keeps: the parameters in range, memory canonical, CHUNK of CHUNK_BYTES bytes, no buffer
bookkeeping while idle, only SOFT_RESET while faulted, and without a fault the registers of R62 and the running
command in order. After a fault R62 need not hold (R306). -/
def Inv (s : State) : Prop :=
  PlatformOk s.plat ∧ s.mem.wf = true ∧ s.chunk.length = s.plat.chunkBytes ∧ (s.task = .idle → s.raced = .none) ∧
    FaultOk s ∧ (s.fault = false → RegistersOk s ∧ TaskOk s)

/-- A run that is safe in the engine's own terms: no fault was entered (R306) and no host write was dropped (R352: a
host program is correct only if LOST stays 0). -/
def Clean (s : State) : Prop := s.fault = false ∧ s.lost = false

/-! ## Commands in claims -/

/-- The mask and match of the opcode table's 23 command rows, in its order (R114). -/
def commandRows : List (Word × Word) :=
  [(0xFFFFFFFF#32, 0x00000000#32), (0xFFFFFFFF#32, 0x00000001#32), (0xFFFFFFFF#32, 0x00000010#32),
    (0xFFFF00FF#32, 0x00000011#32), (0xFFFF00FF#32, 0x00000012#32), (0xFFFFFFFF#32, 0x00000013#32),
    (0xFFFFFFFF#32, 0x00000020#32), (0xFFFF00FF#32, 0x00000021#32), (0xFFFFFFFF#32, 0x00000022#32),
    (0xFFFFFFFF#32, 0x00000023#32), (0xFFFFFFFF#32, 0x00000030#32), (0xFFFFFFFF#32, 0x00000031#32),
    (0xFFFF00FF#32, 0x00000032#32), (0xFFFFFFFF#32, 0x00000040#32), (0xFFFFFFFF#32, 0x00000041#32),
    (0xFFFFFFFF#32, 0x00000042#32), (0xFFFFFFFF#32, 0x00000043#32), (0xFFFE00FF#32, 0x00000050#32),
    (0xFFFF00FF#32, 0x00000051#32), (0xFF0000FF#32, 0x00000060#32), (0xFFFFFFFF#32, 0x00000061#32),
    (0xFFFFFFFF#32, 0x00000062#32), (0xFFFFFFFF#32, 0x00000063#32)]

/-- A word matches a row of the opcode table (R114). -/
def rowMatches (w : Word) (row : Word × Word) : Bool := w &&& row.1 == row.2

/-- `s` after a fault that was raised before any change of the command with opcode `op` (R306 (a)): cause `cause`,
ERR_INFO 0, and every register but STATUS, ERR and ERR_INFO as it was. -/
def faultedUnchanged (cause : Byte) (op : Byte) (s : State) : State :=
  { s with
    err := { cause := cause, op := op, info := 0#32 }
    fault := true
    exp := { s.exp with state := .unbound }
    task := .idle
    raced := .none }

/-- The opcode of a command held at a point (R113). -/
def pointOp (p : HoldPoint) : Nat :=
  match p with
  | .get => 0x42
  | .get16Lo => 0x43
  | .get16Hi _ => 0x43
  | .read _ _ => 0x32
  | .unit f _ => f.op
  | .sampleLo f => f.op
  | .sampleHi f _ => f.op

/-- The ERR_INFO of a fault of a command that goes on from a point, unless it is BusError: the loop index, and 0 outside
a loop (R305). -/
def pointIndex (p : HoldPoint) : Word :=
  match p with
  | .get => 0#32
  | .get16Lo => 0#32
  | .get16Hi _ => 0#32
  | .read _ _ => 0#32
  | .unit f _ => f.i
  | .sampleLo f => f.i
  | .sampleHi f _ => f.i

/-- `w[7:0]` of the running command (R306); 0 when none runs. -/
def taskOp (t : Task) : Byte :=
  match t with
  | .idle => 0#8
  | .issued w => w.setWidth 8
  | .refill p => BitVec.ofNat 8 (pointOp p)
  | .answered _ p => BitVec.ofNat 8 (pointOp p)
  | .sample f => BitVec.ofNat 8 f.op

/-- ERR_INFO, for every cause but BusError, of a fault of an accepted word before its first refill wait (R305): the index
of a sample inside COMPRESS, LEXPAND, EXP_EXPAND and EXP_EXPAND2, or n for COMPRESS's flush; 0 for their argument
checks, for every other command and for an illegal word. -/
def CommandInfoOk (w : Word) (a : ArgRegs) (e : ErrRegs) : Prop :=
  match decodeCommand w with
  | .ok (.compress _ _) => if e.cause = 3#8 then e.info = 0#32 else e.info.toNat ≤ a.arg1.toNat
  | .ok (.lexpand _) => if e.cause = 3#8 then e.info = 0#32 else e.info.toNat < a.arg2.toNat
  | .ok .expExpand => if e.cause = 3#8 then e.info = 0#32 else e.info.toNat < a.arg1.toNat
  | .ok .expExpand2 => if e.cause = 3#8 then e.info = 0#32 else e.info.toNat < a.arg1.toNat
  | _ => e.info = 0#32

/-- ERR_INFO of a fault of the command running in `s` (R305): for BusError an address the platform refuses, else the index
of the sample the step began with or went on with, or what `CommandInfoOk` says of an accepted word. -/
def InfoOk (s : State) (e : ErrRegs) : Prop :=
  if e.cause = 7#8 then memAdmits s.plat e.info .read = false ∨ memAdmits s.plat e.info .write = false
  else
    match s.task with
    | .issued w => CommandInfoOk w s.args e
    | .answered _ p => e.info = pointIndex p
    | .sample f => e.info = f.i
    | _ => True

/-- `k` steps, stopping at a fault or a refusal of the model. -/
def runSteps : Nat → State → Host.Outcome State Fault Refusal
  | 0, s => .next s
  | k + 1, s =>
    match step s with
    | .next t => runSteps k t
    | .fault r => .fault r
    | .refused r => .refused r

/-! ## Registers in claims -/

/-- The register map of R34 as a host read shows it, but for STAT_HIST and the CHUNK window: each offset with its value,
zero-extended, CTX_PREV1 to CTX_PREV3 sign-extended. -/
def registerMap (s : State) : List (Nat × Word) :=
  [(0x000, 0#32), (0x004, s.statusWord), (0x008, s.err.op.setWidth 32 * 256#32 + s.err.cause.setWidth 32),
    (0x00C, s.err.info), (0x010, s.args.arg0), (0x014, s.args.arg1), (0x018, s.args.arg2), (0x01C, s.args.arg3),
    (0x020, s.result), (0x024, BitVec.ofNat 32 s.plat.chunkBytes), (0x040, s.acc.val),
    (0x044, BitVec.ofNat 32 s.acc.used.toNat), (0x050, s.bw.base), (0x054, s.bw.cap), (0x058, s.bw.emitted),
    (0x05C, BitVec.ofNat 32 s.bw.stage.toNat), (0x060, BitVec.ofNat 32 s.bw.used.toNat),
    (0x070, match s.br.mode with
      | .none => 0#32
      | .flat => 1#32
      | .stream => 2#32),
    (0x074, s.br.base), (0x078, s.br.limit), (0x07C, s.br.consumed), (0x080, BitVec.ofNat 32 s.br.acc.toNat),
    (0x084, BitVec.ofNat 32 s.br.used.toNat),
    (0x090, match s.st.kind with
      | .none => 0#32
      | .mem => 1#32
      | .chunk => 2#32),
    (0x094, s.st.base), (0x098, s.st.size), (0x09C, s.st.pos), (0x0A0, BitVec.ofNat 32 s.st.fill.toNat),
    (0x0A4, BitVec.ofNat 32 s.st.idx.toNat), (0x0B0, BitVec.ofInt 32 s.ctx.prev1.toInt),
    (0x0B4, BitVec.ofInt 32 s.ctx.prev2.toInt), (0x0B8, BitVec.ofInt 32 s.ctx.prev3.toInt), (0x0C0, s.exp.nSamples),
    (0x0C4, s.exp.pos), (0x0C8, BitVec.ofNat 32 s.exp.format.toNat), (0x0CC, BitVec.ofNat 32 s.exp.shift.toNat),
    (0x0D0, s.refill.offset), (0x0D4, BitVec.ofNat 32 s.refill.max.toNat), (0x0D8, 0#32), (0x140, s.stat.esc)]

/-- `s` with ARG0 holding `v`. -/
def withArg0 (v : Word) (s : State) : State := { s with args := { s.args with arg0 := v } }

/-- `s` with ARG0 and ARG1 holding `v` and `w`. -/
def withArgs (v w : Word) (s : State) : State := { s with args := { s.args with arg0 := v, arg1 := w } }

/-- BW_WRITE of each field, its width and its value, in order (R186). -/
def writeFields : List (Nat × Word) → State → Host.Outcome State Fault Refusal
  | [], s => .next s
  | (n, v) :: rest, s =>
    match exec (.bwWrite n) (withArg0 v s) with
    | .next t => writeFields rest t
    | .fault r => .fault r
    | .refused r => .refused r

/-- BR_READ of each field's width, in order, returns the fields' values and ends in `t` (R186). -/
def ReadsBack : List (Nat × Word) → State → State → Prop
  | [], s, t => t = s
  | (n, v) :: rest, s, t => ∃ u, exec (.brRead n) s = .next u ∧ u.result = v ∧ ReadsBack rest u t

/-! ## Memory in claims -/

/-- The byte of memory at address `a` (R82). -/
def byteAt (s : State) (a : Word) : Byte := s.mem.read a.toNat

/-- The `n` bytes of memory from address `a` on, in ascending order (R81). -/
def memoryBytes (m : Memory) : Word → Nat → List Byte
  | _, 0 => []
  | a, n + 1 => m.read a.toNat :: memoryBytes m (a + 1#32) n

/-- The little-endian unsigned value of a list of bytes (R84). -/
def leValue (bytes : List Byte) : Nat := bytes.foldr (fun b v => b.toNat + 256 * v) 0

/-- The memory accepts accesses of kind `k` at every byte of `r` (R9, R82). -/
def Admitted (p : Platform) (k : AccessKind) (r : Span) : Prop :=
  ∀ a : Word, r.has a = true → memAdmits p a k = true

/-- Every byte of memory outside `r` reads in `t` as in `s`. -/
def SameOutside (r : Span) (s t : State) : Prop := ∀ a : Word, r.has a = false → byteAt t a = byteAt s a

/-- `t` is `s` after `bytes` were stored from address `a` on, in ascending order, and nothing else changed (R83). -/
def Stores (a : Word) (bytes : List Byte) (s t : State) : Prop :=
  t = { s with mem := t.mem } ∧ t.mem.wf = true ∧ memoryBytes t.mem a bytes.length = bytes ∧
    SameOutside { base := a, size := bytes.length } s t

/-- The low `k` bytes of `v`, little-endian (R15, R84). -/
def leBytes (k v : Nat) : List Byte := (List.range k).map fun j => BitVec.ofNat 8 (v / 256 ^ j)

/-! ## Bitstreams in claims (R85) -/

/-- The bits of a byte sequence in stream order: bit 7 of each byte first (R85). -/
def bytesBits (bytes : List Byte) : List Bool := bytes.flatMap fun b => bitsMsb 8 b.toNat

/-- The unsigned value of bits read most significant first (R85, R183). -/
def bitsValue (bits : List Bool) : Nat := bits.foldl (fun v b => 2 * v + b.toNat) 0

/-- The bits given to the packer since its binding: those of the emitted bytes, then those in the stage (R160, R163). -/
def packedBits (s : State) : List Bool :=
  bytesBits (memoryBytes s.mem s.bw.base s.bw.emitted.toNat) ++ bitsMsb s.bw.used.toNat s.bw.stage.toNat

/-- Where the packer puts the bytes that `n` more bits complete (R160, R164). -/
def packSpan (n : Nat) (s : State) : Span :=
  { base := s.bw.base + s.bw.emitted, size := (s.bw.used.toNat + n) / 8 }

/-- The packer can take `n` more bits: the bytes they complete fit the capacity and the memory (R162, R163). -/
def CanPack (n : Nat) (s : State) : Prop :=
  PackerOk s.bw ∧ s.bw.emitted.toNat + (s.bw.used.toNat + n) / 8 ≤ s.bw.cap.toNat ∧
    Admitted s.plat .write (packSpan n s)

/-- `t` is `s` after the packer took the bits `bits`, no more and no less, and nothing else changed (R160, R163). -/
def Packs (bits : List Bool) (s t : State) : Prop :=
  t = { s with mem := t.mem, bw := t.bw } ∧ packedBits t = packedBits s ++ bits ∧
    t.bw.base = s.bw.base ∧ t.bw.cap = s.bw.cap ∧
    t.bw.emitted.toNat = s.bw.emitted.toNat + (s.bw.used.toNat + bits.length) / 8 ∧
    t.bw.used.toNat = (s.bw.used.toNat + bits.length) % 8 ∧
    PackerOk t.bw ∧ t.mem.wf = true ∧ SameOutside (packSpan bits.length s) s t

/-- The bytes the stream unit delivers next without a refill (R211): a MEM stream's rest, or the buffered bytes of a
CHUNK stream short of its declared size. -/
def streamBytes (s : State) : List Byte :=
  match s.st.kind with
  | .none => []
  | .mem => memoryBytes s.mem (s.st.base + s.st.pos) (s.st.size.toNat - s.st.pos.toNat)
  | .chunk =>
    (s.chunk.drop s.st.idx.toNat).take
      (min (s.st.fill.toNat - s.st.idx.toNat) (s.st.size.toNat - s.st.pos.toNat))

/-- The stream unit delivers its next `n` bytes without a refill and without a fault (R211). -/
def CanGet (n : Nat) (s : State) : Prop := n ≤ (streamBytes s).length ∧ Admitted s.plat .read (streamSpan n s)

/-- The stream registers after `k` bytes were delivered without a refill (R211). -/
def StreamRegs.moved (k : Nat) (t : StreamRegs) : StreamRegs :=
  match t.kind with
  | .chunk => { t with pos := t.pos + BitVec.ofNat 32 k, idx := t.idx + BitVec.ofNat 17 k }
  | _ => { t with pos := t.pos + BitVec.ofNat 32 k }

/-- `t` is `s` after the stream unit delivered `bytes` without a refill, and nothing else changed (R211). -/
def Gets (bytes : List Byte) (s t : State) : Prop :=
  t = { s with st := StreamRegs.moved bytes.length s.st } ∧ streamBytes s = bytes ++ streamBytes t

/-- A CHUNK stream whose declared size goes on past the bytes it has buffered: the byte after those needs a refill
(R211). -/
def MoreToCome (s : State) : Prop :=
  s.st.kind = .chunk ∧ StreamOk s.plat s.st ∧ s.chunk.length = s.plat.chunkBytes ∧
    s.st.pos.toNat + (s.st.fill.toNat - s.st.idx.toNat) < s.st.size.toNat

/-- A stream that ends with the bytes it delivers without a refill (R211): not bound, in memory, or a CHUNK stream that
has buffered all of its declared size. -/
def StreamEnds (s : State) : Prop :=
  match s.st.kind with
  | .none => True
  | .mem => s.st.pos.toNat ≤ s.st.size.toNat
  | .chunk =>
    StreamOk s.plat s.st ∧ s.chunk.length = s.plat.chunkBytes ∧
      s.st.size.toNat ≤ s.st.pos.toNat + (s.st.fill.toNat - s.st.idx.toNat)

/-- `s` asks for a refill and is held at `p` (R211, R212): REFILL_OFFSET is ST_POS and REFILL_MAX is min(CHUNK_BYTES,
ST_SIZE − ST_POS). -/
def heldAt (p : HoldPoint) (s : State) : State :=
  { s with
    refill := { offset := s.st.pos, max := BitVec.ofNat 17 (min s.plat.chunkBytes (s.st.size.toNat - s.st.pos.toNat)) }
    task := .refill p }

/-- The stream unit after a refill of `k` bytes whose first byte, CHUNK[0], was delivered (R211, R212). -/
def refilled (k : Word) (s : State) : State :=
  { s with st := { s.st with fill := k.setWidth 17, idx := 1#17, pos := s.st.pos + 1#32 } }

/-- The unpacker after it fetched byte `b` (R182, R183). -/
def loaded (b : Byte) (s : State) : State :=
  { s with br := { s.br with consumed := s.br.consumed + 1#32, acc := b, used := 8#4 } }

/-- A CHUNK stream in step with its backing medium: what the working buffer still holds are the medium's bytes from
ST_POS on (R217, R218). -/
def InStep (medium : List Byte) (s : State) : Prop :=
  s.st.kind = .chunk ∧ StreamOk s.plat s.st ∧ s.chunk.length = s.plat.chunkBytes ∧
    ∀ j, j < s.st.fill.toNat - s.st.idx.toNat →
      s.st.pos.toNat + j < medium.length ∧
        s.chunk.getD (s.st.idx.toNat + j) 0#8 = medium.getD (s.st.pos.toNat + j) 0#8

/-- The bits the unpacker holds (R183). -/
def heldBits (s : State) : List Bool := bitsMsb s.br.used.toNat s.br.acc.toNat

/-- The bytes the unpacker fetches next without a refill (R182). -/
def sourceBytes (s : State) : List Byte :=
  match s.br.mode with
  | .none => []
  | .flat => memoryBytes s.mem (s.br.base + s.br.consumed) (s.br.limit.toNat - s.br.consumed.toNat)
  | .stream => streamBytes s

/-- The bits the unpacker delivers next without a refill (R183). -/
def sourceBits (s : State) : List Bool := heldBits s ++ bytesBits (sourceBytes s)

/-- How many bytes a request of `n` bits fetches: `max(0, ceil((n − BR_USED) / 8))` (R183). -/
def fetchCount (n : Nat) (s : State) : Nat := (n - s.br.used.toNat + 7) / 8

/-- The unpacker delivers its next `n` bits without a refill and without a fault, and BR_CONSUMED stays a 32-bit count
(R182, R183; log 16). -/
def CanRead (n : Nat) (s : State) : Prop :=
  n ≤ (sourceBits s).length ∧ Admitted s.plat .read (fetchSpan (fetchCount n s) s) ∧
    s.br.consumed.toNat + fetchCount n s < 4294967296

/-- `t` is `s` after the unpacker delivered the bits `bits` without a refill, and nothing else changed: the bytes
fetched came from the bound source, and from the stream unit in STREAM mode (R182, R183, R211). -/
def Reads (bits : List Bool) (s t : State) : Prop :=
  t = { s with br := t.br, st := t.st } ∧ sourceBits s = bits ++ sourceBits t ∧
    t.br.mode = s.br.mode ∧ t.br.base = s.br.base ∧ t.br.limit = s.br.limit ∧
    t.br.consumed.toNat = s.br.consumed.toNat + fetchCount bits.length s ∧
    t.br.used.toNat + bits.length = s.br.used.toNat + 8 * fetchCount bits.length s ∧
    t.st = (if s.br.mode = .stream then StreamRegs.moved (fetchCount bits.length s) s.st else s.st) ∧
    (UnpackerOk s.br → UnpackerOk t.br)

/-- Where the bytes the unpacker fetches next lie in memory (R88). -/
def sourceSpan (s : State) : Span :=
  match s.br.mode with
  | .none => Span.empty
  | .flat => { base := s.br.base + s.br.consumed, size := s.br.limit.toNat - s.br.consumed.toNat }
  | .stream => undelivered s

/-! ## Samples in claims -/

/-- The bytes a decoding command stores for the reconstructed sample `y` (R243, R265, R266). -/
def sampleOutput (cmd : DecodeCmd) (y : Int) : List Byte :=
  match cmd with
  | .expand2 vol => leBytes 4 (lowBits 32 (y * vol.toNat)) ++ leBytes 4 (lowBits 32 (y * vol.toNat))
  | _ => leBytes 2 (lowBits 16 y)

/-- The code unit R236 gives the quantised sample `x`. -/
def sampleUnit (c : ContextRegs) (x : Int) : CodeUnit :=
  let delta := x - c.guess
  if bitsNeededOf delta.natAbs ≤ 15 then .normal (bitsNeededOf delta.natAbs - 1) (0 ≤ delta) delta.natAbs
  else .escape (lowBits 16 x)

/-- The expander's registers after `k` samples of a decoding command (R243, R261, R265). -/
def expAfter (cmd : DecodeCmd) (k : Nat) (e : ExpanderRegs) : ExpanderRegs :=
  match cmd, k with
  | .lexpand _, _ => e
  | _, 0 => e
  | _, k + 1 =>
    { e with
      pos := e.pos + BitVec.ofNat 32 (k + 1)
      state := if e.pos + BitVec.ofNat 32 (k + 1) = e.nSamples then .done else .active }

/-- The code units of a sequence of quantised samples from Context `c` on (R232, R236). -/
def sampleUnits (c : ContextRegs) : List Int → List CodeUnit
  | [] => []
  | x :: xs => sampleUnit c x :: sampleUnits (c.push x) xs

/-- The Context after a sequence of quantised samples (R232). -/
def pushAll (c : ContextRegs) (xs : List Int) : ContextRegs := xs.foldl (fun c x => c.push x) c

/-- A code unit as its encoding can hold it (R118, R119). -/
def CodeUnit.Fits (u : CodeUnit) : Prop :=
  match u with
  | .normal code _ mag => code ≤ 14 ∧ mag < 2 ^ (code + 1)
  | .escape raw => raw < 2 ^ 16

/-- The bits of a code unit in stream order: its opcode-table row's encoding (R118, R119). -/
def CodeUnit.bits (u : CodeUnit) : List Bool :=
  match encode u.instr with
  | .command _ => []
  | .unit bits => bits

/-- The bitstream of a sequence of code units: one after the other, no alignment (R117). -/
def unitsBits (us : List CodeUnit) : List Bool := us.flatMap CodeUnit.bits

/-- The quantised samples that a sequence of code units decodes to from Context `c` on (R240, R232). -/
def unitSamples (c : ContextRegs) : List CodeUnit → List Int
  | [] => []
  | u :: us => unitSample u c :: unitSamples (c.push (unitSample u c)) us

/-- The `n` raw samples at `a`: two bytes each, little-endian two's complement (R84, R238). -/
def rawSamples (m : Memory) (a : Word) (n : Nat) : List Int :=
  (List.range n).map fun i => sext16 (leValue (memoryBytes m (a + BitVec.ofNat 32 (2 * i)) 2))

/-- The code of a code unit (R118, R119). -/
def CodeUnit.code (u : CodeUnit) : Nat :=
  match u with
  | .normal code _ _ => code
  | .escape _ => 15

/-- The statistics of a sequence of code units (R61, R245): how many units each code has, and how many escapes. -/
def unitsStat (us : List CodeUnit) : StatRegs :=
  { hist := Vector.ofFn fun k => BitVec.ofNat 32 (us.countP fun u => u.code == k.val)
    esc := BitVec.ofNat 32 (us.countP fun u => u.code == 15) }

/-- The bits of the current code unit that were read before a hold (R240). -/
def phaseBits (p : UnitPhase) : List Bool :=
  match p with
  | .code r left => bitsMsb (4 - left) r
  | .sign code => bitsMsb 4 code
  | .mag code sign r left => bitsMsb 4 code ++ sign :: bitsMsb (code + 1 - left) r
  | .raw r left => bitsMsb 4 15 ++ bitsMsb (16 - left) r

/-- The loop of frame `f` after its current sample (R243, R265, R266): the next sample, or completion with BR_CONSUMED or
EXP_POS in RESULT. -/
def afterSample (f : Frame) (s : State) : State :=
  if f.i + 1#32 = f.n then
    { s with
      result := match f.cmd with
        | .lexpand _ => s.br.consumed
        | _ => s.exp.pos
      task := .idle }
  else { s with task := .sample { f with i := f.i + 1#32 } }

/-- The samples of a format-0 stream: two bytes each, little-endian two's complement (R214, R264). -/
def byteSamples : List Byte → List Int
  | lo :: hi :: rest => sext16 (get16Value lo hi) :: byteSamples rest
  | _ => []

/-- The quantised samples COMPRESS codes (R234, R238). -/
def compressInput (sh : Nat) (s : State) : List Int :=
  (rawSamples s.mem s.args.arg0 s.args.arg1.toNat).map fun r => asr r sh

end Sys2Proof
end

