-- ==== Sys2Proof/Certificates/Slice0/Obligations.lean ====
section
/-! DEFINITION. The statements for the provers: what the rules of spec/ say the machine does. -/

section

open Sys2Proof Sys2Proof.Machine

/-! ## Encodings (30_encoding.md) -/

/-- R110 to R119: decoding an encoded well-formed instruction gives it back, for all 39 rows and every operand. -/
def Obligations.DecodeEncodeRoundTrip : Prop := ∀ i : Instr, WellFormed i = true → decode (encode i) = .ok i

/-- R110 to R113: a word that decodes is the encoding of the one well-formed command it decodes to. -/
def Obligations.EncodeDecodeCommand : Prop :=
  ∀ (w : Word) (i : Instr), decodeCommand w = .ok i → WellFormed i = true ∧ encode i = .command w

/-- R114 and R303: a word is legal exactly if one row's mask and match accept it, never more than one does, and the
word accepted by none raises IllegalCommand, with OP = w[7:0], before any other change. -/
def Obligations.LegalWordsMatchOneRow : Prop :=
  ∀ w : Word,
    (commandRows.filter (rowMatches w)).length ≤ 1 ∧
    ((∃ i, decodeCommand w = .ok i) ↔ (commandRows.filter (rowMatches w)).length = 1) ∧
    ∀ s : State, s.task = .issued w → s.host = [] → (commandRows.filter (rowMatches w)).length = 0 →
      step s = .next (faultedUnchanged 5#8 (w.setWidth 8) s)

/-- R120: the first four bits c tell a unit's length, 6 + c bits or 20; a shorter sequence is no unit; a long enough one
gives the instruction that those bits encode, and the bits after them. -/
def Obligations.UnitLengthFromCode : Prop :=
  ∀ bits : List Bool, 4 ≤ bits.length →
    let c := bitsValue (bits.take 4)
    let len := if c = 15 then 20 else 6 + c
    c ≤ 15 ∧ len ≤ 20 ∧
    (bits.length < len → decodeUnit bits = .error .unitTruncated) ∧
    (len ≤ bits.length → ∃ i, decodeUnit bits = .ok (i, bits.drop len) ∧ WellFormed i = true ∧
      encode i = .unit (bits.take len))

/-- The example words of R125 and units of R122 and R246 decode to what the spec says they are. -/
def Obligations.SpecWordsDecode : Prop :=
  decodeCommand 0x00000521#32 = .ok (.bwWrite 5) ∧ decodeCommand 0x00002011#32 = .ok (.accPush 32) ∧
  decodeCommand 0x00010260#32 = .ok (.expInit 2 1) ∧ decodeCommand 0x00010050#32 = .ok (.compress 0 true) ∧
  decode (.unit [false, true, true, false, true, true, true, false, false, true, false, false]) = .ok (.cuD7 true 100) ∧
  decode (.unit [false, false, false, false, true, false]) = .ok (.cuD1 true 0) ∧
  decode (.unit [true, true, true, true, true, false, false, false, false, false, false, false, false, false, false,
    false, false, false, false, false]) = .ok (.cuEsc 32768)

/-! ## Steps -/

/-- R300: in the engine's turn an accepted legal word is executed: the step is `exec` of its instruction. That the whole
command, up to its first refill wait, is one turn of the engine after the CMD write is the model's choice (log 7), which
R11 permits. With accesses to come, `foreseen` notes what other agents will do with the command's bytes (R351, log 14):
nothing is touched, and nothing drawn first, when they store nothing later. -/
def Obligations.StepRunsIssuedCommand : Prop :=
  ∀ (s : State) (w : Word) (i : Instr), s.task = .issued w → decodeCommand w = .ok i →
    (s.host = [] → step s = exec i s) ∧
    ∀ rest, s.host = .engine :: rest →
      (∃ touched k, step s = exec i (State.foreseen touched (State.drawn k { s with host := rest }))) ∧
      ((∀ a b, Access.store a b ∉ rest) → step s = exec i (State.foreseen [] { s with host := rest }))

/-- R240, R117: between two samples of a decoding command the step reads the code unit its source begins with, and is
`exec` of that instruction in the state after the read. That a code unit is an instruction, which one step reads and
executes, is the model's choice (log 8, log 7); R240 gives the effect. -/
def Obligations.StepRunsCodeUnit : Prop :=
  ∀ (s : State) (f : Frame) (i : Instr) (bits rest : List Bool),
    s.task = .sample f → s.host = [] → f.isRaw s = false → s.raced = .none →
    sourceBits s = bits ++ rest → decodeUnit (sourceBits s) = .ok (i, rest) → CanRead bits.length s →
    ∃ t, Reads bits s t ∧ sourceBits t = rest ∧ step s = exec i t

/-- R300: what a host write of CMD does, at once: dropped with LOST while busy, or while faulted unless it is SOFT_RESET;
else the word is accepted. That an accepted word is only kept at first, with BUSY = 1 and nothing run until the engine's
next turn, is the model's choice (log 7). -/
def Obligations.CommandIssue : Prop :=
  ∀ (s : State) (w : Word) (rest : List Access), s.host = .write s.plat.regBase w :: rest →
    (s.busy = true → step s = .next { s with host := rest, lost := true }) ∧
    (s.busy = false → s.fault = true → w ≠ 1#32 → step s = .next { s with host := rest, lost := true }) ∧
    (s.busy = false → s.fault = false ∨ w = 1#32 →
      step s = .next { s with host := rest, task := .issued w })

/-- R64: a host write to CMD or ARG0 to ARG3 while BUSY = 1 changes nothing but LOST. The other three writes follow
`StatusWrite`, `RefillCountWrite` and `ChunkWindow`. -/
def Obligations.BusyWritesDropped : Prop :=
  ∀ (s : State) (off : Nat) (v : Word) (rest : List Access), off ∈ [0x000, 0x010, 0x014, 0x018, 0x01C] →
    s.host = .write (s.plat.regBase + BitVec.ofNat 32 off) v :: rest → s.busy = true →
    step s = .next { s with host := rest, lost := true }

/-- R39: a host write of an ARG register while not busy sets it and nothing else, and a read then returns it. -/
def Obligations.ArgWriteAndRead : Prop :=
  ∀ (s : State) (v : Word) (rest : List Access), s.busy = false →
    (s.host = .write (s.plat.regBase + 0x10#32) v :: .read (s.plat.regBase + 0x10#32) :: rest →
      ∃ t, step s = .next t ∧ t = { s with host := t.host, args := { s.args with arg0 := v } } ∧
        step t = .next { t with host := rest, rdata := v }) ∧
    (s.host = .write (s.plat.regBase + 0x14#32) v :: .read (s.plat.regBase + 0x14#32) :: rest →
      ∃ t, step s = .next t ∧ t = { s with host := t.host, args := { s.args with arg1 := v } } ∧
        step t = .next { t with host := rest, rdata := v }) ∧
    (s.host = .write (s.plat.regBase + 0x18#32) v :: .read (s.plat.regBase + 0x18#32) :: rest →
      ∃ t, step s = .next t ∧ t = { s with host := t.host, args := { s.args with arg2 := v } } ∧
        step t = .next { t with host := rest, rdata := v }) ∧
    (s.host = .write (s.plat.regBase + 0x1C#32) v :: .read (s.plat.regBase + 0x1C#32) :: rest →
      ∃ t, step s = .next t ∧ t = { s with host := t.host, args := { s.args with arg3 := v } } ∧
        step t = .next { t with host := rest, rdata := v })

/-- R36: a host write of STATUS clears LOST if bit 3 is 1 and does nothing else, busy or not; a read of STATUS returns
BUSY, FAULT, REFILL_REQ, LOST and EXP_STATE in their bits, and zeros above. A read with BUSY = 0 ends the window
of R351 of the commands before it (log 14). -/
def Obligations.StatusWriteAndRead : Prop :=
  ∀ (s : State) (v : Word) (rest : List Access),
    (s.host = .write (s.plat.regBase + 4#32) v :: rest →
      step s = .next { s with host := rest, lost := s.lost && !v.getLsbD 3 }) ∧
    (s.host = .read (s.plat.regBase + 4#32) :: rest → ∃ r : Word,
      step s = .next { s with host := rest, rdata := r, unread := if s.busy then s.unread else [] } ∧
        r.getLsbD 0 = s.busy ∧ r.getLsbD 1 = s.fault ∧ r.getLsbD 2 = s.refillReq ∧ r.getLsbD 3 = s.lost ∧
        (r >>> 4).toNat = s.exp.state.code ∧ s.exp.state.code ≤ 3)

/-- R33, R34, R63: a host register read changes nothing but the value returned (with the count of free values drawn and
the bytes noted for R351); it returns the value of the register map of R34, when not busy or for a register that R63 lets a
host read while busy; an offset that names no register reads 0; a write to a read-only register, or to an offset that
names no register, is ignored; an access that is not 4-byte aligned or not 32 bits wide is refused. -/
def Obligations.RegisterReads : Prop :=
  ∀ (s : State) (addr : Word) (bytes : Nat) (rest : List Access),
    (s.host = .read addr :: rest → aligned s.plat addr = true →
      ∃ t, step s = .next t ∧ t = { s with host := rest, rdata := t.rdata, draws := t.draws, unread := t.unread } ∧
        (s.busy = false → t.draws = s.draws) ∧
        (readRegister (offsetOf s.plat addr) s = none → t.rdata = 0#32)) ∧
    (s.host = .read addr :: rest ∨ (∃ v, s.host = .write addr v :: rest) → aligned s.plat addr = false →
      step s = .refused (.hostAccess addr 4)) ∧
    (s.host = .otherWidth addr bytes :: rest → step s = .refused (.hostAccess addr bytes)) ∧
    (∀ (off : Nat) (v : Word), (off, v) ∈ registerMap s → s.host = .read (s.plat.regBase + BitVec.ofNat 32 off) :: rest →
      s.busy = false ∨ off ∈ [0x004, 0x010, 0x014, 0x018, 0x01C, 0x024, 0x0D0, 0x0D4] →
      ∃ t, step s = .next t ∧ t = { s with host := rest, rdata := v, unread := t.unread }) ∧
    (∀ k : Fin 16, s.busy = false → s.host = .read (s.plat.regBase + BitVec.ofNat 32 (256 + 4 * k.val)) :: rest →
      step s = .next { s with host := rest, rdata := s.stat.hist[k] }) ∧
    (∀ (off : Nat) (v : Word), off < 4294967296 → off % 4 = 0 →
      off ∉ [0x000, 0x004, 0x010, 0x014, 0x018, 0x01C, 0x0D8] → isChunkOffset s.plat off = false →
      s.host = .write (s.plat.regBase + BitVec.ofNat 32 off) v :: rest → step s = .next { s with host := rest })

/-- R55: a host write of CHUNK window word j sets, in a refill wait, exactly its bytes of index below REFILL_MAX, and
does nothing otherwise; a read of the word returns its bytes, 0 for an index of CHUNK_BYTES or more. -/
def Obligations.ChunkWindow : Prop :=
  ∀ (s : State) (j : Nat) (v : Word) (rest : List Access), PlatformOk s.plat → s.chunk.length = s.plat.chunkBytes →
    4 * j < s.plat.chunkBytes →
    (s.host = .write (s.plat.regBase + BitVec.ofNat 32 (4096 + 4 * j)) v :: rest →
      ∃ c, step s = .next { s with host := rest, chunk := c } ∧ c.length = s.chunk.length ∧
        ∀ k, k < s.chunk.length → c.getD k 0#8 =
          if s.refillReq = true ∧ k / 4 = j ∧ k < s.refill.max.toNat then (v >>> (8 * (k % 4))).setWidth 8
          else s.chunk.getD k 0#8) ∧
    (s.host = .read (s.plat.regBase + BitVec.ofNat 32 (4096 + 4 * j)) :: rest →
      ∃ r : Word, step s = .next { s with host := rest, rdata := r } ∧
        ∀ b, b < 4 → (r >>> (8 * b)).setWidth 8 = s.chunk.getD (4 * j + b) 0#8)

/-- R60, R213: a host write of REFILL_COUNT answers the pending refill with that many bytes, ends REFILL_REQ and leaves
BUSY; with no refill pending it does nothing, and LOST stays. -/
def Obligations.RefillCountWrite : Prop :=
  ∀ (s : State) (k : Word) (rest : List Access), s.host = .write (s.plat.regBase + 0xD8#32) k :: rest →
    (∀ p, s.task = .refill p → ∃ t, step s = .next t ∧ t = { s with host := rest, task := .answered k p } ∧
      t.refillReq = false ∧ t.busy = true) ∧
    (s.refillReq = false → step s = .next { s with host := rest })

/-! ## Engine control and reset (46_engine_control.md, 70_reset_and_hazards.md) -/

/-- R290: NOP completes and changes nothing. -/
def Obligations.NopChangesNothing : Prop := ∀ s : State, exec .nop s = .next { s with task := .idle, raced := .none }

/-- R341, R291: SOFT_RESET gives the state of hardware reset but for ARG0 to ARG3, CHUNK and memory, which it keeps;
while BUSY = 1 it is dropped. -/
def Obligations.SoftResetState : Prop :=
  ∀ s : State,
    exec .softReset s = .next { State.resetOn s.plat with
      args := s.args, chunk := s.chunk, mem := s.mem, host := s.host, rdata := s.rdata, draws := s.draws
      unread := s.unread } ∧
    ∀ rest, s.host = .write s.plat.regBase 1#32 :: rest → s.busy = true →
      step s = .next { s with host := rest, lost := true }

/-- R340: hardware reset gives every register its reset value, whatever ran; memory stays and CHUNK has CHUNK_BYTES
bytes (free ones, log 5). -/
def Obligations.HardwareReset : Prop :=
  ∀ (s : State) (rest : List Access), s.host = .hardwareReset :: rest →
    ∃ t, step s = .next t ∧ t.chunk.length = s.plat.chunkBytes ∧
      t = { State.resetOn s.plat with
        chunk := t.chunk, mem := s.mem, host := rest, rdata := s.rdata, draws := t.draws } ∧
      t.statusWord = 0#32 ∧ t.errWord = 0#32 ∧ t.err.info = 0#32 ∧ t.args = .zero ∧ t.result = 0#32 ∧
      t.acc = .zero ∧ t.bw = .zero ∧ t.br = .zero ∧ t.st = .zero ∧ t.ctx = .zero ∧ t.exp = .zero ∧
      t.refill = .zero ∧ t.stat = .zero ∧ t.task = .idle

/-- R320: FAULT goes from 1 to 0 only when the engine runs SOFT_RESET or the platform asserts hardware reset. -/
def Obligations.FaultExit : Prop :=
  ∀ s t : State, step s = .next t → s.fault = true → t.fault = false →
    (s.task = .issued 1#32 ∧ (s.host = [] ∨ ∃ rest, s.host = .engine :: rest)) ∨
      ∃ rest, s.host = .hardwareReset :: rest

/-! ## The bit accumulator (40_bit_accumulator.md) -/

/-- R142: ACC_CLEAR empties the accumulator and changes nothing else. -/
def Obligations.AccClearEmpties : Prop :=
  ∀ s : State, exec .accClear s = .next { s with acc := { val := 0#32, used := 0#6 }, task := .idle, raced := .none }

/-- R143: ACC_PUSH n appends the n bits of ARG0 and changes nothing else, or, when n > 32, the bits would not fit the
accumulator or the value not the bits, raises OutOfBounds before any change. -/
def Obligations.AccPush : Prop :=
  ∀ (n : Nat) (s : State), AccOk s.acc →
    (32 < n ∨ 32 < s.acc.used.toNat + n ∨ (n < 32 ∧ 2 ^ n ≤ s.args.arg0.toNat) →
      exec (.accPush n) s = .next (faultedUnchanged 3#8 0x11#8 s)) ∧
    (n ≤ 32 → s.acc.used.toNat + n ≤ 32 → n = 32 ∨ s.args.arg0.toNat < 2 ^ n →
      ∃ a : AccRegs, exec (.accPush n) s = .next { s with acc := a, task := .idle, raced := .none } ∧
        a.val.toNat = s.acc.val.toNat * 2 ^ n + s.args.arg0.toNat ∧ a.used.toNat = s.acc.used.toNat + n)

/-- R144: ACC_POP n returns the oldest n bits in RESULT, keeps the others and changes nothing else, or, when n > 32 or
n > ACC_USED, raises OutOfBounds before any change. -/
def Obligations.AccPop : Prop :=
  ∀ (n : Nat) (s : State), AccOk s.acc →
    (32 < n ∨ s.acc.used.toNat < n → exec (.accPop n) s = .next (faultedUnchanged 3#8 0x12#8 s)) ∧
    (n ≤ s.acc.used.toNat → ∃ (a : AccRegs) (r : Word),
      exec (.accPop n) s = .next { s with acc := a, result := r, task := .idle, raced := .none } ∧
        r.toNat = s.acc.val.toNat / 2 ^ (s.acc.used.toNat - n) ∧
        a.val.toNat = s.acc.val.toNat % 2 ^ (s.acc.used.toNat - n) ∧ a.used.toNat = s.acc.used.toNat - n)

/-- R141, R145: BITS_NEEDED puts in RESULT the smallest n in [1, 32] with ARG0 < 2^n, max(1, bitlength), and changes
nothing else. -/
def Obligations.BitsNeededIsLeast : Prop :=
  ∀ s : State, ∃ r : Word, exec .bitsNeeded s = .next { s with result := r, task := .idle, raced := .none } ∧
    1 ≤ r.toNat ∧ r.toNat ≤ 32 ∧ s.args.arg0.toNat < 2 ^ r.toNat ∧
    ∀ n, 1 ≤ n → s.args.arg0.toNat < 2 ^ n → r.toNat ≤ n

/-- R146: with u older bits, pushes of a and b are popped after them, in order, and the accumulator is empty again. -/
def Obligations.AccQueueLaw : Prop :=
  ∀ (s : State) (n1 n2 : Nat) (a b : Word), AccOk s.acc → s.acc.used.toNat + n1 + n2 ≤ 32 →
    a.toNat < 2 ^ n1 → b.toNat < 2 ^ n2 →
    ∃ s1, exec (.accPush n1) (withArg0 a s) = .next s1 ∧
    ∃ s2, exec (.accPush n2) (withArg0 b s1) = .next s2 ∧
    ∃ s3, exec (.accPop s.acc.used.toNat) s2 = .next s3 ∧ s3.result = s.acc.val ∧
    ∃ s4, exec (.accPop n1) s3 = .next s4 ∧ s4.result = a ∧
    ∃ s5, exec (.accPop n2) s4 = .next s5 ∧ s5.result = b ∧ s5.acc = { val := 0#32, used := 0#6 }

/-! ## The bit packer (41_bit_packer.md) -/

/-- R163, R164: BW_WRITE n appends the n bits of ARG0, most significant first: completed bytes go to memory in order,
and nothing else changes. -/
def Obligations.BwWriteAppends : Prop :=
  ∀ (n : Nat) (s : State), n ≤ 32 → n = 32 ∨ s.args.arg0.toNat < 2 ^ n → CanPack n s → s.raced = .none →
    s.mem.wf = true →
    ∃ t, exec (.bwWrite n) s = .next { t with task := .idle } ∧ Packs (bitsMsb n s.args.arg0.toNat) s t

/-- R164, R162, R306, R307: BW_WRITE raises OutOfBounds before any change when n > 32 or the value does not fit; when the
completed bytes pass BW_CAP it raises BufferOverflow, the bytes that fit are written, and every register outside the
write set keeps its value. That exactly those bytes change is R306 and R307, taken against file 93's table (log 12). A
refused byte is `BusErrorRaised`. -/
def Obligations.BwWriteFaults : Prop :=
  ∀ (n : Nat) (s : State),
    (32 < n ∨ (n < 32 ∧ 2 ^ n ≤ s.args.arg0.toNat) →
      exec (.bwWrite n) s = .next (faultedUnchanged 3#8 0x21#8 s)) ∧
    (n ≤ 32 → n = 32 ∨ s.args.arg0.toNat < 2 ^ n → PackerOk s.bw → s.raced = .none → s.mem.wf = true →
      s.bw.cap.toNat < s.bw.emitted.toNat + (s.bw.used.toNat + n) / 8 →
      Admitted s.plat .write
        { base := s.bw.base + s.bw.emitted, size := s.bw.cap.toNat - s.bw.emitted.toNat } →
      ∃ (k : Nat) (t u : State), exec (.bwWrite n) s = .next t ∧
        s.bw.used.toNat + k = 8 * (s.bw.cap.toNat - s.bw.emitted.toNat) + 7 ∧
        Packs ((bitsMsb n s.args.arg0.toNat).take k) s u ∧ u.bw.emitted = s.bw.cap ∧
        t = { faultedUnchanged 1#8 0x21#8 s with
          mem := u.mem, draws := t.draws
          bw := { s.bw with emitted := t.bw.emitted, stage := t.bw.stage, used := t.bw.used } })

/-- R165: BW_CLOSE pads the pending bits with zeros to a byte, writes it if there are any, and puts the byte count in
RESULT; nothing else changes. -/
def Obligations.BwCloseFlushes : Prop :=
  ∀ s : State, CanPack ((8 - s.bw.used.toNat) % 8) s → s.raced = .none → s.mem.wf = true →
    ∃ t, Packs (List.replicate ((8 - s.bw.used.toNat) % 8) false) s t ∧ t.bw.used = 0#4 ∧ t.bw.stage = 0#8 ∧
      exec .bwClose s = .next { t with result := t.bw.emitted, task := .idle }

/-- R165, R162: BW_CLOSE with a pending byte and a full destination raises BufferOverflow and writes nothing. -/
def Obligations.BwCloseOverflows : Prop :=
  ∀ s : State, s.bw.used ≠ 0#4 → s.bw.emitted = s.bw.cap → ∃ t, exec .bwClose s = .next t ∧
    t = { faultedUnchanged 1#8 0x22#8 s with
      draws := t.draws, result := t.result
      bw := { s.bw with emitted := t.bw.emitted, stage := t.bw.stage, used := t.bw.used } }

/-- R166: BW_LENGTH puts in RESULT the bytes emitted, one more for a pending partial byte, and changes nothing else. -/
def Obligations.BwLengthCounts : Prop :=
  ∀ s : State, s.bw.emitted.toNat + (if s.bw.used = 0#4 then 0 else 1) < 4294967296 →
    ∃ r : Word, exec .bwLength s = .next { s with result := r, task := .idle, raced := .none } ∧
      r.toNat = s.bw.emitted.toNat + (if s.bw.used = 0#4 then 0 else 1)

/-- R186: fields written through a fresh packer and closed are read back in order by a FLAT unpacker over the bytes
written, which then has fetched every byte and holds only zero padding bits. -/
def Obligations.PackUnpackRoundTrip : Prop :=
  ∀ (fields : List (Nat × Word)) (s : State),
    let len := ((fields.map Prod.fst).sum + 7) / 8
    s.bw = { s.bw with emitted := 0#32, stage := 0#8, used := 0#4 } → (∀ f ∈ fields, f.1 ≤ 32 ∧ f.2.toNat < 2 ^ f.1) →
    len ≤ s.bw.cap.toNat → Admitted s.plat .write { base := s.bw.base, size := len } →
    Admitted s.plat .read { base := s.bw.base, size := len } → s.raced = .none → s.mem.wf = true →
    ∃ s1, writeFields fields s = .next s1 ∧ ∃ s2, exec .bwClose s1 = .next s2 ∧ s2.result.toNat = len ∧
    ∃ s3, exec .brInitFlat (withArgs s.bw.base s2.result s2) = .next s3 ∧
    ∃ s4, ReadsBack fields s3 s4 ∧ s4.br.consumed.toNat = len ∧
      s4.br.used.toNat = (8 - (fields.map Prod.fst).sum % 8) % 8 ∧ s4.br.acc = 0#8

/-! ## The unpacker and the stream unit (42_bit_unpacker.md, 43_stream.md) -/

/-- R161, R181, R184, R201, R202, R262: the five binding commands set their unit's registers as their pseudocode says; those
of the unpacker and the stream unit end the session; nothing else changes. -/
def Obligations.BindingCommands : Prop :=
  ∀ s : State,
    exec .bwInit s = .next { s with
      bw := { base := s.args.arg0, cap := s.args.arg1, emitted := 0#32, stage := 0#8, used := 0#4 }
      task := .idle, raced := .none } ∧
    exec .brInitFlat s = .next { s with
      br := { mode := .flat, base := s.args.arg0, limit := s.args.arg1, consumed := 0#32, acc := 0#8, used := 0#4 }
      exp := { s.exp with state := .unbound }, task := .idle, raced := .none } ∧
    exec .brInitStream s = .next { s with
      br := { mode := .stream, base := 0#32, limit := 0#32, consumed := 0#32, acc := 0#8, used := 0#4 }
      exp := { s.exp with state := .unbound }, task := .idle, raced := .none } ∧
    exec .stBindMem s = .next { s with
      st := { kind := .mem, base := s.args.arg0, size := s.args.arg1, pos := 0#32, fill := 0#17, idx := 0#17 }
      exp := { s.exp with state := .unbound }, task := .idle, raced := .none } ∧
    exec .stBindChunk s = .next { s with
      st := { kind := .chunk, base := 0#32, size := s.args.arg1, pos := 0#32, fill := 0#17, idx := 0#17 }
      exp := { s.exp with state := .unbound }, task := .idle, raced := .none }

/-- R183, R185: BR_READ n with its bits at hand puts the source's next n bits in RESULT, the first the most significant,
and changes nothing else but the unpacker and, in STREAM mode, the stream position. -/
def Obligations.BrReadDelivers : Prop :=
  ∀ (n : Nat) (s : State), n ≤ 32 → CanRead n s → s.raced = .none →
    ∃ (bits : List Bool) (t : State), bits.length = n ∧ Reads bits s t ∧
      exec (.brRead n) s = .next { t with result := BitVec.ofNat 32 (bitsValue bits), task := .idle }

/-- R185, R182, R211, R306: BR_READ raises OutOfBounds before any change when n > 32, and StreamExhausted when its source
holds fewer than n bits: a FLAT one, an unpacker that is not bound, or the stream unit where the stream ends. Memory and
every register outside the write set then keep their values; the stream's own are in it in STREAM mode only. -/
def Obligations.BrReadFaults : Prop :=
  ∀ (n : Nat) (s : State),
    (32 < n → exec (.brRead n) s = .next (faultedUnchanged 3#8 0x32#8 s)) ∧
    (n ≤ 32 → s.br.mode = .flat → UnpackerOk s.br → s.raced = .none → (sourceBits s).length < n →
      Admitted s.plat .read (sourceSpan s) →
      ∃ t, exec (.brRead n) s = .next t ∧ t = { faultedUnchanged 2#8 0x32#8 s with
        draws := t.draws, result := t.result
        br := { s.br with consumed := t.br.consumed, acc := t.br.acc, used := t.br.used } }) ∧
    (n ≤ 32 → s.br.mode = .none → UnpackerOk s.br → s.raced = .none → s.br.used.toNat < n →
      ∃ t, exec (.brRead n) s = .next t ∧ t = { faultedUnchanged 2#8 0x32#8 s with
        draws := t.draws, result := t.result
        br := { s.br with consumed := t.br.consumed, acc := t.br.acc, used := t.br.used } }) ∧
    (n ≤ 32 → s.br.mode = .stream → UnpackerOk s.br → StreamEnds s → s.raced = .none → (sourceBits s).length < n →
      CanRead (sourceBits s).length s →
      ∃ t, exec (.brRead n) s = .next t ∧ t = { faultedUnchanged 2#8 0x32#8 s with
        draws := t.draws, result := t.result, refill := t.refill
        br := { s.br with consumed := t.br.consumed, acc := t.br.acc, used := t.br.used }
        st := { s.st with pos := t.st.pos, fill := t.st.fill, idx := t.st.idx } })

/-- R211, R214, R215, R216: ST_GET with a byte at hand puts it in RESULT, ST_GET16 with two at hand lo + 256 * hi; the
stream advances by as many bytes and nothing else changes. -/
def Obligations.StGetDelivers : Prop :=
  ∀ s : State, s.raced = .none →
    (CanGet 1 s → ∃ (b : Byte) (t : State), Gets [b] s t ∧
      exec .stGet s = .next { t with result := b.setWidth 32, task := .idle }) ∧
    (CanGet 2 s → ∃ (lo hi : Byte) (t : State), Gets [lo, hi] s t ∧
      exec .stGet16 s = .next { t with result := BitVec.ofNat 32 (lo.toNat + 256 * hi.toNat), task := .idle })

/-- R211, R214, R264, R302, R305: where the stream ends, StreamExhausted is raised. ST_GET and ST_GET16 on an unbound
stream, or with ST_POS = ST_SIZE, and ST_GET16 with one byte left, keep memory and every register outside their write
set. A decoding command whose source ends inside sample i's code unit or raw value raises it with ERR_INFO = i: in the
step that begins with sample i, and in EXP_EXPAND and EXP_EXPAND2 after i samples were stored, which stay, and no other
byte of memory changes (log 12). -/
def Obligations.StGetExhausted : Prop :=
  (∀ s : State, s.st.kind = .none ∨ s.st.pos = s.st.size →
    (∃ t, exec .stGet s = .next t ∧ t = { faultedUnchanged 2#8 0x42#8 s with
      draws := t.draws, result := t.result, refill := t.refill
      st := { s.st with pos := t.st.pos, fill := t.st.fill, idx := t.st.idx } }) ∧
    (∃ t, exec .stGet16 s = .next t ∧ t = { faultedUnchanged 2#8 0x43#8 s with
      draws := t.draws, result := t.result, refill := t.refill
      st := { s.st with pos := t.st.pos, fill := t.st.fill, idx := t.st.idx } })) ∧
  (∀ s : State, StreamEnds s → (streamBytes s).length = 1 → CanGet 1 s → s.raced = .none →
    ∃ t, exec .stGet16 s = .next t ∧ t = { faultedUnchanged 2#8 0x43#8 s with
      draws := t.draws, result := t.result, refill := t.refill
      st := { s.st with pos := t.st.pos, fill := t.st.fill, idx := t.st.idx } }) ∧
  (∀ (s : State) (f : Frame), s.task = .sample f → s.host = [] → s.raced = .none →
    (f.isRaw s = false ∧ s.br.mode = .stream ∧ StreamEnds s ∧ UnpackerOk s.br ∧
        decodeUnit (sourceBits s) = .error .unitTruncated ∧ CanRead (sourceBits s).length s) ∨
      (f.isRaw s = true ∧ StreamEnds s ∧ (streamBytes s).length < 2 ∧ CanGet (streamBytes s).length s) →
    ∃ t, step s = .next t ∧ t.fault = true ∧
      t.err = { cause := 2#8, op := BitVec.ofNat 8 f.op, info := f.i } ∧ t.mem = s.mem ∧ t.task = .idle ∧
      t.exp.state = .unbound) ∧
  (∀ (us : List CodeUnit) (rest : List Bool) (s : State) (f : Frame) (i : Instr),
    let xs := unitSamples s.ctx us
    (i = .expExpand ∧ f = expandFrame s.args) ∨
      (i = .expExpand2 ∧ f = expand2Frame s.args ∧ s.args.arg2.toNat ≤ 65536) →
    s.exp.format = 1#1 → s.br.mode = .stream → StreamEnds s → UnpackerOk s.br → s.raced = .none → s.mem.wf = true →
    us.length < s.args.arg1.toNat → s.args.arg1.toNat ≤ s.remaining → (∀ u ∈ us, u.Fits) →
    sourceBits s = unitsBits us ++ rest → decodeUnit rest = .error .unitTruncated →
    CanRead (sourceBits s).length s →
    (∀ x ∈ xs, -(2 ^ (15 - s.exp.shift.toNat)) ≤ x ∧ x ≤ 2 ^ (15 - s.exp.shift.toNat) - 1) →
    Admitted s.plat .write f.output → (undelivered s).meets f.output = false →
    ∃ t, exec i s = .next t ∧ t.fault = true ∧
      t.err = { cause := 2#8, op := BitVec.ofNat 8 f.op, info := BitVec.ofNat 32 us.length } ∧ t.task = .idle ∧
      Stores s.args.arg0 (xs.flatMap fun x => sampleOutput f.cmd (x * 2 ^ s.exp.shift.toNat)) s
        { s with mem := t.mem })

/-- R211, R212: a byte needed from an exhausted working buffer, short of the declared size, requests a refill at ST_POS of
at most min(CHUNK_BYTES, ST_SIZE - ST_POS) bytes and holds the command there; nothing else changes but what was read
before. So at every point StreamGet is called from; at the first byte of ST_GET, ST_GET16 and BR_READ; inside ST_GET16
and BR_READ; inside a code unit or a raw sample of the step that begins with a sample; and again after a refill that
was too short. The loops of LEXPAND, EXP_EXPAND and EXP_EXPAND2 run their samples' steps one after the other (the model's
choice, log 7, log 8), so these are the requests of those commands, at any sample. -/
def Obligations.RefillRequested : Prop :=
  (∀ s : State, PlatformOk s.plat → s.st.kind = .chunk → s.st.pos.toNat < s.st.size.toNat → s.st.idx = s.st.fill →
    ∃ r : RefillRegs, r.offset = s.st.pos ∧
      r.max.toNat = min s.plat.chunkBytes (s.st.size.toNat - s.st.pos.toNat) ∧
      exec .stGet s = .next { s with refill := r, task := .refill .get } ∧
      exec .stGet16 s = .next { s with refill := r, task := .refill .get16Lo } ∧
      (∀ n, 1 ≤ n → n ≤ 32 → s.br.mode = .stream → s.br.used = 0#4 →
        exec (.brRead n) s = .next { s with refill := r, task := .refill (.read 0 n) }) ∧
      ∀ p : HoldPoint, streamGet p s = .hold p { s with refill := r }) ∧
  -- inside ST_GET16 and BR_READ
  (∀ s : State, MoreToCome s → s.raced = .none →
    (∀ lo, streamBytes s = [lo] → ∃ u, Gets [lo] s u ∧ exec .stGet16 s = .next (heldAt (.get16Hi lo) u)) ∧
    (∀ n, n ≤ 32 → s.br.mode = .stream → UnpackerOk s.br → (sourceBits s).length < n →
      CanRead (sourceBits s).length s → ∃ u, Reads (sourceBits s) s u ∧
        exec (.brRead n) s = .next (heldAt (.read (bitsValue (sourceBits s)) (n - (sourceBits s).length)) u))) ∧
  -- inside a sample
  (∀ (s : State) (f : Frame), s.task = .sample f → s.host = [] → MoreToCome s → s.raced = .none →
    (f.isRaw s = false → s.br.mode = .stream → UnpackerOk s.br → decodeUnit (sourceBits s) = .error .unitTruncated →
      CanRead (sourceBits s).length s → ∃ phase u, phaseBits phase = sourceBits s ∧ PhaseOk phase ∧
        Reads (sourceBits s) s u ∧ step s = .next (heldAt (.unit f phase) u)) ∧
    (f.isRaw s = true → streamBytes s = [] → step s = .next (heldAt (.sampleLo f) s)) ∧
    (∀ lo, f.isRaw s = true → streamBytes s = [lo] →
      ∃ u, Gets [lo] s u ∧ step s = .next (heldAt (.sampleHi f lo) u))) ∧
  -- again after a refill
  (∀ (s u : State) (k : Word) (p : HoldPoint), s.task = .answered k p → s.host = [] → k ≠ 0#32 →
    k.toNat ≤ s.refill.max.toNat → u = refilled k s → MoreToCome u → s.raced = .none →
    (p = .get16Lo → streamBytes u = [] → step s = .next (heldAt (.get16Hi (s.chunk.getD 0 0#8)) u)) ∧
    (∀ f, p = .sampleLo f → streamBytes u = [] → step s = .next (heldAt (.sampleHi f (s.chunk.getD 0 0#8)) u)) ∧
    (∀ v, v = loaded (s.chunk.getD 0 0#8) u → s.br.consumed ≠ 0xFFFFFFFF#32 → s.br.mode = .stream →
      CanRead (sourceBits v).length v →
      (∀ r left, p = .read r left → (sourceBits v).length < left → ∃ t, Reads (sourceBits v) v t ∧
        step s = .next (heldAt (.read (r * 2 ^ (sourceBits v).length + bitsValue (sourceBits v))
          (left - (sourceBits v).length)) t)) ∧
      (∀ f phase, p = .unit f phase → PhaseOk phase →
        decodeUnit (phaseBits phase ++ sourceBits v) = .error .unitTruncated →
        ∃ phase' t, phaseBits phase' = phaseBits phase ++ sourceBits v ∧ PhaseOk phase' ∧ Reads (sourceBits v) v t ∧
          step s = .next (heldAt (.unit f phase') t)))) ∧
  -- the loops are their samples' steps
  (∀ s : State, s.host = [] →
    (∀ sh, sh ≤ 15 → s.args.arg2 ≠ 0#32 → exec (.lexpand sh) s =
      runSteps s.args.arg2.toNat { lexpandStart s with task := .sample (lexpandFrame sh s.args) }) ∧
    (s.args.arg1.toNat ≤ s.remaining → s.args.arg1 ≠ 0#32 → exec .expExpand s =
      runSteps s.args.arg1.toNat
        { expandStart (expandFrame s.args) s with task := .sample (expandFrame s.args) }) ∧
    (s.args.arg1.toNat ≤ s.remaining → s.args.arg2.toNat ≤ 65536 → s.args.arg1 ≠ 0#32 → exec .expExpand2 s =
      runSteps s.args.arg1.toNat
        { expandStart (expand2Frame s.args) s with task := .sample (expand2Frame s.args) }))

/-- R212, R213, R211: at every point a command can be held at, the answer k = 0 raises StreamExhausted and an answer above
REFILL_MAX RefillOverrun, with the command's opcode and its loop index (R305), and memory stays as it was (log 12); any
other answer delivers the first byte of the new chunk and the command goes on from that point: ST_GET; ST_GET16 at
either byte; BR_READ; a code unit of a decoding command, which is then executed (log 8); a raw sample at either byte. -/
def Obligations.RefillResumes : Prop :=
  (∀ (s : State) (k : Word), s.task = .answered k .get → s.host = [] →
    (k = 0#32 → ∃ t, step s = .next t ∧ t = { faultedUnchanged 2#8 0x42#8 s with
      draws := t.draws, result := t.result, refill := t.refill
      st := { s.st with pos := t.st.pos, fill := t.st.fill, idx := t.st.idx } }) ∧
    (s.refill.max.toNat < k.toNat → ∃ t, step s = .next t ∧ t = { faultedUnchanged 6#8 0x42#8 s with
      draws := t.draws, result := t.result, refill := t.refill
      st := { s.st with pos := t.st.pos, fill := t.st.fill, idx := t.st.idx } }) ∧
    (k ≠ 0#32 → k.toNat ≤ s.refill.max.toNat → step s = .next { s with
      result := (s.chunk.getD 0 0#8).setWidth 32
      st := { s.st with pos := s.st.pos + 1#32, fill := k.setWidth 17, idx := 1#17 }
      task := .idle, raced := .none })) ∧
  -- the two faults, at every point
  (∀ (s : State) (k : Word) (p : HoldPoint), s.task = .answered k p → s.host = [] →
    (k = 0#32 → ∃ t, step s = .next t ∧ t.fault = true ∧ t.mem = s.mem ∧ t.task = .idle ∧ t.exp.state = .unbound ∧
      t.err = { cause := 2#8, op := BitVec.ofNat 8 (pointOp p), info := pointIndex p }) ∧
    (s.refill.max.toNat < k.toNat → ∃ t, step s = .next t ∧ t.fault = true ∧ t.mem = s.mem ∧ t.task = .idle ∧
      t.exp.state = .unbound ∧
      t.err = { cause := 6#8, op := BitVec.ofNat 8 (pointOp p), info := pointIndex p })) ∧
  -- going on, at each point
  (∀ (s u : State) (b : Byte) (k : Word) (p : HoldPoint), s.task = .answered k p → s.host = [] → k ≠ 0#32 →
    k.toNat ≤ s.refill.max.toNat → b = s.chunk.getD 0 0#8 → u = refilled k s → s.raced = .none →
    (p = .get16Lo → CanGet 1 u → ∃ hi t, Gets [hi] u t ∧
      step s = .next { t with result := BitVec.ofNat 32 (b.toNat + 256 * hi.toNat), task := .idle }) ∧
    (∀ lo : Byte, p = .get16Hi lo →
      step s = .next { u with result := BitVec.ofNat 32 (lo.toNat + 256 * b.toNat), task := .idle }) ∧
    (∀ f, p = .sampleLo f → CanGet 1 u → s.mem.wf = true → Admitted s.plat .write { base := f.address, size := f.stride } →
      ∃ (hi : Byte) (t : State) (m : Memory), Gets [hi] u t ∧
        Stores f.address (sampleOutput f.cmd (sext16 (b.toNat + 256 * hi.toNat))) t { t with mem := m } ∧
        step s = .next (afterSample f { t with mem := m, exp := expAfter f.cmd 1 s.exp })) ∧
    (∀ (f : Frame) (lo : Byte), p = .sampleHi f lo → s.mem.wf = true →
      Admitted s.plat .write { base := f.address, size := f.stride } →
      ∃ m : Memory, Stores f.address (sampleOutput f.cmd (sext16 (lo.toNat + 256 * b.toNat))) u { u with mem := m } ∧
        step s = .next (afterSample f { u with mem := m, exp := expAfter f.cmd 1 s.exp })) ∧
    (∀ v, v = loaded b u → s.br.consumed ≠ 0xFFFFFFFF#32 →
      (∀ r left, p = .read r left → CanRead left v → ∃ (bits : List Bool) (t : State), bits.length = left ∧
        Reads bits v t ∧
        step s = .next { t with result := BitVec.ofNat 32 (r * 2 ^ left + bitsValue bits), task := .idle }) ∧
      (∀ f phase i bits rest, p = .unit f phase → PhaseOk phase → sourceBits v = bits ++ rest →
        decodeUnit (phaseBits phase ++ sourceBits v) = .ok (i, rest) → CanRead bits.length v →
        ∃ t, Reads bits v t ∧ sourceBits t = rest ∧ step s = exec i { t with task := .sample f })))

/-- R218, one byte of it: a CHUNK stream in step with a medium delivers by ST_GET the medium's byte at ST_POS and is in
step again, from the working buffer or after a refill that a conforming agent answers (R217); at the end of the medium
the conforming answer 0 raises StreamExhausted. -/
def Obligations.ChunkStreamDeliversMedium : Prop :=
  ∀ (medium : List Byte) (s : State), PlatformOk s.plat → InStep medium s → s.st.pos.toNat < s.st.size.toNat →
    s.host = [] →
    (s.st.idx ≠ s.st.fill → ∃ t, exec .stGet s = .next t ∧ t.task = .idle ∧
      t.result = (medium.getD s.st.pos.toNat 0#8).setWidth 32 ∧ t.st.pos = s.st.pos + 1#32 ∧ InStep medium t) ∧
    (s.st.idx = s.st.fill → ∃ h, exec .stGet s = .next h ∧ h.task = .refill .get ∧ h.refill.offset = s.st.pos ∧
      ∀ (chunk : List Byte) (k : Nat), k = min h.refill.max.toNat (medium.length - s.st.pos.toNat) →
        chunk.length = s.chunk.length →
        (∀ j, j < k → chunk.getD j 0#8 = medium.getD (s.st.pos.toNat + j) 0#8) →
        ∃ t, step { h with chunk := chunk, task := .answered (BitVec.ofNat 32 k) .get } = .next t ∧ t.task = .idle ∧
          (s.st.pos.toNat < medium.length → t.result = (medium.getD s.st.pos.toNat 0#8).setWidth 32 ∧
            t.st.pos = s.st.pos + 1#32 ∧ InStep medium t) ∧
          (medium.length ≤ s.st.pos.toNat → t.fault = true ∧ t.err.cause = 2#8))

/-! ## The predictive codec (44_predictive_codec.md) -/

/-- R235, R231, R236: the guess lies in [-229373, 229372] and is 3 * prev1 - 3 * prev2 + prev3; the delta of a 16-bit
sample lies in [-262140, 262140] and needs at most 18 bits. -/
def Obligations.GuessRange : Prop :=
  ∀ (c : ContextRegs) (x : Int), -32768 ≤ x → x ≤ 32767 →
    c.guess = 3 * c.prev1.toInt - 3 * c.prev2.toInt + c.prev3.toInt ∧
    -229373 ≤ c.guess ∧ c.guess ≤ 229372 ∧ -262140 ≤ x - c.guess ∧ x - c.guess ≤ 262140 ∧
    bitsNeededOf (x - c.guess).natAbs ≤ 18

/-- R117, R236, R238: COMPRESS writes, from ARG2 on, the code units of the quantised samples one after the other, padded
with zero bits to a byte; RESULT is the byte count, the packer describes the closed output, the Context holds the last
samples, the statistics (if enabled) count the codes, and nothing else changes. -/
def Obligations.CompressWritesCodeUnits : Prop :=
  ∀ (sh : Nat) (stats : Bool) (s : State),
    let units := sampleUnits ContextRegs.zero (compressInput sh s)
    let len := ((unitsBits units).length + 7) / 8
    sh ≤ 15 → s.raced = .none → s.mem.wf = true → len ≤ s.args.arg3.toNat →
    Admitted s.plat .read (compressSource s.args) → Admitted s.plat .write { base := s.args.arg2, size := len } →
    (compressSource s.args).meets (compressTarget s.args) = false →
    ∃ (m : Memory) (bytes : List Byte), bytes.length = len ∧
      bytesBits bytes = unitsBits units ++ List.replicate (8 * len - (unitsBits units).length) false ∧
      Stores s.args.arg2 bytes s { s with mem := m } ∧
      exec (.compress sh stats) s = .next { s with
        mem := m, result := BitVec.ofNat 32 len, ctx := pushAll .zero (compressInput sh s)
        bw := { base := s.args.arg2, cap := s.args.arg3, emitted := BitVec.ofNat 32 len, stage := 0#8, used := 0#4 }
        exp := { s.exp with state := .unbound }, stat := if stats then unitsStat units else s.stat
        task := .idle }

/-- R237, R239, R305, R306, R307: the bitstream of n samples has at most 20n bits, and COMPRESS whose capacity is below its
length in bytes raises BufferOverflow once the bytes that fit are written, with ERR_INFO the index of the sample whose
unit completes the first byte too many, or n when only the final flush does. That exactly those bytes change is R306 and
R307, taken against file 93's table (log 12). -/
def Obligations.CompressCapacity : Prop :=
  ∀ (sh : Nat) (stats : Bool) (s : State),
    let units := sampleUnits ContextRegs.zero (compressInput sh s)
    let len := ((unitsBits units).length + 7) / 8
    (unitsBits units).length ≤ 20 * s.args.arg1.toNat ∧
    (sh ≤ 15 → s.raced = .none → s.mem.wf = true → s.args.arg3.toNat < len →
      Admitted s.plat .read (compressSource s.args) →
      Admitted s.plat .write { base := s.args.arg2, size := s.args.arg3.toNat } →
      (compressSource s.args).meets (compressTarget s.args) = false →
      ∃ t bytes i, exec (.compress sh stats) s = .next t ∧ t.fault = true ∧
        t.err = { cause := 1#8, op := 0x50#8, info := BitVec.ofNat 32 i } ∧ i ≤ s.args.arg1.toNat ∧
        (unitsBits (units.take i)).length / 8 ≤ s.args.arg3.toNat ∧
        (i < s.args.arg1.toNat → s.args.arg3.toNat < (unitsBits (units.take (i + 1))).length / 8) ∧
        t.task = .idle ∧ t.exp.state = .unbound ∧ bytes.length = s.args.arg3.toNat ∧
        bytesBits bytes = (unitsBits units ++ List.replicate 7 false).take (8 * s.args.arg3.toNat) ∧
        Stores s.args.arg2 bytes s { s with mem := t.mem })

/-- R238, R243: COMPRESS and LEXPAND with a shift above 15 raise OutOfBounds before any change. -/
def Obligations.CodecShiftRejected : Prop :=
  ∀ (sh : Nat) (stats : Bool) (s : State), 15 < sh →
    exec (.compress sh stats) s = .next (faultedUnchanged 3#8 0x50#8 s) ∧
    exec (.lexpand sh) s = .next (faultedUnchanged 3#8 0x51#8 s)

/-- R245: a COMPRESS with statistics that completes leaves STAT_ESC = STAT_HIST[15] and the buckets adding up to n; with
and without statistics it writes the same memory, and returns the same RESULT when it completes. For runs that fault,
equal memory and ERR rest on R306 and R307, taken against file 93's table (log 12); for overlapping buffers (R91) and
bytes that other agents touch (R351) equality is the model's choice, which numbers its free values alike in both runs
(log 4, log 13, log 14). -/
def Obligations.CompressStatistics : Prop :=
  ∀ (sh : Nat) (s t u : State), s.fault = false → exec (.compress sh true) s = .next t →
    exec (.compress sh false) s = .next u →
    t.mem = u.mem ∧ t.fault = u.fault ∧ t.err = u.err ∧
    (t.fault = false → t.result = u.result ∧ u.stat = s.stat ∧ t.stat.esc = t.stat.hist[15] ∧
      (t.stat.hist.toList.map BitVec.toNat).sum = s.args.arg1.toNat)

/-- R240, R243: LEXPAND over a bitstream of n code units whose samples are in range stores the reconstructed samples from
ARG3 on; RESULT is the count of bytes fetched, the unpacker shows where decoding stopped, and nothing else changes. -/
def Obligations.LexpandDecodes : Prop :=
  ∀ (sh : Nat) (us : List CodeUnit) (rest : List Bool) (s : State),
    let xs := unitSamples ContextRegs.zero us
    let len := ((unitsBits us).length + 7) / 8
    sh ≤ 15 → s.raced = .none → s.mem.wf = true → us.length = s.args.arg2.toNat → (∀ u ∈ us, u.Fits) →
    bytesBits (memoryBytes s.mem s.args.arg0 s.args.arg1.toNat) = unitsBits us ++ rest →
    (∀ x ∈ xs, -(2 ^ (15 - sh)) ≤ x ∧ x ≤ 2 ^ (15 - sh) - 1) →
    Admitted s.plat .read { base := s.args.arg0, size := len } → Admitted s.plat .write (lexpandTarget s.args) →
    (lexpandSource s.args).meets (lexpandTarget s.args) = false →
    ∃ (m : Memory) (b : UnpackerRegs),
      Stores s.args.arg3 (xs.flatMap fun x => leBytes 2 (lowBits 16 (x * 2 ^ sh))) s { s with mem := m } ∧
      b.mode = .flat ∧ b.base = s.args.arg0 ∧ b.limit = s.args.arg1 ∧ b.consumed = BitVec.ofNat 32 len ∧
      b.used.toNat = 8 * len - (unitsBits us).length ∧ bitsMsb b.used.toNat b.acc.toNat = rest.take b.used.toNat ∧
      exec (.lexpand sh) s = .next { s with
        mem := m, br := b, ctx := pushAll .zero xs, result := BitVec.ofNat 32 len
        exp := { s.exp with state := .unbound }, task := .idle }

/-- R243, R305, R306, R307: LEXPAND whose bitstream ends before unit i is complete raises StreamExhausted with ERR_INFO = i;
the i samples before it stay written, and other memory is untouched. That exactly those bytes change is R306 and R307,
taken against file 93's table (log 12). -/
def Obligations.LexpandExhausted : Prop :=
  ∀ (sh : Nat) (us : List CodeUnit) (rest : List Bool) (s : State),
    let xs := unitSamples ContextRegs.zero us
    sh ≤ 15 → s.raced = .none → s.mem.wf = true → us.length < s.args.arg2.toNat → (∀ u ∈ us, u.Fits) →
    bytesBits (memoryBytes s.mem s.args.arg0 s.args.arg1.toNat) = unitsBits us ++ rest →
    decodeUnit rest = .error .unitTruncated →
    (∀ x ∈ xs, -(2 ^ (15 - sh)) ≤ x ∧ x ≤ 2 ^ (15 - sh) - 1) →
    Admitted s.plat .read (lexpandSource s.args) → Admitted s.plat .write (lexpandTarget s.args) →
    (lexpandSource s.args).meets (lexpandTarget s.args) = false →
    ∃ t, exec (.lexpand sh) s = .next t ∧ t.fault = true ∧
      t.err = { cause := 2#8, op := 0x51#8, info := BitVec.ofNat 32 us.length } ∧ t.task = .idle ∧
      Stores s.args.arg3 (xs.flatMap fun x => leBytes 2 (lowBits 16 (x * 2 ^ sh))) s { s with mem := t.mem }

/-- R244: COMPRESS s, then LEXPAND s of its output with len = RESULT and the same n, completes without fault and writes
asr(S[i], s) << s for every sample. -/
def Obligations.CompressLexpandRoundTrip : Prop :=
  ∀ (sh : Nat) (stats : Bool) (s : State) (out : Word),
    let len := ((unitsBits (sampleUnits ContextRegs.zero (compressInput sh s))).length + 7) / 8
    let output : Span := { base := out, size := 2 * s.args.arg1.toNat }
    sh ≤ 15 → s.fault = false → s.raced = .none → s.mem.wf = true → len ≤ s.args.arg3.toNat →
    Admitted s.plat .read (compressSource s.args) → Admitted s.plat .write { base := s.args.arg2, size := len } →
    Admitted s.plat .read { base := s.args.arg2, size := len } → Admitted s.plat .write output →
    (compressSource s.args).meets (compressTarget s.args) = false →
    (Span.mk s.args.arg2 len).meets output = false →
    ∃ t, exec (.compress sh stats) s = .next t ∧ t.fault = false ∧
    ∃ u, exec (.lexpand sh)
        { t with args := { arg0 := s.args.arg2, arg1 := t.result, arg2 := s.args.arg1, arg3 := out } } = .next u ∧
      u.fault = false ∧ u.task = .idle ∧
      memoryBytes u.mem out (2 * s.args.arg1.toNat) =
        (compressInput sh s).flatMap fun x => leBytes 2 (lowBits 16 (x * 2 ^ sh))

/-! ## Code units as instructions -/

/-- R118, R240, R243, R265, R266: a normal code unit whose sample guess ± mag is in range advances the Context, stores the
reconstructed sample's output at the running command's current address, advances a session, and goes on to the next
sample or completes the command; nothing else changes. -/
def Obligations.NormalUnitsRun : Prop :=
  ∀ (sign : Bool) (mag : Nat) (i : Instr) (f : Frame) (s : State),
    i ∈ [Instr.cuD1 sign mag, .cuD2 sign mag, .cuD3 sign mag, .cuD4 sign mag, .cuD5 sign mag, .cuD6 sign mag,
      .cuD7 sign mag, .cuD8 sign mag, .cuD9 sign mag, .cuD10 sign mag, .cuD11 sign mag, .cuD12 sign mag,
      .cuD13 sign mag, .cuD14 sign mag, .cuD15 sign mag] →
    let x : Int := if sign then s.ctx.guess + mag else s.ctx.guess - mag
    s.task = .sample f → -(2 ^ (15 - f.shift s)) ≤ x → x ≤ 2 ^ (15 - f.shift s) - 1 → s.raced = .none →
    s.mem.wf = true → Admitted s.plat .write { base := f.address, size := f.stride } →
    ∃ (m : Memory) (t : State), Stores f.address (sampleOutput f.cmd (x * 2 ^ f.shift s)) s { s with mem := m } ∧
      t = { s with
        mem := m, ctx := { prev1 := BitVec.ofInt 16 x, prev2 := s.ctx.prev1, prev3 := s.ctx.prev2 }
        exp := expAfter f.cmd 1 s.exp } ∧
      (f.i + 1#32 ≠ f.n → exec i s = .next { t with task := .sample { f with i := f.i + 1#32 } }) ∧
      (f.i + 1#32 = f.n → ∀ sh, f.cmd = .lexpand sh → exec i s = .next { t with result := t.br.consumed, task := .idle }) ∧
      (f.i + 1#32 = f.n → f.cmd = .expand ∨ (∃ vol, f.cmd = .expand2 vol) →
        exec i s = .next { t with result := t.exp.pos, task := .idle })

/-- R119, R240: the escape unit does the same with the sample its 16 raw bits are in two's complement. -/
def Obligations.EscapeUnitRuns : Prop :=
  ∀ (raw : Nat) (f : Frame) (s : State), raw < 65536 →
    let x : Int := if raw < 32768 then raw else (raw : Int) - 65536
    s.task = .sample f → -(2 ^ (15 - f.shift s)) ≤ x → x ≤ 2 ^ (15 - f.shift s) - 1 → s.raced = .none →
    s.mem.wf = true → Admitted s.plat .write { base := f.address, size := f.stride } →
    ∃ (m : Memory) (t : State), Stores f.address (sampleOutput f.cmd (x * 2 ^ f.shift s)) s { s with mem := m } ∧
      t = { s with
        mem := m, ctx := { prev1 := BitVec.ofInt 16 x, prev2 := s.ctx.prev1, prev3 := s.ctx.prev2 }
        exp := expAfter f.cmd 1 s.exp } ∧
      (f.i + 1#32 ≠ f.n → exec (.cuEsc raw) s = .next { t with task := .sample { f with i := f.i + 1#32 } }) ∧
      (f.i + 1#32 = f.n → ∀ sh, f.cmd = .lexpand sh →
        exec (.cuEsc raw) s = .next { t with result := t.br.consumed, task := .idle }) ∧
      (f.i + 1#32 = f.n → f.cmd = .expand ∨ (∃ vol, f.cmd = .expand2 vol) →
        exec (.cuEsc raw) s = .next { t with result := t.exp.pos, task := .idle })

/-- R241, R305, R307: a unit whose sample does not fit 16 bits after the shift raises SampleRange, with the loop index in
ERR_INFO and the running command's opcode in ERR.OP; nothing is stored, and memory stays as it was (log 12). -/
def Obligations.UnitOutOfRange : Prop :=
  ∀ (u : CodeUnit) (f : Frame) (s : State), s.task = .sample f →
    unitSample u s.ctx < -(2 ^ (15 - f.shift s)) ∨ 2 ^ (15 - f.shift s) - 1 < unitSample u s.ctx →
    ∃ t, exec u.instr s = .next t ∧ t.fault = true ∧
      t.err = { cause := 4#8, op := BitVec.ofNat 8 f.op, info := f.i } ∧ t.mem = s.mem ∧ t.task = .idle ∧
      t.exp.state = .unbound

/-- The model's choice (log 8), not a rule: a code unit outside a decoding command stops the model. -/
def Obligations.StrayUnitStops : Prop :=
  ∀ (u : CodeUnit) (s : State), (∀ f, s.task ≠ .sample f) → exec u.instr s = .fault .strayCodeUnit

/-! ## The expander (45_expander.md) -/

/-- R263: EXP_INIT starts a session, DONE at once when it has no samples, and changes nothing else but the Context and the
unpacker; a shift above 15 or a format above 1 raises OutOfBounds before any change. -/
def Obligations.ExpInitStartsSession : Prop :=
  ∀ (sh fmt : Nat) (s : State),
    (15 < sh ∨ 1 < fmt → exec (.expInit sh fmt) s = .next (faultedUnchanged 3#8 0x60#8 s)) ∧
    (sh ≤ 15 → fmt ≤ 1 → ∃ e : ExpanderRegs, exec (.expInit sh fmt) s = .next { s with
      ctx := { prev1 := 0#16, prev2 := 0#16, prev3 := 0#16 }
      br := { mode := .stream, base := 0#32, limit := 0#32, consumed := 0#32, acc := 0#8, used := 0#4 }
      exp := e, task := .idle, raced := .none } ∧
      e.nSamples = s.args.arg1 ∧ e.pos = 0#32 ∧ e.format.toNat = fmt ∧ e.shift.toNat = sh ∧
      e.state = if s.args.arg1 = 0#32 then .done else .idle)

/-- R264, R265, R266, R240: EXP_EXPAND and EXP_EXPAND2 of n samples of a format-1 session whose code units are at hand
store the n reconstructed samples, plain or scaled into two channels, advance the session by n, return EXP_POS, and
change nothing else but the Context, the unpacker and the stream position. -/
def Obligations.ExpandFormat1 : Prop :=
  ∀ (us : List CodeUnit) (rest : List Bool) (s : State) (f : Frame) (i : Instr),
    let xs := unitSamples s.ctx us
    (i = .expExpand ∧ f = expandFrame s.args) ∨
      (i = .expExpand2 ∧ f = expand2Frame s.args ∧ s.args.arg2.toNat ≤ 65536) →
    s.exp.format = 1#1 → s.br.mode = .stream → s.raced = .none → s.mem.wf = true →
    us.length = s.args.arg1.toNat → us.length ≤ s.remaining → (∀ u ∈ us, u.Fits) →
    sourceBits s = unitsBits us ++ rest → CanRead (unitsBits us).length s →
    (∀ x ∈ xs, -(2 ^ (15 - s.exp.shift.toNat)) ≤ x ∧ x ≤ 2 ^ (15 - s.exp.shift.toNat) - 1) →
    Admitted s.plat .write f.output → (undelivered s).meets f.output = false →
    ∃ (m : Memory) (u : State), Reads (unitsBits us) s u ∧
      Stores s.args.arg0 (xs.flatMap fun x => sampleOutput f.cmd (x * 2 ^ s.exp.shift.toNat)) s { s with mem := m } ∧
      exec i s = .next { s with
        mem := m, br := u.br, st := u.st, ctx := pushAll s.ctx xs, exp := expAfter f.cmd us.length s.exp
        result := s.exp.pos + s.args.arg1, task := .idle }

/-- R264, R265, R266, R214: the same for a format-0 session whose stream bytes are at hand: each sample is two bytes,
little-endian, with no prediction and no shift; unpacker and Context stay. -/
def Obligations.ExpandFormat0 : Prop :=
  ∀ (bytes rest : List Byte) (s : State) (f : Frame) (i : Instr),
    (i = .expExpand ∧ f = expandFrame s.args) ∨
      (i = .expExpand2 ∧ f = expand2Frame s.args ∧ s.args.arg2.toNat ≤ 65536) →
    s.exp.format = 0#1 → s.raced = .none → s.mem.wf = true →
    bytes.length = 2 * s.args.arg1.toNat → s.args.arg1.toNat ≤ s.remaining →
    streamBytes s = bytes ++ rest → CanGet bytes.length s →
    Admitted s.plat .write f.output → (undelivered s).meets f.output = false →
    ∃ m : Memory,
      Stores s.args.arg0 ((byteSamples bytes).flatMap fun y => sampleOutput f.cmd y) s { s with mem := m } ∧
      exec i s = .next { s with
        mem := m, st := StreamRegs.moved bytes.length s.st, exp := expAfter f.cmd s.args.arg1.toNat s.exp
        result := s.exp.pos + s.args.arg1, task := .idle }

/-- R265, R266, R267: EXP_EXPAND of more samples than remain raises OutOfBounds before any change, and so does EXP_EXPAND2,
also with a volume above 65536; EXP_DONE puts in RESULT whether the session is DONE and changes nothing else. -/
def Obligations.ExpandRejectsAndDone : Prop :=
  ∀ s : State,
    (s.remaining < s.args.arg1.toNat → exec .expExpand s = .next (faultedUnchanged 3#8 0x61#8 s)) ∧
    (s.remaining < s.args.arg1.toNat ∨ 65536 < s.args.arg2.toNat →
      exec .expExpand2 s = .next (faultedUnchanged 3#8 0x62#8 s)) ∧
    exec .expDone s = .next { s with
      result := if s.exp.state = .done then 1#32 else 0#32, task := .idle, raced := .none }

/-- R268, for runs without a refill or a fault: expanding n1 samples and then n2 more after them leaves the state, with
the memory, that expanding n1 + n2 at once leaves, for EXP_EXPAND and EXP_EXPAND2. -/
def Obligations.ChunkInvariance : Prop :=
  ∀ (i : Instr) (stride : Nat) (s s1 s2 : State) (t vol a3 n1 n2 : Word),
    (i = .expExpand ∧ stride = 2) ∨ (i = .expExpand2 ∧ stride = 8) →
    s.fault = false → s.raced = .none → StreamOk s.plat s.st →
    (undelivered s).meets { base := t, size := stride * (n1.toNat + n2.toNat) } = false →
    exec i { s with args := { arg0 := t, arg1 := n1, arg2 := vol, arg3 := a3 } } = .next s1 →
    s1.task = .idle → s1.fault = false →
    exec i { s1 with args :=
      { arg0 := t + BitVec.ofNat 32 (stride * n1.toNat), arg1 := n2, arg2 := vol, arg3 := a3 } } = .next s2 →
    s2.task = .idle → s2.fault = false →
    exec i { s with args := { arg0 := t, arg1 := n1 + n2, arg2 := vol, arg3 := a3 } } =
      .next { s2 with args := { arg0 := t, arg1 := n1 + n2, arg2 := vol, arg3 := a3 } }

/-! ## The whole machine -/

/-- R306, R302, R305: every fault leaves FAULT set, a cause of R302, the running command's opcode in ERR.OP, no command
running and no session, and keeps ARG0 to ARG3, LOST, CHUNK and the platform: a fault of an instruction, and a fault of
any step, which only the engine's turn raises (an illegal word, a byte, a bit or a unit that cannot be read, also after a
refill). Of a step ERR_INFO is what R305 gives: for BusError an address the platform refuses, inside a loop the index of
the sample, for COMPRESS's flush at most n, and 0 for every other fault. -/
def Obligations.FaultRecord : Prop :=
  (∀ (i : Instr) (s t : State), s.fault = false → exec i s = .next t → t.fault = true →
    t.task = .idle ∧ t.exp.state = .unbound ∧ t.refillReq = false ∧ t.busy = false ∧
    1 ≤ t.err.cause.toNat ∧ t.err.cause.toNat ≤ 7 ∧ t.args = s.args ∧ t.lost = s.lost ∧ t.chunk = s.chunk ∧
    t.plat = s.plat ∧
    (∀ w, encode i = .command w → t.err.op = w.setWidth 8) ∧
    (∀ f, s.task = .sample f → (∃ bits, encode i = .unit bits) → t.err.op = BitVec.ofNat 8 f.op)) ∧
  (∀ s t : State, s.fault = false → step s = .next t → t.fault = true →
    (s.host = [] ∨ ∃ rest, s.host = .engine :: rest) ∧ s.busy = true ∧
    t.task = .idle ∧ t.exp.state = .unbound ∧ t.refillReq = false ∧ t.busy = false ∧
    1 ≤ t.err.cause.toNat ∧ t.err.cause.toNat ≤ 7 ∧ t.err.op = taskOp s.task ∧ InfoOk s t.err ∧
    t.args = s.args ∧ t.lost = s.lost ∧ t.chunk = s.chunk ∧ t.plat = s.plat ∧ t.acc = s.acc)

/-- R294, R39: no instruction, completed, held or faulted, writes a register group outside its row of the footprint
table; none writes ARG0 to ARG3, CHUNK, HWPARAM or what the host has still to do. -/
def Obligations.RegisterFootprint : Prop :=
  ∀ (i : Instr) (s t : State), exec i s = .next t → i ≠ .softReset →
    t.args = s.args ∧ t.chunk = s.chunk ∧ t.plat = s.plat ∧ t.host = s.host ∧ t.rdata = s.rdata ∧ t.lost = s.lost ∧
    (s.raced.watched = [] → t.unread = s.unread) ∧
    (i ≠ .accClear → (∀ n, i ≠ .accPush n) → (∀ n, i ≠ .accPop n) → t.acc = s.acc) ∧
    (i ≠ .bwInit → (∀ n, i ≠ .bwWrite n) → i ≠ .bwClose → (∀ sh st, i ≠ .compress sh st) → t.bw = s.bw) ∧
    ((∀ sh, i ≠ .compress sh true) → t.stat = s.stat) ∧
    (∀ w, encode i = .command w →
      (i ≠ .brInitFlat → i ≠ .brInitStream → (∀ n, i ≠ .brRead n) → (∀ sh, i ≠ .lexpand sh) →
        (∀ sh fmt, i ≠ .expInit sh fmt) → i ≠ .expExpand → i ≠ .expExpand2 → t.br = s.br) ∧
      (i ≠ .stBindMem → i ≠ .stBindChunk → i ≠ .stGet → i ≠ .stGet16 → (∀ n, i ≠ .brRead n) → i ≠ .expExpand →
        i ≠ .expExpand2 → t.st = s.st) ∧
      (i ≠ .stGet → i ≠ .stGet16 → (∀ n, i ≠ .brRead n) → i ≠ .expExpand → i ≠ .expExpand2 → t.refill = s.refill) ∧
      ((∀ sh st, i ≠ .compress sh st) → (∀ sh, i ≠ .lexpand sh) → (∀ sh fmt, i ≠ .expInit sh fmt) →
        i ≠ .expExpand → i ≠ .expExpand2 → t.ctx = s.ctx) ∧
      ((∀ sh fmt, i ≠ .expInit sh fmt) → i ≠ .expExpand → i ≠ .expExpand2 →
        t.exp = { s.exp with state := t.exp.state }) ∧
      ((∀ n, i ≠ .accPop n) → i ≠ .bitsNeeded → i ≠ .bwClose → i ≠ .bwLength → (∀ n, i ≠ .brRead n) → i ≠ .stGet →
        i ≠ .stGet16 → (∀ sh st, i ≠ .compress sh st) → (∀ sh, i ≠ .lexpand sh) → i ≠ .expExpand →
        i ≠ .expExpand2 → i ≠ .expDone → t.result = s.result) ∧
      ((∀ n, i ≠ .bwWrite n) → i ≠ .bwClose → (∀ sh st, i ≠ .compress sh st) → (∀ sh, i ≠ .lexpand sh) →
        i ≠ .expExpand → i ≠ .expExpand2 → t.mem = s.mem ∧ t.unread = s.unread))

/-- R294, R88, R306, R307: whatever its outcome, a storing instruction changes no byte of memory outside the bytes its
rule gives it, at the address its rule computes. -/
def Obligations.MemoryFootprint : Prop :=
  ∀ s t : State, s.mem.wf = true →
    (∀ n, PackerOk s.bw → exec (.bwWrite n) s = .next t → SameOutside (packSpan n s) s t) ∧
    (exec .bwClose s = .next t → SameOutside { base := s.bw.base + s.bw.emitted, size := 1 } s t) ∧
    (∀ sh stats, exec (.compress sh stats) s = .next t → SameOutside (compressTarget s.args) s t) ∧
    (∀ sh, exec (.lexpand sh) s = .next t → SameOutside (lexpandTarget s.args) s t) ∧
    (exec .expExpand s = .next t → SameOutside (expandFrame s.args).output s t) ∧
    (exec .expExpand2 s = .next t → SameOutside (expand2Frame s.args).output s t) ∧
    (∀ (u : CodeUnit) (f : Frame), s.task = .sample f → exec u.instr s = .next t →
      SameOutside { base := f.address, size := f.stride } s t)

/-- R62, R340: the state after reset, on every platform with parameters in range, meets the invariant. -/
def Obligations.InvAtReset : Prop := Inv State.reset ∧ ∀ p : Platform, PlatformOk p → Inv (State.resetOn p)

/-- R62: every step, of the engine or of the host side, keeps the invariant: R62's register invariants while FAULT = 0,
the memory's canonical form, CHUNK's length, and what a running command has still to do. -/
def Obligations.InvKept : Prop := ∀ s t : State, Inv s → step s = .next t → Inv t

/-- R82, R83, R305, R307: a byte access that MEM_ADMITS refuses raises BusError (7) with the refused address; the bytes
stored before it stay stored, and no other byte of memory changes (log 12). So for the port itself and a store of
several bytes; for each command, at the first byte of its source or of its destination that is refused; for LEXPAND,
EXP_EXPAND and EXP_EXPAND2 in the step that begins with a sample, or in the code unit just read, for its source and its
output (their loops are those steps: the last clause of `RefillRequested`). -/
def Obligations.BusErrorRaised : Prop :=
  (∀ (a : Word) (b : Byte) (s : State),
    (memAdmits s.plat a .read = false → readByte a s = .raise .busError a s) ∧
    (memAdmits s.plat a .write = false → writeByte a b s = .raise .busError a s)) ∧
  (∀ (n j v : Nat) (a : Word) (s : State), j < n → Admitted s.plat .write { base := a, size := j } →
    memAdmits s.plat (a + BitVec.ofNat 32 j) .write = false → s.raced = .none → s.mem.wf = true →
    ∃ t, memWrite n a v s = .raise .busError (a + BitVec.ofNat 32 j) t ∧ Stores a ((leBytes n v).take j) s t) ∧
  -- ST_GET, and ST_GET16 at either byte
  (∀ s : State, s.st.kind = .mem → s.raced = .none →
    (s.st.pos ≠ s.st.size → memAdmits s.plat (s.st.base + s.st.pos) .read = false →
      (∃ t, exec .stGet s = .next t ∧ t.fault = true ∧ t.mem = s.mem ∧
        t.err = { cause := 7#8, op := 0x42#8, info := s.st.base + s.st.pos }) ∧
      ∃ t, exec .stGet16 s = .next t ∧ t.fault = true ∧ t.mem = s.mem ∧
        t.err = { cause := 7#8, op := 0x43#8, info := s.st.base + s.st.pos }) ∧
    (2 ≤ s.st.size.toNat - s.st.pos.toNat → memAdmits s.plat (s.st.base + s.st.pos) .read = true →
      memAdmits s.plat (s.st.base + s.st.pos + 1#32) .read = false →
      ∃ t, exec .stGet16 s = .next t ∧ t.fault = true ∧ t.mem = s.mem ∧
        t.err = { cause := 7#8, op := 0x43#8, info := s.st.base + s.st.pos + 1#32 })) ∧
  -- byte j of those that BR_READ, or the code unit or raw sample of a decoding command's step, needs from memory
  (∀ (s : State) (j : Nat), s.raced = .none → s.mem.wf = true →
    (UnpackerOk s.br → j < (sourceSpan s).size → Admitted s.plat .read { base := (sourceSpan s).base, size := j } →
      memAdmits s.plat ((sourceSpan s).base + BitVec.ofNat 32 j) .read = false →
      (∀ n, n ≤ 32 → s.br.used.toNat + 8 * j < n → ∃ t, exec (.brRead n) s = .next t ∧ t.fault = true ∧
        t.mem = s.mem ∧ t.err = { cause := 7#8, op := 0x32#8, info := (sourceSpan s).base + BitVec.ofNat 32 j }) ∧
      (∀ f, s.task = .sample f → s.host = [] → f.isRaw s = false →
        decodeUnit ((sourceBits s).take (s.br.used.toNat + 8 * j)) = .error .unitTruncated →
        ∃ t, step s = .next t ∧ t.fault = true ∧ t.mem = s.mem ∧
          t.err = { cause := 7#8, op := BitVec.ofNat 8 f.op, info := (sourceSpan s).base + BitVec.ofNat 32 j })) ∧
    (∀ f, s.task = .sample f → s.host = [] → f.isRaw s = true →
      (j < 2 → j < (undelivered s).size → Admitted s.plat .read { base := (undelivered s).base, size := j } →
        memAdmits s.plat ((undelivered s).base + BitVec.ofNat 32 j) .read = false →
        ∃ t, step s = .next t ∧ t.fault = true ∧ t.mem = s.mem ∧
          t.err = { cause := 7#8, op := BitVec.ofNat 8 f.op, info := (undelivered s).base + BitVec.ofNat 32 j }) ∧
      (∀ lo hi rest, streamBytes s = lo :: hi :: rest → CanGet 2 s → j < f.stride →
        Admitted s.plat .write { base := f.address, size := j } →
        memAdmits s.plat (f.address + BitVec.ofNat 32 j) .write = false →
        ∃ t, step s = .next t ∧ t.fault = true ∧
          Stores f.address ((sampleOutput f.cmd (sext16 (get16Value lo hi))).take j) s { s with mem := t.mem } ∧
          t.err = { cause := 7#8, op := BitVec.ofNat 8 f.op, info := f.address + BitVec.ofNat 32 j }))) ∧
  -- BW_WRITE at byte j of those it completes, and BW_CLOSE
  (∀ (s : State) (j : Nat), PackerOk s.bw → s.raced = .none → s.mem.wf = true →
    j < s.bw.cap.toNat - s.bw.emitted.toNat →
    Admitted s.plat .write { base := s.bw.base + s.bw.emitted, size := j } →
    memAdmits s.plat (s.bw.base + s.bw.emitted + BitVec.ofNat 32 j) .write = false →
    (∀ n, n ≤ 32 → n = 32 ∨ s.args.arg0.toNat < 2 ^ n → j < (s.bw.used.toNat + n) / 8 →
      ∃ (k : Nat) (t u : State), exec (.bwWrite n) s = .next t ∧ s.bw.used.toNat + k = 8 * j + 7 ∧
        Packs ((bitsMsb n s.args.arg0.toNat).take k) s u ∧ t.mem = u.mem ∧ t.fault = true ∧
        t.err = { cause := 7#8, op := 0x21#8, info := s.bw.base + s.bw.emitted + BitVec.ofNat 32 j }) ∧
    (j = 0 → s.bw.used ≠ 0#4 → ∃ t, exec .bwClose s = .next t ∧ t.fault = true ∧ t.mem = s.mem ∧
      t.err = { cause := 7#8, op := 0x22#8, info := s.bw.base + s.bw.emitted })) ∧
  -- COMPRESS: byte j of its samples, after the units before that sample; and byte j of its output
  (∀ (sh : Nat) (stats : Bool) (s : State), sh ≤ 15 → s.raced = .none → s.mem.wf = true →
    (compressSource s.args).meets (compressTarget s.args) = false →
    (∀ j bits, j < 2 * s.args.arg1.toNat → Admitted s.plat .read { base := s.args.arg0, size := j } →
      memAdmits s.plat (s.args.arg0 + BitVec.ofNat 32 j) .read = false →
      bits = unitsBits ((sampleUnits ContextRegs.zero (compressInput sh s)).take (j / 2)) →
      bits.length / 8 ≤ s.args.arg3.toNat → Admitted s.plat .write { base := s.args.arg2, size := bits.length / 8 } →
      ∃ t bytes, exec (.compress sh stats) s = .next t ∧ t.fault = true ∧ bytes.length = bits.length / 8 ∧
        bytesBits bytes = bits.take (8 * bytes.length) ∧ Stores s.args.arg2 bytes s { s with mem := t.mem } ∧
        t.err = { cause := 7#8, op := 0x50#8, info := s.args.arg0 + BitVec.ofNat 32 j }) ∧
    (∀ j, 8 * j < (unitsBits (sampleUnits ContextRegs.zero (compressInput sh s))).length → j < s.args.arg3.toNat →
      Admitted s.plat .read (compressSource s.args) → Admitted s.plat .write { base := s.args.arg2, size := j } →
      memAdmits s.plat (s.args.arg2 + BitVec.ofNat 32 j) .write = false →
      ∃ t bytes, exec (.compress sh stats) s = .next t ∧ t.fault = true ∧ bytes.length = j ∧
        bytesBits bytes = (unitsBits (sampleUnits ContextRegs.zero (compressInput sh s))).take (8 * j) ∧
        Stores s.args.arg2 bytes s { s with mem := t.mem } ∧
        t.err = { cause := 7#8, op := 0x50#8, info := s.args.arg2 + BitVec.ofNat 32 j })) ∧
  -- a code unit's output, at byte j
  (∀ (u : CodeUnit) (f : Frame) (s : State) (j : Nat), s.task = .sample f → s.raced = .none → s.mem.wf = true →
    -(2 ^ (15 - f.shift s)) ≤ unitSample u s.ctx → unitSample u s.ctx ≤ 2 ^ (15 - f.shift s) - 1 →
    j < f.stride → Admitted s.plat .write { base := f.address, size := j } →
    memAdmits s.plat (f.address + BitVec.ofNat 32 j) .write = false →
    ∃ t, exec u.instr s = .next t ∧ t.fault = true ∧
      Stores f.address ((sampleOutput f.cmd (unitSample u s.ctx * 2 ^ f.shift s)).take j) s { s with mem := t.mem } ∧
      t.err = { cause := 7#8, op := BitVec.ofNat 8 f.op, info := f.address + BitVec.ofNat 32 j })

end
end

