-- ==== Sys2Proof/Laws/Bits.lean ====
section
/-! SUPPORT. The laws of bit sequences: most significant first, taken apart and put together. -/

namespace Sys2Proof

/-- A field of `n` bits has `n` bits. -/
@[simp] theorem length_bitsMsb (n v : Nat) : (bitsMsb n v).length = n := by
  induction n with
  | zero => rfl
  | succ n ih => simp [bitsMsb, ih]

/-- A field's first `a` bits, then its last `b` bits. -/
theorem bitsMsb_add (a b v : Nat) : bitsMsb (a + b) v = bitsMsb a (v / 2 ^ b) ++ bitsMsb b v := by
  induction a with
  | zero => simp [bitsMsb]
  | succ a ih =>
    have : a + 1 + b = (a + b) + 1 := by omega
    rw [this]
    simp [bitsMsb, ih, Nat.testBit_div_two_pow]

/-- Bits above the field do not matter. -/
theorem bitsMsb_mod (n m v : Nat) (h : n ≤ m) : bitsMsb n (v % 2 ^ m) = bitsMsb n v := by
  induction n with
  | zero => rfl
  | succ n ih =>
    have hn : n < m := h
    simp [bitsMsb, Nat.testBit_mod_two_pow, hn, ih (by omega)]

/-- A number one bit longer. -/
theorem bitsMsb_succ_low (n v : Nat) (b : Bool) : bitsMsb (n + 1) (2 * v + b.toNat) = bitsMsb n v ++ [b] := by
  have h1 : (2 * v + b.toNat) / 2 ^ 1 = v := by cases b <;> simp; omega
  have h2 : (2 * v + b.toNat).testBit 0 = b := by cases b <;> simp [Nat.testBit_zero]
  rw [bitsMsb_add n 1, h1]
  simp [bitsMsb, h2]

/-- The value of bits with one more at the end. -/
theorem bitsValue_snoc (bits : List Bool) (b : Bool) : bitsValue (bits ++ [b]) = 2 * bitsValue bits + b.toNat := by
  simp [bitsValue, List.foldl_append]

/-- The value of two sequences one after the other. -/
theorem bitsValue_append (xs ys : List Bool) :
    bitsValue (xs ++ ys) = bitsValue xs * 2 ^ ys.length + bitsValue ys := by
  induction ys using List.reverseRecOn with
  | nil => simp [bitsValue]
  | append_singleton ys b ih =>
    rw [← List.append_assoc, bitsValue_snoc, ih, bitsValue_snoc, List.length_append, List.length_singleton, pow_succ]
    ring

/-- A sequence's value fits its length. -/
theorem bitsValue_lt (bits : List Bool) : bitsValue bits < 2 ^ bits.length := by
  induction bits using List.reverseRecOn with
  | nil => simp [bitsValue]
  | append_singleton ys b ih =>
    rw [bitsValue_snoc, List.length_append, List.length_singleton, pow_succ]
    have := b.toNat_lt
    omega

/-- The value of a field of bits. -/
theorem bitsValue_bitsMsb (n v : Nat) : bitsValue (bitsMsb n v) = v % 2 ^ n := by
  induction n generalizing v with
  | zero => simp [bitsMsb, bitsValue, Nat.mod_one]
  | succ n ih =>
    have : v = 2 * (v / 2) + (v.testBit 0).toNat := by
      rw [Nat.testBit_zero]; rcases Nat.mod_two_eq_zero_or_one v with h | h <;> simp [h] <;> omega
    rw [this, bitsMsb_succ_low, bitsValue_snoc, ih, pow_succ, ← this, Nat.mul_comm (2 ^ n) 2, Nat.mod_mul]
    rw [Nat.testBit_zero]
    rcases Nat.mod_two_eq_zero_or_one v with h | h <;> simp [h]; omega

/-- A sequence is the field of its value. -/
theorem bitsMsb_bitsValue (bits : List Bool) : bitsMsb bits.length (bitsValue bits) = bits := by
  induction bits using List.reverseRecOn with
  | nil => rfl
  | append_singleton ys b ih =>
    rw [bitsValue_snoc, List.length_append, List.length_singleton, bitsMsb_succ_low, ih]

/-- What reading `n` bits of a long enough sequence gives. -/
theorem takeBits_eq (n acc : Nat) (bits rest : List Bool) (h : bits.length = n) :
    takeBits n acc (bits ++ rest) = some (acc * 2 ^ n + bitsValue bits, rest) := by
  induction n generalizing acc bits with
  | zero =>
    have := List.length_eq_zero_iff.mp h
    subst this; simp [takeBits, bitsValue]
  | succ n ih =>
    match bits, h with
    | b :: bs, h =>
      simp only [List.length_cons, Nat.add_right_cancel_iff] at h
      have : bitsValue (b :: bs) = b.toNat * 2 ^ n + bitsValue bs := by
        rw [show b :: bs = [b] ++ bs from rfl, bitsValue_append, h]; simp [bitsValue]
      simp only [List.cons_append, takeBits, ih _ _ h, this, pow_succ]
      congr 2
      ring

/-- Reading `n` bits of a sequence that starts with a field of `n` bits. -/
theorem takeBits_bitsMsb (n acc v : Nat) (rest : List Bool) :
    takeBits n acc (bitsMsb n v ++ rest) = some (acc * 2 ^ n + v % 2 ^ n, rest) := by
  rw [takeBits_eq n acc _ rest (length_bitsMsb n v), bitsValue_bitsMsb]

/-- The bits of a byte are eight. -/
@[simp] theorem length_bytesBits (bytes : List Byte) : (bytesBits bytes).length = 8 * bytes.length := by
  induction bytes with
  | nil => rfl
  | cons b bs ih => simp only [bytesBits, List.flatMap_cons, List.length_append, length_bitsMsb, List.length_cons] at *
                    omega

/-- The bits of bytes one after the other. -/
@[simp] theorem bytesBits_append (xs ys : List Byte) : bytesBits (xs ++ ys) = bytesBits xs ++ bytesBits ys := by
  simp [bytesBits]

/-- The bits of a first byte and the rest. -/
theorem bytesBits_cons (b : Byte) (bs : List Byte) : bytesBits (b :: bs) = bitsMsb 8 b.toNat ++ bytesBits bs := by
  simp [bytesBits]

end Sys2Proof
end

