-- ==== Sys2Proof/Laws/Memory.lean ====
section
/-! SUPPORT. The laws of memory: read after write, other addresses left alone, the canonical form kept. -/

namespace Sys2Proof.Machine

/-- An address below every listed one reads as unlisted. -/
theorem Memory.read_below (m : Memory) (x : Nat) (h : m.all (fun c => x < c.1) = true) :
    m.read x = Memory.unlisted := by
  induction m with
  | nil => rfl
  | cons c rest ih =>
    simp only [List.all_cons, Bool.and_eq_true, decide_eq_true_eq] at h
    have hne : c.1 ≠ x := by omega
    simp [Memory.read, hne, ih h.2]

/-- The tail of a canonical memory is canonical. -/
theorem Memory.wf_tail {c : Host.Cell} {m : Memory} (h : Memory.wf (c :: m) = true) : m.wf = true := by
  simp only [Memory.wf, Bool.and_eq_true] at h
  exact h.2

/-- A read of the address just written gives the byte written. -/
theorem Memory.read_write_same (m : Memory) (x : Nat) (v : Byte) (h : m.wf = true) : (m.write x v).read x = v := by
  induction m with
  | nil => by_cases hv : v = Memory.unlisted <;> simp [Memory.write, Memory.read, hv]
  | cons c rest ih =>
    have hall := h
    simp only [Memory.wf, Bool.and_eq_true, decide_eq_true_eq] at hall
    obtain ⟨⟨⟨-, -⟩, hlt⟩, hrest⟩ := hall
    unfold Memory.write
    split_ifs with h1 hv h2 hv
    · have : (c :: rest : Memory).all (fun d => x < d.1) = true := by
        simp only [List.all_cons, Bool.and_eq_true, decide_eq_true_eq, List.all_eq_true] at hlt ⊢
        exact ⟨h1, fun d hd => Nat.lt_trans h1 (hlt d hd)⟩
      rw [hv]; exact Memory.read_below (c :: rest) x this
    · simp [Memory.read]
    · subst h2; rw [hv]; exact Memory.read_below rest c.1 hlt
    · simp [Memory.read]
    · have : c.1 ≠ x := fun e => h2 e.symm
      simp [Memory.read, this, ih hrest]

/-- A write leaves every other address alone. -/
theorem Memory.read_write_other (m : Memory) (x y : Nat) (v : Byte) (hne : y ≠ x) (h : m.wf = true) :
    (m.write x v).read y = m.read y := by
  have hxy : ¬ x = y := fun e => hne e.symm
  induction m with
  | nil => by_cases hv : v = Memory.unlisted <;> simp [Memory.write, Memory.read, hv, hxy]
  | cons c rest ih =>
    unfold Memory.write
    split_ifs with h1 hv h2 hv
    · rfl
    · simp [Memory.read, hxy]
    · subst h2; simp [Memory.read, hxy]
    · subst h2; simp [Memory.read, hxy]
    · by_cases hc : c.1 = y
      · simp [Memory.read, hc]
      · simp [Memory.read, hc, ih (Memory.wf_tail h)]

/-- A bound below every listed address and the written one stays below. -/
theorem Memory.all_write (m : Memory) (x : Nat) (v : Byte) (k : Nat) (hx : k < x)
    (h : m.all (fun c => k < c.1) = true) : (m.write x v).all (fun c => k < c.1) = true := by
  induction m with
  | nil => by_cases hv : v = Memory.unlisted <;> simp [Memory.write, hv, hx]
  | cons c rest ih =>
    simp only [List.all_cons, Bool.and_eq_true, decide_eq_true_eq] at h
    unfold Memory.write
    split_ifs <;> try simp only [List.all_cons, Bool.and_eq_true, decide_eq_true_eq]
    exacts [h, ⟨hx, h⟩, h.2, ⟨hx, h.2⟩, ⟨h.1, ih h.2⟩]

/-- A write keeps the canonical form. -/
theorem Memory.wf_write (m : Memory) (x : Nat) (v : Byte) (hx : x < 4294967296) (h : m.wf = true) :
    (m.write x v).wf = true := by
  induction m with
  | nil => by_cases hv : v = Memory.unlisted <;> simp [Memory.write, Memory.wf, hv, hx]
  | cons c rest ih =>
    have hall := h
    simp only [Memory.wf, Bool.and_eq_true, decide_eq_true_eq] at hall
    obtain ⟨⟨⟨hc, hne⟩, hlt⟩, hrest⟩ := hall
    unfold Memory.write
    split_ifs with h1 hv h2 hv
    · exact h
    · have : (c :: rest : Memory).all (fun d => x < d.1) = true := by
        simp only [List.all_cons, Bool.and_eq_true, decide_eq_true_eq, List.all_eq_true] at hlt ⊢
        exact ⟨h1, fun d hd => Nat.lt_trans h1 (hlt d hd)⟩
      rw [Memory.wf]
      simp only [Bool.and_eq_true, decide_eq_true_eq, bne_iff_ne, ne_eq]
      exact ⟨⟨⟨hx, hv⟩, this⟩, h⟩
    · exact hrest
    · subst h2
      simp only [Memory.wf, Bool.and_eq_true, decide_eq_true_eq, bne_iff_ne, ne_eq]
      exact ⟨⟨⟨hc, hv⟩, hlt⟩, hrest⟩
    · have hcx : c.1 < x := by omega
      simp only [Memory.wf, Bool.and_eq_true, decide_eq_true_eq]
      exact ⟨⟨⟨hc, hne⟩, Memory.all_write rest x v c.1 hcx hlt⟩, ih hrest⟩

/-- A write at a 32-bit address keeps the canonical form. -/
theorem Memory.wf_write_word (m : Memory) (a : Word) (v : Byte) (h : m.wf = true) : (m.write a.toNat v).wf = true :=
  m.wf_write a.toNat v a.isLt h

/-- Two canonical memories that read alike at every address are the same data. -/
theorem Memory.ext_read (m n : Memory) (hm : m.wf = true) (hn : n.wf = true) (h : ∀ x, m.read x = n.read x) :
    m = n := by
  induction m generalizing n with
  | nil =>
    cases n with
    | nil => rfl
    | cons c rest =>
      have := h c.1
      simp only [Memory.wf, Bool.and_eq_true, bne_iff_ne, ne_eq] at hn
      simp [Memory.read] at this
      exact absurd this.symm hn.1.1.2
  | cons c rest ih =>
    have hm' := hm
    simp only [Memory.wf, Bool.and_eq_true, decide_eq_true_eq, bne_iff_ne, ne_eq] at hm'
    obtain ⟨⟨⟨-, hcne⟩, hclt⟩, hrest⟩ := hm'
    cases n with
    | nil =>
      have := h c.1
      simp [Memory.read] at this
      exact absurd this hcne
    | cons d rest' =>
      have hn' := hn
      simp only [Memory.wf, Bool.and_eq_true, decide_eq_true_eq, bne_iff_ne, ne_eq] at hn'
      obtain ⟨⟨⟨-, hdne⟩, hdlt⟩, hrest'⟩ := hn'
      have key : c.1 = d.1 := by
        rcases Nat.lt_trichotomy c.1 d.1 with hlt | heq | hgt
        · have h0 := h c.1
          have hall : (d :: rest' : Memory).all (fun e => c.1 < e.1) = true := by
            simp only [List.all_cons, Bool.and_eq_true, decide_eq_true_eq, List.all_eq_true] at hdlt ⊢
            exact ⟨hlt, fun e he => Nat.lt_trans hlt (hdlt e he)⟩
          rw [Memory.read_below _ _ hall] at h0
          simp [Memory.read] at h0
          exact absurd h0 hcne
        · exact heq
        · have h0 := h d.1
          have hall : (c :: rest : Memory).all (fun e => d.1 < e.1) = true := by
            simp only [List.all_cons, Bool.and_eq_true, decide_eq_true_eq, List.all_eq_true] at hclt ⊢
            exact ⟨hgt, fun e he => Nat.lt_trans hgt (hclt e he)⟩
          rw [Memory.read_below _ _ hall] at h0
          simp [Memory.read] at h0
          exact absurd h0.symm hdne
      have hval : c.2 = d.2 := by
        have := h c.1
        simpa [Memory.read, key] using this
      have hcd : c = d := Prod.ext key hval
      subst hcd
      congr 1
      refine ih rest' hrest hrest' fun x => ?_
      by_cases hx : c.1 = x
      · subst hx; rw [Memory.read_below _ _ hclt, Memory.read_below _ _ hdlt]
      · have := h x
        simpa [Memory.read, hx] using this

end Sys2Proof.Machine
end

