-- ==== Sys2Proof/Laws/Ops.lean ====
section
/-! SUPPORT. What each shared operation of Machine/Ops.lean can do, said once; address spans and the bytes of memory in
order. -/

namespace Sys2Proof.Machine

/-! ## Results -/

@[simp] theorem Res.bind_ok {α β : Type} (a : α) (s : State) (k : α → State → Res β) :
    (Res.ok a s).bind k = k a s := rfl

@[simp] theorem Res.bind_raise {α β : Type} (c : Cause) (i : Word) (s : State) (k : α → State → Res β) :
    (Res.raise c i s : Res α).bind k = .raise c i s := rfl

@[simp] theorem Res.bind_hold {α β : Type} (p : HoldPoint) (s : State) (k : α → State → Res β) :
    (Res.hold p s : Res α).bind k = .hold p s := rfl

/-- Binding is associative: a procedure of three parts runs them in order. -/
theorem Res.bind_assoc {α β γ : Type} (r : Res α) (k : α → State → Res β) (l : β → State → Res γ) :
    (r.bind k).bind l = r.bind fun a s => (k a s).bind l := by cases r <;> rfl

@[simp] theorem Res.indexed_ok {α : Type} (i : Word) (a : α) (s : State) : (Res.ok a s).indexed i = .ok a s := rfl

@[simp] theorem Res.indexed_hold {α : Type} (i : Word) (p : HoldPoint) (s : State) :
    (Res.hold p s : Res α).indexed i = .hold p s := rfl

@[simp] theorem conclude_ok {α : Type} (op : Nat) (spoil : State → State) (done : α → State → State) (a : α)
    (s : State) : conclude op spoil done (.ok a s) = done a s := rfl

@[simp] theorem conclude_raise {α : Type} (op : Nat) (spoil : State → State) (done : α → State → State) (c : Cause)
    (i : Word) (s : State) : conclude op spoil done (.raise c i s) = faultEntry c op i (spoil s) := rfl

@[simp] theorem conclude_hold {α : Type} (op : Nat) (spoil : State → State) (done : α → State → State) (p : HoldPoint)
    (s : State) : conclude op spoil done (.hold p s) = { s with task := .refill p } := rfl

/-! ## Spans -/

/-- A span holds each address its bytes have. -/
theorem Span.has_add (base : Word) (size k : Nat) (hk : k < size) (hw : k < 4294967296) :
    (Span.mk base size).has (base + BitVec.ofNat 32 k) = true := by
  have : (base + BitVec.ofNat 32 k - base).toNat = k := by bv_omega
  rw [Span.has, decide_eq_true_eq, this]
  exact hk

/-- A span holds its base. -/
theorem Span.has_base (base : Word) (size : Nat) (h : 0 < size) : (Span.mk base size).has base = true := by
  simp [Span.has, h]

/-- What a shorter or later run of addresses holds, the whole span holds. -/
theorem Span.has_of_sub (base : Word) (size k n : Nat) (a : Word) (h : k + n ≤ size)
    (ha : (Span.mk (base + BitVec.ofNat 32 k) n).has a = true) : (Span.mk base size).has a = true := by
  simp only [Span.has, decide_eq_true_eq] at *
  bv_omega

end Sys2Proof.Machine

namespace Sys2Proof

open Sys2Proof.Machine

/-- A part of an admitted span is admitted. -/
theorem Admitted.sub {p : Platform} {kind : AccessKind} {base : Word} {size : Nat} (h : Admitted p kind ⟨base, size⟩)
    (k n : Nat) (hk : k + n ≤ size) : Admitted p kind ⟨base + BitVec.ofNat 32 k, n⟩ :=
  fun a ha => h a (Span.has_of_sub base size k n a hk ha)

/-- An admitted span leaves the register window out, so it is shorter than the address space. -/
theorem Admitted.size_lt {p : Platform} {kind : AccessKind} {base : Word} {size : Nat}
    (h : Admitted p kind ⟨base, size⟩) : size < 4294967296 := by
  by_contra hc
  have hh : (Span.mk base size).has p.regBase = true := by
    simp only [Span.has, decide_eq_true_eq]
    have := (p.regBase - base).isLt
    omega
  have := h _ hh
  have hw : inWindow p p.regBase = true := by simp [inWindow, windowBytes]
  simp [memAdmits, hw] at this

/-- The byte at the start of an admitted span is admitted. -/
theorem Admitted.head {p : Platform} {kind : AccessKind} {base : Word} {size : Nat} (h : Admitted p kind ⟨base, size⟩)
    (hs : 0 < size) : memAdmits p base kind = true := h _ (Span.has_base base size hs)

/-- Each byte of an admitted span is admitted. -/
theorem Admitted.at {p : Platform} {kind : AccessKind} {base : Word} {size : Nat} (h : Admitted p kind ⟨base, size⟩)
    (k : Nat) (hk : k < size) : memAdmits p (base + BitVec.ofNat 32 k) kind = true :=
  h _ (Span.has_add base size k hk (by have := h.size_lt; omega))

end Sys2Proof

namespace Sys2Proof.Machine

/-! ## The memory port -/

@[simp] theorem Races.none_spoils (a : Word) : Races.none.spoils a = false := rfl

@[simp] theorem Races.none_overlap : Races.none.overlap = false := rfl

@[simp] theorem Races.overlapped_false (r : Races) : r.overlapped false = r := by simp [Races.overlapped]

/-- Without a race no written byte is noted. -/
theorem State.noteWritten_none {a : Word} {s : State} (hr : s.raced = .none) : s.noteWritten a = s.unread := by
  rw [State.noteWritten, hr]; rfl

/-- With no access to come, the engine's turn foresees nothing. -/
theorem State.foreseen_nil {s : State} (h : s.host = []) : s.foreseen [] = s := by
  unfold State.foreseen; rw [h]; cases s; cases h; rfl

/-- An admitted byte read gives the byte stored and changes nothing. -/
theorem readByte_ok {a : Word} {s : State} (ha : memAdmits s.plat a .read = true) (hr : s.raced = .none) :
    readByte a s = .ok (s.mem.read a.toNat) s := by simp [readByte, ha, hr]

/-- An admitted byte write stores the byte and changes nothing else. -/
theorem writeByte_ok {a : Word} {b : Byte} {s : State} (ha : memAdmits s.plat a .write = true)
    (hr : s.raced = .none) : writeByte a b s = .ok () { s with mem := s.mem.write a.toNat b } := by
  simp [writeByte, ha, hr, State.noteWritten_none hr]

/-- Everything a byte read can do: it gives a byte, changing at most the draw count, or raises BusError with the
address. -/
theorem readByte_cases (a : Word) (s : State) :
    (memAdmits s.plat a .read = true ∧ ∃ b d, readByte a s = .ok b { s with draws := d }) ∨
      (memAdmits s.plat a .read = false ∧ readByte a s = .raise .busError a s) := by
  by_cases h : memAdmits s.plat a .read = true
  · left; refine ⟨h, ?_⟩
    by_cases hr : s.raced.spoils a = true
    · exact ⟨(s.free 0).setWidth 8, s.draws + 1, by simp [readByte, h, hr, State.drawn]⟩
    · exact ⟨s.mem.read a.toNat, s.draws, by rw [readByte, if_pos h, if_neg hr]⟩
  · right; simp [readByte, h]

/-- Everything a byte write can do: it stores a byte at its address, changing nothing else but the draw count and the
note of a watched byte, or raises BusError with the address. -/
theorem writeByte_cases (a : Word) (b : Byte) (s : State) :
    (memAdmits s.plat a .write = true ∧
        ∃ v d, writeByte a b s =
          .ok () { s with mem := s.mem.write a.toNat v, draws := d, unread := s.noteWritten a }) ∨
      (memAdmits s.plat a .write = false ∧ writeByte a b s = .raise .busError a s) := by
  by_cases h : memAdmits s.plat a .write = true
  · left; refine ⟨h, ?_⟩
    by_cases hr : s.raced.spoils a = true
    · exact ⟨(s.free 0).setWidth 8, s.draws + 1, by simp [writeByte, h, hr, State.drawn]⟩
    · exact ⟨b, s.draws, by simp [writeByte, h, hr]⟩
  · right; simp [writeByte, h]

/-- A byte write keeps the memory's canonical form. -/
theorem wf_writeByte {a : Word} {b : Byte} {s t : State} (h : s.mem.wf = true) (hw : writeByte a b s = .ok () t) :
    t.mem.wf = true := by
  rcases writeByte_cases a b s with ⟨-, v, d, hv⟩ | ⟨-, hv⟩
  · rw [hv, Res.ok.injEq] at hw
    rw [← hw.2]
    exact Memory.wf_write_word _ _ _ h
  · rw [hv] at hw; cases hw

/-- Another agent's store keeps the memory's canonical form. -/
theorem wf_hostStore (a : Word) (b : Byte) {s : State} (h : s.mem.wf = true) : (hostStore a b s).mem.wf = true := by
  rw [hostStore]
  split <;> exact Memory.wf_write_word _ _ _ h

/-- Placing bytes in the address space keeps the memory's canonical form. -/
theorem wf_placeBytes (n a v : Nat) {m : Memory} (ha : a + n ≤ 4294967296) (h : m.wf = true) :
    (placeBytes n a v m).wf = true := by
  induction n generalizing a m with
  | zero => exact h
  | succ n ih => exact ih (a + 1) (by omega) (Memory.wf_write _ _ _ (by omega) h)

/-- The memory after reset has the canonical form. -/
theorem wf_resetOn (p : Platform) : (State.resetOn p).mem.wf = true := rfl

/-! ## Bytes of memory in order -/

@[simp] theorem length_memoryBytes (m : Memory) (a : Word) (n : Nat) : (memoryBytes m a n).length = n := by
  induction n generalizing a with
  | zero => rfl
  | succ n ih => simp [memoryBytes, ih]

/-- A run of bytes is its first `n` and the `k` after them. -/
theorem memoryBytes_add (m : Memory) (a : Word) (n k : Nat) :
    memoryBytes m a (n + k) = memoryBytes m a n ++ memoryBytes m (a + BitVec.ofNat 32 n) k := by
  induction n generalizing a with
  | zero => simp [memoryBytes]
  | succ n ih =>
    have h1 : n + 1 + k = (n + k) + 1 := by omega
    have h2 : a + 1#32 + BitVec.ofNat 32 n = a + BitVec.ofNat 32 (n + 1) := by bv_omega
    rw [h1]
    simp [memoryBytes, ih, h2]

/-- Memories that agree on a run of addresses give the same bytes there. -/
theorem memoryBytes_congr (m m' : Memory) (a : Word) (n : Nat)
    (h : ∀ k, k < n → m.read (a + BitVec.ofNat 32 k).toNat = m'.read (a + BitVec.ofNat 32 k).toNat) :
    memoryBytes m a n = memoryBytes m' a n := by
  induction n generalizing a with
  | zero => rfl
  | succ n ih =>
    have h0 := h 0 (by omega)
    simp only [memoryBytes]
    rw [show a + BitVec.ofNat 32 0 = a by simp] at h0
    rw [h0, ih (a + 1#32)]
    intro k hk
    have := h (k + 1) (by omega)
    rwa [show a + 1#32 + BitVec.ofNat 32 k = a + BitVec.ofNat 32 (k + 1) by bv_omega]

/-- A write to a byte outside a run of addresses keeps the run's bytes. -/
theorem memoryBytes_write_other (m : Memory) (a x : Word) (n : Nat) (v : Byte) (hm : m.wf = true)
    (h : ∀ k, k < n → a + BitVec.ofNat 32 k ≠ x) : memoryBytes (m.write x.toNat v) a n = memoryBytes m a n :=
  memoryBytes_congr _ _ a n fun k hk =>
    Memory.read_write_other m _ _ v (fun e => h k hk (BitVec.eq_of_toNat_eq e)) hm

end Sys2Proof.Machine
end

