-- ==== Sys2Proof/Laws/Packer.lean ====
section
/-! SUPPORT. What the packer's procedures do, in bits: they append exactly the bits they are given (R160 to R165). -/

namespace Sys2Proof

open Sys2Proof.Machine

/-- Taking no bits changes nothing. -/
theorem Packs.refl {s : State} (h : PackerOk s.bw) (hm : s.mem.wf = true) : Packs [] s s := by
  obtain ⟨h1, h2, h3⟩ := h
  refine ⟨rfl, by simp, rfl, rfl, ?_, ?_, ⟨h1, h2, h3⟩, hm, fun _ _ => rfl⟩ <;> simp <;> omega

/-- Taking bits, then more bits. -/
theorem Packs.trans {x y : List Bool} {s t u : State} (h : Packs x s t) (k : Packs y t u) : Packs (x ++ y) s u := by
  obtain ⟨h1, h2, h3, h4, h5, h6, h7, h8, h9⟩ := h
  obtain ⟨k1, k2, k3, k4, k5, k6, k7, k8, k9⟩ := k
  have hb : t.bw.base + t.bw.emitted =
      s.bw.base + s.bw.emitted + BitVec.ofNat 32 ((s.bw.used.toNat + x.length) / 8) := by
    rw [h3]
    have : t.bw.emitted = s.bw.emitted + BitVec.ofNat 32 ((s.bw.used.toNat + x.length) / 8) := by
      have := t.bw.emitted.isLt
      apply BitVec.eq_of_toNat_eq
      simp only [BitVec.toNat_add, BitVec.toNat_ofNat, h5]
      omega
    rw [this, BitVec.add_assoc]
  refine ⟨?_, by rw [k2, h2, List.append_assoc], k3.trans h3, k4.trans h4, ?_, ?_, k7, k8, ?_⟩
  · rw [k1, h1]
  · simp only [List.length_append]; omega
  · simp only [List.length_append]; omega
  · intro a ha
    rw [← h9 a, ← k9 a]
    · apply Bool.eq_false_iff.mpr
      intro hc
      refine Bool.eq_false_iff.mp ha ?_
      rw [packSpan, hb] at hc
      exact Span.has_of_sub _ _ _ _ a (by simp only [List.length_append]; omega) hc
    · apply Bool.eq_false_iff.mpr
      intro hc
      refine Bool.eq_false_iff.mp ha ?_
      rw [packSpan] at hc
      have := Span.has_of_sub (s.bw.base + s.bw.emitted) ((s.bw.used.toNat + (x ++ y).length) / 8) 0
        ((s.bw.used.toNat + x.length) / 8) a (by simp only [List.length_append]; omega) (by simpa using hc)
      exact this

/-- What the packer can take, it can take the first part of. -/
theorem CanPack.fst {a b : Nat} {s : State} (h : CanPack (a + b) s) : CanPack a s := by
  obtain ⟨h1, h2, h3⟩ := h
  refine ⟨h1, by omega, ?_⟩
  have := Admitted.sub h3 0 ((s.bw.used.toNat + a) / 8) (by omega)
  simpa [packSpan] using this

/-- What the packer can take, it can take the rest of once it took the first part. -/
theorem CanPack.snd {x : List Bool} {b : Nat} {s t : State} (h : CanPack (x.length + b) s) (k : Packs x s t) :
    CanPack b t := by
  obtain ⟨h1, h2, h3⟩ := h
  obtain ⟨k1, k2, k3, k4, k5, k6, k7, k8, k9⟩ := k
  refine ⟨k7, by rw [k4]; omega, ?_⟩
  have := Admitted.sub h3 ((s.bw.used.toNat + x.length) / 8) ((t.bw.used.toNat + b) / 8) (by omega)
  have hb : t.bw.base + t.bw.emitted =
      s.bw.base + s.bw.emitted + BitVec.ofNat 32 ((s.bw.used.toNat + x.length) / 8) := by
    rw [k3, BitVec.add_assoc]
    congr 1
    apply BitVec.eq_of_toNat_eq
    have := t.bw.emitted.isLt
    simp only [BitVec.toNat_add, BitVec.toNat_ofNat, k5]
    omega
  rw [packSpan, hb, show t.plat = s.plat by rw [k1]]
  exact this

namespace Machine

/-- `Emit` within the capacity on admitted memory stores the byte and counts it, and changes nothing else. -/
theorem emit_ok {b : Byte} {s : State} (hcap : s.bw.emitted.toNat < s.bw.cap.toNat)
    (ha : memAdmits s.plat (s.bw.base + s.bw.emitted) .write = true) (hr : s.raced = .none) :
    emit b s = .ok () { s with
      mem := s.mem.write (s.bw.base + s.bw.emitted).toNat b
      bw := { s.bw with emitted := s.bw.emitted + 1#32 } } := by
  have hne : ¬ s.bw.emitted = s.bw.cap := fun e => by rw [e] at hcap; omega
  rw [emit, if_neg hne, writeByte_ok ha hr]
  rfl

/-- The emitted bytes with one more at the end. -/
theorem memoryBytes_emit (m : Memory) (base : Word) (e : Word) (b : Byte) (hm : m.wf = true)
    (he : e.toNat + 1 < 4294967296) :
    memoryBytes (m.write (base + e).toNat b) base (e + 1#32).toNat = memoryBytes m base e.toNat ++ [b] := by
  have h1 : (e + 1#32).toNat = e.toNat + 1 := by bv_omega
  have h2 : BitVec.ofNat 32 e.toNat = e := by simp
  rw [h1, memoryBytes_add, memoryBytes_write_other _ _ _ _ _ hm, h2]
  · simp [memoryBytes, Memory.read_write_same _ _ _ hm]
  · intro k hk hc
    have : BitVec.ofNat 32 k = e := by
      have := congrArg (fun z => z - base) hc
      simpa [BitVec.add_comm] using this
    rw [← this] at hk
    simp only [BitVec.toNat_ofNat] at hk
    omega

/-- The packer after a byte went out: one more emitted, the stage empty. -/
theorem Packs.emitted {bits : List Bool} {s : State} {b : Byte} (hm : s.mem.wf = true)
    (hcap : s.bw.emitted.toNat < s.bw.cap.toNat) (hlen : s.bw.used.toNat + bits.length = 8)
    (hb : bitsMsb 8 b.toNat = bitsMsb s.bw.used.toNat s.bw.stage.toNat ++ bits) :
    Packs bits s { s with
      mem := s.mem.write (s.bw.base + s.bw.emitted).toNat b
      bw := { s.bw with emitted := s.bw.emitted + 1#32, stage := 0#8, used := 0#4 } } := by
  have hcl := s.bw.cap.isLt
  have he1 : (s.bw.emitted + 1#32).toNat = s.bw.emitted.toNat + 1 := by bv_omega
  have hsz : (s.bw.used.toNat + bits.length) / 8 = 1 := by omega
  refine ⟨rfl, ?_, rfl, rfl, ?_, ?_, ⟨by simp, by simp, ?_⟩, Memory.wf_write_word _ _ _ hm, ?_⟩
  · simp only [packedBits]
    rw [memoryBytes_emit _ _ _ _ hm (by omega), bytesBits_append, bytesBits_cons, hb]
    simp [bytesBits, bitsMsb, List.append_assoc]
  · simp only [he1, hsz]
  · simp only [hlen]; rfl
  · show (s.bw.emitted + 1#32).toNat ≤ _
    rw [he1]; exact hcap
  · intro a hout
    show Memory.read (Memory.write _ _ _) _ = _
    rw [Memory.read_write_other _ _ _ _ _ hm]
    · rfl
    · intro e
      have := BitVec.eq_of_toNat_eq e
      subst this
      simp [packSpan, hsz, Span.has] at hout

/-- One bit into the packer (the loop body of R163). -/
theorem packBit_ok {bit : Bool} {s : State} (hc : CanPack 1 s) (hr : s.raced = .none) (hm : s.mem.wf = true) :
    ∃ t, packBit bit s = .ok () t ∧ Packs [bit] s t := by
  obtain ⟨⟨hu, hs, he⟩, hcap, hadm⟩ := hc
  have hu1 : (s.bw.used + 1#4).toNat = s.bw.used.toNat + 1 := by bv_omega
  have hbit := bit.toNat_lt
  have hpow : (2 : Nat) ^ s.bw.used.toNat ≤ 2 ^ 7 := Nat.pow_le_pow_right (by omega) hu
  have hst : (BitVec.ofNat 8 (s.bw.stage.toNat * 2 + bit.toNat)).toNat = 2 * s.bw.stage.toNat + bit.toNat := by
    simp only [BitVec.toNat_ofNat]; omega
  by_cases h8 : s.bw.used + 1#4 = 8#4
  · have hu7 : s.bw.used.toNat = 7 := by have := congrArg BitVec.toNat h8; rw [hu1] at this; simpa using this
    have hsz : (s.bw.used.toNat + 1) / 8 = 1 := by omega
    rw [hsz] at hcap
    have ha : memAdmits s.plat (s.bw.base + s.bw.emitted) .write = true :=
      Admitted.head hadm (by simp [hsz])
    refine ⟨_, ?_, Packs.emitted (b := BitVec.ofNat 8 (s.bw.stage.toNat * 2 + bit.toNat)) hm hcap (by simp [hu7]) ?_⟩
    · simp only [packBit, h8, if_true]
      rw [emit_ok (s := { s with bw := { s.bw with
        stage := BitVec.ofNat 8 (s.bw.stage.toNat * 2 + bit.toNat), used := 8#4 } }) hcap ha hr]
      rfl
    · rw [hst, hu7]; exact bitsMsb_succ_low 7 _ _
  · have hu6 : s.bw.used.toNat < 7 := by
      rcases Nat.lt_or_ge s.bw.used.toNat 7 with h | h
      · exact h
      · exact absurd (by bv_omega) h8
    have hsz : (s.bw.used.toNat + 1) / 8 = 0 := by omega
    refine ⟨{ s with bw := { s.bw with
        stage := BitVec.ofNat 8 (s.bw.stage.toNat * 2 + bit.toNat), used := s.bw.used + 1#4 } },
      by simp only [packBit, h8, if_false], rfl, ?_, rfl, rfl, ?_, ?_, ⟨?_, ?_, he⟩, hm, fun _ _ => rfl⟩
    · simp only [packedBits]
      rw [hst, hu1, bitsMsb_succ_low, List.append_assoc]
    · simp [hsz]
    · simp only [hu1, List.length_singleton]; omega
    · show (s.bw.used + 1#4).toNat ≤ 7
      rw [hu1]; omega
    · show (BitVec.ofNat 8 (s.bw.stage.toNat * 2 + bit.toNat)).toNat < 2 ^ (s.bw.used + 1#4).toNat
      rw [hu1, hst, pow_succ]; omega

/-- `PackBits(v, n)` appends the field's bits, most significant first (R163). -/
theorem packBits_ok (v n : Nat) {s : State} (hc : CanPack n s) (hr : s.raced = .none) (hm : s.mem.wf = true) :
    ∃ t, packBits v n s = .ok () t ∧ Packs (bitsMsb n v) s t := by
  induction n generalizing s with
  | zero => exact ⟨s, rfl, Packs.refl hc.1 hm⟩
  | succ n ih =>
    rw [Nat.add_comm] at hc
    obtain ⟨t, ht, hp⟩ := packBit_ok (bit := v.testBit n) hc.fst hr hm
    have hrt : t.raced = .none := by rw [hp.1]; exact hr
    obtain ⟨u, hu, hq⟩ := ih (CanPack.snd (x := [v.testBit n]) hc hp) hrt hp.2.2.2.2.2.2.2.1
    exact ⟨u, by rw [packBits, ht, Res.bind_ok, hu], hp.trans hq⟩

/-- A field moved up by `k` bits is followed by `k` zero bits. -/
theorem bitsMsb_shifted (n k v : Nat) : bitsMsb (n + k) (v * 2 ^ k) = bitsMsb n v ++ List.replicate k false := by
  rw [bitsMsb_add, Nat.mul_div_cancel _ (by positivity)]
  congr 1
  have : ∀ j, j ≤ k → bitsMsb j (v * 2 ^ k) = List.replicate j false := by
    intro j
    induction j with
    | zero => intro; rfl
    | succ j ih =>
      intro hj
      rw [bitsMsb, ih (by omega), List.replicate_succ]
      congr 1
      rw [Nat.mul_comm, Nat.testBit_two_pow_mul]
      simp; omega
  exact this k (le_refl k)

/-- The flush appends zero bits up to the byte boundary (R165). -/
theorem flushPacker_ok {s : State} (hc : CanPack ((8 - s.bw.used.toNat) % 8) s) (hr : s.raced = .none)
    (hm : s.mem.wf = true) :
    ∃ t, flushPacker s = .ok () t ∧ Packs (List.replicate ((8 - s.bw.used.toNat) % 8) false) s t ∧
      t.bw.stage = 0#8 ∧ t.bw.used = 0#4 := by
  obtain ⟨⟨hu, hs, he⟩, hcap, hadm⟩ := hc
  by_cases h0 : s.bw.used = 0#4
  · have hst : s.bw.stage = 0#8 := by
      rw [h0] at hs; apply BitVec.eq_of_toNat_eq; simp at hs ⊢; omega
    refine ⟨s, by rw [flushPacker, if_pos h0], ?_, hst, h0⟩
    simpa [h0] using Packs.refl ⟨hu, hs, he⟩ hm
  · have hu0 : 0 < s.bw.used.toNat := by
      rcases Nat.eq_zero_or_pos s.bw.used.toNat with h | h
      · exact absurd (BitVec.eq_of_toNat_eq (by simpa using h)) h0
      · exact h
    have hk : (8 - s.bw.used.toNat) % 8 = 8 - s.bw.used.toNat := by omega
    rw [hk] at hcap hadm ⊢
    have hsz : (s.bw.used.toNat + (8 - s.bw.used.toNat)) / 8 = 1 := by omega
    rw [hsz] at hcap
    have ha : memAdmits s.plat (s.bw.base + s.bw.emitted) .write = true := Admitted.head hadm (by simp [hsz])
    refine ⟨_, by rw [flushPacker, if_neg h0, emit_ok hcap ha hr]; rfl,
      Packs.emitted hm hcap (by simp; omega) ?_, rfl, rfl⟩
    have hlt : s.bw.stage.toNat * 2 ^ (8 - s.bw.used.toNat) < 2 ^ 8 := by
      calc s.bw.stage.toNat * 2 ^ (8 - s.bw.used.toNat)
          < 2 ^ s.bw.used.toNat * 2 ^ (8 - s.bw.used.toNat) := Nat.mul_lt_mul_of_pos_right hs (by positivity)
        _ = 2 ^ 8 := by rw [← pow_add]; congr 1; omega
    rw [BitVec.toNat_ofNat, Nat.mod_eq_of_lt hlt, ← bitsMsb_shifted]
    congr 1; omega

end Machine

end Sys2Proof
end

