-- ==== Sys2Proof/Laws/Unpacker.lean ====
section
/-! SUPPORT. What the stream unit and the unpacker deliver when no refill is needed: the next bytes and bits of their
source, in order (R182, R183, R211). -/

namespace Sys2Proof

open Sys2Proof.Machine

@[simp] theorem StreamRegs.moved_kind (k : Nat) (t : StreamRegs) : (StreamRegs.moved k t).kind = t.kind := by
  cases h : t.kind <;> simp [StreamRegs.moved, h]

@[simp] theorem StreamRegs.moved_base (k : Nat) (t : StreamRegs) : (StreamRegs.moved k t).base = t.base := by
  cases h : t.kind <;> simp [StreamRegs.moved, h]

@[simp] theorem StreamRegs.moved_pos (k : Nat) (t : StreamRegs) :
    (StreamRegs.moved k t).pos = t.pos + BitVec.ofNat 32 k := by
  cases h : t.kind <;> simp [StreamRegs.moved, h]

@[simp] theorem StreamRegs.moved_zero (t : StreamRegs) : StreamRegs.moved 0 t = t := by
  obtain ⟨kind, _, _, _, _, _⟩ := t
  cases kind <;> simp [StreamRegs.moved]

/-- Delivering `a` bytes, then `b` bytes. -/
theorem StreamRegs.moved_moved (a b : Nat) (t : StreamRegs) :
    StreamRegs.moved b (StreamRegs.moved a t) = StreamRegs.moved (a + b) t := by
  cases h : t.kind <;> simp [StreamRegs.moved, h, BitVec.add_assoc, BitVec.ofNat_add]

/-- Delivering some bytes, then more bytes. -/
theorem Gets.trans {x y : List Byte} {s t u : State} (h : Gets x s t) (k : Gets y t u) : Gets (x ++ y) s u := by
  obtain ⟨h1, h2⟩ := h
  obtain ⟨k1, k2⟩ := k
  refine ⟨?_, by rw [h2, k2, List.append_assoc]⟩
  rw [k1, h1]
  simp [StreamRegs.moved_moved]

/-- What the stream can deliver, it can deliver the first part of. -/
theorem CanGet.fst {a b : Nat} {s : State} (h : CanGet (a + b) s) : CanGet a s := by
  obtain ⟨h1, h2⟩ := h
  refine ⟨by omega, ?_⟩
  unfold streamSpan at *
  cases hk : s.st.kind <;> simp only [hk] at *
  · intro x hx; simp [Span.has, Span.empty] at hx
  · simpa using Admitted.sub h2 0 a (by omega)
  · intro x hx; simp [Span.has, Span.empty] at hx

/-- What the stream can deliver, it can deliver the rest of once it delivered the first part. -/
theorem CanGet.snd {x : List Byte} {b : Nat} {s t : State} (h : CanGet (x.length + b) s) (k : Gets x s t) :
    CanGet b t := by
  obtain ⟨h1, h2⟩ := h
  obtain ⟨k1, k2⟩ := k
  refine ⟨by rw [k2, List.length_append] at h1; omega, ?_⟩
  have hp : t.plat = s.plat := by rw [k1]
  have hst : t.st = StreamRegs.moved x.length s.st := by rw [k1]
  unfold streamSpan at *
  rw [hp, hst]
  cases hk : s.st.kind <;> simp only [hk, StreamRegs.moved_kind, StreamRegs.moved_base, StreamRegs.moved_pos] at *
  · intro x hx; simp [Span.has, Span.empty] at hx
  · rw [← BitVec.add_assoc]; exact Admitted.sub h2 x.length b (by omega)
  · intro x hx; simp [Span.has, Span.empty] at hx

namespace Machine

/-- `StreamGet()` with a byte at hand delivers it and moves on, and changes nothing else (R211). -/
theorem streamGet_ok (p : HoldPoint) {s : State} (hc : CanGet 1 s) (hr : s.raced = .none) :
    ∃ b t, streamGet p s = .ok b t ∧ Gets [b] s t := by
  obtain ⟨hlen, hadm⟩ := hc
  cases hk : s.st.kind
  · simp [streamBytes, hk] at hlen
  · simp only [streamBytes, hk, length_memoryBytes] at hlen
    have hne : ¬ s.st.pos = s.st.size := fun e => by rw [e] at hlen; omega
    simp only [streamSpan, hk] at hadm
    have ha := Admitted.head hadm (by omega)
    refine ⟨_, _, by simp only [streamGet, hk, hne, if_false]; rw [readByte_ok ha hr, Res.bind_ok], ?_, ?_⟩
    · simp [StreamRegs.moved, hk]
    · have h1 : (s.st.pos + 1#32).toNat = s.st.pos.toNat + 1 := by
        have := s.st.size.isLt; bv_omega
      simp only [streamBytes, hk, h1]
      rw [show s.st.size.toNat - s.st.pos.toNat = (s.st.size.toNat - (s.st.pos.toNat + 1)) + 1 by omega, memoryBytes,
        BitVec.add_assoc]
      rfl
  · simp only [streamBytes, hk, List.length_take, List.length_drop] at hlen
    have hne : ¬ s.st.pos = s.st.size := fun e => by rw [e] at hlen; omega
    have hidx : ¬ s.st.idx = s.st.fill := fun e => by rw [e] at hlen; omega
    refine ⟨_, _, by simp only [streamGet, hk, hne, hidx, if_false, chunkTake]; rfl, ?_, ?_⟩
    · simp [StreamRegs.moved, hk]
    · have h1 : (s.st.pos + 1#32).toNat = s.st.pos.toNat + 1 := by
        have := s.st.size.isLt; bv_omega
      have h2 : (s.st.idx + 1#17).toNat = s.st.idx.toNat + 1 := by
        have := s.st.fill.isLt; bv_omega
      have hlt : s.st.idx.toNat < s.chunk.length := by omega
      simp only [streamBytes, hk, h1, h2]
      rw [List.drop_eq_getElem_cons hlt, List.getD_eq_getElem _ _ hlt]
      obtain ⟨m, hm⟩ : ∃ m, min (s.st.fill.toNat - s.st.idx.toNat) (s.st.size.toNat - s.st.pos.toNat) = m + 1 :=
        ⟨_, (Nat.sub_add_cancel (by omega)).symm⟩
      rw [hm, List.take_succ_cons]
      simp only [List.singleton_append, List.cons.injEq, true_and]
      congr 1
      omega

/-- The next byte is at hand (R182). -/
def CanFetch (s : State) : Prop :=
  0 < (sourceBytes s).length ∧ Admitted s.plat .read (fetchSpan 1 s) ∧ s.br.consumed.toNat + 1 < 4294967296

/-- Fetching a byte that is at hand takes the source's next byte (R182). -/
theorem brFetch_ok (p : HoldPoint) {s : State} (hc : CanFetch s) (hr : s.raced = .none) :
    ∃ b t, brFetch p s = .ok b t ∧ sourceBytes s = b :: sourceBytes (loadByte b t) ∧
      loadByte b t = { s with
        br := { s.br with consumed := s.br.consumed + 1#32, acc := b, used := 8#4 }
        st := if s.br.mode = .stream then StreamRegs.moved 1 s.st else s.st } := by
  obtain ⟨hlen, hadm, hcnt⟩ := hc
  have hall : ¬ s.br.consumed = 0xFFFFFFFF#32 := fun e => by rw [e] at hcnt; simp at hcnt
  cases hk : s.br.mode
  · simp [sourceBytes, hk] at hlen
  · simp only [sourceBytes, hk, length_memoryBytes] at hlen
    have hne : ¬ s.br.consumed = s.br.limit := fun e => by rw [e] at hlen; omega
    simp only [fetchSpan, hk] at hadm
    have ha := Admitted.head hadm (by omega)
    refine ⟨_, _, by simp only [brFetch, hk, hne, if_false]; exact readByte_ok ha hr, ?_, ?_⟩
    · have h1 : (s.br.consumed + 1#32).toNat = s.br.consumed.toNat + 1 := by bv_omega
      simp only [sourceBytes, loadByte, countFetch, hall, hk, h1, if_false]
      rw [show s.br.limit.toNat - s.br.consumed.toNat = (s.br.limit.toNat - (s.br.consumed.toNat + 1)) + 1 by omega,
        memoryBytes, BitVec.add_assoc]
    · simp [loadByte, countFetch, hall, hk]
  · simp only [sourceBytes, hk] at hlen
    simp only [fetchSpan, hk] at hadm
    obtain ⟨b, t, ht, h1, h2⟩ := streamGet_ok p ⟨hlen, hadm⟩ hr
    have hbr : t.br = s.br := by rw [h1]
    refine ⟨b, t, by simp only [brFetch, hk, ht], ?_, ?_⟩
    · have : sourceBytes (loadByte b t) = streamBytes t := by
        simp only [sourceBytes, loadByte, countFetch, hbr, hall, hk, if_false]; rfl
      rw [this]; simp only [sourceBytes, hk]; exact h2
    · rw [h1]; simp [loadByte, countFetch, hall, hk]

end Machine

end Sys2Proof

namespace Sys2Proof

open Sys2Proof.Machine

/-- Reading no bits changes nothing. -/
theorem Reads.refl (s : State) : Reads [] s s := by
  have h0 : fetchCount 0 s = 0 := by unfold fetchCount; omega
  refine ⟨rfl, by simp, rfl, rfl, rfl, ?_, ?_, ?_, id⟩
  · simp [h0]
  · simp [h0]
  · simp [h0]

/-- How many bytes two requests fetch together. -/
theorem fetchCount_add {x : List Bool} {b : Nat} {s t : State}
    (h : t.br.used.toNat + x.length = s.br.used.toNat + 8 * fetchCount x.length s) :
    fetchCount (x.length + b) s = fetchCount x.length s + fetchCount b t := by
  unfold fetchCount at *
  omega

/-- Reading some bits, then more bits. -/
theorem Reads.trans {x y : List Bool} {s t u : State} (h : Reads x s t) (k : Reads y t u) : Reads (x ++ y) s u := by
  obtain ⟨h1, h2, h3, h4, h5, h6, h7, h8, h9⟩ := h
  obtain ⟨k1, k2, k3, k4, k5, k6, k7, k8, k9⟩ := k
  have hf := fetchCount_add (b := y.length) h7
  refine ⟨by rw [k1, h1], by rw [h2, k2, List.append_assoc], k3.trans h3, k4.trans h4, k5.trans h5, ?_, ?_, ?_,
    fun w => k9 (h9 w)⟩
  · rw [List.length_append, hf]; omega
  · rw [List.length_append, hf]; omega
  · rw [List.length_append, hf, k8, h3, h8]
    split_ifs
    · rw [StreamRegs.moved_moved]
    · rfl

/-- The next `n` bytes the unpacker fetches are the first part of its next `m`. -/
theorem Admitted.fetch_fst {n m : Nat} {s : State} (hn : n ≤ m) (h : Admitted s.plat .read (fetchSpan m s)) :
    Admitted s.plat .read (fetchSpan n s) := by
  unfold fetchSpan streamSpan at *
  cases hk : s.br.mode <;> simp only [hk] at *
  · intro a ha; simp [Span.has, Span.empty] at ha
  · simpa using Admitted.sub h 0 n (by omega)
  · cases hs : s.st.kind <;> simp only [hs] at *
    · intro a ha; simp [Span.has, Span.empty] at ha
    · simpa using Admitted.sub h 0 n (by omega)
    · intro a ha; simp [Span.has, Span.empty] at ha

/-- What the unpacker can deliver, it can deliver the first part of. -/
theorem CanRead.fst {a b : Nat} {s : State} (h : CanRead (a + b) s) : CanRead a s := by
  obtain ⟨h1, h2, h3⟩ := h
  have hf : fetchCount a s ≤ fetchCount (a + b) s := by unfold fetchCount; omega
  exact ⟨by omega, Admitted.fetch_fst hf h2, by omega⟩

/-- What the unpacker can deliver, it can deliver the rest of once it delivered the first part. -/
theorem CanRead.snd {x : List Bool} {b : Nat} {s t : State} (h : CanRead (x.length + b) s) (k : Reads x s t) :
    CanRead b t := by
  obtain ⟨h1, h2, h3⟩ := h
  obtain ⟨k1, k2, k3, k4, k5, k6, k7, k8, k9⟩ := k
  have hf := fetchCount_add (b := b) k7
  refine ⟨by rw [k2, List.length_append] at h1; omega, ?_, by rw [hf] at h3; omega⟩
  have hp : t.plat = s.plat := by rw [k1]
  rw [hf] at h2
  rw [hp]
  unfold fetchSpan streamSpan at *
  rw [k3]
  cases hk : s.br.mode <;> simp only [hk] at *
  · intro a ha; simp [Span.has, Span.empty] at ha
  · have hc : t.br.base + t.br.consumed =
        s.br.base + s.br.consumed + BitVec.ofNat 32 (fetchCount x.length s) := by
      rw [k4, BitVec.add_assoc]
      congr 1
      apply BitVec.eq_of_toNat_eq
      have := t.br.consumed.isLt
      simp only [BitVec.toNat_add, BitVec.toNat_ofNat, k6]
      omega
    rw [hc]; exact Admitted.sub h2 _ _ (le_refl _)
  · rw [k8]
    simp only [if_true, StreamRegs.moved_kind, StreamRegs.moved_base, StreamRegs.moved_pos]
    cases hs : s.st.kind <;> simp only [hs] at *
    · intro a ha; simp [Span.has, Span.empty] at ha
    · rw [← BitVec.add_assoc]; exact Admitted.sub h2 _ _ (le_refl _)
    · intro a ha; simp [Span.has, Span.empty] at ha

namespace Machine

/-- The accumulator's bits are its next bit and those left after it (R183). -/
theorem heldBits_step {s : State} (h : s.br.used ≠ 0#4) :
    heldBits s = headBit s :: heldBits (dropBit s) := by
  obtain ⟨k, hk⟩ : ∃ k, s.br.used.toNat = k + 1 := by
    refine ⟨s.br.used.toNat - 1, (Nat.sub_add_cancel ?_).symm⟩
    rcases Nat.eq_zero_or_pos s.br.used.toNat with e | e
    · exact absurd (BitVec.eq_of_toNat_eq (by simpa using e)) h
    · exact e
  have h1 : (s.br.used - 1#4).toNat = k := by bv_omega
  have h2 : (BitVec.ofNat 8 (s.br.acc.toNat % 2 ^ k)).toNat = s.br.acc.toNat % 2 ^ k := by
    have := Nat.mod_le s.br.acc.toNat (2 ^ k)
    have := s.br.acc.isLt
    rw [BitVec.toNat_ofNat]; omega
  simp only [heldBits, headBit, dropBit, hk, h1, Nat.add_sub_cancel, h2, bitsMsb_mod k k _ (le_refl k)]
  rfl

/-- Taking the next bit leaves the bytes still to come alone. -/
theorem sourceBytes_dropBit (s : State) : sourceBytes (dropBit s) = sourceBytes s := rfl

/-- The next bit when it is at hand (R183): the accumulator's, or the first of a fetched byte. -/
theorem nextBit_ok (p : HoldPoint) {s : State} (hc : CanRead 1 s) (hr : s.raced = .none) :
    ∃ u, needBit p s = .ok () u ∧ Reads [headBit u] s (dropBit u) := by
  obtain ⟨hlen, hadm, hcnt⟩ := hc
  by_cases h0 : s.br.used = 0#4
  · have hf : fetchCount 1 s = 1 := by simp [fetchCount, h0]
    have hheld : heldBits s = [] := by simp [heldBits, h0, bitsMsb]
    have hpos : 0 < (sourceBytes s).length := by
      simp only [sourceBits, hheld, List.nil_append, length_bytesBits] at hlen; omega
    rw [hf] at hadm hcnt
    obtain ⟨b, t, ht, h1, h2⟩ := brFetch_ok p ⟨hpos, hadm, hcnt⟩ hr
    refine ⟨loadByte b t, by simp only [needBit, h0, if_true, ht, Res.bind_ok], ?_⟩
    have hne : (loadByte b t).br.used ≠ 0#4 := by rw [h2]; simp
    have hbits : heldBits (loadByte b t) = bitsMsb 8 b.toNat := by rw [h2]; rfl
    have hc1 : (s.br.consumed + 1#32).toNat = s.br.consumed.toNat + 1 := by bv_omega
    refine ⟨?_, ?_, ?_, ?_, ?_, ?_, ?_, ?_, ?_⟩
    · simp only [dropBit, h2]
    · rw [sourceBits, hheld, h1, bytesBits_cons, ← hbits, heldBits_step hne, sourceBits, sourceBytes_dropBit]
      rfl
    · simp only [dropBit, h2]
    · simp only [dropBit, h2]
    · simp only [dropBit, h2]
    · simp only [dropBit, h2, hc1, List.length_singleton, hf]
    · simp only [dropBit, h2, List.length_singleton, hf, h0]; rfl
    · simp only [dropBit, h2, List.length_singleton, hf]
    · rintro ⟨-, -, hlim⟩
      simp only [dropBit, h2]
      refine ⟨show (8#4 - 1#4).toNat ≤ 8 by decide, ?_, ?_⟩
      · have := Nat.mod_lt b.toNat (show 0 < 2 ^ 7 by decide)
        simp only [BitVec.toNat_ofNat]
        simp; omega
      · intro hm
        have hm' : s.br.mode = .flat := hm
        simp only [sourceBytes, hm', length_memoryBytes] at hpos
        show (s.br.consumed + 1#32).toNat ≤ s.br.limit.toNat
        rw [hc1]; omega
  · have hpos : 0 < s.br.used.toNat := by
      rcases Nat.eq_zero_or_pos s.br.used.toNat with e | e
      · exact absurd (BitVec.eq_of_toNat_eq (by simpa using e)) h0
      · exact e
    have hf : fetchCount 1 s = 0 := by unfold fetchCount; omega
    refine ⟨s, by simp only [needBit, h0, if_false], ?_⟩
    have h1 : (s.br.used - 1#4).toNat = s.br.used.toNat - 1 := by bv_omega
    refine ⟨rfl, ?_, rfl, rfl, rfl, ?_, ?_, ?_, ?_⟩
    · rw [sourceBits, heldBits_step h0, sourceBits, sourceBytes_dropBit]; rfl
    · simp only [dropBit, List.length_singleton, hf]; omega
    · simp only [dropBit, List.length_singleton, hf, h1]; omega
    · simp [dropBit, hf]
    · rintro ⟨hu, ha, hl⟩
      refine ⟨?_, ?_, hl⟩
      · simp only [dropBit, h1]; omega
      · simp only [dropBit, h1, BitVec.toNat_ofNat]
        exact Nat.lt_of_le_of_lt (Nat.mod_le _ _) (Nat.mod_lt _ (by positivity))

/-- `UnpackBits` with its bits at hand delivers the source's next bits as a number, most significant first (R183). -/
theorem unpackFrom_ok (point : Nat → Nat → HoldPoint) (n r : Nat) {s : State} (hc : CanRead n s)
    (hr : s.raced = .none) :
    ∃ bits t, bits.length = n ∧ unpackFrom point n r s = .ok (r * 2 ^ n + bitsValue bits) t ∧ Reads bits s t := by
  induction n generalizing r s with
  | zero => exact ⟨[], s, rfl, by simp [unpackFrom, bitsValue], Reads.refl s⟩
  | succ n ih =>
    rw [Nat.add_comm] at hc
    obtain ⟨u, hu, hread⟩ := nextBit_ok (point r (n + 1)) hc.fst hr
    have hrt : (dropBit u).raced = .none := by rw [hread.1]; exact hr
    obtain ⟨bits, t, hl, ht, hread'⟩ :=
      ih (2 * r + (headBit u).toNat) (CanRead.snd (x := [headBit u]) hc hread) hrt
    refine ⟨headBit u :: bits, t, by simp [hl], ?_, hread.trans hread'⟩
    rw [unpackFrom, hu, Res.bind_ok, ht]
    congr 1
    rw [show headBit u :: bits = [headBit u] ++ bits from rfl, bitsValue_append, hl, pow_succ]
    simp only [bitsValue, List.foldl_cons, List.foldl_nil]
    ring

/-- `UnpackBits` when the source's next bits are known (R183). -/
theorem unpackFrom_bits (point : Nat → Nat → HoldPoint) (r : Nat) {s : State} (bits rest : List Bool)
    (hs : sourceBits s = bits ++ rest) (hc : CanRead bits.length s) (hr : s.raced = .none) :
    ∃ t, unpackFrom point bits.length r s = .ok (r * 2 ^ bits.length + bitsValue bits) t ∧ Reads bits s t := by
  obtain ⟨got, t, hl, ht, hread⟩ := unpackFrom_ok point bits.length r hc hr
  have hgot : got = bits := by
    have := hread.2.1
    rw [hs] at this
    exact ((List.append_inj this.symm hl).1)
  subst hgot
  exact ⟨t, ht, hread⟩

end Machine

end Sys2Proof
end

