-- ==== Sys2Proof/Laws/Units.lean ====
section
/-! SUPPORT. Code units in both directions (R118, R119, R236, R240), and samples in memory (R83, R84). -/

namespace Sys2Proof

open Sys2Proof.Machine

/-! ## Bytes and samples in memory -/

/-- The low bytes of a value: its lowest, then those of the rest. -/
theorem leBytes_succ (k v : Nat) : leBytes (k + 1) v = BitVec.ofNat 8 v :: leBytes k (v / 256) := by
  simp only [leBytes, List.range_succ_eq_map, List.map_cons, List.map_map, pow_zero, Nat.div_one]
  congr 1
  refine List.map_congr_left fun j _ => ?_
  simp only [Function.comp, Nat.succ_eq_add_one, pow_succ, Nat.div_div_eq_div_mul, Nat.mul_comm]

@[simp] theorem length_leBytes (k v : Nat) : (leBytes k v).length = k := by simp [leBytes]

/-- Storing no bytes changes nothing. -/
theorem Stores.refl (a : Word) {s : State} (hm : s.mem.wf = true) : Stores a [] s s := ⟨rfl, hm, rfl, fun _ _ => rfl⟩

/-- Storing bytes, then more bytes after them. -/
theorem Stores.trans {a : Word} {x y : List Byte} {s t u : State} (hl : x.length + y.length ≤ 4294967296)
    (h : Stores a x s t) (k : Stores (a + BitVec.ofNat 32 x.length) y t u) : Stores a (x ++ y) s u := by
  obtain ⟨h1, h2, h3, h4⟩ := h
  obtain ⟨k1, k2, k3, k4⟩ := k
  refine ⟨by rw [k1, h1], k2, ?_, ?_⟩
  · rw [List.length_append, memoryBytes_add, k3]
    congr 1
    rw [← h3, length_memoryBytes]
    refine (memoryBytes_congr _ _ _ _ fun j hj => ?_)
    refine k4 _ ?_
    simp only [Span.has, decide_eq_false_iff_not]
    bv_omega
  · intro b hb
    rw [← h4 b, ← k4 b]
    · apply Bool.eq_false_iff.mpr
      intro hc
      exact Bool.eq_false_iff.mp hb (Span.has_of_sub _ _ _ _ b (by simp) hc)
    · apply Bool.eq_false_iff.mpr
      intro hc
      exact Bool.eq_false_iff.mp hb
        (Span.has_of_sub a _ 0 x.length b (by simp) (by simpa using hc))

namespace Machine

/-- A `MemWrite` on admitted memory stores the value's low bytes, and changes nothing else (R83). -/
theorem memWrite_ok (n : Nat) (a : Word) (v : Nat) {s : State} (ha : Admitted s.plat .write ⟨a, n⟩)
    (hr : s.raced = .none) (hm : s.mem.wf = true) :
    ∃ t, memWrite n a v s = .ok () t ∧ Stores a (leBytes n v) s t := by
  induction n generalizing a v s with
  | zero => exact ⟨s, rfl, Stores.refl a hm⟩
  | succ n ih =>
    have hlt := Admitted.size_lt ha
    have hw := writeByte_ok (b := BitVec.ofNat 8 v) (Admitted.head ha (by omega)) hr
    have ha' : Admitted s.plat .write ⟨a + 1#32, n⟩ := by
      have := Admitted.sub ha 1 n (by omega)
      exact this
    obtain ⟨t, ht, hst⟩ := ih (a + 1#32) (v / 256)
      (s := { s with mem := s.mem.write a.toNat (BitVec.ofNat 8 v) }) ha' hr (Memory.wf_write_word _ _ _ hm)
    refine ⟨t, by rw [memWrite, hw, Res.bind_ok, ht], ?_⟩
    rw [leBytes_succ]
    refine Stores.trans (x := [BitVec.ofNat 8 v]) (by simp; omega) ?_ hst
    refine ⟨rfl, Memory.wf_write_word _ _ _ hm, ?_, ?_⟩
    · simp [memoryBytes, Memory.read_write_same _ _ _ hm]
    · intro b hb
      show Memory.read (Memory.write _ _ _) _ = _
      rw [Memory.read_write_other _ _ _ _ _ hm]
      · rfl
      · intro e
        have := BitVec.eq_of_toNat_eq e
        subst this
        simp [Span.has] at hb

/-- A 16-bit read of admitted memory gives the little-endian value and changes nothing (R83). -/
theorem memRead16_ok (a : Word) {s : State} (ha : Admitted s.plat .read ⟨a, 2⟩) (hr : s.raced = .none) :
    memRead16 a s = .ok (leValue (memoryBytes s.mem a 2)) s := by
  have h0 := Admitted.head ha (by omega)
  have h1 := Admitted.at ha 1 (by omega)
  rw [memRead16, readByte_ok h0 hr, Res.bind_ok, readByte_ok h1 hr, Res.bind_ok]
  simp [memoryBytes, leValue]

end Machine

/-! ## Code units -/

/-- The bits of a normal unit (R118). -/
theorem CodeUnit.bits_normal (code : Nat) (sign : Bool) (mag : Nat) (h : code ≤ 14) :
    CodeUnit.bits (.normal code sign mag) = bitsMsb 4 code ++ ([sign] ++ bitsMsb (code + 1) mag) := by
  interval_cases code <;> rfl

/-- The bits of an escape unit (R119). -/
theorem CodeUnit.bits_escape (raw : Nat) : CodeUnit.bits (.escape raw) = bitsMsb 4 15 ++ bitsMsb 16 raw := rfl

/-- A unit has 6 + c bits, or 20 (R120). -/
theorem CodeUnit.length_bits {u : CodeUnit} (h : u.Fits) :
    u.bits.length = if u.code = 15 then 20 else 6 + u.code := by
  cases u with
  | normal code sign mag =>
    have h14 : code ≤ 14 := h.1
    have : ¬ code = 15 := by omega
    simp only [CodeUnit.bits_normal _ _ _ h14, CodeUnit.code, this, if_false, List.length_append, length_bitsMsb,
      List.length_singleton]
    omega
  | escape raw => simp [CodeUnit.bits_escape, CodeUnit.code]

/-- Every unit is at most 20 bits (R120, R237). -/
theorem CodeUnit.length_bits_le {u : CodeUnit} (h : u.Fits) : u.bits.length ≤ 20 := by
  rw [CodeUnit.length_bits h]
  cases u with
  | normal code sign mag =>
    have h14 : code ≤ 14 := h.1
    split_ifs <;> simp only [CodeUnit.code] at * <;> omega
  | escape raw => simp [CodeUnit.code]

/-- `BitsNeeded` is at least 1. -/
theorem one_le_bitsNeededOf (v : Nat) : 1 ≤ bitsNeededOf v := Nat.le_max_left _ _

/-- A value fits the bits it needs. -/
theorem lt_two_pow_bitsNeededOf (v : Nat) : v < 2 ^ bitsNeededOf v := by
  by_cases h : v = 0
  · simp [bitsNeededOf, h]
  · have h1 : v < 2 ^ (Nat.log2 v + 1) := Nat.lt_log2_self
    refine Nat.lt_of_lt_of_le h1 (Nat.pow_le_pow_right (by omega) ?_)
    simp [bitsNeededOf, h]

/-- The unit of a sample fits its encoding. -/
theorem sampleUnit_fits (c : ContextRegs) (x : Int) : (sampleUnit c x).Fits := by
  unfold sampleUnit
  simp only
  split_ifs with h
  · refine ⟨by omega, ?_⟩
    rw [Nat.sub_add_cancel (one_le_bitsNeededOf _)]
    exact lt_two_pow_bitsNeededOf _
  · show lowBits 16 x < 2 ^ 16
    simp only [lowBits]
    have := Int.emod_lt_of_pos x (show (0 : Int) < 2 ^ 16 by norm_num)
    omega

/-- The unit of a sample carries the code R236 returns. -/
theorem sampleUnit_code (c : ContextRegs) (x : Int) : (sampleUnit c x).code = unitCode x c := by
  unfold sampleUnit unitCode
  simp only
  split_ifs <;> rfl

namespace Machine

/-- `EncodeUnit`'s packing appends the sample's unit (R236). -/
theorem packUnit_ok (x : Int) {s : State} (hc : CanPack (sampleUnit s.ctx x).bits.length s) (hr : s.raced = .none)
    (hm : s.mem.wf = true) : ∃ t, packUnit x s = .ok () t ∧ Packs (sampleUnit s.ctx x).bits s t := by
  obtain ⟨delta, hdelta⟩ : ∃ d, d = x - s.ctx.guess := ⟨_, rfl⟩
  have h1 := one_le_bitsNeededOf delta.natAbs
  unfold packUnit
  simp only [← hdelta]
  by_cases h : bitsNeededOf delta.natAbs ≤ 15
  · have e : sampleUnit s.ctx x = .normal (bitsNeededOf delta.natAbs - 1) (0 ≤ delta) delta.natAbs := by
      rw [sampleUnit, ← hdelta]; exact if_pos h
    rw [if_pos h]
    rw [e, CodeUnit.bits_normal _ _ _ (by omega)] at hc ⊢
    simp only [List.length_append, length_bitsMsb, List.length_singleton, Nat.sub_add_cancel h1] at hc
    obtain ⟨t, ht, hp⟩ := packBits_ok (bitsNeededOf delta.natAbs - 1) 4 hc.fst hr hm
    have hct := CanPack.snd (x := bitsMsb 4 (bitsNeededOf delta.natAbs - 1)) (by simpa using hc) hp
    have hrt : t.raced = .none := by rw [hp.1]; exact hr
    obtain ⟨v, hv, hq⟩ := packBits_ok (if 0 ≤ delta then 1 else 0) 1 hct.fst hrt hp.2.2.2.2.2.2.2.1
    have hq' : Packs [decide (0 ≤ delta)] t v := by
      convert hq using 1
      by_cases hd : 0 ≤ delta <;> simp [bitsMsb, hd]
    have hcv := CanPack.snd (x := [decide (0 ≤ delta)]) hct hq'
    have hrv : v.raced = .none := by rw [hq.1]; exact hrt
    obtain ⟨w, hw, hz⟩ := packBits_ok delta.natAbs (bitsNeededOf delta.natAbs) hcv hrv hq.2.2.2.2.2.2.2.1
    refine ⟨w, by rw [ht, Res.bind_ok, hv, Res.bind_ok, hw], ?_⟩
    rw [Nat.sub_add_cancel h1]
    exact hp.trans (hq'.trans hz)
  · have e : sampleUnit s.ctx x = .escape (lowBits 16 x) := by
      rw [sampleUnit, ← hdelta]; exact if_neg h
    rw [if_neg h]
    rw [e, CodeUnit.bits_escape] at hc ⊢
    replace hc : CanPack (4 + 16) s := by simpa using hc
    obtain ⟨t, ht, hp⟩ := packBits_ok 15 4 hc.fst hr hm
    have hct := CanPack.snd (x := bitsMsb 4 15) (by rw [length_bitsMsb]; exact hc) hp
    have hrt : t.raced = .none := by rw [hp.1]; exact hr
    obtain ⟨v, hv, hq⟩ := packBits_ok (lowBits 16 x) 16 hct hrt hp.2.2.2.2.2.2.2.1
    exact ⟨v, by rw [ht, Res.bind_ok, hv], hp.trans hq⟩

/-- `DecodeUnit` reads the unit its source begins with (R240). -/
theorem readUnit_ok (f : Frame) {u : CodeUnit} {s : State} (rest : List Bool) (hu : u.Fits)
    (hs : sourceBits s = u.bits ++ rest) (hc : CanRead u.bits.length s) (hr : s.raced = .none) :
    ∃ t, readUnit f s = .ok u t ∧ Reads u.bits s t := by
  cases u with
  | normal code sign mag =>
    have h14 : code ≤ 14 := hu.1
    have hmag : mag < 2 ^ (code + 1) := hu.2
    have hne : ¬ code = 15 := by omega
    rw [CodeUnit.bits_normal _ _ _ h14] at *
    simp only [List.length_append, length_bitsMsb, List.length_singleton] at hc
    rw [List.append_assoc] at hs
    obtain ⟨t, ht, hp⟩ := unpackFrom_bits (fun r left => .unit f (.code r left)) 0 (bitsMsb 4 code) _ hs
      (by simpa using hc.fst) hr
    have hct := CanRead.snd (x := bitsMsb 4 code) (by rw [length_bitsMsb]; exact hc) hp
    have hrt : t.raced = .none := by rw [hp.1]; exact hr
    have hst : sourceBits t = [sign] ++ (bitsMsb (code + 1) mag ++ rest) := by
      have := hp.2.1; rw [hs] at this
      rw [← List.append_cancel_left this, List.append_assoc]
    obtain ⟨v, hv, hq⟩ := unpackFrom_bits (fun _ _ => .unit f (.sign code)) 0 [sign] _ hst
      (by simpa using hct.fst) hrt
    have hcv := CanRead.snd (x := [sign]) (by simpa using hct) hq
    have hrv : v.raced = .none := by rw [hq.1]; exact hrt
    have hsv : sourceBits v = bitsMsb (code + 1) mag ++ rest := by
      have := hq.2.1; rw [hst] at this
      exact (List.append_cancel_left this).symm
    obtain ⟨w, hw, hz⟩ := unpackFrom_bits (fun r left => .unit f (.mag code sign r left)) 0 (bitsMsb (code + 1) mag) _
      hsv (by simpa using hcv) hrv
    rw [length_bitsMsb, bitsValue_bitsMsb] at ht hw
    rw [List.length_singleton] at hv
    have hsign : (0 * 2 ^ 1 + bitsValue [sign] == 1) = sign := by cases sign <;> rfl
    have hcode : 0 * 2 ^ 4 + code % 2 ^ 4 = code := by omega
    have hm : 0 * 2 ^ (code + 1) + mag % 2 ^ (code + 1) = mag := by rw [Nat.mod_eq_of_lt hmag]; omega
    refine ⟨w, ?_, hp.trans (hq.trans hz)⟩
    simp only [readUnit, readUnitFrom, readCode, ht, Res.bind_ok, hcode, hne, if_false, readSign, hv, hsign, readMag, hw,
      hm]
  | escape raw =>
    have hraw : raw < 2 ^ 16 := hu
    rw [CodeUnit.bits_escape] at *
    replace hc : CanRead (4 + 16) s := by simpa using hc
    rw [List.append_assoc] at hs
    obtain ⟨t, ht, hp⟩ := unpackFrom_bits (fun r left => .unit f (.code r left)) 0 (bitsMsb 4 15) _ hs
      (by simpa using hc.fst) hr
    have hct := CanRead.snd (x := bitsMsb 4 15) (by rw [length_bitsMsb]; exact hc) hp
    have hrt : t.raced = .none := by rw [hp.1]; exact hr
    have hst : sourceBits t = bitsMsb 16 raw ++ rest := by
      have := hp.2.1; rw [hs] at this
      exact (List.append_cancel_left this).symm
    obtain ⟨v, hv, hq⟩ := unpackFrom_bits (fun r left => .unit f (.raw r left)) 0 (bitsMsb 16 raw) _ hst
      (by simpa using hct) hrt
    rw [length_bitsMsb, bitsValue_bitsMsb] at ht hv
    have hcode : 0 * 2 ^ 4 + 15 % 2 ^ 4 = 15 := by norm_num
    have hm : 0 * 2 ^ 16 + raw % 2 ^ 16 = raw := by rw [Nat.mod_eq_of_lt hraw]; omega
    refine ⟨v, ?_, hp.trans hq⟩
    simp only [readUnit, readUnitFrom, readCode, ht, Res.bind_ok, hcode, if_true, readRaw, hv, hm]

end Machine

end Sys2Proof
end

