-- ==== Sys2Proof/Laws/Codec.lean ====
section
/-! SUPPORT. What COMPRESS's loop does: it packs the code units of its samples, one after the other (R236, R238). -/

namespace Sys2Proof

open Sys2Proof.Machine

@[simp] theorem unitsBits_cons (u : CodeUnit) (us : List CodeUnit) : unitsBits (u :: us) = u.bits ++ unitsBits us := by
  simp [unitsBits]

@[simp] theorem unitsBits_nil : unitsBits [] = [] := rfl

@[simp] theorem pushAll_cons (c : ContextRegs) (x : Int) (xs : List Int) :
    pushAll c (x :: xs) = pushAll (c.push x) xs := rfl

/-- The statistics after a sequence of units, counted one by one (R238). -/
def countUnits (t : StatRegs) (us : List CodeUnit) : StatRegs := us.foldl (fun t u => t.count u.code) t

/-- Counting a unit and then the others. -/
theorem countUnits_cons (t : StatRegs) (u : CodeUnit) (us : List CodeUnit) :
    countUnits t (u :: us) = countUnits (t.count u.code) us := by simp only [countUnits, List.foldl_cons]

/-- Counting units one by one from `t` on adds to each bucket its units. -/
theorem countUnits_hist (t : StatRegs) (us : List CodeUnit) (k : Nat) (hk : k < 16) :
    (countUnits t us).hist[k] = t.hist[k] + BitVec.ofNat 32 (us.countP fun u => u.code == k) := by
  induction us generalizing t with
  | nil => simp [countUnits]
  | cons u us ih =>
    rw [countUnits_cons, ih, List.countP_cons]
    simp only [StatRegs.count, Vector.getElem_ofFn, Fin.getElem_fin]
    by_cases h : k = u.code
    · simp only [h, if_true, beq_self_eq_true, BitVec.ofNat_add, BitVec.add_assoc]
      rw [BitVec.add_comm 1#32]
    · have h' : ¬ u.code = k := fun e => h e.symm
      simp [h, h']

/-- Counting units one by one from `t` on adds the escapes. -/
theorem countUnits_esc (t : StatRegs) (us : List CodeUnit) :
    (countUnits t us).esc = t.esc + BitVec.ofNat 32 (us.countP fun u => u.code == 15) := by
  induction us generalizing t with
  | nil => simp [countUnits]
  | cons u us ih =>
    rw [countUnits_cons, ih, List.countP_cons]
    simp only [StatRegs.count]
    by_cases h : u.code = 15
    · simp only [h, if_true, beq_self_eq_true, BitVec.ofNat_add, BitVec.add_assoc]
      rw [BitVec.add_comm 1#32]
    · simp [h]

/-- Counting from cleared statistics gives the statistics of the units (R245). -/
theorem countUnits_zero (us : List CodeUnit) : countUnits StatRegs.zero us = unitsStat us := by
  have h1 := countUnits_hist StatRegs.zero us
  have h2 := countUnits_esc StatRegs.zero us
  obtain ⟨t, ht⟩ : ∃ t, t = countUnits StatRegs.zero us := ⟨_, rfl⟩
  rw [← ht] at h1 h2 ⊢
  obtain ⟨hist, esc⟩ := t
  rw [unitsStat, StatRegs.mk.injEq]
  refine ⟨Vector.ext fun k hk => (h1 k hk).trans ?_, h2.trans ?_⟩
  · simp [StatRegs.zero]
  · simp [StatRegs.zero]

/-- The bytes of a span that a procedure does not store to read as before. -/
theorem memoryBytes_apart {r : Span} {a : Word} {n : Nat} {s t : State} (h : SameOutside r s t)
    (hn : ∀ k, k < n → r.has (a + BitVec.ofNat 32 k) = false) : memoryBytes t.mem a n = memoryBytes s.mem a n :=
  memoryBytes_congr _ _ _ _ fun k hk => h _ (hn k hk)

namespace Machine

/-- COMPRESS's loop over samples its buffers do not overlap packs their units, pushes them into the Context and counts
their codes (R238). -/
theorem compressLoop_ok (sh : Nat) (stats : Bool) (rs : List Int) (i : Nat) {s : State}
    (hsrc : ∀ j (_ : j < rs.length),
      sext16 (leValue (memoryBytes s.mem (s.args.arg0 + BitVec.ofNat 32 (2 * (i + j))) 2)) = rs[j])
    (hadm : ∀ j, j < rs.length → Admitted s.plat .read ⟨s.args.arg0 + BitVec.ofNat 32 (2 * (i + j)), 2⟩)
    (hc : CanPack (unitsBits (sampleUnits s.ctx (rs.map fun r => asr r sh))).length s)
    (hap : ∀ j, j < rs.length → ∀ k, k < 2 →
      (packSpan (unitsBits (sampleUnits s.ctx (rs.map fun r => asr r sh))).length s).has
        (s.args.arg0 + BitVec.ofNat 32 (2 * (i + j)) + BitVec.ofNat 32 k) = false)
    (hr : s.raced = .none) (hm : s.mem.wf = true) :
    ∃ m b, compressLoop sh stats rs.length i s = .ok () { s with
        mem := m, bw := b, ctx := pushAll s.ctx (rs.map fun r => asr r sh)
        stat := if stats then countUnits s.stat (sampleUnits s.ctx (rs.map fun r => asr r sh)) else s.stat } ∧
      Packs (unitsBits (sampleUnits s.ctx (rs.map fun r => asr r sh))) s { s with mem := m, bw := b } := by
  induction rs generalizing i s with
  | nil => exact ⟨s.mem, s.bw, by simp [compressLoop, pushAll, sampleUnits, countUnits], Packs.refl hc.1 hm⟩
  | cons r rs ih =>
    obtain ⟨x, hx⟩ : ∃ x, x = asr r sh := ⟨_, rfl⟩
    simp only [List.map_cons, ← hx, sampleUnits, unitsBits_cons, List.length_append, pushAll_cons] at hc hap ⊢
    have h0 := hsrc 0 (by simp)
    have hadm0 := hadm 0 (by simp)
    simp only [Nat.add_zero, List.getElem_cons_zero] at h0 hadm0
    obtain ⟨t, ht, hp⟩ := packUnit_ok x hc.fst hr hm
    have hct := CanPack.snd (x := (sampleUnit s.ctx x).bits) hc hp
    have hform := hp.1
    have htm := hp.2.2.2.2.2.2.2.1
    have hout := hp.2.2.2.2.2.2.2.2
    -- the state after the sample
    obtain ⟨v, hv⟩ : ∃ v : State, v = { s with
        mem := t.mem, bw := t.bw, ctx := s.ctx.push x
        stat := if stats then s.stat.count (sampleUnit s.ctx x).code else s.stat } := ⟨_, rfl⟩
    have hstep : (compressSample sh stats i s).indexed (BitVec.ofNat 32 i) = .ok () v := by
      rw [compressSample, memRead16_ok _ hadm0 hr, Res.bind_ok, h0, ← hx, encodeUnit, ht, Res.bind_ok,
        Res.bind_ok, Res.indexed_ok, ← sampleUnit_code, hv, hform]
      cases stats <;> rfl
    have hsub : ∀ a, (packSpan (sampleUnit s.ctx x).bits.length s).has a = true →
        (packSpan ((sampleUnit s.ctx x).bits.length +
          (unitsBits (sampleUnits (s.ctx.push x) (rs.map fun r => asr r sh))).length) s).has a = true := by
      intro a ha
      rw [packSpan] at *
      exact Span.has_of_sub _ _ 0 ((s.bw.used.toNat + (sampleUnit s.ctx x).bits.length) / 8) a (by omega)
        (by simpa using ha)
    have key := @ih (i + 1) v
    obtain ⟨m, b, hloop, hq⟩ := key
      (by
        intro j hj
        have := hsrc (j + 1) (by simpa using hj)
        simp only [List.getElem_cons_succ] at this
        rw [← this, hv]
        have e : i + 1 + j = i + (j + 1) := by omega
        simp only [e]
        congr 2
        refine memoryBytes_apart hout fun k hk => ?_
        apply Bool.eq_false_iff.mpr
        intro hc'
        exact Bool.eq_false_iff.mp (hap (j + 1) (by simpa using hj) k hk) (hsub _ hc'))
      (by
        intro j hj
        have := hadm (j + 1) (by simpa using hj)
        have e : i + 1 + j = i + (j + 1) := by omega
        rw [hv]; simp only [e]; exact this)
      (by
        have hp' : t.plat = s.plat := by rw [hform]
        rw [hv]
        exact ⟨hct.1, hct.2.1, hp' ▸ hct.2.2⟩)
      (by
        intro j hj k hk
        have := hap (j + 1) (by simpa using hj) k hk
        have e : i + 1 + j = i + (j + 1) := by omega
        rw [hv]
        simp only [e]
        apply Bool.eq_false_iff.mpr
        intro hc'
        refine Bool.eq_false_iff.mp this ?_
        rw [packSpan] at *
        have hb : t.bw.base + t.bw.emitted = s.bw.base + s.bw.emitted +
            BitVec.ofNat 32 ((s.bw.used.toNat + (sampleUnit s.ctx x).bits.length) / 8) := by
          rw [hp.2.2.1, BitVec.add_assoc]
          congr 1
          apply BitVec.eq_of_toNat_eq
          have := t.bw.emitted.isLt
          have := hp.2.2.2.2.1
          simp only [BitVec.toNat_add, BitVec.toNat_ofNat]
          omega
        simp only at hc'
        rw [hb] at hc'
        have hu := hp.2.2.2.2.2.1
        exact Span.has_of_sub _ _ _ _ _ (by omega) hc')
      (by rw [hv]; exact hr) (by rw [hv]; exact htm)
    refine ⟨m, b, ?_, hp.trans ?_⟩
    · rw [List.length_cons, compressLoop, hstep, Res.bind_ok, hloop, hv]
      cases stats <;> simp only [countUnits_cons, if_true, if_false, Bool.false_eq_true]
    · obtain ⟨q1, q2, q3, q4, q5, q6, q7, q8, q9⟩ := hq
      rw [hv] at q1 q2 q3 q4 q5 q6 q7 q8 q9
      refine ⟨?_, ?_, q3, q4, q5, q6, q7, q8, ?_⟩
      · rw [hform]
      · exact q2
      · exact q9

end Machine

end Sys2Proof
end

