-- ==== Sys2Proof/Laws/Expander.lean ====
section
/-! SUPPORT. What the decoding commands' loop does when nothing faults and no refill is needed: it reads one code unit or
raw sample after the other and stores the reconstructed samples (R240, R243, R264 to R266). -/

namespace Sys2Proof

open Sys2Proof.Machine

/-- Two spans that do not meet have no address in common (R91). -/
theorem Span.not_meets {r t : Span} (h : r.meets t = false) {a : Word} (hr : r.has a = true) : t.has a = false := by
  apply Bool.eq_false_iff.mpr
  intro ht
  refine Bool.eq_false_iff.mp h ?_
  simp only [Span.meets, Span.has, Bool.and_eq_true, Bool.or_eq_true, decide_eq_true_eq] at *
  bv_omega

/-- How many bytes the unpacker has still to come, before and after it delivered bits. -/
theorem Reads.length_sourceBytes {bits : List Bool} {s t : State} (h : Reads bits s t) :
    (sourceBytes s).length = fetchCount bits.length s + (sourceBytes t).length := by
  obtain ⟨-, h2, -, -, -, -, h7, -, -⟩ := h
  have := congrArg List.length h2
  simp only [sourceBits, heldBits, List.length_append, length_bitsMsb, length_bytesBits] at this
  omega

/-- What the unpacker fetches later lies in what it had still to fetch. -/
theorem Reads.sourceSpan_sub {bits : List Bool} {s t : State} (h : Reads bits s t) {a : Word}
    (ha : (sourceSpan t).has a = true) : (sourceSpan s).has a = true := by
  have hl := h.length_sourceBytes
  obtain ⟨h1, h2, h3, h4, h5, h6, h7, h8, h9⟩ := h
  unfold sourceSpan undelivered at *
  unfold sourceBytes streamBytes at hl
  rw [h3] at ha hl
  cases hk : s.br.mode <;> simp only [hk] at *
  · exact ha
  · simp only [length_memoryBytes] at hl
    have hc : t.br.base + t.br.consumed = s.br.base + s.br.consumed + BitVec.ofNat 32 (fetchCount bits.length s) := by
      rw [h4, BitVec.add_assoc]
      congr 1
      apply BitVec.eq_of_toNat_eq
      have := t.br.consumed.isLt
      simp only [BitVec.toNat_add, BitVec.toNat_ofNat, h6]
      omega
    rw [hc] at ha
    exact Span.has_of_sub _ _ _ _ a (by omega) ha
  · simp only [if_true] at h8
    rw [h8] at ha hl
    simp only [StreamRegs.moved_kind, StreamRegs.moved_base, StreamRegs.moved_pos] at ha hl
    cases hs : s.st.kind <;> simp only [hs] at *
    · exact ha
    · simp only [length_memoryBytes] at hl
      rw [← BitVec.add_assoc] at ha
      exact Span.has_of_sub _ _ _ _ a (by omega) ha
    · exact ha

/-- The bytes to come depend on the unpacker, the stream unit and the memory of the source alone. -/
theorem sourceBytes_congr {s t : State} (hb : t.br = s.br) (hs : t.st = s.st) (hch : t.chunk = s.chunk)
    (hm : ∀ x, (sourceSpan s).has x = true → byteAt t x = byteAt s x) : sourceBytes t = sourceBytes s := by
  unfold sourceSpan undelivered at hm
  unfold sourceBytes streamBytes
  rw [hb, hs, hch]
  cases hk : s.br.mode <;> simp only [hk] at *
  · exact memoryBytes_congr _ _ _ _ fun k hk' => hm _ (Span.has_add _ _ k hk' (by have := s.br.limit.isLt; omega))
  · cases hst : s.st.kind <;> simp only [hst] at *
    exact memoryBytes_congr _ _ _ _ fun k hk' => hm _ (Span.has_add _ _ k hk' (by have := s.st.size.isLt; omega))

/-- The same for the bits to come. -/
theorem sourceBits_congr {s t : State} (hb : t.br = s.br) (hs : t.st = s.st) (hch : t.chunk = s.chunk)
    (hm : ∀ x, (sourceSpan s).has x = true → byteAt t x = byteAt s x) : sourceBits t = sourceBits s := by
  rw [sourceBits, sourceBits, sourceBytes_congr hb hs hch hm, heldBits, heldBits, hb]

/-- A delivery is the same in a state that differs outside the unpacker's source. -/
theorem Reads.transport {bits : List Bool} {s t s' : State} (h : Reads bits s t) (hb : s'.br = s.br)
    (hst : s'.st = s.st) (hch : s'.chunk = s.chunk)
    (hm : ∀ x, (sourceSpan s).has x = true → byteAt s' x = byteAt s x) :
    Reads bits s' { s' with br := t.br, st := t.st } := by
  have hsub : ∀ a, (sourceSpan t).has a = true → (sourceSpan s).has a = true := fun a ha => h.sourceSpan_sub ha
  obtain ⟨h1, h2, h3, h4, h5, h6, h7, h8, h9⟩ := h
  have hf : fetchCount bits.length s' = fetchCount bits.length s := by simp [fetchCount, hb]
  have hmem : t.mem = s.mem := by rw [h1]
  have hcht : t.chunk = s.chunk := by rw [h1]
  refine ⟨rfl, ?_, by rw [h3, hb], by rw [h4, hb], by rw [h5, hb], by rw [hf, hb]; exact h6, by rw [hf, hb]; exact h7,
    by rw [hf, hb, hst]; exact h8, by rw [hb]; exact h9⟩
  rw [sourceBits_congr hb hst hch hm, h2]
  congr 1
  refine (sourceBits_congr (s := t) (t := { s' with br := t.br, st := t.st }) rfl rfl (hch.trans hcht.symm)
    fun x hx => ?_).symm
  have := hm x (hsub x hx)
  simpa [byteAt, hmem] using this

/-- What the unpacker can deliver depends on the source and the platform alone. -/
theorem CanRead.congr {n : Nat} {s t : State} (hp : t.plat = s.plat) (hb : t.br = s.br) (hs : t.st = s.st)
    (hbits : sourceBits t = sourceBits s) (h : CanRead n s) : CanRead n t := by
  obtain ⟨h1, h2, h3⟩ := h
  have hf : fetchCount n t = fetchCount n s := by simp [fetchCount, hb]
  have hspan : fetchSpan (fetchCount n s) t = fetchSpan (fetchCount n s) s := by
    simp [fetchSpan, streamSpan, hb, hs]
  exact ⟨by rw [hbits]; exact h1, by rw [hf, hspan, hp]; exact h2, by rw [hb, hf]; exact h3⟩

/-- A session after one more sample. -/
theorem expAfter_succ (cmd : DecodeCmd) (k : Nat) (e : ExpanderRegs) :
    expAfter cmd k (expAfter cmd 1 e) = expAfter cmd (k + 1) e := by
  cases cmd <;> cases k <;>
    simp [expAfter, BitVec.add_assoc, ← BitVec.ofNat_add, Nat.add_comm, Nat.add_left_comm]

namespace Machine

/-- Every output of a sample is as long as the command's stride. -/
theorem length_sampleOutput (f : Frame) (y : Int) : (sampleOutput f.cmd y).length = f.stride := by
  cases h : f.cmd <;> simp [sampleOutput, Frame.stride, h]

/-- Storing a reconstructed sample on admitted memory (R243, R265, R266). -/
theorem writeSample_ok (y : Int) (f : Frame) {s : State} (ha : Admitted s.plat .write ⟨f.address, f.stride⟩)
    (hr : s.raced = .none) (hm : s.mem.wf = true) :
    ∃ m, writeSample y f s = .ok () { s with mem := m, exp := expAfter f.cmd 1 s.exp } ∧
      Stores f.address (sampleOutput f.cmd y) s { s with mem := m } := by
  unfold writeSample
  cases h : f.cmd <;> simp only [Frame.stride, h] at ha
  · obtain ⟨t, ht, hst⟩ := memWrite_ok 2 f.address (lowBits 16 y) ha hr hm
    refine ⟨t.mem, by simp only [ht, expAfter]; rw [← hst.1], ?_⟩
    rw [← hst.1]; exact hst
  · obtain ⟨t, ht, hst⟩ := memWrite_ok 2 f.address (lowBits 16 y) ha hr hm
    refine ⟨t.mem, ?_, ?_⟩
    · simp only [ht, Res.bind_ok]
      rw [hst.1]
      rfl
    · rw [← hst.1]; exact hst
  · rename_i vol
    obtain ⟨t, ht, hst⟩ := memWrite_ok 4 f.address (lowBits 32 (y * vol.toNat))
      (by have := Admitted.sub ha 0 4 (by omega); simpa using this) hr hm
    have hp : t.plat = s.plat := by rw [hst.1]
    have hr' : t.raced = .none := by rw [hst.1]; exact hr
    obtain ⟨v, hv, hsv⟩ := memWrite_ok 4 (f.address + 4#32) (lowBits 32 (y * vol.toNat))
      (s := t) (by rw [hp]; exact Admitted.sub ha 4 4 (by omega)) hr' hst.2.1
    refine ⟨v.mem, ?_, ?_⟩
    · simp only [ht, Res.bind_ok, hv]
      rw [hsv.1, hst.1]
      rfl
    · have := Stores.trans (x := leBytes 4 (lowBits 32 (y * vol.toNat)))
        (y := leBytes 4 (lowBits 32 (y * vol.toNat))) (by simp) hst (by simpa using hsv)
      rw [sampleOutput, ← this.1]; exact this

/-- Accepting a quantised sample in range on admitted memory (R240, R241). -/
theorem acceptSample_ok (x : Int) (f : Frame) {s : State} (hx : inSampleRange x (f.shift s) = true)
    (ha : Admitted s.plat .write ⟨f.address, f.stride⟩) (hr : s.raced = .none) (hm : s.mem.wf = true) :
    ∃ m, acceptSample x f s = .ok () { s with mem := m, ctx := s.ctx.push x, exp := expAfter f.cmd 1 s.exp } ∧
      Stores f.address (sampleOutput f.cmd (x * 2 ^ f.shift s)) s { s with mem := m } := by
  obtain ⟨m, hw, hs⟩ := writeSample_ok (x * 2 ^ f.shift s) f (s := { s with ctx := s.ctx.push x }) ha hr hm
  refine ⟨m, ?_, ?_⟩
  · rw [acceptSample, if_pos hx, hw]
  · exact ⟨rfl, hs.2.1, hs.2.2.1, hs.2.2.2⟩

/-- Completion does not depend on where the loop was. -/
theorem completeDecode_task (f : Frame) (t : Task) (s : State) :
    completeDecode f { s with task := t } = completeDecode f s := by
  unfold completeDecode State.setReturned State.finish
  cases f.cmd <;> cases s.raced.overlap <;> rfl

/-- The loop of a decoding command over code units at hand, in range, with its output apart from its source (R240,
R243, R265, R266). -/
theorem unitLoop_ok (us : List CodeUnit) (f : Frame) {s : State} (hn : f.i.toNat + us.length = f.n.toNat)
    (hfit : ∀ u ∈ us, u.Fits) (rest : List Bool) (hs : sourceBits s = unitsBits us ++ rest)
    (hc : CanRead (unitsBits us).length s)
    (hx : ∀ x ∈ unitSamples s.ctx us, inSampleRange x (f.shift s) = true) (hraw : f.isRaw s = false)
    (ha : Admitted s.plat .write ⟨f.address, f.stride * us.length⟩)
    (hap : ∀ a, (sourceSpan s).has a = true → (Span.mk f.address (f.stride * us.length)).has a = false)
    (hr : s.raced = .none) (hm : s.mem.wf = true) :
    ∃ m u, Reads (unitsBits us) s u ∧
      Stores f.address ((unitSamples s.ctx us).flatMap fun x => sampleOutput f.cmd (x * 2 ^ f.shift s)) s
        { s with mem := m } ∧
      runSamples us.length (beginSample f s) = completeDecode { f with i := f.n } { s with
        mem := m, br := u.br, st := u.st, ctx := pushAll s.ctx (unitSamples s.ctx us)
        exp := expAfter f.cmd us.length s.exp } := by
  induction us generalizing f s with
  | nil =>
    have hi : f.i = f.n := by apply BitVec.eq_of_toNat_eq; simpa using hn
    refine ⟨s.mem, s, Reads.refl s, Stores.refl _ hm, ?_⟩
    simp only [List.length_nil, runSamples, beginSample, hi, if_true, unitSamples, pushAll, List.foldl_nil]
    have hf : { f with i := f.n } = f := by
      obtain ⟨cmd, target, n, i⟩ := f
      simp only at hi
      subst hi
      rfl
    have he : expAfter f.cmd 0 s.exp = s.exp := by cases h : f.cmd <;> simp [expAfter]
    rw [hf, he]
  | cons u us ih =>
    have hne : ¬ f.i = f.n := fun e => by rw [e] at hn; simp at hn
    have hni : (f.i + 1#32).toNat = f.i.toNat + 1 := by
      have := f.n.isLt; simp only [List.length_cons] at hn; bv_omega
    obtain ⟨x, hxu⟩ : ∃ x, x = unitSample u s.ctx := ⟨_, rfl⟩
    simp only [unitSamples, ← hxu, unitsBits_cons, List.length_append, List.flatMap_cons, pushAll_cons] at hs hc hx ⊢
    -- the state in which the unit is read
    obtain ⟨s1, hs1⟩ : ∃ s1 : State, s1 = { s with task := .sample f } := ⟨_, rfl⟩
    obtain ⟨t1, ht1, hrd⟩ := readUnit_ok f (u := u) (s := s1) (unitsBits us ++ rest) (hfit u (by simp))
      (by rw [hs1]; rw [List.append_assoc] at hs; exact hs) (by rw [hs1]; exact hc.fst) (by rw [hs1]; exact hr)
    have hrd' : Reads u.bits s { t1 with task := s.task } := by
      obtain ⟨r1, r2, r3, r4, r5, r6, r7, r8, r9⟩ := hrd
      rw [hs1] at r1 r2 r3 r4 r5 r6 r7 r8 r9
      exact ⟨by rw [r1], r2, r3, r4, r5, r6, r7, r8, r9⟩
    have ht1f : t1 = { s with task := .sample f, br := t1.br, st := t1.st } := by rw [hrd.1, hs1]
    have hctx : t1.ctx = s.ctx := by rw [ht1f]
    have hexp : t1.exp = s.exp := by rw [ht1f]
    have hplat : t1.plat = s.plat := by rw [ht1f]
    have hshift : f.shift t1 = f.shift s := by unfold Frame.shift; rw [hexp]
    have ha1 : Admitted t1.plat .write ⟨f.address, f.stride⟩ := by
      rw [hplat]
      have := Admitted.sub ha 0 f.stride (by simp only [List.length_cons]; nlinarith)
      simpa using this
    obtain ⟨m1, hacc, hsto⟩ := acceptSample_ok x f (s := t1) (by rw [hshift]; exact hx x (by simp)) ha1
      (by rw [ht1f]; exact hr) (by rw [ht1f]; exact hm)
    -- the state after the sample
    obtain ⟨t2, ht2⟩ : ∃ t2 : State, t2 = { s with
        br := t1.br, st := t1.st, mem := m1, ctx := s.ctx.push x, exp := expAfter f.cmd 1 s.exp } := ⟨_, rfl⟩
    have hstep : sampleStep f s1 = nextSample f { t2 with task := .sample f } := by
      have hraw1 : f.isRaw s1 = false := by rw [hs1]; exact hraw
      simp only [sampleStep, hraw1, Bool.false_eq_true, if_false, endUnit, ht1, Res.indexed_ok, conclude_ok, hctx, ← hxu,
        runSample, endSample]
      rw [hacc, Res.indexed_ok, conclude_ok, hctx, hexp, ht2]
      congr 1
      rw [ht1f]
    have hbegin : runSamples (us.length + 1) (beginSample f s) =
        runSamples us.length (beginSample { f with i := f.i + 1#32 } t2) := by
      rw [beginSample, if_neg hne, ← hs1, runSamples]
      rw [hs1] at hstep ⊢
      simp only
      rw [hstep, nextSample]
      unfold beginSample
      split_ifs
      · rw [completeDecode_task]
      · rfl
    have haddr : (Frame.address { f with i := f.i + 1#32 }) = f.address + BitVec.ofNat 32 f.stride := by
      have : Frame.stride { f with i := f.i + 1#32 } = f.stride := rfl
      unfold Frame.address
      rw [this, hni, Nat.mul_add, Nat.mul_one, BitVec.add_assoc, ← BitVec.ofNat_add]
    have hlen : (sampleOutput f.cmd (x * 2 ^ f.shift t1)).length = f.stride := length_sampleOutput f _
    have hsto' : Stores f.address (sampleOutput f.cmd (x * 2 ^ f.shift s)) s { s with mem := m1 } := by
      rw [hshift] at hsto
      obtain ⟨s1', s2, s3, s4⟩ := hsto
      refine ⟨rfl, s2, s3, fun a h => ?_⟩
      have := s4 a h
      rw [ht1f] at this
      exact this
    have hout : ∀ a, (sourceSpan s).has a = true → (Span.mk f.address f.stride).has a = false := by
      intro a haa
      apply Bool.eq_false_iff.mpr
      intro hcc
      refine Bool.eq_false_iff.mp (hap a haa) (Span.has_of_sub _ _ 0 f.stride a ?_ (by simpa using hcc))
      simp only [List.length_cons]; nlinarith
    have hsrc1 : sourceBytes t2 = sourceBytes t1 := by
      refine sourceBytes_congr (by rw [ht2]) (by rw [ht2]) (by rw [ht2, ht1f]) fun a haa => ?_
      rw [ht2]
      exact hsto.2.2.2 a (by rw [hlen]; exact hout a (Reads.sourceSpan_sub hrd' haa))
    have hbits2 : sourceBits t2 = unitsBits us ++ rest := by
      have h2 := hrd'.2.1
      rw [hs, List.append_assoc] at h2
      rw [List.append_cancel_left h2]
      have : heldBits t2 = heldBits t1 := by rw [ht2]; rfl
      rw [sourceBits, this, hsrc1]
      rfl
    have hc2 : CanRead (unitsBits us).length t2 := by
      have := CanRead.snd hc hrd'
      refine CanRead.congr (s := { t1 with task := s.task }) ?_ ?_ ?_ ?_ this
      · rw [ht2]; exact hplat.symm
      · rw [ht2]
      · rw [ht2]
      · rw [hbits2]
        have h2 := hrd'.2.1
        rw [hs, List.append_assoc] at h2
        exact List.append_cancel_left h2
    have hss : (expAfter f.cmd 1 s.exp).shift = s.exp.shift := by cases f.cmd <;> rfl
    have hff : (expAfter f.cmd 1 s.exp).format = s.exp.format := by cases f.cmd <;> rfl
    have hshift2 : Frame.shift { f with i := f.i + 1#32 } t2 = f.shift s := by
      unfold Frame.shift; rw [ht2]; simp only [hss]
    have hraw2 : Frame.isRaw { f with i := f.i + 1#32 } t2 = false := by
      unfold Frame.isRaw at *; rw [ht2]; simp only [hff]; exact hraw
    have key := @ih { f with i := f.i + 1#32 } t2
      (by
        show (f.i + 1#32).toNat + us.length = f.n.toNat
        rw [hni]; simp only [List.length_cons] at hn; omega)
      (fun v hv => hfit v (by simp [hv])) hbits2 hc2
      (fun y hy => by rw [hshift2]; exact hx y (by rw [ht2] at hy; simp [hy])) hraw2
      (by
        rw [haddr]
        have := Admitted.sub ha f.stride (f.stride * us.length) (by simp only [List.length_cons]; nlinarith)
        rw [ht2]; exact this)
      (fun a haa => by
        rw [haddr]
        have h0 : (sourceSpan { t1 with task := s.task }).has a = true := by
          rw [ht2] at haa; exact haa
        have h1 := hap a (Reads.sourceSpan_sub hrd' h0)
        apply Bool.eq_false_iff.mpr
        intro hcc
        exact Bool.eq_false_iff.mp h1
          (Span.has_of_sub _ _ f.stride (f.stride * us.length) a (by simp only [List.length_cons]; nlinarith) hcc))
      (by rw [ht2]; exact hr) (by rw [ht2]; exact hsto.2.1)
    obtain ⟨m, w, hreads, hstores, hrun⟩ := key
    have hw : Reads (unitsBits us) { t1 with task := s.task }
        { t1 with task := s.task, br := w.br, st := w.st } := by
      refine Reads.transport hreads (by rw [ht2]) (by rw [ht2]) (by rw [ht2]; show t1.chunk = s.chunk; rw [ht1f])
        fun a haa => ?_
      rw [ht2] at haa ⊢
      have := hsto.2.2.2 a (by rw [hlen]; exact hout a (Reads.sourceSpan_sub hrd' haa))
      exact this.symm
    refine ⟨m, _, hrd'.trans hw, Stores.trans ?_ hsto' ?_, ?_⟩
    · have hl : ((unitSamples (s.ctx.push x) us).flatMap fun x => sampleOutput f.cmd (x * 2 ^ f.shift s)).length =
          f.stride * us.length := by
        have hl2 : ∀ (vs : List CodeUnit) (c : ContextRegs), (unitSamples c vs).length = vs.length := by
          intro vs
          induction vs with
          | nil => intro c; rfl
          | cons v vs ihv => intro c; simp [unitSamples, ihv]
        rw [List.length_flatMap]
        simp [length_sampleOutput f, hl2, Nat.mul_comm]
      rw [hl, length_sampleOutput f]
      have := Admitted.size_lt ha
      simp only [List.length_cons] at this
      nlinarith
    · rw [length_sampleOutput f]
      obtain ⟨q1, q2, q3, q4⟩ := hstores
      rw [hshift2, haddr, ht2] at q3 q4
      rw [ht2] at q2
      exact ⟨rfl, q2, q3, q4⟩
    · rw [List.length_cons, hbegin, hrun, ht2]
      simp only [expAfter_succ]

end Machine

/-! ## Format 0 -/

/-- The stream's bytes to come depend on the stream unit and the memory it has still to deliver alone. -/
theorem streamBytes_congr {s t : State} (hs : t.st = s.st) (hch : t.chunk = s.chunk)
    (hm : ∀ x, (undelivered s).has x = true → byteAt t x = byteAt s x) : streamBytes t = streamBytes s := by
  unfold undelivered at hm
  unfold streamBytes
  rw [hs, hch]
  cases hst : s.st.kind <;> simp only [hst] at *
  exact memoryBytes_congr _ _ _ _ fun k hk' => hm _ (Span.has_add _ _ k hk' (by have := s.st.size.isLt; omega))

/-- What the stream delivers later lies in what it had still to deliver. -/
theorem Gets.undelivered_sub {bytes : List Byte} {s t : State} (h : Gets bytes s t) {a : Word}
    (ha : (undelivered t).has a = true) : (undelivered s).has a = true := by
  obtain ⟨h1, h2⟩ := h
  have hst : t.st = StreamRegs.moved bytes.length s.st := by rw [h1]
  have hl := congrArg List.length h2
  unfold undelivered at *
  unfold streamBytes at hl
  rw [hst] at ha hl
  simp only [StreamRegs.moved_kind, StreamRegs.moved_base, StreamRegs.moved_pos, List.length_append] at ha hl
  cases hs : s.st.kind <;> simp only [hs] at *
  · exact ha
  · simp only [length_memoryBytes] at hl
    rw [← BitVec.add_assoc] at ha
    exact Span.has_of_sub _ _ _ _ a (by omega) ha
  · exact ha

/-- A delivery of stream bytes is the same in a state that differs outside what the stream has still to deliver. -/
theorem Gets.transport {bytes : List Byte} {s t s' : State} (h : Gets bytes s t) (hst : s'.st = s.st)
    (hch : s'.chunk = s.chunk) (hm : ∀ x, (undelivered s).has x = true → byteAt s' x = byteAt s x) :
    Gets bytes s' { s' with st := t.st } := by
  have hsub : ∀ a, (undelivered t).has a = true → (undelivered s).has a = true := fun a ha => h.undelivered_sub ha
  obtain ⟨h1, h2⟩ := h
  have htst : t.st = StreamRegs.moved bytes.length s.st := by rw [h1]
  have hmem : t.mem = s.mem := by rw [h1]
  have hcht : t.chunk = s.chunk := by rw [h1]
  refine ⟨by rw [hst, htst], ?_⟩
  rw [streamBytes_congr hst hch hm, h2]
  congr 1
  refine (streamBytes_congr (s := t) (t := { s' with st := t.st }) rfl (hch.trans hcht.symm) fun x hx => ?_).symm
  have := hm x (hsub x hx)
  simpa [byteAt, hmem] using this

namespace Machine

/-- A format-0 sample at hand is taken from the stream and stored (R264). -/
theorem rawSample_ok (f : Frame) (lo hi : Byte) (rest : List Byte) {s : State} (hs : streamBytes s = lo :: hi :: rest)
    (hc : CanGet 2 s) (ha : Admitted s.plat .write ⟨f.address, f.stride⟩) (hr : s.raced = .none)
    (hm : s.mem.wf = true) :
    ∃ m, Gets [lo, hi] s { s with st := StreamRegs.moved 2 s.st } ∧
      rawSample f s = .ok () { s with
        mem := m, st := StreamRegs.moved 2 s.st, exp := expAfter f.cmd 1 s.exp } ∧
      Stores f.address (sampleOutput f.cmd (sext16 (get16Value lo hi))) s { s with mem := m } := by
  obtain ⟨b1, t1, h1, g1⟩ := streamGet_ok (.sampleLo f) (CanGet.fst (a := 1) (b := 1) hc) hr
  have e1 : b1 = lo ∧ streamBytes t1 = hi :: rest := by
    have := g1.2; rw [hs] at this; simpa [eq_comm] using this
  have hr1 : t1.raced = .none := by rw [g1.1]; exact hr
  obtain ⟨b2, t2, h2, g2⟩ := streamGet_ok (.sampleHi f b1) (CanGet.snd (x := [b1]) hc g1) hr1
  have e2 : b2 = hi := by
    have := g2.2; rw [e1.2] at this; simpa [eq_comm] using (List.cons.inj this).1
  have g := g1.trans g2
  have ht2 : t2 = { s with st := StreamRegs.moved 2 s.st } := g.1
  rw [e1.1, e2] at g
  obtain ⟨m, hw, hst⟩ := writeSample_ok (sext16 (get16Value lo hi)) f (s := t2) (by rw [ht2]; exact ha)
    (by rw [ht2]; exact hr) (by rw [ht2]; exact hm)
  refine ⟨m, by rw [← ht2]; exact g, ?_, ?_⟩
  · rw [rawSample, h1, Res.bind_ok, rawSampleSecond, h2, Res.bind_ok, e1.1, e2, hw, ht2]
  · rw [ht2] at hst
    exact ⟨rfl, hst.2.1, hst.2.2.1, hst.2.2.2⟩

/-- The loop of a decoding command of a format-0 session over stream bytes at hand, with its output apart from its
source (R264 to R266). -/
theorem rawLoop_ok (k : Nat) (bytes : List Byte) (hk : bytes.length = 2 * k) (f : Frame) {s : State}
    (hn : f.i.toNat + k = f.n.toNat) (rest : List Byte) (hs : streamBytes s = bytes ++ rest) (hc : CanGet (2 * k) s)
    (hraw : f.isRaw s = true) (ha : Admitted s.plat .write ⟨f.address, f.stride * k⟩)
    (hap : ∀ a, (undelivered s).has a = true → (Span.mk f.address (f.stride * k)).has a = false)
    (hr : s.raced = .none) (hm : s.mem.wf = true) :
    ∃ m, Gets bytes s { s with st := StreamRegs.moved (2 * k) s.st } ∧
      Stores f.address ((byteSamples bytes).flatMap fun y => sampleOutput f.cmd y) s { s with mem := m } ∧
      runSamples k (beginSample f s) = completeDecode { f with i := f.n } { s with
        mem := m, st := StreamRegs.moved (2 * k) s.st, exp := expAfter f.cmd k s.exp } := by
  induction k generalizing f s bytes with
  | zero =>
    have hb : bytes = [] := List.length_eq_zero_iff.mp hk
    subst hb
    have hi : f.i = f.n := by apply BitVec.eq_of_toNat_eq; simpa using hn
    refine ⟨s.mem, ⟨by simp, by simp⟩, Stores.refl _ hm, ?_⟩
    have hf : { f with i := f.n } = f := by
      obtain ⟨cmd, target, n, i⟩ := f
      simp only at hi
      subst hi
      rfl
    have he : expAfter f.cmd 0 s.exp = s.exp := by cases h : f.cmd <;> simp [expAfter]
    simp [runSamples, beginSample, hi, hf, he]
  | succ k ih =>
    match bytes, hk with
    | lo :: hi :: bytes, hk =>
    have hk' : bytes.length = 2 * k := by simp only [List.length_cons] at hk; omega
    have hne : ¬ f.i = f.n := fun e => by rw [e] at hn; omega
    have hni : (f.i + 1#32).toNat = f.i.toNat + 1 := by
      have := f.n.isLt; bv_omega
    rw [show 2 * (k + 1) = 2 + 2 * k by omega] at hc ⊢
    obtain ⟨s1, hs1⟩ : ∃ s1 : State, s1 = { s with task := .sample f } := ⟨_, rfl⟩
    have ha1 : Admitted s1.plat .write ⟨f.address, f.stride⟩ := by
      rw [hs1]
      have := Admitted.sub ha 0 f.stride (by nlinarith)
      simpa using this
    obtain ⟨m1, hg, hacc, hsto⟩ := rawSample_ok f lo hi (bytes ++ rest) (s := s1) (by rw [hs1]; exact hs)
      (by rw [hs1]; exact hc.fst) ha1 (by rw [hs1]; exact hr) (by rw [hs1]; exact hm)
    have hg' : Gets [lo, hi] s { s with st := StreamRegs.moved 2 s.st } := by
      rw [hs1] at hg; exact ⟨rfl, hg.2⟩
    have hsto' : Stores f.address (sampleOutput f.cmd (sext16 (get16Value lo hi))) s { s with mem := m1 } := by
      rw [hs1] at hsto; exact ⟨rfl, hsto.2.1, hsto.2.2.1, hsto.2.2.2⟩
    obtain ⟨t2, ht2⟩ : ∃ t2 : State, t2 = { s with
        mem := m1, st := StreamRegs.moved 2 s.st, exp := expAfter f.cmd 1 s.exp } := ⟨_, rfl⟩
    have hstep : sampleStep f s1 = nextSample f { t2 with task := .sample f } := by
      have hraw1 : f.isRaw s1 = true := by rw [hs1]; exact hraw
      simp only [sampleStep, hraw1, if_true, endSample]
      rw [hacc, Res.indexed_ok, conclude_ok, ht2, hs1]
    have hbegin : runSamples (k + 1) (beginSample f s) =
        runSamples k (beginSample { f with i := f.i + 1#32 } t2) := by
      rw [beginSample, if_neg hne, ← hs1, runSamples]
      rw [hs1] at hstep ⊢
      simp only
      rw [hstep, nextSample]
      unfold beginSample
      split_ifs
      · rw [completeDecode_task]
      · rfl
    have haddr : (Frame.address { f with i := f.i + 1#32 }) = f.address + BitVec.ofNat 32 f.stride := by
      have : Frame.stride { f with i := f.i + 1#32 } = f.stride := rfl
      unfold Frame.address
      rw [this, hni, Nat.mul_add, Nat.mul_one, BitVec.add_assoc, ← BitVec.ofNat_add]
    have hout : ∀ a, (undelivered s).has a = true → (Span.mk f.address f.stride).has a = false := by
      intro a haa
      apply Bool.eq_false_iff.mpr
      intro hcc
      exact Bool.eq_false_iff.mp (hap a haa) (Span.has_of_sub _ _ 0 f.stride a (by nlinarith) (by simpa using hcc))
    have hlen : ∀ y, (sampleOutput f.cmd y).length = f.stride := length_sampleOutput f
    have hkeep : ∀ a, (undelivered { s with st := StreamRegs.moved 2 s.st }).has a = true →
        byteAt t2 a = byteAt s a := by
      intro a haa
      rw [ht2]
      exact hsto'.2.2.2 a (by rw [hlen]; exact hout a (hg'.undelivered_sub haa))
    have hs2 : streamBytes t2 = bytes ++ rest := by
      have h2 := hg'.2
      rw [hs] at h2
      simp only [List.cons_append, List.nil_append, List.cons.injEq, true_and] at h2
      rw [h2]
      exact streamBytes_congr (s := { s with st := StreamRegs.moved 2 s.st }) (by rw [ht2]) (by rw [ht2]) hkeep
    have hc2 : CanGet (2 * k) t2 := by
      have := CanGet.snd (x := [lo, hi]) hc hg'
      refine ⟨by rw [hs2, List.length_append, hk']; omega, ?_⟩
      rw [ht2]; exact this.2
    have hff : (expAfter f.cmd 1 s.exp).format = s.exp.format := by cases f.cmd <;> rfl
    have hraw2 : Frame.isRaw { f with i := f.i + 1#32 } t2 = true := by
      unfold Frame.isRaw at *; rw [ht2]; simp only [hff]; exact hraw
    have key := @ih bytes hk' { f with i := f.i + 1#32 } t2
      (by
        show (f.i + 1#32).toNat + k = f.n.toNat
        rw [hni]; omega)
      hs2 hc2 hraw2
      (by
        rw [haddr]
        have := Admitted.sub ha f.stride (f.stride * k) (by nlinarith)
        rw [ht2]; exact this)
      (fun a haa => by
        rw [haddr]
        have h0 : (undelivered { s with st := StreamRegs.moved 2 s.st }).has a = true := by rw [ht2] at haa; exact haa
        have h1 := hap a (hg'.undelivered_sub h0)
        apply Bool.eq_false_iff.mpr
        intro hcc
        exact Bool.eq_false_iff.mp h1 (Span.has_of_sub _ _ f.stride (f.stride * k) a (by nlinarith) hcc))
      (by rw [ht2]; exact hr) (by rw [ht2]; exact hsto'.2.1)
    obtain ⟨m, hgets, hstores, hrun⟩ := key
    have hw : Gets bytes { s with st := StreamRegs.moved 2 s.st }
        { s with st := StreamRegs.moved (2 + 2 * k) s.st } := by
      have := Gets.transport (s' := { s with st := StreamRegs.moved 2 s.st }) hgets (by rw [ht2]) (by rw [ht2])
        fun a haa => by
          have h0 : (undelivered { s with st := StreamRegs.moved 2 s.st }).has a = true := by rw [ht2] at haa; exact haa
          exact (hkeep a h0).symm
      rw [ht2] at this
      simpa only [StreamRegs.moved_moved] using this
    refine ⟨m, hg'.trans hw, ?_, ?_⟩
    · rw [byteSamples, List.flatMap_cons]
      refine Stores.trans ?_ hsto' ?_
      · have hl : ((byteSamples bytes).flatMap fun y => sampleOutput f.cmd y).length = f.stride * k := by
          have hl2 : ∀ (j : Nat) (bs : List Byte), bs.length = 2 * j → (byteSamples bs).length = j := by
            intro j
            induction j with
            | zero => intro bs hb; have := List.length_eq_zero_iff.mp hb; subst this; rfl
            | succ j ihj =>
              intro bs hb
              match bs, hb with
              | _ :: _ :: bs, hb =>
                simp only [byteSamples, List.length_cons] at hb ⊢
                rw [ihj bs (by omega)]
          rw [List.length_flatMap]
          simp [length_sampleOutput f, hl2 k bytes hk', Nat.mul_comm]
        rw [hl, hlen]
        have := Admitted.size_lt ha
        nlinarith
      · rw [hlen]
        obtain ⟨q1, q2, q3, q4⟩ := hstores
        rw [haddr, ht2] at q3 q4
        rw [ht2] at q2
        exact ⟨rfl, q2, q3, q4⟩
    · rw [hbegin, hrun, ht2]
      simp only [expAfter_succ, StreamRegs.moved_moved]

end Machine

end Sys2Proof
end

