-- ==== Sys2Proof/Laws/PerInstr.lean ====
section
/-! SUPPORT. One lemma per instruction: the shape of its encoding (R110, R120), and the decoder on an encoding's fields. -/

namespace Sys2Proof.Laws

/-! ## The fields of a command word -/

/-- A command word whose fields fit has nothing in its reserved bits (R110). -/
theorem wordReserved_commandWord (op imm flg : Nat) (ho : op < 256) (hi : imm < 256) (hf : flg < 256) :
    wordReserved (commandWord op imm flg) = 0 := by
  simp only [wordReserved, commandWord, BitVec.toNat_ofNat]
  omega

/-- The OP of a command word (R110). -/
theorem wordOp_commandWord (op imm flg : Nat) (ho : op < 256) :
    wordOp (commandWord op imm flg) = op := by
  simp only [wordOp, commandWord, BitVec.toNat_ofNat]
  omega

/-- The IMM of a command word (R111). -/
theorem wordImm_commandWord (op imm flg : Nat) (ho : op < 256) (hi : imm < 256) :
    wordImm (commandWord op imm flg) = imm := by
  simp only [wordImm, commandWord, BitVec.toNat_ofNat]
  omega

/-- The FLG of a command word (R112). -/
theorem wordFlg_commandWord (op imm flg : Nat) (ho : op < 256) (hi : imm < 256) (hf : flg < 256) :
    wordFlg (commandWord op imm flg) = flg := by
  simp only [wordFlg, commandWord, BitVec.toNat_ofNat]
  omega

/-- Decoding a command word through its fields (R110 to R112). -/
theorem decodeCommand_fields {op imm flg : Nat} {i : Instr} (ho : op < 256) (hi : imm < 256) (hf : flg < 256)
    (h : ∀ w, wordReserved w = 0 → wordOp w = op → wordImm w = imm → wordFlg w = flg → decodeCommand w = .ok i) :
    decode (.command (commandWord op imm flg)) = .ok i :=
  h _ (wordReserved_commandWord op imm flg ho hi hf) (wordOp_commandWord op imm flg ho)
    (wordImm_commandWord op imm flg ho hi) (wordFlg_commandWord op imm flg ho hi hf)

/-! ## The bits of a code unit -/

/-- Decoding a normal code unit's bits, whatever follows them (R118). -/
theorem decodeUnit_normal (code : Nat) (sign : Bool) (mag : Nat) (rest : List Bool) (hc : code ≤ 14)
    (hm : mag < 2 ^ (code + 1)) :
    decodeUnit (unitBits code sign mag (code + 1) ++ rest) = .ok ((CodeUnit.normal code sign mag).instr, rest) := by
  have h4 : takeBits 4 0 (unitBits code sign mag (code + 1) ++ rest) =
      some (code, sign :: bitsMsb (code + 1) mag ++ rest) := by
    rw [unitBits, List.append_assoc, takeBits_bitsMsb, Nat.mod_eq_of_lt (by omega)]
    simp
  have h1 : takeBits 1 0 (sign :: bitsMsb (code + 1) mag ++ rest) =
      some (sign.toNat, bitsMsb (code + 1) mag ++ rest) := by simp [takeBits]
  have hmag : takeBits (code + 1) 0 (bitsMsb (code + 1) mag ++ rest) = some (mag, rest) := by
    rw [takeBits_bitsMsb, Nat.mod_eq_of_lt hm]; simp
  have hs : (sign.toNat == 1) = sign := by cases sign <;> rfl
  rw [decodeUnit, h4]
  split
  · simp_all
  · rename_i h; simp only [Option.some.injEq, Prod.mk.injEq] at h; omega
  · rename_i h
    simp only [Option.some.injEq, Prod.mk.injEq] at h
    obtain ⟨rfl, rfl⟩ := h
    simp only [h1, hmag, hs]

/-- Decoding an escape unit's bits, whatever follows them (R119). -/
theorem decodeUnit_escape (raw : Nat) (rest : List Bool) (hr : raw < 2 ^ 16) :
    decodeUnit (bitsMsb 4 15 ++ bitsMsb 16 raw ++ rest) = .ok (.cuEsc raw, rest) := by
  rw [decodeUnit, List.append_assoc, takeBits_bitsMsb]
  simp only [Nat.zero_mul, Nat.zero_add, Nat.reducePow, Nat.reduceMod]
  rw [takeBits_bitsMsb, Nat.mod_eq_of_lt hr]
  simp [CodeUnit.instr]

/-- Decoding all the bits of a normal code unit (R118). -/
theorem decode_normal (code : Nat) (sign : Bool) (mag : Nat) (hc : code ≤ 14) (hm : mag < 2 ^ (code + 1)) :
    decode (.unit (unitBits code sign mag (code + 1))) = .ok (CodeUnit.normal code sign mag).instr := by
  have h := decodeUnit_normal code sign mag [] hc hm
  rw [List.append_nil] at h
  rw [decode, h]

/-! ## The family -/

/-- The encoding of a well-formed instruction is a command word with nothing in its reserved bits (R110), or a code unit
of the length that its first four bits tell (R120). -/
def EncodedShape.Statement (i : Instr) : Prop :=
  WellFormed i = true →
    match encode i with
    | .command w => wordReserved w = 0
    | .unit bits => bits.length = if bitsValue (bits.take 4) = 15 then 20 else 6 + bitsValue (bits.take 4)

/-- The shape of a normal code unit (R118). -/
theorem shape_normal (code : Nat) (sign : Bool) (mag : Nat) (hc : code ≤ 14) :
    (unitBits code sign mag (code + 1)).length =
      if bitsValue ((unitBits code sign mag (code + 1)).take 4) = 15 then 20
      else 6 + bitsValue ((unitBits code sign mag (code + 1)).take 4) := by
  have ht : (unitBits code sign mag (code + 1)).take 4 = bitsMsb 4 code := by
    rw [unitBits, List.take_append_of_le_length (by simp), List.take_of_length_le (by simp)]
  rw [ht, bitsValue_bitsMsb, Nat.mod_eq_of_lt (by omega), if_neg (by omega)]
  simp only [unitBits, List.length_append, List.length_cons, length_bitsMsb]
  omega

theorem EncodedShape.nop : EncodedShape.Statement .nop := fun _ => rfl

theorem EncodedShape.softReset : EncodedShape.Statement .softReset := fun _ => rfl

theorem EncodedShape.accClear : EncodedShape.Statement .accClear := fun _ => rfl

theorem EncodedShape.accPush (n : Nat) : EncodedShape.Statement (.accPush n) := fun h =>
  wordReserved_commandWord _ _ _ (by decide) (of_decide_eq_true h) (by decide)

theorem EncodedShape.accPop (n : Nat) : EncodedShape.Statement (.accPop n) := fun h =>
  wordReserved_commandWord _ _ _ (by decide) (of_decide_eq_true h) (by decide)

theorem EncodedShape.bitsNeeded : EncodedShape.Statement .bitsNeeded := fun _ => rfl

theorem EncodedShape.bwInit : EncodedShape.Statement .bwInit := fun _ => rfl

theorem EncodedShape.bwWrite (n : Nat) : EncodedShape.Statement (.bwWrite n) := fun h =>
  wordReserved_commandWord _ _ _ (by decide) (of_decide_eq_true h) (by decide)

theorem EncodedShape.bwClose : EncodedShape.Statement .bwClose := fun _ => rfl

theorem EncodedShape.bwLength : EncodedShape.Statement .bwLength := fun _ => rfl

theorem EncodedShape.brInitFlat : EncodedShape.Statement .brInitFlat := fun _ => rfl

theorem EncodedShape.brInitStream : EncodedShape.Statement .brInitStream := fun _ => rfl

theorem EncodedShape.brRead (n : Nat) : EncodedShape.Statement (.brRead n) := fun h =>
  wordReserved_commandWord _ _ _ (by decide) (of_decide_eq_true h) (by decide)

theorem EncodedShape.stBindMem : EncodedShape.Statement .stBindMem := fun _ => rfl

theorem EncodedShape.stBindChunk : EncodedShape.Statement .stBindChunk := fun _ => rfl

theorem EncodedShape.stGet : EncodedShape.Statement .stGet := fun _ => rfl

theorem EncodedShape.stGet16 : EncodedShape.Statement .stGet16 := fun _ => rfl

theorem EncodedShape.compress (s : Nat) (stats : Bool) : EncodedShape.Statement (.compress s stats) := fun h =>
  wordReserved_commandWord _ _ _ (by decide) (of_decide_eq_true h) (by cases stats <;> decide)

theorem EncodedShape.lexpand (s : Nat) : EncodedShape.Statement (.lexpand s) := fun h =>
  wordReserved_commandWord _ _ _ (by decide) (of_decide_eq_true h) (by decide)

theorem EncodedShape.expInit (s fmt : Nat) : EncodedShape.Statement (.expInit s fmt) := fun h => by
  simp only [WellFormed, Bool.and_eq_true, decide_eq_true_eq] at h
  exact wordReserved_commandWord _ _ _ (by decide) h.1 h.2

theorem EncodedShape.expExpand : EncodedShape.Statement .expExpand := fun _ => rfl

theorem EncodedShape.expExpand2 : EncodedShape.Statement .expExpand2 := fun _ => rfl

theorem EncodedShape.expDone : EncodedShape.Statement .expDone := fun _ => rfl

theorem EncodedShape.cuD1 (sign : Bool) (mag : Nat) : EncodedShape.Statement (.cuD1 sign mag) := fun _ =>
  shape_normal 0 sign mag (by decide)

theorem EncodedShape.cuD2 (sign : Bool) (mag : Nat) : EncodedShape.Statement (.cuD2 sign mag) := fun _ =>
  shape_normal 1 sign mag (by decide)

theorem EncodedShape.cuD3 (sign : Bool) (mag : Nat) : EncodedShape.Statement (.cuD3 sign mag) := fun _ =>
  shape_normal 2 sign mag (by decide)

theorem EncodedShape.cuD4 (sign : Bool) (mag : Nat) : EncodedShape.Statement (.cuD4 sign mag) := fun _ =>
  shape_normal 3 sign mag (by decide)

theorem EncodedShape.cuD5 (sign : Bool) (mag : Nat) : EncodedShape.Statement (.cuD5 sign mag) := fun _ =>
  shape_normal 4 sign mag (by decide)

theorem EncodedShape.cuD6 (sign : Bool) (mag : Nat) : EncodedShape.Statement (.cuD6 sign mag) := fun _ =>
  shape_normal 5 sign mag (by decide)

theorem EncodedShape.cuD7 (sign : Bool) (mag : Nat) : EncodedShape.Statement (.cuD7 sign mag) := fun _ =>
  shape_normal 6 sign mag (by decide)

theorem EncodedShape.cuD8 (sign : Bool) (mag : Nat) : EncodedShape.Statement (.cuD8 sign mag) := fun _ =>
  shape_normal 7 sign mag (by decide)

theorem EncodedShape.cuD9 (sign : Bool) (mag : Nat) : EncodedShape.Statement (.cuD9 sign mag) := fun _ =>
  shape_normal 8 sign mag (by decide)

theorem EncodedShape.cuD10 (sign : Bool) (mag : Nat) : EncodedShape.Statement (.cuD10 sign mag) := fun _ =>
  shape_normal 9 sign mag (by decide)

theorem EncodedShape.cuD11 (sign : Bool) (mag : Nat) : EncodedShape.Statement (.cuD11 sign mag) := fun _ =>
  shape_normal 10 sign mag (by decide)

theorem EncodedShape.cuD12 (sign : Bool) (mag : Nat) : EncodedShape.Statement (.cuD12 sign mag) := fun _ =>
  shape_normal 11 sign mag (by decide)

theorem EncodedShape.cuD13 (sign : Bool) (mag : Nat) : EncodedShape.Statement (.cuD13 sign mag) := fun _ =>
  shape_normal 12 sign mag (by decide)

theorem EncodedShape.cuD14 (sign : Bool) (mag : Nat) : EncodedShape.Statement (.cuD14 sign mag) := fun _ =>
  shape_normal 13 sign mag (by decide)

theorem EncodedShape.cuD15 (sign : Bool) (mag : Nat) : EncodedShape.Statement (.cuD15 sign mag) := fun _ =>
  shape_normal 14 sign mag (by decide)

theorem EncodedShape.cuEsc (raw : Nat) : EncodedShape.Statement (.cuEsc raw) := fun _ => by
  simp [encode, bitsMsb, bitsValue, show Nat.testBit 15 3 = true from rfl, show Nat.testBit 15 2 = true from rfl,
    show Nat.testBit 15 1 = true from rfl]

end Sys2Proof.Laws
end

