-- ==== Sys2Proof/Laws/Refill.lean ====
section
/-! SUPPORT. What StreamGet and its refill can do, said once; UnpackBits cut in two; one engine turn as one sample; what
another agent's access can change. -/

namespace Sys2Proof.Machine

/-- Everything `StreamGet()` can do (R211): it delivers a byte, changing at most the stream unit and the draw count;
raises StreamExhausted at the stream's end or without a stream; raises BusError with the byte's address; or asks for a
refill and is held where it was called. -/
theorem streamGet_cases (p : HoldPoint) (s : State) :
    (∃ b t, streamGet p s = .ok b t ∧ t = { s with st := t.st, draws := t.draws } ∧ s.st.kind ≠ .none ∧
        s.st.pos ≠ s.st.size ∧ t.st.pos = s.st.pos + 1#32) ∨
      ((s.st.kind = .none ∨ s.st.pos = s.st.size) ∧ streamGet p s = .raise .streamExhausted 0#32 s) ∨
      (s.st.kind = .mem ∧ s.st.pos ≠ s.st.size ∧ memAdmits s.plat (s.st.base + s.st.pos) .read = false ∧
        streamGet p s = .raise .busError (s.st.base + s.st.pos) s) ∨
      (s.st.kind = .chunk ∧ s.st.pos ≠ s.st.size ∧ s.st.idx = s.st.fill ∧
        streamGet p s = .hold p { s with refill := { offset := s.st.pos, max := BitVec.ofNat 17 (refillMax s) } }) := by
  by_cases he : s.st.kind = .none ∨ s.st.pos = s.st.size
  · refine .inr (.inl ⟨he, ?_⟩)
    rcases he with he | he
    · simp [streamGet, he]
    · cases hk : s.st.kind <;> simp [streamGet, hk, he]
  · obtain ⟨hn, hp⟩ := not_or.mp he
    cases hk : s.st.kind
    · exact absurd hk hn
    · rcases readByte_cases (s.st.base + s.st.pos) s with ⟨-, b, d, hb⟩ | ⟨ha, hb⟩
      · refine .inl ⟨b, { s with draws := d, st := { s.st with pos := s.st.pos + 1#32 } }, ?_, rfl, by simp, hp, rfl⟩
        simp [streamGet, hk, hp, hb]
      · exact .inr (.inr (.inl ⟨rfl, hp, ha, by simp [streamGet, hk, hp, hb]⟩))
    · by_cases hi : s.st.idx = s.st.fill
      · exact .inr (.inr (.inr ⟨rfl, hp, hi, by simp [streamGet, hk, hp, hi]⟩))
      · refine .inl ⟨s.chunk.getD s.st.idx.toNat 0#8,
          { s with st := { s.st with idx := s.st.idx + 1#17, pos := s.st.pos + 1#32 } }, ?_, rfl, by simp, hp, rfl⟩
        simp [streamGet, hk, hp, hi, chunkTake]

/-- Everything the rest of StreamGet can do once a refill was answered with `k` (R212, R211): it delivers CHUNK[0], or
raises RefillOverrun or StreamExhausted. -/
theorem streamResume_cases (k : Word) (s : State) :
    (k ≠ 0#32 ∧ k.toNat ≤ s.refill.max.toNat ∧ streamResume k s = .ok (s.chunk.getD 0 0#8) (refilled k s)) ∨
      (s.refill.max.toNat < k.toNat ∧ streamResume k s = .raise .refillOverrun 0#32 s) ∨
      (k = 0#32 ∧ streamResume k s = .raise .streamExhausted 0#32 s) := by
  by_cases h : s.refill.max.toNat < k.toNat
  · exact .inr (.inl ⟨h, by simp [streamResume, h]⟩)
  · by_cases h0 : k = 0#32
    · exact .inr (.inr ⟨h0, by simp [streamResume, h0]⟩)
    · exact .inl ⟨h0, by omega, by simp [streamResume, h, h0, chunkTake, refilled]⟩

/-- Reading `a + b` bits is reading `a` bits and then `b` more, held at the same points (R183). -/
theorem unpackFrom_add (point : Nat → Nat → HoldPoint) (a b r : Nat) (s : State) :
    unpackFrom point (a + b) r s =
      (unpackFrom (fun r left => point r (left + b)) a r s).bind fun r s => unpackFrom point b r s := by
  induction a generalizing r s with
  | zero => simp [unpackFrom]
  | succ a ih =>
    rw [show a + 1 + b = (a + b) + 1 by omega, unpackFrom, unpackFrom, Res.bind_assoc,
      show a + b + 1 = a + 1 + b by omega]
    congr 1
    funext _ t
    exact ih _ _

/-- Fetching a byte changes at most the stream unit and the draw count (R182). -/
theorem brFetch_frame {p : HoldPoint} {b : Byte} {s t : State} (h : brFetch p s = .ok b t) :
    t = { s with st := t.st, draws := t.draws } := by
  rw [brFetch] at h
  split at h
  · split at h
    · cases h
    · rcases readByte_cases (s.br.base + s.br.consumed) s with ⟨-, _, _, e⟩ | ⟨-, e⟩ <;>
        (rw [e] at h; cases h)
      rfl
  · rcases streamGet_cases p s with ⟨_, _, e, ht, -⟩ | ⟨-, e⟩ | ⟨-, -, -, e⟩ | ⟨-, -, -, e⟩ <;>
      (rw [e] at h; cases h)
    exact ht
  · cases h

/-- Reading bits changes at most the unpacker, the stream unit and the draw count (R183). -/
theorem unpackFrom_frame (point : Nat → Nat → HoldPoint) (n : Nat) {r v : Nat} {s t : State}
    (h : unpackFrom point n r s = .ok v t) : t = { s with br := t.br, st := t.st, draws := t.draws } := by
  induction n generalizing r s with
  | zero => cases h; rfl
  | succ n ih =>
    rw [unpackFrom, needBit] at h
    split at h
    · cases hf : brFetch (point r (n + 1)) s with
      | ok b u =>
        rw [hf, Res.bind_ok, Res.bind_ok] at h
        have h1 := brFetch_frame hf
        have h2 := ih h
        simp only [dropBit, loadByte, countFetch] at h2
        split at h2
        · rw [h2, h1]; rfl
        · rw [h2, h1]
      | raise c info u => rw [hf] at h; cases h
      | hold p u => rw [hf] at h; cases h
    · rw [Res.bind_ok] at h
      rw [ih h]
      rfl

/-- What a sequence of two reads returns, both were read. -/
theorem Res.bind_eq_ok {α β : Type} {r : Res α} {k : α → State → Res β} {b : β} {t : State}
    (h : r.bind k = .ok b t) : ∃ a u, r = .ok a u ∧ k a u = .ok b t := by
  cases r with
  | ok a u => exact ⟨a, u, rfl, h⟩
  | raise c info u => cases h
  | hold p u => cases h

/-- Reading a code unit changes at most the unpacker, the stream unit and the draw count (R240). -/
theorem readUnitFrom_frame {f : Frame} {phase : UnitPhase} {u : CodeUnit} {s t : State}
    (h : readUnitFrom f phase s = .ok u t) : t = { s with br := t.br, st := t.st, draws := t.draws } := by
  have hmag : ∀ {code sign r left} {s : State}, readMag f code sign r left s = .ok u t →
      t = { s with br := t.br, st := t.st, draws := t.draws } := by
    intro code sign r left s h
    obtain ⟨_, w, h1, h2⟩ := Res.bind_eq_ok h
    cases h2
    exact unpackFrom_frame _ _ h1
  have hsign : ∀ {code} {s : State}, readSign f code s = .ok u t →
      t = { s with br := t.br, st := t.st, draws := t.draws } := by
    intro code s h
    obtain ⟨_, w, h1, h2⟩ := Res.bind_eq_ok h
    rw [hmag h2, unpackFrom_frame _ _ h1]
  have hraw : ∀ {r left} {s : State}, readRaw f r left s = .ok u t →
      t = { s with br := t.br, st := t.st, draws := t.draws } := by
    intro r left s h
    obtain ⟨_, w, h1, h2⟩ := Res.bind_eq_ok h
    cases h2
    exact unpackFrom_frame _ _ h1
  cases phase with
  | code r left =>
    obtain ⟨_, w, h1, h2⟩ := Res.bind_eq_ok h
    split at h2
    · rw [hraw h2, unpackFrom_frame _ _ h1]
    · rw [hsign h2, unpackFrom_frame _ _ h1]
  | sign code => exact hsign h
  | mag code sign r left => exact hmag h
  | raw r left => exact hraw h

/-- A code unit's constructor executes its sample in the running command's loop (R240, log 8). -/
theorem exec_unit (u : CodeUnit) {f : Frame} {s : State} (h : s.task = .sample f) :
    exec u.instr s = .next (runSample (unitSample u s.ctx) f s) := by
  have he : ∀ x, execUnit x s = .next (runSample x f s) := fun x => by rw [execUnit, h]
  cases u with
  | normal code sign mag => rw [← he]; unfold CodeUnit.instr; split <;> rename_i e <;> cases e <;> rfl
  | escape raw => rw [← he]; rfl

/-- A schedule without stores has none in any window (R351). -/
theorem storesAhead_of_no_store (p : Platform) (busy : Bool) {h : List Access} (hh : ∀ a b, Access.store a b ∉ h) :
    storesAhead p busy h = [] := by
  induction h generalizing busy with
  | nil => rfl
  | cons x rest ih =>
    have hr : ∀ busy, storesAhead p busy rest = [] := fun busy => ih busy fun a b hm => hh a b (List.mem_cons_of_mem _ hm)
    cases x <;> simp only [storesAhead, hr, ite_self]
    exact absurd List.mem_cons_self (hh _ _)

/-- What fits is the turn for some addresses, after some draws (R351). -/
theorem fittingTurn_cases (window : Host.Outcome State Fault Refusal → List Word) (s : State) (ahead : List Word)
    (fuel m k : Nat) : ∃ touched d, fittingTurn window s ahead fuel m k = turnWith touched (s.drawn d) := by
  induction fuel generalizing m k with
  | zero => exact ⟨[], k, rfl⟩
  | succ fuel ih =>
    rw [fittingTurn]
    split
    · exact ⟨_, k, rfl⟩
    · exact ih _ _

/-- Everything the engine's turn can be: the turn in which some list of addresses is touched in the window, after some
draws (R351). -/
theorem engineTurn_cases (s : State) : ∃ touched d, engineTurn s = turnWith touched (s.drawn d) := by
  rw [engineTurn]
  cases s.host.length with
  | zero => exact ⟨[], 0, rfl⟩
  | succ n => exact fittingTurn_cases _ _ _ _ _ _

/-- When other agents store nothing later, the engine's turn takes no byte as unspecified for their sake (R351). -/
theorem engineTurn_of_no_store {s : State} (h : ∀ a b, Access.store a b ∉ s.host) : engineTurn s = turnWith [] s := by
  rw [engineTurn]
  cases s.host.length with
  | zero => rfl
  | succ n =>
    rw [turnAhead, storesAhead_of_no_store _ _ h, fittingTurn]
    exact if_pos rfl

/-- An outcome that fits its window is kept (R351). -/
theorem fittingTurn_fits {window : Host.Outcome State Fault Refusal → List Word} {s : State} {ahead : List Word}
    {fuel m k : Nat}
    (h : within (ahead.take m) (window (turnWith (ahead.take m) (s.drawn k))) = true) :
    fittingTurn window s ahead (fuel + 1) m k = turnWith (ahead.take m) (s.drawn k) := by
  rw [fittingTurn]
  exact if_pos h

/-- With no access to come, a step is the engine's plain turn (R11). -/
theorem step_of_no_access {s : State} (h : s.host = []) : step s = turnWith [] s := by
  rw [step, agentStep]
  split
  · exact engineTurn_of_no_store (by simp [h])
  · simp_all

/-- Between two samples, with no host access to come, a step is one iteration of the loop (R264, log 7). -/
theorem step_sample {f : Frame} {s : State} (ht : s.task = .sample f) (hh : s.host = []) :
    step s = .next (sampleStep f s) := by
  simp only [step_of_no_access hh, turnWith, fetch, ht, State.foreseen_nil hh, fetchSample, sampleStep]
  by_cases hr : f.isRaw s = true
  · rw [if_pos hr, if_pos hr]
  · rw [if_neg hr, if_neg hr, fetchedUnit, endUnit]
    cases hu : readUnit f s with
    | ok u t =>
      have hf := readUnitFrom_frame hu
      have htt : t.task = .sample f := by rw [hf]; exact ht
      have hs : { t with task := .sample f } = t := by rw [← htt]
      simp only [Res.indexed_ok, conclude_ok, hs, exec_unit u htt]
    | raise c info t => rfl
    | hold p t => rfl

/-- Another agent's store changes only memory, `raced` and the draw count (R95, R351). -/
theorem hostStore_frame (a : Word) (b : Byte) (s : State) :
    hostStore a b s = { s with
      mem := (hostStore a b s).mem, raced := (hostStore a b s).raced, draws := (hostStore a b s).draws } := by
  rw [hostStore]
  split <;> rfl

/-- Another agent's load changes only the value it returns and the draw count; where the spec promises the byte the value
is the byte of memory (R95, R351). -/
theorem hostLoad_frame (a : Word) (s : State) :
    hostLoad a s = { s with rdata := (hostLoad a s).rdata, draws := (hostLoad a s).draws } ∧
      (s.unpromised a = false → hostLoad a s = { s with rdata := (byteAt s a).setWidth 32 }) := by
  refine ⟨?_, fun h => by simp [hostLoad, h, byteAt]⟩
  rw [hostLoad]
  split <;> rfl

end Sys2Proof.Machine
end

