-- ==== Sys2Proof/Laws/State.lean ====
section
/-! SUPPORT. One lemma per field for each update of the state that the meanings share: what it sets, and that it leaves
the other fields alone. A later proof rewrites with these and never unfolds a record update. -/

namespace Sys2Proof.Machine

/-! ## Completion and registers -/

/-! ### Completion (R301) -/

@[simp] theorem State.finish_plat (s : State) : (s.finish).plat = s.plat := rfl
@[simp] theorem State.finish_fault (s : State) : (s.finish).fault = s.fault := rfl
@[simp] theorem State.finish_lost (s : State) : (s.finish).lost = s.lost := rfl
@[simp] theorem State.finish_err (s : State) : (s.finish).err = s.err := rfl
@[simp] theorem State.finish_args (s : State) : (s.finish).args = s.args := rfl
@[simp] theorem State.finish_result (s : State) : (s.finish).result = s.result := rfl
@[simp] theorem State.finish_acc (s : State) : (s.finish).acc = s.acc := rfl
@[simp] theorem State.finish_bw (s : State) : (s.finish).bw = s.bw := rfl
@[simp] theorem State.finish_br (s : State) : (s.finish).br = s.br := rfl
@[simp] theorem State.finish_st (s : State) : (s.finish).st = s.st := rfl
@[simp] theorem State.finish_chunk (s : State) : (s.finish).chunk = s.chunk := rfl
@[simp] theorem State.finish_ctx (s : State) : (s.finish).ctx = s.ctx := rfl
@[simp] theorem State.finish_exp (s : State) : (s.finish).exp = s.exp := rfl
@[simp] theorem State.finish_refill (s : State) : (s.finish).refill = s.refill := rfl
@[simp] theorem State.finish_stat (s : State) : (s.finish).stat = s.stat := rfl
@[simp] theorem State.finish_task (s : State) : (s.finish).task = .idle := rfl
@[simp] theorem State.finish_mem (s : State) : (s.finish).mem = s.mem := rfl
@[simp] theorem State.finish_host (s : State) : (s.finish).host = s.host := rfl
@[simp] theorem State.finish_rdata (s : State) : (s.finish).rdata = s.rdata := rfl
@[simp] theorem State.finish_draws (s : State) : (s.finish).draws = s.draws := rfl
@[simp] theorem State.finish_raced (s : State) : (s.finish).raced = .none := rfl
@[simp] theorem State.finish_unread (s : State) : (s.finish).unread = s.unread := rfl

/-! ### RESULT (R40) -/

@[simp] theorem State.setResult_plat (v : Word) (s : State) : (s.setResult v).plat = s.plat := rfl
@[simp] theorem State.setResult_fault (v : Word) (s : State) : (s.setResult v).fault = s.fault := rfl
@[simp] theorem State.setResult_lost (v : Word) (s : State) : (s.setResult v).lost = s.lost := rfl
@[simp] theorem State.setResult_err (v : Word) (s : State) : (s.setResult v).err = s.err := rfl
@[simp] theorem State.setResult_args (v : Word) (s : State) : (s.setResult v).args = s.args := rfl
@[simp] theorem State.setResult_result (v : Word) (s : State) : (s.setResult v).result = v := rfl
@[simp] theorem State.setResult_acc (v : Word) (s : State) : (s.setResult v).acc = s.acc := rfl
@[simp] theorem State.setResult_bw (v : Word) (s : State) : (s.setResult v).bw = s.bw := rfl
@[simp] theorem State.setResult_br (v : Word) (s : State) : (s.setResult v).br = s.br := rfl
@[simp] theorem State.setResult_st (v : Word) (s : State) : (s.setResult v).st = s.st := rfl
@[simp] theorem State.setResult_chunk (v : Word) (s : State) : (s.setResult v).chunk = s.chunk := rfl
@[simp] theorem State.setResult_ctx (v : Word) (s : State) : (s.setResult v).ctx = s.ctx := rfl
@[simp] theorem State.setResult_exp (v : Word) (s : State) : (s.setResult v).exp = s.exp := rfl
@[simp] theorem State.setResult_refill (v : Word) (s : State) : (s.setResult v).refill = s.refill := rfl
@[simp] theorem State.setResult_stat (v : Word) (s : State) : (s.setResult v).stat = s.stat := rfl
@[simp] theorem State.setResult_task (v : Word) (s : State) : (s.setResult v).task = s.task := rfl
@[simp] theorem State.setResult_mem (v : Word) (s : State) : (s.setResult v).mem = s.mem := rfl
@[simp] theorem State.setResult_host (v : Word) (s : State) : (s.setResult v).host = s.host := rfl
@[simp] theorem State.setResult_rdata (v : Word) (s : State) : (s.setResult v).rdata = s.rdata := rfl
@[simp] theorem State.setResult_draws (v : Word) (s : State) : (s.setResult v).draws = s.draws := rfl
@[simp] theorem State.setResult_raced (v : Word) (s : State) : (s.setResult v).raced = s.raced := rfl
@[simp] theorem State.setResult_unread (v : Word) (s : State) : (s.setResult v).unread = s.unread := rfl

/-! ### Free values used -/

@[simp] theorem State.drawn_plat (k : Nat) (s : State) : (s.drawn k).plat = s.plat := rfl
@[simp] theorem State.drawn_fault (k : Nat) (s : State) : (s.drawn k).fault = s.fault := rfl
@[simp] theorem State.drawn_lost (k : Nat) (s : State) : (s.drawn k).lost = s.lost := rfl
@[simp] theorem State.drawn_err (k : Nat) (s : State) : (s.drawn k).err = s.err := rfl
@[simp] theorem State.drawn_args (k : Nat) (s : State) : (s.drawn k).args = s.args := rfl
@[simp] theorem State.drawn_result (k : Nat) (s : State) : (s.drawn k).result = s.result := rfl
@[simp] theorem State.drawn_acc (k : Nat) (s : State) : (s.drawn k).acc = s.acc := rfl
@[simp] theorem State.drawn_bw (k : Nat) (s : State) : (s.drawn k).bw = s.bw := rfl
@[simp] theorem State.drawn_br (k : Nat) (s : State) : (s.drawn k).br = s.br := rfl
@[simp] theorem State.drawn_st (k : Nat) (s : State) : (s.drawn k).st = s.st := rfl
@[simp] theorem State.drawn_chunk (k : Nat) (s : State) : (s.drawn k).chunk = s.chunk := rfl
@[simp] theorem State.drawn_ctx (k : Nat) (s : State) : (s.drawn k).ctx = s.ctx := rfl
@[simp] theorem State.drawn_exp (k : Nat) (s : State) : (s.drawn k).exp = s.exp := rfl
@[simp] theorem State.drawn_refill (k : Nat) (s : State) : (s.drawn k).refill = s.refill := rfl
@[simp] theorem State.drawn_stat (k : Nat) (s : State) : (s.drawn k).stat = s.stat := rfl
@[simp] theorem State.drawn_task (k : Nat) (s : State) : (s.drawn k).task = s.task := rfl
@[simp] theorem State.drawn_mem (k : Nat) (s : State) : (s.drawn k).mem = s.mem := rfl
@[simp] theorem State.drawn_host (k : Nat) (s : State) : (s.drawn k).host = s.host := rfl
@[simp] theorem State.drawn_rdata (k : Nat) (s : State) : (s.drawn k).rdata = s.rdata := rfl
@[simp] theorem State.drawn_draws (k : Nat) (s : State) : (s.drawn k).draws = s.draws + k := rfl
@[simp] theorem State.drawn_raced (k : Nat) (s : State) : (s.drawn k).raced = s.raced := rfl
@[simp] theorem State.drawn_unread (k : Nat) (s : State) : (s.drawn k).unread = s.unread := rfl

/-! ### STATUS.LOST (R36) -/

@[simp] theorem State.setLost_plat (s : State) : (s.setLost).plat = s.plat := rfl
@[simp] theorem State.setLost_fault (s : State) : (s.setLost).fault = s.fault := rfl
@[simp] theorem State.setLost_lost (s : State) : (s.setLost).lost = true := rfl
@[simp] theorem State.setLost_err (s : State) : (s.setLost).err = s.err := rfl
@[simp] theorem State.setLost_args (s : State) : (s.setLost).args = s.args := rfl
@[simp] theorem State.setLost_result (s : State) : (s.setLost).result = s.result := rfl
@[simp] theorem State.setLost_acc (s : State) : (s.setLost).acc = s.acc := rfl
@[simp] theorem State.setLost_bw (s : State) : (s.setLost).bw = s.bw := rfl
@[simp] theorem State.setLost_br (s : State) : (s.setLost).br = s.br := rfl
@[simp] theorem State.setLost_st (s : State) : (s.setLost).st = s.st := rfl
@[simp] theorem State.setLost_chunk (s : State) : (s.setLost).chunk = s.chunk := rfl
@[simp] theorem State.setLost_ctx (s : State) : (s.setLost).ctx = s.ctx := rfl
@[simp] theorem State.setLost_exp (s : State) : (s.setLost).exp = s.exp := rfl
@[simp] theorem State.setLost_refill (s : State) : (s.setLost).refill = s.refill := rfl
@[simp] theorem State.setLost_stat (s : State) : (s.setLost).stat = s.stat := rfl
@[simp] theorem State.setLost_task (s : State) : (s.setLost).task = s.task := rfl
@[simp] theorem State.setLost_mem (s : State) : (s.setLost).mem = s.mem := rfl
@[simp] theorem State.setLost_host (s : State) : (s.setLost).host = s.host := rfl
@[simp] theorem State.setLost_rdata (s : State) : (s.setLost).rdata = s.rdata := rfl
@[simp] theorem State.setLost_draws (s : State) : (s.setLost).draws = s.draws := rfl
@[simp] theorem State.setLost_raced (s : State) : (s.setLost).raced = s.raced := rfl
@[simp] theorem State.setLost_unread (s : State) : (s.setLost).unread = s.unread := rfl

/-! ### InvalidateSession (R262) -/

@[simp] theorem State.invalidateSession_plat (s : State) : (s.invalidateSession).plat = s.plat := rfl
@[simp] theorem State.invalidateSession_fault (s : State) : (s.invalidateSession).fault = s.fault := rfl
@[simp] theorem State.invalidateSession_lost (s : State) : (s.invalidateSession).lost = s.lost := rfl
@[simp] theorem State.invalidateSession_err (s : State) : (s.invalidateSession).err = s.err := rfl
@[simp] theorem State.invalidateSession_args (s : State) : (s.invalidateSession).args = s.args := rfl
@[simp] theorem State.invalidateSession_result (s : State) : (s.invalidateSession).result = s.result := rfl
@[simp] theorem State.invalidateSession_acc (s : State) : (s.invalidateSession).acc = s.acc := rfl
@[simp] theorem State.invalidateSession_bw (s : State) : (s.invalidateSession).bw = s.bw := rfl
@[simp] theorem State.invalidateSession_br (s : State) : (s.invalidateSession).br = s.br := rfl
@[simp] theorem State.invalidateSession_st (s : State) : (s.invalidateSession).st = s.st := rfl
@[simp] theorem State.invalidateSession_chunk (s : State) : (s.invalidateSession).chunk = s.chunk := rfl
@[simp] theorem State.invalidateSession_ctx (s : State) : (s.invalidateSession).ctx = s.ctx := rfl
@[simp] theorem State.invalidateSession_exp (s : State) :
    (s.invalidateSession).exp = { s.exp with state := .unbound } := rfl
@[simp] theorem State.invalidateSession_refill (s : State) : (s.invalidateSession).refill = s.refill := rfl
@[simp] theorem State.invalidateSession_stat (s : State) : (s.invalidateSession).stat = s.stat := rfl
@[simp] theorem State.invalidateSession_task (s : State) : (s.invalidateSession).task = s.task := rfl
@[simp] theorem State.invalidateSession_mem (s : State) : (s.invalidateSession).mem = s.mem := rfl
@[simp] theorem State.invalidateSession_host (s : State) : (s.invalidateSession).host = s.host := rfl
@[simp] theorem State.invalidateSession_rdata (s : State) : (s.invalidateSession).rdata = s.rdata := rfl
@[simp] theorem State.invalidateSession_draws (s : State) : (s.invalidateSession).draws = s.draws := rfl
@[simp] theorem State.invalidateSession_raced (s : State) : (s.invalidateSession).raced = s.raced := rfl
@[simp] theorem State.invalidateSession_unread (s : State) : (s.invalidateSession).unread = s.unread := rfl

/-! ## Fault entry and fault exit -/

/-! ### Fault entry (R306) -/

@[simp] theorem faultEntry_plat (c : Cause) (op : Nat) (info : Word) (s : State) :
    (faultEntry c op info s).plat = s.plat := rfl
@[simp] theorem faultEntry_fault (c : Cause) (op : Nat) (info : Word) (s : State) :
    (faultEntry c op info s).fault = true := rfl
@[simp] theorem faultEntry_lost (c : Cause) (op : Nat) (info : Word) (s : State) :
    (faultEntry c op info s).lost = s.lost := rfl
@[simp] theorem faultEntry_err (c : Cause) (op : Nat) (info : Word) (s : State) :
    (faultEntry c op info s).err = { cause := c.code, op := BitVec.ofNat 8 op, info := info } := rfl
@[simp] theorem faultEntry_args (c : Cause) (op : Nat) (info : Word) (s : State) :
    (faultEntry c op info s).args = s.args := rfl
@[simp] theorem faultEntry_result (c : Cause) (op : Nat) (info : Word) (s : State) :
    (faultEntry c op info s).result = s.result := rfl
@[simp] theorem faultEntry_acc (c : Cause) (op : Nat) (info : Word) (s : State) :
    (faultEntry c op info s).acc = s.acc := rfl
@[simp] theorem faultEntry_bw (c : Cause) (op : Nat) (info : Word) (s : State) :
    (faultEntry c op info s).bw = s.bw := rfl
@[simp] theorem faultEntry_br (c : Cause) (op : Nat) (info : Word) (s : State) :
    (faultEntry c op info s).br = s.br := rfl
@[simp] theorem faultEntry_st (c : Cause) (op : Nat) (info : Word) (s : State) :
    (faultEntry c op info s).st = s.st := rfl
@[simp] theorem faultEntry_chunk (c : Cause) (op : Nat) (info : Word) (s : State) :
    (faultEntry c op info s).chunk = s.chunk := rfl
@[simp] theorem faultEntry_ctx (c : Cause) (op : Nat) (info : Word) (s : State) :
    (faultEntry c op info s).ctx = s.ctx := rfl
@[simp] theorem faultEntry_exp (c : Cause) (op : Nat) (info : Word) (s : State) :
    (faultEntry c op info s).exp = { s.exp with state := .unbound } := rfl
@[simp] theorem faultEntry_refill (c : Cause) (op : Nat) (info : Word) (s : State) :
    (faultEntry c op info s).refill = s.refill := rfl
@[simp] theorem faultEntry_stat (c : Cause) (op : Nat) (info : Word) (s : State) :
    (faultEntry c op info s).stat = s.stat := rfl
@[simp] theorem faultEntry_task (c : Cause) (op : Nat) (info : Word) (s : State) :
    (faultEntry c op info s).task = .idle := rfl
@[simp] theorem faultEntry_mem (c : Cause) (op : Nat) (info : Word) (s : State) :
    (faultEntry c op info s).mem = s.mem := rfl
@[simp] theorem faultEntry_host (c : Cause) (op : Nat) (info : Word) (s : State) :
    (faultEntry c op info s).host = s.host := rfl
@[simp] theorem faultEntry_rdata (c : Cause) (op : Nat) (info : Word) (s : State) :
    (faultEntry c op info s).rdata = s.rdata := rfl
@[simp] theorem faultEntry_draws (c : Cause) (op : Nat) (info : Word) (s : State) :
    (faultEntry c op info s).draws = s.draws := rfl
@[simp] theorem faultEntry_raced (c : Cause) (op : Nat) (info : Word) (s : State) :
    (faultEntry c op info s).raced = .none := rfl
@[simp] theorem faultEntry_unread (c : Cause) (op : Nat) (info : Word) (s : State) :
    (faultEntry c op info s).unread = s.unread := rfl

/-! ### SOFT_RESET (R291, R341) -/

@[simp] theorem softResetState_plat (s : State) : (softResetState s).plat = s.plat := rfl
@[simp] theorem softResetState_fault (s : State) : (softResetState s).fault = false := rfl
@[simp] theorem softResetState_lost (s : State) : (softResetState s).lost = false := rfl
@[simp] theorem softResetState_err (s : State) : (softResetState s).err = .zero := rfl
@[simp] theorem softResetState_args (s : State) : (softResetState s).args = s.args := rfl
@[simp] theorem softResetState_result (s : State) : (softResetState s).result = 0#32 := rfl
@[simp] theorem softResetState_acc (s : State) : (softResetState s).acc = .zero := rfl
@[simp] theorem softResetState_bw (s : State) : (softResetState s).bw = .zero := rfl
@[simp] theorem softResetState_br (s : State) : (softResetState s).br = .zero := rfl
@[simp] theorem softResetState_st (s : State) : (softResetState s).st = .zero := rfl
@[simp] theorem softResetState_chunk (s : State) : (softResetState s).chunk = s.chunk := rfl
@[simp] theorem softResetState_ctx (s : State) : (softResetState s).ctx = .zero := rfl
@[simp] theorem softResetState_exp (s : State) : (softResetState s).exp = .zero := rfl
@[simp] theorem softResetState_refill (s : State) : (softResetState s).refill = .zero := rfl
@[simp] theorem softResetState_stat (s : State) : (softResetState s).stat = .zero := rfl
@[simp] theorem softResetState_task (s : State) : (softResetState s).task = .idle := rfl
@[simp] theorem softResetState_mem (s : State) : (softResetState s).mem = s.mem := rfl
@[simp] theorem softResetState_host (s : State) : (softResetState s).host = s.host := rfl
@[simp] theorem softResetState_rdata (s : State) : (softResetState s).rdata = s.rdata := rfl
@[simp] theorem softResetState_draws (s : State) : (softResetState s).draws = s.draws := rfl
@[simp] theorem softResetState_raced (s : State) : (softResetState s).raced = .none := rfl
@[simp] theorem softResetState_unread (s : State) : (softResetState s).unread = s.unread := rfl

/-! ### Hardware reset (R340) -/

@[simp] theorem hardwareReset_plat (s : State) : (hardwareReset s).plat = s.plat := rfl
@[simp] theorem hardwareReset_fault (s : State) : (hardwareReset s).fault = false := rfl
@[simp] theorem hardwareReset_lost (s : State) : (hardwareReset s).lost = false := rfl
@[simp] theorem hardwareReset_err (s : State) : (hardwareReset s).err = .zero := rfl
@[simp] theorem hardwareReset_args (s : State) : (hardwareReset s).args = .zero := rfl
@[simp] theorem hardwareReset_result (s : State) : (hardwareReset s).result = 0#32 := rfl
@[simp] theorem hardwareReset_acc (s : State) : (hardwareReset s).acc = .zero := rfl
@[simp] theorem hardwareReset_bw (s : State) : (hardwareReset s).bw = .zero := rfl
@[simp] theorem hardwareReset_br (s : State) : (hardwareReset s).br = .zero := rfl
@[simp] theorem hardwareReset_st (s : State) : (hardwareReset s).st = .zero := rfl
@[simp] theorem hardwareReset_chunk (s : State) : (hardwareReset s).chunk = freeBytes s.draws s.plat.chunkBytes := rfl
@[simp] theorem hardwareReset_ctx (s : State) : (hardwareReset s).ctx = .zero := rfl
@[simp] theorem hardwareReset_exp (s : State) : (hardwareReset s).exp = .zero := rfl
@[simp] theorem hardwareReset_refill (s : State) : (hardwareReset s).refill = .zero := rfl
@[simp] theorem hardwareReset_stat (s : State) : (hardwareReset s).stat = .zero := rfl
@[simp] theorem hardwareReset_task (s : State) : (hardwareReset s).task = .idle := rfl
@[simp] theorem hardwareReset_mem (s : State) : (hardwareReset s).mem = s.mem := rfl
@[simp] theorem hardwareReset_host (s : State) : (hardwareReset s).host = s.host := rfl
@[simp] theorem hardwareReset_rdata (s : State) : (hardwareReset s).rdata = s.rdata := rfl
@[simp] theorem hardwareReset_draws (s : State) : (hardwareReset s).draws = s.draws + s.plat.chunkBytes := rfl
@[simp] theorem hardwareReset_raced (s : State) : (hardwareReset s).raced = .none := rfl
@[simp] theorem hardwareReset_unread (s : State) : (hardwareReset s).unread = [] := rfl

/-! ## Write sets after a fault (R306): the fields each leaves alone -/

/-! ### RESULT -/

@[simp] theorem spoilResult_plat (s : State) : (spoilResult s).plat = s.plat := rfl
@[simp] theorem spoilResult_fault (s : State) : (spoilResult s).fault = s.fault := rfl
@[simp] theorem spoilResult_lost (s : State) : (spoilResult s).lost = s.lost := rfl
@[simp] theorem spoilResult_err (s : State) : (spoilResult s).err = s.err := rfl
@[simp] theorem spoilResult_args (s : State) : (spoilResult s).args = s.args := rfl
@[simp] theorem spoilResult_acc (s : State) : (spoilResult s).acc = s.acc := rfl
@[simp] theorem spoilResult_bw (s : State) : (spoilResult s).bw = s.bw := rfl
@[simp] theorem spoilResult_br (s : State) : (spoilResult s).br = s.br := rfl
@[simp] theorem spoilResult_st (s : State) : (spoilResult s).st = s.st := rfl
@[simp] theorem spoilResult_chunk (s : State) : (spoilResult s).chunk = s.chunk := rfl
@[simp] theorem spoilResult_ctx (s : State) : (spoilResult s).ctx = s.ctx := rfl
@[simp] theorem spoilResult_exp (s : State) : (spoilResult s).exp = s.exp := rfl
@[simp] theorem spoilResult_refill (s : State) : (spoilResult s).refill = s.refill := rfl
@[simp] theorem spoilResult_stat (s : State) : (spoilResult s).stat = s.stat := rfl
@[simp] theorem spoilResult_task (s : State) : (spoilResult s).task = s.task := rfl
@[simp] theorem spoilResult_mem (s : State) : (spoilResult s).mem = s.mem := rfl
@[simp] theorem spoilResult_host (s : State) : (spoilResult s).host = s.host := rfl
@[simp] theorem spoilResult_rdata (s : State) : (spoilResult s).rdata = s.rdata := rfl
@[simp] theorem spoilResult_raced (s : State) : (spoilResult s).raced = s.raced := rfl
@[simp] theorem spoilResult_unread (s : State) : (spoilResult s).unread = s.unread := rfl

/-! ### BW_EMITTED, BW_STAGE, BW_USED -/

@[simp] theorem spoilPackerFill_plat (s : State) : (spoilPackerFill s).plat = s.plat := rfl
@[simp] theorem spoilPackerFill_fault (s : State) : (spoilPackerFill s).fault = s.fault := rfl
@[simp] theorem spoilPackerFill_lost (s : State) : (spoilPackerFill s).lost = s.lost := rfl
@[simp] theorem spoilPackerFill_err (s : State) : (spoilPackerFill s).err = s.err := rfl
@[simp] theorem spoilPackerFill_args (s : State) : (spoilPackerFill s).args = s.args := rfl
@[simp] theorem spoilPackerFill_result (s : State) : (spoilPackerFill s).result = s.result := rfl
@[simp] theorem spoilPackerFill_acc (s : State) : (spoilPackerFill s).acc = s.acc := rfl
@[simp] theorem spoilPackerFill_br (s : State) : (spoilPackerFill s).br = s.br := rfl
@[simp] theorem spoilPackerFill_st (s : State) : (spoilPackerFill s).st = s.st := rfl
@[simp] theorem spoilPackerFill_chunk (s : State) : (spoilPackerFill s).chunk = s.chunk := rfl
@[simp] theorem spoilPackerFill_ctx (s : State) : (spoilPackerFill s).ctx = s.ctx := rfl
@[simp] theorem spoilPackerFill_exp (s : State) : (spoilPackerFill s).exp = s.exp := rfl
@[simp] theorem spoilPackerFill_refill (s : State) : (spoilPackerFill s).refill = s.refill := rfl
@[simp] theorem spoilPackerFill_stat (s : State) : (spoilPackerFill s).stat = s.stat := rfl
@[simp] theorem spoilPackerFill_task (s : State) : (spoilPackerFill s).task = s.task := rfl
@[simp] theorem spoilPackerFill_mem (s : State) : (spoilPackerFill s).mem = s.mem := rfl
@[simp] theorem spoilPackerFill_host (s : State) : (spoilPackerFill s).host = s.host := rfl
@[simp] theorem spoilPackerFill_rdata (s : State) : (spoilPackerFill s).rdata = s.rdata := rfl
@[simp] theorem spoilPackerFill_raced (s : State) : (spoilPackerFill s).raced = s.raced := rfl
@[simp] theorem spoilPackerFill_unread (s : State) : (spoilPackerFill s).unread = s.unread := rfl

/-! ### The packer -/

@[simp] theorem spoilPacker_plat (s : State) : (spoilPacker s).plat = s.plat := rfl
@[simp] theorem spoilPacker_fault (s : State) : (spoilPacker s).fault = s.fault := rfl
@[simp] theorem spoilPacker_lost (s : State) : (spoilPacker s).lost = s.lost := rfl
@[simp] theorem spoilPacker_err (s : State) : (spoilPacker s).err = s.err := rfl
@[simp] theorem spoilPacker_args (s : State) : (spoilPacker s).args = s.args := rfl
@[simp] theorem spoilPacker_result (s : State) : (spoilPacker s).result = s.result := rfl
@[simp] theorem spoilPacker_acc (s : State) : (spoilPacker s).acc = s.acc := rfl
@[simp] theorem spoilPacker_br (s : State) : (spoilPacker s).br = s.br := rfl
@[simp] theorem spoilPacker_st (s : State) : (spoilPacker s).st = s.st := rfl
@[simp] theorem spoilPacker_chunk (s : State) : (spoilPacker s).chunk = s.chunk := rfl
@[simp] theorem spoilPacker_ctx (s : State) : (spoilPacker s).ctx = s.ctx := rfl
@[simp] theorem spoilPacker_exp (s : State) : (spoilPacker s).exp = s.exp := rfl
@[simp] theorem spoilPacker_refill (s : State) : (spoilPacker s).refill = s.refill := rfl
@[simp] theorem spoilPacker_stat (s : State) : (spoilPacker s).stat = s.stat := rfl
@[simp] theorem spoilPacker_task (s : State) : (spoilPacker s).task = s.task := rfl
@[simp] theorem spoilPacker_mem (s : State) : (spoilPacker s).mem = s.mem := rfl
@[simp] theorem spoilPacker_host (s : State) : (spoilPacker s).host = s.host := rfl
@[simp] theorem spoilPacker_rdata (s : State) : (spoilPacker s).rdata = s.rdata := rfl
@[simp] theorem spoilPacker_raced (s : State) : (spoilPacker s).raced = s.raced := rfl
@[simp] theorem spoilPacker_unread (s : State) : (spoilPacker s).unread = s.unread := rfl

/-! ### BR_CONSUMED, BR_ACC, BR_USED -/

@[simp] theorem spoilUnpackerFill_plat (s : State) : (spoilUnpackerFill s).plat = s.plat := rfl
@[simp] theorem spoilUnpackerFill_fault (s : State) : (spoilUnpackerFill s).fault = s.fault := rfl
@[simp] theorem spoilUnpackerFill_lost (s : State) : (spoilUnpackerFill s).lost = s.lost := rfl
@[simp] theorem spoilUnpackerFill_err (s : State) : (spoilUnpackerFill s).err = s.err := rfl
@[simp] theorem spoilUnpackerFill_args (s : State) : (spoilUnpackerFill s).args = s.args := rfl
@[simp] theorem spoilUnpackerFill_result (s : State) : (spoilUnpackerFill s).result = s.result := rfl
@[simp] theorem spoilUnpackerFill_acc (s : State) : (spoilUnpackerFill s).acc = s.acc := rfl
@[simp] theorem spoilUnpackerFill_bw (s : State) : (spoilUnpackerFill s).bw = s.bw := rfl
@[simp] theorem spoilUnpackerFill_st (s : State) : (spoilUnpackerFill s).st = s.st := rfl
@[simp] theorem spoilUnpackerFill_chunk (s : State) : (spoilUnpackerFill s).chunk = s.chunk := rfl
@[simp] theorem spoilUnpackerFill_ctx (s : State) : (spoilUnpackerFill s).ctx = s.ctx := rfl
@[simp] theorem spoilUnpackerFill_exp (s : State) : (spoilUnpackerFill s).exp = s.exp := rfl
@[simp] theorem spoilUnpackerFill_refill (s : State) : (spoilUnpackerFill s).refill = s.refill := rfl
@[simp] theorem spoilUnpackerFill_stat (s : State) : (spoilUnpackerFill s).stat = s.stat := rfl
@[simp] theorem spoilUnpackerFill_task (s : State) : (spoilUnpackerFill s).task = s.task := rfl
@[simp] theorem spoilUnpackerFill_mem (s : State) : (spoilUnpackerFill s).mem = s.mem := rfl
@[simp] theorem spoilUnpackerFill_host (s : State) : (spoilUnpackerFill s).host = s.host := rfl
@[simp] theorem spoilUnpackerFill_rdata (s : State) : (spoilUnpackerFill s).rdata = s.rdata := rfl
@[simp] theorem spoilUnpackerFill_raced (s : State) : (spoilUnpackerFill s).raced = s.raced := rfl
@[simp] theorem spoilUnpackerFill_unread (s : State) : (spoilUnpackerFill s).unread = s.unread := rfl

/-! ### The unpacker -/

@[simp] theorem spoilUnpacker_plat (s : State) : (spoilUnpacker s).plat = s.plat := rfl
@[simp] theorem spoilUnpacker_fault (s : State) : (spoilUnpacker s).fault = s.fault := rfl
@[simp] theorem spoilUnpacker_lost (s : State) : (spoilUnpacker s).lost = s.lost := rfl
@[simp] theorem spoilUnpacker_err (s : State) : (spoilUnpacker s).err = s.err := rfl
@[simp] theorem spoilUnpacker_args (s : State) : (spoilUnpacker s).args = s.args := rfl
@[simp] theorem spoilUnpacker_result (s : State) : (spoilUnpacker s).result = s.result := rfl
@[simp] theorem spoilUnpacker_acc (s : State) : (spoilUnpacker s).acc = s.acc := rfl
@[simp] theorem spoilUnpacker_bw (s : State) : (spoilUnpacker s).bw = s.bw := rfl
@[simp] theorem spoilUnpacker_st (s : State) : (spoilUnpacker s).st = s.st := rfl
@[simp] theorem spoilUnpacker_chunk (s : State) : (spoilUnpacker s).chunk = s.chunk := rfl
@[simp] theorem spoilUnpacker_ctx (s : State) : (spoilUnpacker s).ctx = s.ctx := rfl
@[simp] theorem spoilUnpacker_exp (s : State) : (spoilUnpacker s).exp = s.exp := rfl
@[simp] theorem spoilUnpacker_refill (s : State) : (spoilUnpacker s).refill = s.refill := rfl
@[simp] theorem spoilUnpacker_stat (s : State) : (spoilUnpacker s).stat = s.stat := rfl
@[simp] theorem spoilUnpacker_task (s : State) : (spoilUnpacker s).task = s.task := rfl
@[simp] theorem spoilUnpacker_mem (s : State) : (spoilUnpacker s).mem = s.mem := rfl
@[simp] theorem spoilUnpacker_host (s : State) : (spoilUnpacker s).host = s.host := rfl
@[simp] theorem spoilUnpacker_rdata (s : State) : (spoilUnpacker s).rdata = s.rdata := rfl
@[simp] theorem spoilUnpacker_raced (s : State) : (spoilUnpacker s).raced = s.raced := rfl
@[simp] theorem spoilUnpacker_unread (s : State) : (spoilUnpacker s).unread = s.unread := rfl

/-! ### ST_POS, ST_FILL, ST_IDX and the refill registers -/

@[simp] theorem spoilStreamFill_plat (s : State) : (spoilStreamFill s).plat = s.plat := rfl
@[simp] theorem spoilStreamFill_fault (s : State) : (spoilStreamFill s).fault = s.fault := rfl
@[simp] theorem spoilStreamFill_lost (s : State) : (spoilStreamFill s).lost = s.lost := rfl
@[simp] theorem spoilStreamFill_err (s : State) : (spoilStreamFill s).err = s.err := rfl
@[simp] theorem spoilStreamFill_args (s : State) : (spoilStreamFill s).args = s.args := rfl
@[simp] theorem spoilStreamFill_result (s : State) : (spoilStreamFill s).result = s.result := rfl
@[simp] theorem spoilStreamFill_acc (s : State) : (spoilStreamFill s).acc = s.acc := rfl
@[simp] theorem spoilStreamFill_bw (s : State) : (spoilStreamFill s).bw = s.bw := rfl
@[simp] theorem spoilStreamFill_br (s : State) : (spoilStreamFill s).br = s.br := rfl
@[simp] theorem spoilStreamFill_chunk (s : State) : (spoilStreamFill s).chunk = s.chunk := rfl
@[simp] theorem spoilStreamFill_ctx (s : State) : (spoilStreamFill s).ctx = s.ctx := rfl
@[simp] theorem spoilStreamFill_exp (s : State) : (spoilStreamFill s).exp = s.exp := rfl
@[simp] theorem spoilStreamFill_stat (s : State) : (spoilStreamFill s).stat = s.stat := rfl
@[simp] theorem spoilStreamFill_task (s : State) : (spoilStreamFill s).task = s.task := rfl
@[simp] theorem spoilStreamFill_mem (s : State) : (spoilStreamFill s).mem = s.mem := rfl
@[simp] theorem spoilStreamFill_host (s : State) : (spoilStreamFill s).host = s.host := rfl
@[simp] theorem spoilStreamFill_rdata (s : State) : (spoilStreamFill s).rdata = s.rdata := rfl
@[simp] theorem spoilStreamFill_raced (s : State) : (spoilStreamFill s).raced = s.raced := rfl
@[simp] theorem spoilStreamFill_unread (s : State) : (spoilStreamFill s).unread = s.unread := rfl

/-! ### The Context -/

@[simp] theorem spoilContext_plat (s : State) : (spoilContext s).plat = s.plat := rfl
@[simp] theorem spoilContext_fault (s : State) : (spoilContext s).fault = s.fault := rfl
@[simp] theorem spoilContext_lost (s : State) : (spoilContext s).lost = s.lost := rfl
@[simp] theorem spoilContext_err (s : State) : (spoilContext s).err = s.err := rfl
@[simp] theorem spoilContext_args (s : State) : (spoilContext s).args = s.args := rfl
@[simp] theorem spoilContext_result (s : State) : (spoilContext s).result = s.result := rfl
@[simp] theorem spoilContext_acc (s : State) : (spoilContext s).acc = s.acc := rfl
@[simp] theorem spoilContext_bw (s : State) : (spoilContext s).bw = s.bw := rfl
@[simp] theorem spoilContext_br (s : State) : (spoilContext s).br = s.br := rfl
@[simp] theorem spoilContext_st (s : State) : (spoilContext s).st = s.st := rfl
@[simp] theorem spoilContext_chunk (s : State) : (spoilContext s).chunk = s.chunk := rfl
@[simp] theorem spoilContext_exp (s : State) : (spoilContext s).exp = s.exp := rfl
@[simp] theorem spoilContext_refill (s : State) : (spoilContext s).refill = s.refill := rfl
@[simp] theorem spoilContext_stat (s : State) : (spoilContext s).stat = s.stat := rfl
@[simp] theorem spoilContext_task (s : State) : (spoilContext s).task = s.task := rfl
@[simp] theorem spoilContext_mem (s : State) : (spoilContext s).mem = s.mem := rfl
@[simp] theorem spoilContext_host (s : State) : (spoilContext s).host = s.host := rfl
@[simp] theorem spoilContext_rdata (s : State) : (spoilContext s).rdata = s.rdata := rfl
@[simp] theorem spoilContext_raced (s : State) : (spoilContext s).raced = s.raced := rfl
@[simp] theorem spoilContext_unread (s : State) : (spoilContext s).unread = s.unread := rfl

/-! ### The statistics -/

@[simp] theorem spoilStat_plat (s : State) : (spoilStat s).plat = s.plat := by simp only [spoilStat, State.drawn]
@[simp] theorem spoilStat_fault (s : State) : (spoilStat s).fault = s.fault := by simp only [spoilStat, State.drawn]
@[simp] theorem spoilStat_lost (s : State) : (spoilStat s).lost = s.lost := by simp only [spoilStat, State.drawn]
@[simp] theorem spoilStat_err (s : State) : (spoilStat s).err = s.err := by simp only [spoilStat, State.drawn]
@[simp] theorem spoilStat_args (s : State) : (spoilStat s).args = s.args := by simp only [spoilStat, State.drawn]
@[simp] theorem spoilStat_result (s : State) :
    (spoilStat s).result = s.result := by simp only [spoilStat, State.drawn]
@[simp] theorem spoilStat_acc (s : State) : (spoilStat s).acc = s.acc := by simp only [spoilStat, State.drawn]
@[simp] theorem spoilStat_bw (s : State) : (spoilStat s).bw = s.bw := by simp only [spoilStat, State.drawn]
@[simp] theorem spoilStat_br (s : State) : (spoilStat s).br = s.br := by simp only [spoilStat, State.drawn]
@[simp] theorem spoilStat_st (s : State) : (spoilStat s).st = s.st := by simp only [spoilStat, State.drawn]
@[simp] theorem spoilStat_chunk (s : State) : (spoilStat s).chunk = s.chunk := by simp only [spoilStat, State.drawn]
@[simp] theorem spoilStat_ctx (s : State) : (spoilStat s).ctx = s.ctx := by simp only [spoilStat, State.drawn]
@[simp] theorem spoilStat_exp (s : State) : (spoilStat s).exp = s.exp := by simp only [spoilStat, State.drawn]
@[simp] theorem spoilStat_refill (s : State) :
    (spoilStat s).refill = s.refill := by simp only [spoilStat, State.drawn]
@[simp] theorem spoilStat_task (s : State) : (spoilStat s).task = s.task := by simp only [spoilStat, State.drawn]
@[simp] theorem spoilStat_mem (s : State) : (spoilStat s).mem = s.mem := by simp only [spoilStat, State.drawn]
@[simp] theorem spoilStat_host (s : State) : (spoilStat s).host = s.host := by simp only [spoilStat, State.drawn]
@[simp] theorem spoilStat_rdata (s : State) : (spoilStat s).rdata = s.rdata := by simp only [spoilStat, State.drawn]
@[simp] theorem spoilStat_raced (s : State) : (spoilStat s).raced = s.raced := by simp only [spoilStat, State.drawn]
@[simp] theorem spoilStat_unread (s : State) :
    (spoilStat s).unread = s.unread := by simp only [spoilStat, State.drawn]

/-! ### EXP_POS -/

@[simp] theorem spoilExpPos_plat (s : State) : (spoilExpPos s).plat = s.plat := rfl
@[simp] theorem spoilExpPos_fault (s : State) : (spoilExpPos s).fault = s.fault := rfl
@[simp] theorem spoilExpPos_lost (s : State) : (spoilExpPos s).lost = s.lost := rfl
@[simp] theorem spoilExpPos_err (s : State) : (spoilExpPos s).err = s.err := rfl
@[simp] theorem spoilExpPos_args (s : State) : (spoilExpPos s).args = s.args := rfl
@[simp] theorem spoilExpPos_result (s : State) : (spoilExpPos s).result = s.result := rfl
@[simp] theorem spoilExpPos_acc (s : State) : (spoilExpPos s).acc = s.acc := rfl
@[simp] theorem spoilExpPos_bw (s : State) : (spoilExpPos s).bw = s.bw := rfl
@[simp] theorem spoilExpPos_br (s : State) : (spoilExpPos s).br = s.br := rfl
@[simp] theorem spoilExpPos_st (s : State) : (spoilExpPos s).st = s.st := rfl
@[simp] theorem spoilExpPos_chunk (s : State) : (spoilExpPos s).chunk = s.chunk := rfl
@[simp] theorem spoilExpPos_ctx (s : State) : (spoilExpPos s).ctx = s.ctx := rfl
@[simp] theorem spoilExpPos_refill (s : State) : (spoilExpPos s).refill = s.refill := rfl
@[simp] theorem spoilExpPos_stat (s : State) : (spoilExpPos s).stat = s.stat := rfl
@[simp] theorem spoilExpPos_task (s : State) : (spoilExpPos s).task = s.task := rfl
@[simp] theorem spoilExpPos_mem (s : State) : (spoilExpPos s).mem = s.mem := rfl
@[simp] theorem spoilExpPos_host (s : State) : (spoilExpPos s).host = s.host := rfl
@[simp] theorem spoilExpPos_rdata (s : State) : (spoilExpPos s).rdata = s.rdata := rfl
@[simp] theorem spoilExpPos_raced (s : State) : (spoilExpPos s).raced = s.raced := rfl
@[simp] theorem spoilExpPos_unread (s : State) : (spoilExpPos s).unread = s.unread := rfl

/-! ## What fault entry shows the host (R306) -/

/-- After fault entry no command runs and no refill is pending. -/
@[simp] theorem faultEntry_busy (c : Cause) (op : Nat) (info : Word) (s : State) :
    (faultEntry c op info s).busy = false ∧ (faultEntry c op info s).refillReq = false := ⟨rfl, rfl⟩

/-- Every cause has a code of R302. -/
theorem Cause.code_range (c : Cause) : 1 ≤ c.code.toNat ∧ c.code.toNat ≤ 7 := by cases c <;> decide

end Sys2Proof.Machine
end

