-- ==== Sys2Proof/Tests/Slice0.lean ====
section
/-! SUPPORT. Tests: the well-formedness checks, a word per instruction, small steps from the vectors of
95_test_vectors.md, and for each statement with hypotheses a state that meets them. -/

namespace Sys2Proof.Tests

open Sys2Proof.Machine

/-! ## Well-formedness refuses what no encoding holds -/

theorem test_wf_width : WellFormed (.accPush 256) = false ∧ WellFormed (.accPop 256) = false ∧
    WellFormed (.bwWrite 256) = false ∧ WellFormed (.brRead 256) = false := by decide

theorem test_wf_shift : WellFormed (.compress 256 true) = false ∧ WellFormed (.lexpand 256) = false ∧
    WellFormed (.expInit 256 0) = false ∧ WellFormed (.expInit 0 256) = false := by decide

theorem test_wf_magnitude : WellFormed (.cuD1 true 2) = false ∧ WellFormed (.cuD2 true 4) = false ∧
    WellFormed (.cuD3 true 8) = false ∧ WellFormed (.cuD4 true 16) = false ∧ WellFormed (.cuD5 true 32) = false ∧
    WellFormed (.cuD6 true 64) = false ∧ WellFormed (.cuD7 true 128) = false ∧ WellFormed (.cuD8 true 256) = false ∧
    WellFormed (.cuD9 true 512) = false ∧ WellFormed (.cuD10 true 1024) = false ∧
    WellFormed (.cuD11 true 2048) = false ∧ WellFormed (.cuD12 true 4096) = false ∧
    WellFormed (.cuD13 true 8192) = false ∧ WellFormed (.cuD14 true 16384) = false ∧
    WellFormed (.cuD15 true 32768) = false ∧ WellFormed (.cuEsc 65536) = false := by decide

/-! ## A word of each instruction (R113, R125; code units R118, R119, bit strings written out from the table) -/

theorem test_decode_nop : decodeTableWord 32 0x00000000 = some .nop := by decide

theorem test_decode_softReset : decodeTableWord 32 0x00000001 = some .softReset := by decide

theorem test_decode_accClear : decodeTableWord 32 0x00000010 = some .accClear := by decide

theorem test_decode_accPush : decodeTableWord 32 0x00000311 = some (.accPush 3) := by decide

theorem test_decode_accPop : decodeTableWord 32 0x00000512 = some (.accPop 5) := by decide

theorem test_decode_bitsNeeded : decodeTableWord 32 0x00000013 = some .bitsNeeded := by decide

theorem test_decode_bwInit : decodeTableWord 32 0x00000020 = some .bwInit := by decide

theorem test_decode_bwWrite : decodeTableWord 32 0x00000521 = some (.bwWrite 5) := by decide

theorem test_decode_bwClose : decodeTableWord 32 0x00000022 = some .bwClose := by decide

theorem test_decode_bwLength : decodeTableWord 32 0x00000023 = some .bwLength := by decide

theorem test_decode_brInitFlat : decodeTableWord 32 0x00000030 = some .brInitFlat := by decide

theorem test_decode_brInitStream : decodeTableWord 32 0x00000031 = some .brInitStream := by decide

theorem test_decode_brRead : decodeTableWord 32 0x00002032 = some (.brRead 32) := by decide

theorem test_decode_stBindMem : decodeTableWord 32 0x00000040 = some .stBindMem := by decide

theorem test_decode_stBindChunk : decodeTableWord 32 0x00000041 = some .stBindChunk := by decide

theorem test_decode_stGet : decodeTableWord 32 0x00000042 = some .stGet := by decide

theorem test_decode_stGet16 : decodeTableWord 32 0x00000043 = some .stGet16 := by decide

theorem test_decode_compress : decodeTableWord 32 0x00010450 = some (.compress 4 true) := by decide

theorem test_decode_lexpand : decodeTableWord 32 0x00000F51 = some (.lexpand 15) := by decide

theorem test_decode_expInit : decodeTableWord 32 0x00010260 = some (.expInit 2 1) := by decide

theorem test_decode_expExpand : decodeTableWord 32 0x00000061 = some .expExpand := by decide

theorem test_decode_expExpand2 : decodeTableWord 32 0x00000062 = some .expExpand2 := by decide

theorem test_decode_expDone : decodeTableWord 32 0x00000063 = some .expDone := by decide

theorem test_decode_cuD1 : decodeTableWord 6 0b000010 = some (.cuD1 true 0) := by decide

theorem test_decode_cuD2 : decodeTableWord 7 0b0001001 = some (.cuD2 false 1) := by decide

theorem test_decode_cuD3 : decodeTableWord 8 0b00101100 = some (.cuD3 true 4) := by decide

theorem test_decode_cuD4 : decodeTableWord 9 0b001100100 = some (.cuD4 false 4) := by decide

theorem test_decode_cuD5 : decodeTableWord 10 0b0100110111 = some (.cuD5 true 23) := by decide

theorem test_decode_cuD6 : decodeTableWord 11 0b01010010110 = some (.cuD6 false 22) := by decide

theorem test_decode_cuD7 : decodeTableWord 12 0b011011100100 = some (.cuD7 true 100) := by decide

theorem test_decode_cuD8 : decodeTableWord 13 0b0111010110000 = some (.cuD8 false 176) := by decide

theorem test_decode_cuD9 : decodeTableWord 14 0b10001111100010 = some (.cuD9 true 482) := by decide

theorem test_decode_cuD10 : decodeTableWord 15 0b100101101011101 = some (.cuD10 false 861) := by decide

theorem test_decode_cuD11 : decodeTableWord 16 0b1010110111101011 = some (.cuD11 true 1515) := by decide

theorem test_decode_cuD12 : decodeTableWord 17 0b10110101001101110 = some (.cuD12 false 2670) := by decide

theorem test_decode_cuD13 : decodeTableWord 18 0b110011110110000011 = some (.cuD13 true 7555) := by decide

theorem test_decode_cuD14 : decodeTableWord 19 0b1101010000111101100 = some (.cuD14 false 8684) := by decide

theorem test_decode_cuD15 : decodeTableWord 20 0b11101000001110110110 = some (.cuD15 true 950) := by decide

theorem test_decode_cuEsc : decodeTableWord 20 0b11111000000000000000 = some (.cuEsc 32768) := by decide

/-- Bits that no row accepts (R114, R116): a nonzero unused bit, a reserved bit, a reserved OP. -/
theorem test_decode_illegal : decodeCommand 0x00020050#32 = .error (.unusedBits 0x50) ∧
    decodeCommand 0x00000113#32 = .error (.unusedBits 0x13) ∧ decodeCommand 0x01000000#32 = .error .reservedBits ∧
    decodeCommand 0x00000099#32 = .error (.reservedOpcode 0x99) ∧
    decode (.unit [false, false, true]) = .error .unitTruncated := by decide

/-- The row's word runs as the first instruction after reset: a command, and a code unit in a decoding command. -/
theorem test_fetch_command :
    (match step (State.reset.withFetchWord 32 0x00000021) with
      | .next t => t.task == .idle && t.bw == State.reset.bw
      | _ => false) = true := by decide

theorem test_fetch_unit :
    (match step (State.reset.withFetchWord 8 0b00101101) with
      | .next t => t.task == .idle && t.ctx.prev1 == 5#16 && t.mem.read 0x1000 == 5#8 && t.result == 1#32
      | _ => false) = true := by decide

/-! ## Small steps, each from a vector of 95_test_vectors.md or by hand from the rule named -/

/-- The outcome is a next state with the property. -/
def holds (o : Host.Outcome State Fault Refusal) (p : State → Bool) : Bool :=
  match o with
  | .next t => p t
  | _ => false

/-- The fault of cause `c`, opcode `op` and ERR_INFO `info` was entered. -/
def faulted (c op info : Nat) (t : State) : Bool :=
  t.fault && t.errWord == BitVec.ofNat 32 (c + 256 * op) && t.err.info == BitVec.ofNat 32 info && t.task == .idle

/-- Operands in ARG0 to ARG3. -/
def argsOf (a b c d : Nat) : ArgRegs :=
  { arg0 := BitVec.ofNat 32 a, arg1 := BitVec.ofNat 32 b, arg2 := BitVec.ofNat 32 c, arg3 := BitVec.ofNat 32 d }

/-- Bytes at ascending addresses from `a`. -/
def placed (a : Nat) (bytes : List Nat) : Memory :=
  bytes.zipIdx.foldl (fun m b => m.write (a + b.2) (BitVec.ofNat 8 b.1)) []

/-- After reset, with operands and bytes in memory. -/
def ready (args : ArgRegs) (m : Memory) : State := { State.reset with args := args, mem := m }

/-- The bytes of memory from `a` on are these. -/
def isAt (a : Nat) (bytes : List Nat) (t : State) : Bool :=
  memoryBytes t.mem (BitVec.ofNat 32 a) bytes.length == bytes.map (BitVec.ofNat 8)

/-- V-CTL-1. -/
theorem test_nop : holds (exec .nop { State.reset with result := 7#32, task := .issued 0#32 })
    (fun t => t.result == 7#32 && t.task == .idle) = true := by decide

/-- V-CTL-2. -/
theorem test_soft_reset : holds (exec .softReset { State.reset with
      fault := true, lost := true, err := ⟨3#8, 0x51#8, 1#32⟩, result := 7#32, args := argsOf 1 2 3 4 })
    (fun t => t.statusWord == 0#32 && t.errWord == 0#32 && t.err.info == 0#32 && t.result == 0#32 &&
      t.args == argsOf 1 2 3 4) = true := by decide

/-- V-ACC-6. -/
theorem test_acc_clear : holds (exec .accClear { State.reset with acc := ⟨0x55#32, 7#6⟩ })
    (fun t => t.acc == ⟨0#32, 0#6⟩) = true := by decide

/-- V-ACC-1. -/
theorem test_acc_push : holds (exec (.accPush 5) { ready (argsOf 3 0 0 0) [] with acc := ⟨5#32, 3#6⟩ })
    (fun t => t.acc == ⟨0xA3#32, 8#6⟩) = true := by decide

/-- V-ACC-F3. -/
theorem test_acc_push_range : holds (exec (.accPush 4) (ready (argsOf 16 0 0 0) [])) (faulted 3 0x11 0) = true := by
  decide

/-- V-ACC-2. -/
theorem test_acc_pop : holds (exec (.accPop 3) { State.reset with acc := ⟨0xA3#32, 8#6⟩ })
    (fun t => t.acc == ⟨3#32, 5#6⟩ && t.result == 5#32) = true := by decide

/-- V-ACC-F1. -/
theorem test_acc_pop_empty : holds (exec (.accPop 1) State.reset)
    (fun t => faulted 3 0x12 0 t && t.statusWord == 2#32) = true := by decide

/-- V-ACC-7: the minimum width. -/
theorem test_bits_needed_zero : holds (exec .bitsNeeded State.reset) (fun t => t.result == 1#32) = true := by decide

/-- V-ACC-7: 32767 and 32768, on either side of the escape boundary (W8). -/
theorem test_bits_needed : [100, 32767, 32768, 262140, 0xFFFFFFFF].map bitsNeededOf = [7, 15, 16, 18, 32] := by decide

/-- R161. -/
theorem test_bw_init :
    holds (exec .bwInit { ready (argsOf 0x8000 64 0 0) [] with bw := ⟨1#32, 2#32, 1#32, 1#8, 1#4⟩ })
    (fun t => t.bw == ⟨0x8000#32, 64#32, 0#32, 0#8, 0#4⟩) = true := by decide

/-- V-BW-5. -/
theorem test_bw_write : holds (exec (.bwWrite 32)
      { ready (argsOf 0xFFFFFFFF 0 0 0) [] with bw := ⟨0x8000#32, 4#32, 0#32, 1#8, 1#4⟩ })
    (fun t => isAt 0x8000 [0xFF, 0xFF, 0xFF, 0xFF, 0] t && t.bw == ⟨0x8000#32, 4#32, 4#32, 1#8, 1#4⟩) = true := by
  decide

/-- V-BW-F2. -/
theorem test_bw_write_full : holds (exec (.bwWrite 8) State.reset) (faulted 1 0x21 0) = true := by decide

/-- V-BW-3. -/
theorem test_bw_close : holds (exec .bwClose { State.reset with bw := ⟨0x8000#32, 3#32, 2#32, 1#8, 1#4⟩ })
    (fun t => isAt 0x8002 [0x80] t && t.result == 3#32 && t.bw.used == 0#4) = true := by decide

/-- V-BW-F1. -/
theorem test_bw_close_full : holds (exec .bwClose { State.reset with bw := ⟨0x8000#32, 1#32, 1#32, 1#8, 1#4⟩ })
    (fun t => faulted 1 0x22 0 t && t.mem.isEmpty) = true := by decide

/-- V-BW-1: 191 bits are 24 bytes. -/
theorem test_bw_length : holds (exec .bwLength { State.reset with bw := ⟨0x8000#32, 64#32, 23#32, 0x1F#8, 7#4⟩ })
    (fun t => t.result == 24#32) = true := by decide

/-- R181. -/
theorem test_br_init_flat : holds (exec .brInitFlat { ready (argsOf 0x3000 2 0 0) [] with
      exp := { State.reset.exp with state := .active } })
    (fun t => t.br == ⟨.flat, 0x3000#32, 2#32, 0#32, 0#8, 0#4⟩ && t.exp.state == .unbound) = true := by decide

/-- R184. -/
theorem test_br_init_stream : holds (exec .brInitStream (ready (argsOf 0x3000 2 0 0) []))
    (fun t => t.br == ⟨.stream, 0#32, 0#32, 0#32, 0#8, 0#4⟩) = true := by decide

/-- V-BR-1, its second read: nine bits over two bytes. -/
theorem test_br_read : holds (exec (.brRead 9) { ready (argsOf 0 0 0 0) (placed 0x3000 [0xA5, 0x3C]) with
      br := ⟨.flat, 0x3000#32, 2#32, 1#32, 5#8, 5#4⟩ })
    (fun t => t.result == 0x53#32 && t.br == ⟨.flat, 0x3000#32, 2#32, 2#32, 0xC#8, 4#4⟩) = true := by decide

/-- V-BR-F1. -/
theorem test_br_read_exhausted :
    holds (exec (.brRead 1) { State.reset with br := ⟨.flat, 0x3000#32, 1#32, 1#32, 0#8, 0#4⟩ })
    (faulted 2 0x32 0) = true := by decide

/-- R201. -/
theorem test_st_bind_mem : holds (exec .stBindMem (ready (argsOf 0x4000 2 0 0) []))
    (fun t => t.st == ⟨.mem, 0x4000#32, 2#32, 0#32, 0#17, 0#17⟩) = true := by decide

/-- V-ST-4. -/
theorem test_st_bind_chunk : holds (exec .stBindChunk (ready (argsOf 0x4000 15 0 0) []))
    (fun t => t.st == ⟨.chunk, 0#32, 15#32, 0#32, 0#17, 0#17⟩ && t.task == .idle) = true := by decide

/-- V-ST-1. -/
theorem test_st_get : holds (exec .stGet { ready (argsOf 0 0 0 0) (placed 0x4000 [0x34, 0x12]) with
      st := ⟨.mem, 0x4000#32, 2#32, 0#32, 0#17, 0#17⟩ })
    (fun t => t.result == 0x34#32 && t.st.pos == 1#32) = true := by decide

/-- V-ST-F3: the answer 5 to a refill of at most 4. -/
theorem test_st_get_overrun : holds (step { State.reset with
      st := ⟨.chunk, 0#32, 15#32, 0#32, 0#17, 0#17⟩, refill := ⟨0#32, 4#17⟩, task := .answered 5#32 .get })
    (fun t => faulted 6 0x42 0 t && !t.refillReq) = true := by decide

/-- V-ST-3, its second read. -/
theorem test_st_get16 : holds (exec .stGet16 { ready (argsOf 0 0 0 0) (placed 0x4000 [0x34, 0x12, 0x56]) with
      st := ⟨.mem, 0x4000#32, 3#32, 1#32, 0#17, 0#17⟩ })
    (fun t => t.result == 0x5612#32 && t.st.pos == 3#32) = true := by decide

/-- V-ST-5: the last refill of 15 bytes is of three. -/
theorem test_st_get16_refill :
    holds (exec .stGet16 { State.reset with st := ⟨.chunk, 0#32, 15#32, 12#32, 4#17, 4#17⟩ })
    (fun t => t.refill == ⟨12#32, 3#17⟩ && t.statusWord == 5#32) = true := by decide

/-- P2. -/
theorem test_compress : holds (exec (.compress 0 true)
      (ready (argsOf 0x1000 3 0x2000 8) (placed 0x1000 [0x64, 0, 0xC8, 0, 0x2C, 1])))
    (fun t => isAt 0x2000 [0x6E, 0x46, 0x64, 0x08] t && t.result == 4#32 && t.ctx.prev1 == 300#16 &&
      t.bw == ⟨0x2000#32, 8#32, 4#32, 0#8, 0#4⟩) = true := by decide

/-- V-COD-F7. -/
theorem test_compress_overflow : holds (exec (.compress 0 false)
      (ready (argsOf 0x1000 3 0x2000 1) (placed 0x1000 [0x64, 0, 0xC8, 0, 0x2C, 1])))
    (fun t => faulted 1 0x50 1 t && isAt 0x2000 [0x6E, 0] t) = true := by decide

/-- V-COD-17. -/
theorem test_lexpand : holds (exec (.lexpand 1)
      (ready (argsOf 0x2000 5 2 0x3000) (placed 0x2000 [0xF3, 0xFF, 0xFF, 0xC0, 0])))
    (fun t => isAt 0x3000 [0xFE, 0x7F, 0x00, 0x80] t && t.result == 5#32) = true := by decide

/-- V-COD-F1. -/
theorem test_lexpand_range : holds (exec (.lexpand 0)
      (ready (argsOf 0x2000 5 2 0x3000) (placed 0x2000 [0xEF, 0xFF, 0xFE, 0xFF, 0xFF])))
    (fun t => faulted 4 0x51 1 t && isAt 0x3000 [0xFF, 0x7F, 0, 0] t) = true := by decide

/-- V-EXP-7. -/
theorem test_exp_init_empty : holds (exec (.expInit 0 1) State.reset) (fun t => t.statusWord == 0x30#32) = true := by
  decide

/-- V-EXP-8. -/
theorem test_exp_init_format : holds (exec (.expInit 0 2) State.reset) (faulted 3 0x60 0) = true := by decide

/-- V-EXP-1, the first call: the chunk is refilled once and the state is as the vector says. -/
theorem test_exp_expand : holds (step { ready (argsOf 0x5000 1 0 0) [] with
      chunk := [0xDF#8, 0xD0#8, 0x1F#8, 0x83#8], st := ⟨.chunk, 0#32, 15#32, 0#32, 0#17, 0#17⟩, refill := ⟨0#32, 4#17⟩
      br := ⟨.stream, 0#32, 0#32, 0#32, 0#8, 0#4⟩, exp := ⟨.idle, 6#32, 0#32, 1#1, 0#4⟩
      task := .answered 4#32 (.unit ⟨.expand, 0x5000#32, 1#32, 0#32⟩ (.code 0 4)) })
    (fun t => isAt 0x5000 [0x80, 0x3E, 0] t && t.st == ⟨.chunk, 0#32, 15#32, 3#32, 4#17, 3#17⟩ && t.br.used == 5#4 &&
      t.br.acc == 0x1F#8 && t.exp.pos == 1#32 && t.statusWord == 0x20#32 && t.result == 1#32) = true := by decide

/-- V-EXP-6. -/
theorem test_exp_expand_unbound :
    holds (exec .expExpand (ready (argsOf 0x7000 1 0 0) [])) (faulted 3 0x61 0) = true := by
  decide

/-- V-EXP-4, its last sample from memory: -32768 at volume 65536 in both channels. -/
theorem test_exp_expand2 : holds (exec .expExpand2 { ready (argsOf 0x6000 1 65536 0) (placed 0x4001 [0x80]) with
      st := ⟨.mem, 0x4000#32, 2#32, 0#32, 0#17, 0#17⟩, exp := ⟨.active, 3#32, 2#32, 0#1, 3#4⟩ })
    (fun t => isAt 0x6000 [0, 0, 0, 0x80, 0, 0, 0, 0x80, 0] t && t.statusWord == 0x30#32 && t.result == 3#32) = true := by
  decide

/-- V-EXP-9. -/
theorem test_exp_expand2_volume : holds (exec .expExpand2 { ready (argsOf 0x6000 1 65537 0) [] with
      exp := ⟨.active, 3#32, 0#32, 0#1, 0#4⟩ }) (faulted 3 0x62 0) = true := by decide

/-- P3's last command. -/
theorem test_exp_done : holds (exec .expDone { State.reset with exp := ⟨.done, 6#32, 6#32, 1#1, 0#4⟩ })
    (fun t => t.result == 1#32) = true := by decide

/-- A LEXPAND of shift 0 at its sample 1 of 3, target 0x3000, Context (100, 0, 0) (V-COD-1: guess 300, sample 200). -/
def decoding : State := { State.reset with
  ctx := ⟨100#16, 0#16, 0#16⟩, br := .bound .flat 0x2000#32 4#32
  task := .sample ⟨.lexpand 0, 0x3000#32, 3#32, 1#32⟩ }

/-- The sample `x` was stored and pushed, and the loop goes on at sample 2. -/
def decoded (x : Int) (t : State) : Bool :=
  isAt 0x3002 [(x % 256).toNat, (x / 256 % 256).toNat] t && t.ctx == ⟨BitVec.ofInt 16 x, 100#16, 0#16⟩ &&
    t.task == .sample ⟨.lexpand 0, 0x3000#32, 3#32, 2#32⟩

/-- R240: each code unit gives the sample guess + mag or guess - mag; the guess is 300. -/
theorem test_cu_small : (holds (exec (.cuD1 true 1) decoding) (decoded 301) &&
    holds (exec (.cuD2 false 3) decoding) (decoded 297) && holds (exec (.cuD3 true 7) decoding) (decoded 307) &&
    holds (exec (.cuD4 false 9) decoding) (decoded 291) && holds (exec (.cuD5 true 16) decoding) (decoded 316)) = true := by
  decide

theorem test_cu_middle : (holds (exec (.cuD6 false 40) decoding) (decoded 260) &&
    holds (exec (.cuD7 false 100) decoding) (decoded 200) && holds (exec (.cuD8 true 255) decoding) (decoded 555) &&
    holds (exec (.cuD9 false 511) decoding) (decoded (-211)) &&
    holds (exec (.cuD10 true 1000) decoding) (decoded 1300)) = true := by decide

theorem test_cu_large : (holds (exec (.cuD11 false 2000) decoding) (decoded (-1700)) &&
    holds (exec (.cuD12 true 4000) decoding) (decoded 4300) &&
    holds (exec (.cuD13 false 8000) decoding) (decoded (-7700)) &&
    holds (exec (.cuD14 true 16000) decoding) (decoded 16300) &&
    holds (exec (.cuD15 false 32767) decoding) (decoded (-32467))) = true := by decide

theorem test_cu_esc : holds (exec (.cuEsc 0x8000) decoding) (decoded (-32768)) = true := by decide

/-- R241: 300 + 32767 is out of range, at sample 1. -/
theorem test_cu_range : holds (exec (.cuD15 true 32767) decoding) (faulted 4 0x51 1) = true := by decide

/-! ## The host side -/

/-- V-CTL-9: a refill wait drops a write of ARG0. -/
theorem test_arg_busy : holds (step { State.reset with task := .refill .get, host := [.write 0xF0000010#32 9#32] })
    (fun t => t.lost && t.args.arg0 == 0#32) = true := by decide

/-- V-CTL-8: SOFT_RESET with IMM = 1 is dropped while faulted. -/
theorem test_issue_faulted : holds (step { State.reset with fault := true, host := [.write 0xF0000000#32 0x101#32] })
    (fun t => t.statusWord == 0xA#32 && t.task == .idle) = true := by decide

/-- P3, the fourth refill: three bytes of CHUNK[0] are written, byte 3 stays (R55). -/
theorem test_chunk_write : holds (step { State.reset with
      chunk := [0x83#8, 0x01#8, 0xE7#8, 0xD0#8], refill := ⟨12#32, 3#17⟩, task := .refill .get
      host := [.write 0xF0001000#32 0x0000831F#32] })
    (fun t => t.chunk == [0x1F#8, 0x83#8, 0x00#8, 0xD0#8]) = true := by decide

/-- R56: CTX_PREV1 reads sign-extended (P3). -/
theorem test_read_context :
    holds (step { State.reset with ctx := ⟨0xC180#16, 0#16, 0#16⟩, host := [.read 0xF00000B0#32] })
    (fun t => t.rdata == 0xFFFFC180#32) = true := by decide

/-- `k` steps give a next state with the property. -/
def holdsAfter : Nat → (State → Bool) → State → Bool
  | 0, p, s => p s
  | k + 1, p, s => holds (step s) (holdsAfter k p)

/-- R351: ST_GET of a byte that another agent stores to from the command's issue to the read of BUSY = 0, after the
command's completion too, is a free value; it is not when the store is to the byte after it, or comes after that read. -/
theorem test_touched_source :
    let s (h : List Access) : State := { ready (argsOf 0 0 0 0) (placed 0x4000 [0x34, 0x12]) with
      st := ⟨.mem, 0x4000#32, 2#32, 0#32, 0#17, 0#17⟩, task := .issued 0x42#32, host := h }
    let free (t : State) : Bool := t.draws == State.reset.draws + 1 && t.task == .idle
    let known (t : State) : Bool := t.draws == State.reset.draws && t.result == 0x34#32
    holdsAfter 2 free (s [.store 0x4000#32 5#8, .engine]) = true ∧
    holdsAfter 2 known (s [.store 0x4001#32 5#8, .engine]) = true ∧
    holdsAfter 1 free (s [.engine, .store 0x4000#32 5#8, .read 0xF0000004#32]) = true ∧
    holdsAfter 1 known (s [.engine, .read 0xF0000004#32, .store 0x4000#32 5#8]) = true := by decide

/-- R351: the window of a BR_READ is still open at a read of STATUS with BUSY = 1, which another command's refill wait
causes; and it ends at a read with BUSY = 0 after a CMD write that FAULT drops, here of a BR_READ that faults on its
second byte: four values spoil its write set, one more is the free byte, and five were drawn for the run that did not
fit. -/
theorem test_window_follows_busy :
    let s (n limit : Nat) (h : List Access) : State := { ready (argsOf 0 0 0 0) (placed 0x4000 [0x34, 0x12]) with
      br := .bound .flat 0x4000#32 (BitVec.ofNat 32 limit), st := ⟨.chunk, 0#32, 8#32, 0#32, 0#17, 0#17⟩
      task := .issued (BitVec.ofNat 32 (0x32 + 256 * n)), host := .engine :: .write 0xF0000000#32 0x42#32 :: h }
    let stored : Access := .store 0x4000#32 5#8
    holds (step (s 8 2 [.engine, .read 0xF0000004#32, stored])) (fun t => t.draws == State.reset.draws + 1) = true ∧
    holds (step (s 16 1 [.read 0xF0000004#32, stored])) (fun t => t.fault && t.draws == State.reset.draws + 9) = true ∧
    holds (step (s 16 1 [stored, .read 0xF0000004#32])) (fun t => t.fault && t.draws == State.reset.draws + 5) = true := by
  decide

/-- R351: where a second free byte would shorten the window to the first store, the first byte is free all the same. -/
theorem test_fitting_turn :
    let s : State := { ready (argsOf 0 0 0 0) (placed 0x4000 [0x34, 0x12]) with
      st := ⟨.mem, 0x4000#32, 2#32, 0#32, 0#17, 0#17⟩, task := .issued 0x43#32 }
    let window (o : Host.Outcome State Fault Refusal) : List Word :=
      if holds o (fun t => t.draws == s.draws + 2) then [0x4000#32] else [0x4000#32, 0x4001#32]
    holds (fittingTurn window s [0x4000#32, 0x4001#32] 3 2 0) (fun t => t.draws == s.draws + 3) = true := by decide

/-- R351, R95: a load of a byte that BW_WRITE has written is free until BUSY = 0 was read, then the byte; a load of a byte
that the running ST_GET is to read is free, of the byte after it not. -/
theorem test_unpromised_loads :
    let s (h : List Access) : State := { ready (argsOf 0xA5 0 0 0) (placed 0x4000 [0x34, 0x12]) with
      bw := ⟨0x8000#32, 4#32, 0#32, 0#8, 0#4⟩, st := ⟨.mem, 0x4000#32, 2#32, 0#32, 0#17, 0#17⟩, host := h }
    let t (h : List Access) : State := { s h with task := .issued 0x821#32 }
    let u (h : List Access) : State := { s h with task := .issued 0x42#32 }
    holdsAfter 2 (fun v => v.draws == State.reset.draws + 1) (t [.engine, .load 0x8000#32]) = true ∧
    holdsAfter 3 (fun v => v.draws == State.reset.draws && v.rdata == 0xA5#32)
      (t [.engine, .read 0xF0000004#32, .load 0x8000#32]) = true ∧
    holdsAfter 1 (fun v => v.draws == State.reset.draws + 1) (u [.load 0x4000#32]) = true ∧
    holdsAfter 1 (fun v => v.draws == State.reset.draws && v.rdata == 0x12#32) (u [.load 0x4001#32]) = true := by
  decide

/-! ## Witnesses: for each statement with hypotheses, values that meet them, each clause at a boundary -/

/-- On the reset platform every address below the register window is admitted. -/
theorem admits {k : AccessKind} (base : Word) (size : Nat) (h : base.toNat + size ≤ 0xF0000000) :
    Admitted Config.platform k ⟨base, size⟩ := by
  intro a ha
  simp only [Span.has, decide_eq_true_eq] at ha
  have h0 : a.toNat < 0xF0000000 := by bv_omega
  have h1 : inWindow Config.platform a = false := by
    have : ¬ (a - 0xF0000000#32).toNat < 4100 := by bv_omega
    simpa [inWindow, windowBytes, Config.platform] using this
  have h2 : Config.platform.regions = [⟨0#32, 4294967296, true, true⟩] := rfl
  have h3 : (a - 0#32).toNat < 4294967296 := (a - 0#32).isLt
  rw [memAdmits, h1, h2]
  cases k <;> simp only [Bool.not_false, Bool.true_and, List.any_cons, List.any_nil, Bool.or_false, Span.has, h3,
    decide_true]

theorem witness_DecodeEncodeRoundTrip :
    WellFormed (.brRead 255) = true ∧ WellFormed (.expInit 255 255) = true ∧ WellFormed (.cuD15 false 32767) = true := by
  decide

theorem witness_EncodeDecodeCommand : decodeCommand 0x00FFFF60#32 = .ok (.expInit 255 255) := by decide

theorem witness_LegalWordsMatchOneRow :
    let s : State := { State.reset with task := .issued 0x01000000#32 }
    s.task = .issued 0x01000000#32 ∧ s.host = [] ∧ (commandRows.filter (rowMatches 0x01000000#32)).length = 0 := by
  decide

/-- Nineteen bits of an escape unit are truncated, twenty are the unit; so are five and six bits of CU_D1. -/
theorem witness_UnitLengthFromCode :
    4 ≤ (List.replicate 19 true).length ∧ bitsValue ((List.replicate 19 true).take 4) = 15 ∧
    (List.replicate 19 true).length < 20 ∧ 20 ≤ (List.replicate 20 true).length ∧
    bitsValue ((List.replicate 6 false).take 4) = 0 ∧ (List.replicate 5 false).length < 6 ∧
    6 ≤ (List.replicate 6 false).length := by decide

theorem witness_StepRunsIssuedCommand :
    let s : State := { State.reset with task := .issued 0x521#32 }
    s.task = .issued 0x521#32 ∧ decodeCommand 0x521#32 = .ok (.bwWrite 5) ∧ s.host = [] ∧
      { s with host := [.engine] }.host = .engine :: [] := by decide

/-- A LEXPAND before its first sample, over the ramp's bitstream (V-COD-1). -/
def rampDecoding : State := { ready (argsOf 0x2000 4 3 0x3000) (placed 0x2000 [0x6E, 0x46, 0x64, 0x08]) with
  br := .bound .flat 0x2000#32 4#32, task := .sample ⟨.lexpand 0, 0x3000#32, 3#32, 0#32⟩ }

theorem witness_StepRunsCodeUnit :
    rampDecoding.task = .sample ⟨.lexpand 0, 0x3000#32, 3#32, 0#32⟩ ∧ rampDecoding.host = [] ∧
    Frame.isRaw ⟨.lexpand 0, 0x3000#32, 3#32, 0#32⟩ rampDecoding = false ∧ rampDecoding.raced = .none ∧
    sourceBits rampDecoding = (sourceBits rampDecoding).take 12 ++ (sourceBits rampDecoding).drop 12 ∧
    decodeUnit (sourceBits rampDecoding) = .ok (.cuD7 true 100, (sourceBits rampDecoding).drop 12) ∧
    CanRead ((sourceBits rampDecoding).take 12).length rampDecoding :=
  ⟨rfl, rfl, rfl, rfl, by decide, by decide, by decide, admits 0x2000#32 2 (by decide), by decide⟩

/-- A state whose next host access is `a`. -/
def hosted (a : Access) : State := { State.reset with host := [a] }

theorem witness_CommandIssue :
    let s := hosted (.write 0xF0000000#32 1#32)
    let t := hosted (.write 0xF0000000#32 0x100#32)
    s.host = .write s.plat.regBase 1#32 :: [] ∧ t.host = .write t.plat.regBase 0x100#32 :: [] ∧
    { s with task := .refill .get }.busy = true ∧ t.busy = false ∧ { t with fault := true }.fault = true ∧
      (0x100#32 : Word) ≠ 1#32 ∧ { s with fault := true }.busy = false := by decide

theorem witness_BusyWritesDropped :
    [0x000, 0x010, 0x014, 0x018, 0x01C].all (fun off =>
      let s : State := { hosted (.write (0xF0000000#32 + BitVec.ofNat 32 off) 7#32) with task := .issued 0#32 }
      s.host == .write (s.plat.regBase + BitVec.ofNat 32 off) 7#32 :: [] && s.busy) = true := by decide

theorem witness_ArgWriteAndRead :
    [0x10#32, 0x14#32, 0x18#32, 0x1C#32].all (fun off =>
      let s : State := { State.reset with host := [.write (0xF0000000#32 + off) 7#32, .read (0xF0000000#32 + off)] }
      s.host == [.write (s.plat.regBase + off) 7#32, .read (s.plat.regBase + off)] && !s.busy) = true := by decide

theorem witness_StatusWriteAndRead :
    (hosted (.write 0xF0000004#32 8#32)).host = .write (State.reset.plat.regBase + 4#32) 8#32 :: [] ∧
    (hosted (.read 0xF0000004#32)).host = .read (State.reset.plat.regBase + 4#32) :: [] ∧
    (hosted (.read 0xF0000004#32)).busy = false ∧
    { hosted (.read 0xF0000004#32) with task := .refill .get }.busy = true := by decide

/-- An offset between the named registers, the last one before the CHUNK window, a misaligned address, a byte access; the
first and the last register of the map, one of them while busy; STAT_HIST[15]; ignored writes of a read-only register,
of that last offset and of the first one past the CHUNK window. -/
theorem witness_RegisterReads :
    aligned State.reset.plat 0xF0000FFC#32 = true ∧ readRegister 0xFFC State.reset = none ∧ State.reset.busy = false ∧
    aligned State.reset.plat 0xF0000002#32 = false ∧ (hosted (.read 0xF0000FFC#32)).host = .read 0xF0000FFC#32 :: [] ∧
    (hosted (.write 0xF0000002#32 0#32)).host = .write 0xF0000002#32 0#32 :: [] ∧
    (hosted (.otherWidth 0xF0000004#32 1)).host = .otherWidth 0xF0000004#32 1 :: [] ∧
    (0x000, 0#32) ∈ registerMap State.reset ∧ (0x140, 0#32) ∈ registerMap State.reset ∧
    (0x0D4, 4#32) ∈ registerMap { State.reset with refill := ⟨0#32, 4#17⟩, task := .refill .get } ∧
    State.reset.plat.regBase + BitVec.ofNat 32 (256 + 4 * 15) = 0xF000013C#32 ∧
    [0x00C, 0x0D4, 0x13C, 0xFFC, 0x1004, 0xFFFFFFFC].all (fun off => off < 4294967296 && off % 4 == 0 &&
      !(off ∈ [0x000, 0x004, 0x010, 0x014, 0x018, 0x01C, 0x0D8]) && !isChunkOffset State.reset.plat off) = true := by
  decide

/-- The last word of a CHUNK window of five bytes. -/
theorem witness_ChunkWindow :
    let s : State := { State.resetOn { Config.platform with chunkBytes := 5 } with
      host := [.write 0xF0001004#32 1#32, .read 0xF0001004#32], task := .refill .get, refill := ⟨0#32, 5#17⟩ }
    (PlatformOk s.plat ∧ s.chunk.length = s.plat.chunkBytes ∧ 4 * 1 < s.plat.chunkBytes ∧ s.refillReq = true) ∧
    s.host = .write (s.plat.regBase + BitVec.ofNat 32 (4096 + 4 * 1)) 1#32 ::
      [.read (s.plat.regBase + BitVec.ofNat 32 (4096 + 4 * 1))] :=
  ⟨⟨⟨by decide, by decide⟩, rfl, by decide, rfl⟩, by decide⟩

theorem witness_RefillCountWrite :
    let s : State := { hosted (.write 0xF00000D8#32 3#32) with task := .refill .get }
    s.host = .write (s.plat.regBase + 0xD8#32) 3#32 :: [] ∧ s.task = .refill .get ∧
      { s with task := .idle }.refillReq = false := by decide

theorem witness_SoftResetState :
    let s : State := { hosted (.write 0xF0000000#32 1#32) with task := .refill .get }
    s.host = .write s.plat.regBase 1#32 :: [] ∧ s.busy = true := by decide

theorem witness_HardwareReset : (hosted .hardwareReset).host = .hardwareReset :: [] := rfl

theorem witness_FaultExit :
    let s : State := { State.reset with fault := true, task := .issued 1#32 }
    s.fault = true ∧ holds (step s) (fun t => !t.fault) = true ∧
      holds (step { s with task := .idle, host := [.hardwareReset] }) (fun t => !t.fault) = true := by decide

/-- The three checks of ACC_PUSH, each the only one to fail, and a push that fills the accumulator. -/
theorem witness_AccPush :
    AccOk ⟨0x55#32, 7#6⟩ ∧ 32 < 33 ∧ 32 < (7#6).toNat + 26 ∧ (25 < 32 ∧ 2 ^ 25 ≤ (0x2000000#32).toNat) ∧
    (25 ≤ 32 ∧ (7#6).toNat + 25 ≤ 32 ∧ (0x1FFFFFF#32).toNat < 2 ^ 25) ∧ AccOk ⟨0#32, 0#6⟩ ∧ (0#6).toNat + 32 ≤ 32 :=
  ⟨⟨by decide, by decide⟩, by decide, by decide, by decide, by decide, ⟨by decide, by decide⟩, by decide⟩

theorem witness_AccPop : AccOk ⟨0xFFFFFFFF#32, 32#6⟩ ∧ 32 < 33 ∧ (31#6).toNat < 32 ∧ 32 ≤ (32#6).toNat :=
  ⟨⟨by decide, by decide⟩, by decide, by decide, by decide⟩

theorem witness_AccQueueLaw :
    AccOk ⟨0x7F#32, 7#6⟩ ∧ (7#6).toNat + 25 + 0 ≤ 32 ∧ (0x1FFFFFF#32).toNat < 2 ^ 25 ∧ (0#32).toNat < 2 ^ 0 :=
  ⟨⟨by decide, by decide⟩, by decide, by decide, by decide⟩

/-- A packer with seven bits staged and room for `cap` bytes at 0x8000. -/
def packing (cap : Nat) : State := { ready (argsOf 0x1FF 0 0 0) [] with
  bw := ⟨0x8000#32, BitVec.ofNat 32 cap, 0#32, 0x7F#8, 7#4⟩ }

/-- Nine more bits complete two bytes, which fill a capacity of two. -/
theorem witness_BwWriteAppends :
    9 ≤ 32 ∧ (packing 2).args.arg0.toNat < 2 ^ 9 ∧ CanPack 9 (packing 2) ∧ (packing 2).raced = .none ∧
    (packing 2).mem.wf = true :=
  ⟨by decide, by decide, ⟨⟨by decide, by decide, by decide⟩, by decide, admits 0x8000#32 2 (by decide)⟩, rfl, rfl⟩

theorem witness_BwWriteFaults :
    32 < 33 ∧ (8 < 32 ∧ 2 ^ 8 ≤ (packing 1).args.arg0.toNat) ∧ 9 ≤ 32 ∧ (packing 1).args.arg0.toNat < 2 ^ 9 ∧
    PackerOk (packing 1).bw ∧ (packing 1).raced = .none ∧ (packing 1).mem.wf = true ∧
    (packing 1).bw.cap.toNat < (packing 1).bw.emitted.toNat + ((packing 1).bw.used.toNat + 9) / 8 ∧
    Admitted (packing 1).plat .write ⟨(packing 1).bw.base + (packing 1).bw.emitted,
      (packing 1).bw.cap.toNat - (packing 1).bw.emitted.toNat⟩ :=
  ⟨by decide, by decide, by decide, by decide, ⟨by decide, by decide, by decide⟩, rfl, rfl, by decide,
    admits _ _ (by decide)⟩

theorem witness_BwCloseFlushes :
    CanPack ((8 - (packing 1).bw.used.toNat) % 8) (packing 1) ∧ (packing 1).raced = .none ∧
    (packing 1).mem.wf = true :=
  ⟨⟨⟨by decide, by decide, by decide⟩, by decide, admits _ _ (by decide)⟩, rfl, rfl⟩

theorem witness_BwCloseOverflows : (packing 0).bw.used ≠ 0#4 ∧ (packing 0).bw.emitted = (packing 0).bw.cap := by decide

/-- The longest length with a 32-bit value. -/
theorem witness_BwLengthCounts :
    let b : PackerRegs := ⟨0#32, 0xFFFFFFFF#32, 0xFFFFFFFE#32, 1#8, 1#4⟩
    b.emitted.toNat + (if b.used = 0#4 then 0 else 1) < 4294967296 := by decide

theorem witness_PackUnpackRoundTrip :
    let s : State := { State.reset with bw := ⟨0x8000#32, 5#32, 0#32, 0#8, 0#4⟩ }
    let fields : List (Nat × Word) := [(0, 0#32), (32, 0xFFFFFFFF#32), (3, 5#32)]
    s.bw = { s.bw with emitted := 0#32, stage := 0#8, used := 0#4 } ∧ (∀ f ∈ fields, f.1 ≤ 32 ∧ f.2.toNat < 2 ^ f.1) ∧
    ((fields.map Prod.fst).sum + 7) / 8 ≤ s.bw.cap.toNat ∧
    Admitted s.plat .write ⟨s.bw.base, ((fields.map Prod.fst).sum + 7) / 8⟩ ∧
    Admitted s.plat .read ⟨s.bw.base, ((fields.map Prod.fst).sum + 7) / 8⟩ ∧ s.raced = .none ∧ s.mem.wf = true :=
  ⟨rfl, by decide, by decide, admits _ _ (by decide), admits _ _ (by decide), rfl, rfl⟩

/-- A FLAT unpacker over the ramp's four bytes: all 32 bits at hand, no 33rd. -/
def unpacking : State := { ready (argsOf 0 0 0 0) (placed 0x2000 [0x6E, 0x46, 0x64, 0x08]) with
  br := .bound .flat 0x2000#32 4#32 }

theorem witness_BrReadDelivers : 32 ≤ 32 ∧ CanRead 32 unpacking ∧ unpacking.raced = .none :=
  ⟨by decide, ⟨by decide, admits 0x2000#32 4 (by decide), by decide⟩, rfl⟩

/-- A MEM stream whose last two bytes are to come. -/
def streaming : State := { ready (argsOf 0x5000 1 65536 0) (placed 0x4000 [0x34, 0x12, 0xFF]) with
  st := ⟨.mem, 0x4000#32, 2#32, 0#32, 0#17, 0#17⟩ }

/-- A FLAT source one bit short, no source at all, and a stream one bit short. -/
theorem witness_BrReadFaults :
    let s : State := { unpacking with br := { unpacking.br with consumed := 1#32 } }
    let r : State := { streaming with br := .bound .stream 0#32 0#32 }
    (32 < 33 ∧ 25 ≤ 32 ∧ s.br.mode = .flat ∧ UnpackerOk s.br ∧ s.raced = .none ∧ (sourceBits s).length < 25 ∧
      Admitted s.plat .read (sourceSpan s)) ∧
    (State.reset.br.mode = .none ∧ UnpackerOk State.reset.br ∧ State.reset.br.used.toNat < 1) ∧
    (r.br.mode = .stream ∧ UnpackerOk r.br ∧ StreamEnds r ∧ r.raced = .none ∧ (sourceBits r).length < 17 ∧
      CanRead (sourceBits r).length r) :=
  ⟨⟨by decide, by decide, rfl, ⟨by decide, by decide, fun _ => by decide⟩, rfl, by decide,
    admits 0x2001#32 3 (by decide)⟩, ⟨rfl, ⟨by decide, by decide, fun h => by cases h⟩, by decide⟩,
    ⟨rfl, ⟨by decide, by decide, fun h => by cases h⟩, show 0 ≤ 2 by decide, rfl, by decide, by decide,
      admits 0x4000#32 2 (by decide), by decide⟩⟩

theorem witness_StGetDelivers : streaming.raced = .none ∧ CanGet 1 streaming ∧ CanGet 2 streaming :=
  ⟨rfl, ⟨by decide, admits 0x4000#32 1 (by decide)⟩, ⟨by decide, admits 0x4000#32 2 (by decide)⟩⟩

/-- A CHUNK stream of 15 bytes at its position 12, the working buffer exhausted. -/
def chunked : State := { State.reset with
  st := ⟨.chunk, 0#32, 15#32, 12#32, 4#17, 4#17⟩, br := .bound .stream 0#32 0#32 }

/-- A CHUNK stream of 15 bytes at its position 4, with the bytes from `idx` to `fill` of four buffered. -/
def buffered (fill idx : Nat) : State := { State.reset with
  chunk := [0x6E#8, 0x46#8, 0x64#8, 0x08#8], br := .bound .stream 0#32 0#32, refill := ⟨4#32, 4#17⟩
  st := ⟨.chunk, 0#32, 15#32, 4#32, BitVec.ofNat 17 fill, BitVec.ofNat 17 idx⟩ }

/-- An exhausted buffer; one with a byte left, in a command and in a sample; one refilled with a single byte; the loops
of one sample. -/
theorem witness_RefillRequested :
    let f : Frame := ⟨.expand, 0x5000#32, 3#32, 1#32⟩
    let g : Frame := ⟨.lexpand 0, 0x5000#32, 3#32, 1#32⟩
    (PlatformOk chunked.plat ∧ chunked.st.kind = .chunk ∧ chunked.st.pos.toNat < chunked.st.size.toNat ∧
      chunked.st.idx = chunked.st.fill ∧ 1 ≤ 32 ∧ chunked.br.mode = .stream ∧ chunked.br.used = 0#4) ∧
    (let s := buffered 1 0
     MoreToCome s ∧ s.raced = .none ∧ streamBytes s = [0x6E#8] ∧ s.br.mode = .stream ∧ UnpackerOk s.br ∧
        (sourceBits s).length < 9 ∧ CanRead (sourceBits s).length s ∧
        decodeUnit (sourceBits s) = .error .unitTruncated ∧ g.isRaw s = false ∧ f.isRaw s = true ∧ s.host = []) ∧
    (MoreToCome (buffered 4 4) ∧ streamBytes (buffered 4 4) = []) ∧
    (let s := buffered 4 4
     let u := refilled 1#32 s
     let v := loaded (s.chunk.getD 0 0#8) u
     (1#32 : Word) ≠ 0#32 ∧ (1#32).toNat ≤ s.refill.max.toNat ∧ MoreToCome u ∧ streamBytes u = [] ∧
        s.br.consumed ≠ 0xFFFFFFFF#32 ∧ CanRead (sourceBits v).length v ∧ (sourceBits v).length < 9 ∧
        PhaseOk (.mag 14 true 0 15) ∧
        decodeUnit (phaseBits (.mag 14 true 0 15) ++ sourceBits v) = .error .unitTruncated) ∧
    (let s : State := { ready (argsOf 0x5000 3 65536 0) [] with exp := ⟨.idle, 3#32, 0#32, 1#1, 0#4⟩ }
     s.host = [] ∧ s.args.arg2 ≠ 0#32 ∧ s.args.arg1.toNat ≤ s.remaining ∧ s.args.arg1 ≠ 0#32 ∧
        s.args.arg2.toNat ≤ 65536) := by
  refine ⟨⟨⟨by decide, by decide⟩, by decide, by decide, by decide, by decide, by decide, by decide⟩,
    ⟨⟨rfl, ⟨by decide, by decide, by decide⟩, rfl, by decide⟩, rfl, by decide, rfl,
      ⟨by decide, by decide, fun h => by cases h⟩, by decide, ⟨by decide, fun a h => ?_, by decide⟩, by decide, rfl, rfl,
      rfl⟩, ⟨⟨rfl, ⟨by decide, by decide, by decide⟩, rfl, by decide⟩, by decide⟩,
    ⟨by decide, by decide, ⟨rfl, ⟨by decide, by decide, by decide⟩, rfl, by decide⟩, by decide, by decide,
      ⟨by decide, fun a h => ?_, by decide⟩, by decide, ⟨by decide, ⟨by decide, by decide, by decide⟩⟩, by decide⟩,
    by decide⟩
  all_goals cases h

/-- The answers 0 and one above REFILL_MAX; the answer 2 of at most 4, which leaves a byte after the first: for ST_GET16,
a raw sample, nine bits of BR_READ and the ramp's first unit. -/
theorem witness_RefillResumes :
    let s (k : Word) (p : HoldPoint) : State := { buffered 4 4 with task := .answered k p }
    let f : Frame := ⟨.expand, 0x5000#32, 3#32, 2#32⟩
    (s 0#32 .get).task = .answered 0#32 .get ∧ (s 0#32 .get).host = [] ∧
    (s 5#32 .get).refill.max.toNat < (5#32).toNat ∧ (4#32 : Word) ≠ 0#32 ∧
    (4#32).toNat ≤ (s 4#32 .get).refill.max.toNat ∧
    (let s := s 2#32 (.unit f (.code 0 4))
     let u := refilled 2#32 s
     let v := loaded 0x6E#8 u
     0x6E#8 = s.chunk.getD 0 0#8 ∧ s.raced = .none ∧ CanGet 1 u ∧ s.mem.wf = true ∧
        Admitted s.plat .write ⟨f.address, f.stride⟩ ∧ s.br.consumed ≠ 0xFFFFFFFF#32 ∧ CanRead 9 v ∧
        PhaseOk (.code 0 4) ∧ sourceBits v = (sourceBits v).take 12 ++ (sourceBits v).drop 12 ∧
        decodeUnit (phaseBits (.code 0 4) ++ sourceBits v) = .ok (.cuD7 true 100, (sourceBits v).drop 12) ∧
        CanRead ((sourceBits v).take 12).length v) := by
  refine ⟨rfl, rfl, by decide, by decide, by decide, by decide, rfl, ⟨by decide, fun a h => ?_⟩, rfl,
    admits 0x5004#32 2 (by decide), by decide, ⟨by decide, fun a h => ?_, by decide⟩,
    ⟨by decide, by decide, by decide⟩, by decide, by decide, ⟨by decide, fun a h => ?_, by decide⟩⟩
  all_goals cases h

/-- A buffered byte; an exhausted buffer before the medium's end; and one at its end, the declared size being longer. -/
theorem witness_ChunkStreamDeliversMedium :
    let s (pos fill idx : Nat) : State := { State.reset with
      chunk := [10#8, 11#8, 12#8, 0#8]
      st := ⟨.chunk, 0#32, 5#32, BitVec.ofNat 32 pos, BitVec.ofNat 17 fill, BitVec.ofNat 17 idx⟩ }
    let medium : List Byte := [10#8, 11#8, 12#8]
    PlatformOk State.reset.plat ∧ (InStep medium (s 2 3 2) ∧ (s 2 3 2).st.idx ≠ (s 2 3 2).st.fill) ∧
    (InStep medium (s 0 0 0) ∧ (s 0 0 0).st.idx = (s 0 0 0).st.fill) ∧
    (InStep medium (s 3 3 3) ∧ (s 3 3 3).st.pos.toNat < (s 3 3 3).st.size.toNat ∧
      medium.length ≤ (s 3 3 3).st.pos.toNat ∧ (s 3 3 3).host = []) := by
  refine ⟨⟨by decide, by decide⟩, ⟨⟨rfl, ⟨by decide, by decide, by decide⟩, rfl, ?_⟩, by decide⟩,
    ⟨⟨rfl, ⟨by decide, by decide, by decide⟩, rfl, ?_⟩, by decide⟩,
    ⟨⟨rfl, ⟨by decide, by decide, by decide⟩, rfl, ?_⟩, by decide, by decide, rfl⟩⟩
  all_goals decide

/-- COMPRESS of the ramp into a capacity of exactly its four bytes. -/
def compressing (cap : Nat) : State :=
  ready (argsOf 0x1000 3 0x2000 cap) (placed 0x1000 [0x64, 0, 0xC8, 0, 0x2C, 1])

theorem witness_CompressWritesCodeUnits :
    ((unitsBits (sampleUnits ContextRegs.zero (compressInput 0 (compressing 4)))).length + 7) / 8 = 4 ∧ 0 ≤ 15 ∧
    (compressing 4).raced = .none ∧ (compressing 4).mem.wf = true ∧ 4 ≤ (compressing 4).args.arg3.toNat ∧
    Admitted (compressing 4).plat .read (compressSource (compressing 4).args) ∧
    Admitted (compressing 4).plat .write ⟨(compressing 4).args.arg2, 4⟩ ∧
    (compressSource (compressing 4).args).meets (compressTarget (compressing 4).args) = false :=
  ⟨by decide, by decide, rfl, by decide, by decide, admits 0x1000#32 6 (by decide), admits _ _ (by decide), by decide⟩

theorem witness_CompressCapacity :
    ((unitsBits (sampleUnits ContextRegs.zero (compressInput 0 (compressing 3)))).length + 7) / 8 = 4 ∧
    (compressing 3).args.arg3.toNat < 4 ∧ (compressing 3).raced = .none ∧ (compressing 3).mem.wf = true ∧
    Admitted (compressing 3).plat .read (compressSource (compressing 3).args) ∧
    Admitted (compressing 3).plat .write ⟨(compressing 3).args.arg2, (compressing 3).args.arg3.toNat⟩ ∧
    (compressSource (compressing 3).args).meets (compressTarget (compressing 3).args) = false :=
  ⟨by decide, by decide, rfl, by decide, admits 0x1000#32 6 (by decide), admits _ _ (by decide), by decide⟩

theorem witness_CodecShiftRejected : 15 < 16 := by decide

theorem witness_CompressStatistics :
    (compressing 4).fault = false ∧ holds (exec (.compress 0 true) (compressing 4)) (fun t => !t.fault) = true ∧
    holds (exec (.compress 0 false) (compressing 4)) (fun t => !t.fault) = true := by decide

/-- The ramp's bitstream at 0x2000, for `n` samples to 0x3000. -/
def expanding (n : Nat) : State := ready (argsOf 0x2000 4 n 0x3000) (placed 0x2000 [0x6E, 0x46, 0x64, 0x08])

/-- The ramp's code units. -/
def rampUnits : List CodeUnit := [.normal 6 true 100, .normal 6 false 100, .normal 0 true 0]

theorem witness_LexpandDecodes :
    (expanding 3).raced = .none ∧ (expanding 3).mem.wf = true ∧ rampUnits.length = (expanding 3).args.arg2.toNat ∧
    (∀ u ∈ rampUnits, u.Fits) ∧
    bytesBits (memoryBytes (expanding 3).mem (expanding 3).args.arg0 (expanding 3).args.arg1.toNat) =
      unitsBits rampUnits ++ [false, false] ∧
    (∀ x ∈ unitSamples ContextRegs.zero rampUnits, -(2 ^ (15 - 6)) ≤ x ∧ x ≤ 2 ^ (15 - 6) - 1) ∧
    Admitted (expanding 3).plat .read ⟨(expanding 3).args.arg0, ((unitsBits rampUnits).length + 7) / 8⟩ ∧
    Admitted (expanding 3).plat .write (lexpandTarget (expanding 3).args) ∧
    (lexpandSource (expanding 3).args).meets (lexpandTarget (expanding 3).args) = false :=
  ⟨rfl, by decide, by decide, by simp [rampUnits, CodeUnit.Fits], by decide, by decide,
    admits 0x2000#32 4 (by decide), admits 0x3000#32 6 (by decide), by decide⟩

theorem witness_LexpandExhausted :
    (expanding 4).raced = .none ∧ (expanding 4).mem.wf = true ∧ rampUnits.length < (expanding 4).args.arg2.toNat ∧
    (∀ u ∈ rampUnits, u.Fits) ∧
    bytesBits (memoryBytes (expanding 4).mem (expanding 4).args.arg0 (expanding 4).args.arg1.toNat) =
      unitsBits rampUnits ++ [false, false] ∧
    decodeUnit [false, false] = .error .unitTruncated ∧
    (∀ x ∈ unitSamples ContextRegs.zero rampUnits, -(2 ^ (15 - 6)) ≤ x ∧ x ≤ 2 ^ (15 - 6) - 1) ∧
    Admitted (expanding 4).plat .read (lexpandSource (expanding 4).args) ∧
    Admitted (expanding 4).plat .write (lexpandTarget (expanding 4).args) ∧
    (lexpandSource (expanding 4).args).meets (lexpandTarget (expanding 4).args) = false :=
  ⟨rfl, by decide, by decide, by simp [rampUnits, CodeUnit.Fits], by decide, by decide, by decide,
    admits 0x2000#32 4 (by decide), admits 0x3000#32 8 (by decide), by decide⟩

theorem witness_CompressLexpandRoundTrip :
    (compressing 4).fault = false ∧ (compressing 4).raced = .none ∧ (compressing 4).mem.wf = true ∧
    ((unitsBits (sampleUnits ContextRegs.zero (compressInput 0 (compressing 4)))).length + 7) / 8 = 4 ∧
    Admitted (compressing 4).plat .read (compressSource (compressing 4).args) ∧
    Admitted (compressing 4).plat .write ⟨(compressing 4).args.arg2, 4⟩ ∧
    Admitted (compressing 4).plat .read ⟨(compressing 4).args.arg2, 4⟩ ∧
    Admitted (compressing 4).plat .write ⟨0x3000#32, 2 * (compressing 4).args.arg1.toNat⟩ ∧
    (compressSource (compressing 4).args).meets (compressTarget (compressing 4).args) = false ∧
    (Span.mk (compressing 4).args.arg2 4).meets ⟨0x3000#32, 2 * (compressing 4).args.arg1.toNat⟩ = false :=
  ⟨rfl, rfl, by decide, by decide, admits 0x1000#32 6 (by decide), admits _ _ (by decide), admits _ _ (by decide),
    admits _ _ (by decide), by decide, by decide⟩

/-- Both clauses of the loop's end: sample 1 of 3, and of 2; the sample 300 + 32467 is the largest in range. -/
theorem witness_NormalUnitsRun :
    let f (n : Word) : Frame := ⟨.lexpand 0, 0x3000#32, n, 1#32⟩
    decoding.task = .sample (f 3#32) ∧ decoding.ctx.guess + 32467 = 2 ^ (15 - (f 3#32).shift decoding) - 1 ∧
    decoding.raced = .none ∧ decoding.mem.wf = true ∧
    Admitted decoding.plat .write ⟨(f 3#32).address, (f 3#32).stride⟩ ∧ (f 3#32).i + 1#32 ≠ (f 3#32).n ∧
    (f 2#32).i + 1#32 = (f 2#32).n ∧ (f 2#32).cmd = .lexpand 0 ∧ (⟨.expand, 0#32, 2#32, 1#32⟩ : Frame).cmd = .expand ∧
    (⟨.expand2 5#32, 0#32, 2#32, 1#32⟩ : Frame).cmd = .expand2 5#32 :=
  ⟨rfl, by decide, rfl, rfl, admits 0x3002#32 2 (by decide), by decide, by decide, rfl, rfl, rfl⟩

theorem witness_EscapeUnitRuns :
    let f : Frame := ⟨.lexpand 0, 0x3000#32, 3#32, 1#32⟩
    65535 < 65536 ∧ decoding.task = .sample f ∧ -(2 ^ (15 - f.shift decoding)) ≤ (-1 : Int) ∧
    decoding.raced = .none ∧ decoding.mem.wf = true ∧ Admitted decoding.plat .write ⟨f.address, f.stride⟩ :=
  ⟨by decide, rfl, by decide, rfl, rfl, admits 0x3002#32 2 (by decide)⟩

/-- One past the range, above and below (the guess is 300). -/
theorem witness_UnitOutOfRange :
    let f : Frame := ⟨.lexpand 0, 0x3000#32, 3#32, 1#32⟩
    decoding.task = .sample f ∧
    2 ^ (15 - f.shift decoding) - 1 < unitSample (.normal 14 true 32468) decoding.ctx ∧
    unitSample (.normal 14 false 1) ⟨0x8000#16, 0#16, 0#16⟩ < -(2 ^ (15 - f.shift decoding)) := by decide

theorem witness_StrayUnitStops : ∀ f, State.reset.task ≠ .sample f := by intro f h; cases h

theorem witness_ExpInitStartsSession : 15 < 16 ∧ 1 < 2 ∧ 15 ≤ 15 ∧ 1 ≤ 1 := by decide

/-- A format-1 session over a MEM stream of the ramp's bitstream. -/
def session : State := { ready (argsOf 0x5000 3 65536 0) (placed 0x2000 [0x6E, 0x46, 0x64, 0x08]) with
  st := ⟨.mem, 0x2000#32, 4#32, 0#32, 0#17, 0#17⟩, br := .bound .stream 0#32 0#32
  exp := ⟨.idle, 3#32, 0#32, 1#1, 0#4⟩ }

theorem witness_ExpandFormat1 :
    session.args.arg2.toNat ≤ 65536 ∧ session.exp.format = 1#1 ∧ session.br.mode = .stream ∧ session.raced = .none ∧
    session.mem.wf = true ∧ rampUnits.length = session.args.arg1.toNat ∧ rampUnits.length ≤ session.remaining ∧
    (∀ u ∈ rampUnits, u.Fits) ∧ sourceBits session = unitsBits rampUnits ++ [false, false] ∧
    CanRead (unitsBits rampUnits).length session ∧
    (∀ x ∈ unitSamples session.ctx rampUnits,
      -(2 ^ (15 - session.exp.shift.toNat)) ≤ x ∧ x ≤ 2 ^ (15 - session.exp.shift.toNat) - 1) ∧
    Admitted session.plat .write (expandFrame session.args).output ∧
    Admitted session.plat .write (expand2Frame session.args).output ∧
    (undelivered session).meets (expandFrame session.args).output = false ∧
    (undelivered session).meets (expand2Frame session.args).output = false :=
  ⟨by decide, rfl, rfl, rfl, by decide, by decide, by decide, by simp [rampUnits, CodeUnit.Fits], by decide,
    ⟨by decide, admits 0x2000#32 4 (by decide), by decide⟩, by decide, admits 0x5000#32 6 (by decide),
    admits 0x5000#32 24 (by decide), by decide, by decide⟩

/-- An unbound stream, and one at its end; one byte left; a unit and a raw sample cut short; a session whose units end
before its last sample. -/
theorem witness_StGetExhausted :
    (State.reset.st.kind = .none ∧ (⟨.mem, 0x4000#32, 2#32, 2#32, 0#17, 0#17⟩ : StreamRegs).pos = 2#32) ∧
    (let s : State := { streaming with st := ⟨.mem, 0x4000#32, 2#32, 1#32, 0#17, 0#17⟩ }
     StreamEnds s ∧ (streamBytes s).length = 1 ∧ CanGet 1 s ∧ s.raced = .none ∧
        Frame.isRaw ⟨.expand, 0x5000#32, 3#32, 1#32⟩ s = true) ∧
    (let s : State := { session with
        st := ⟨.mem, 0x2000#32, 1#32, 0#32, 0#17, 0#17⟩, task := .sample ⟨.expand, 0x5000#32, 3#32, 1#32⟩ }
     s.host = [] ∧ Frame.isRaw ⟨.expand, 0x5000#32, 3#32, 1#32⟩ s = false ∧ s.br.mode = .stream ∧ StreamEnds s ∧
        UnpackerOk s.br ∧ decodeUnit (sourceBits s) = .error .unitTruncated ∧ CanRead (sourceBits s).length s) ∧
    (let s : State := { session with
        args := argsOf 0x5000 4 65536 0, exp := { session.exp with nSamples := 4#32 } }
     StreamEnds s ∧ UnpackerOk s.br ∧ rampUnits.length < s.args.arg1.toNat ∧ s.args.arg1.toNat ≤ s.remaining ∧
        sourceBits s = unitsBits rampUnits ++ [false, false] ∧ decodeUnit [false, false] = .error .unitTruncated ∧
        CanRead (sourceBits s).length s ∧ Admitted s.plat .write (expand2Frame s.args).output ∧
        (undelivered s).meets (expandFrame s.args).output = false ∧
        (undelivered s).meets (expand2Frame s.args).output = false) :=
  ⟨by decide, ⟨show 1 ≤ 2 by decide, by decide, ⟨by decide, admits 0x4001#32 1 (by decide)⟩, rfl, by decide⟩,
    ⟨rfl, rfl, rfl, show 0 ≤ 1 by decide, ⟨by decide, by decide, fun h => by cases h⟩, by decide, by decide,
      admits 0x2000#32 1 (by decide), by decide⟩,
    ⟨show 0 ≤ 4 by decide, ⟨by decide, by decide, fun h => by cases h⟩, by decide, by decide, by decide, by decide,
      ⟨by decide, admits 0x2000#32 4 (by decide), by decide⟩, admits 0x5000#32 32 (by decide), by decide, by decide⟩⟩

theorem witness_ExpandFormat0 :
    let s : State := { streaming with exp := ⟨.idle, 1#32, 0#32, 0#1, 3#4⟩ }
    s.args.arg2.toNat ≤ 65536 ∧ s.exp.format = 0#1 ∧ s.raced = .none ∧ s.mem.wf = true ∧
    [0x34#8, 0x12#8].length = 2 * s.args.arg1.toNat ∧ s.args.arg1.toNat ≤ s.remaining ∧
    streamBytes s = [0x34#8, 0x12#8] ++ [] ∧ CanGet 2 s ∧ Admitted s.plat .write (expandFrame s.args).output ∧
    Admitted s.plat .write (expand2Frame s.args).output ∧
    (undelivered s).meets (expandFrame s.args).output = false ∧
    (undelivered s).meets (expand2Frame s.args).output = false :=
  ⟨by decide, rfl, rfl, by decide, by decide, by decide, by decide, ⟨by decide, admits 0x4000#32 2 (by decide)⟩,
    admits 0x5000#32 2 (by decide), admits 0x5000#32 8 (by decide), by decide, by decide⟩

theorem witness_ExpandRejectsAndDone :
    State.reset.remaining < (1#32).toNat ∧ 65536 < (65537#32).toNat := by decide

theorem witness_ChunkInvariance :
    session.fault = false ∧ session.raced = .none ∧ StreamOk session.plat session.st ∧
    (undelivered session).meets ⟨0x5000#32, 2 * ((1#32).toNat + (2#32).toNat)⟩ = false ∧
    holds (exec .expExpand { session with args := ⟨0x5000#32, 1#32, 0#32, 0#32⟩ }) (fun s1 =>
      s1.task == .idle && !s1.fault &&
        holds (exec .expExpand { s1 with args := ⟨0x5000#32 + BitVec.ofNat 32 (2 * (1#32).toNat), 2#32, 0#32, 0#32⟩ })
          (fun s2 => s2.task == .idle && !s2.fault)) = true :=
  ⟨rfl, rfl, ⟨by decide, by decide, by decide⟩, by decide, by decide⟩

/-- A fault of an instruction; and of a step: an illegal word, and a refill answered with 0. -/
theorem witness_FaultRecord :
    (State.reset.fault = false ∧ holds (exec (.brRead 33) State.reset) (fun t => t.fault) = true ∧
      encode (.brRead 33) = .command 0x2132#32) ∧
    holds (step { State.reset with task := .issued 0x99#32 }) (fun t => t.fault) = true ∧
    holds (step { buffered 4 4 with task := .answered 0#32 .get, host := [.engine] }) (fun t => t.fault) = true := by
  decide

theorem witness_RegisterFootprint :
    Instr.bwInit ≠ .softReset ∧ holds (exec .bwInit State.reset) (fun t => t.task == .idle) = true ∧
    encode .bwInit = .command 0x20#32 := by decide

theorem witness_MemoryFootprint :
    ((packing 2).mem.wf = true ∧ PackerOk (packing 2).bw ∧
      holds (exec (.bwWrite 9) (packing 2)) (fun t => !t.fault) = true ∧
      holds (exec .bwClose (packing 2)) (fun t => !t.fault) = true) ∧
    ((compressing 4).mem.wf = true ∧ holds (exec (.compress 0 true) (compressing 4)) (fun t => !t.fault) = true) ∧
    ((expanding 3).mem.wf = true ∧ holds (exec (.lexpand 0) (expanding 3)) (fun t => !t.fault) = true) ∧
    (session.mem.wf = true ∧ holds (exec .expExpand session) (fun t => !t.fault) = true ∧
      holds (exec .expExpand2 session) (fun t => !t.fault) = true) ∧
    (decoding.mem.wf = true ∧ decoding.task = .sample ⟨.lexpand 0, 0x3000#32, 3#32, 1#32⟩ ∧
      holds (exec (CodeUnit.normal 0 true 0).instr decoding) (fun t => !t.fault) = true) :=
  ⟨⟨rfl, ⟨by decide, by decide, by decide⟩, by decide, by decide⟩, by decide, by decide, by decide, by decide⟩

theorem witness_InvAtReset : PlatformOk { Config.platform with chunkBytes := 65536 } := ⟨by decide, by decide⟩

/-- A running session between two samples meets the invariant, and its step is a next state. -/
theorem witness_InvKept :
    let s : State := { session with task := .sample ⟨.expand, 0x5000#32, 3#32, 0#32⟩ }
    Inv s ∧ holds (step s) (fun t => t.task == .sample ⟨.expand, 0x5000#32, 3#32, 1#32⟩) = true := by
  refine ⟨⟨⟨by decide, by decide⟩, by decide, rfl, fun _ => rfl, fun h => ?_, fun _ => ⟨⟨⟨by decide, by decide⟩,
    ⟨by decide, by decide, by decide⟩, ⟨by decide, by decide, fun h => ?_⟩, ⟨by decide, by decide, by decide⟩,
    ⟨fun _ => by decide, by decide⟩⟩, ⟨by decide, by decide, by decide⟩⟩⟩, by decide⟩
  · cases h
  · cases h

/-- A memory of three bytes at 0x1000: every other access is refused. -/
def narrow : Platform := { Config.platform with regions := [⟨0x1000#32, 3, true, true⟩] }

theorem narrow_admits {k : AccessKind} (base : Word) (size : Nat) (h : 0x1000 ≤ base.toNat)
    (h' : base.toNat + size ≤ 0x1003) : Admitted narrow k ⟨base, size⟩ := by
  intro a ha
  simp only [Span.has, decide_eq_true_eq] at ha
  have h1 : inWindow narrow a = false := by
    have : ¬ (a - 0xF0000000#32).toNat < 4100 := by bv_omega
    simpa [inWindow, windowBytes, narrow, Config.platform] using this
  have h2 : narrow.regions = [⟨0x1000#32, 3, true, true⟩] := rfl
  have h3 : (a - 0x1000#32).toNat < 3 := by bv_omega
  rw [memAdmits, h1, h2]
  cases k <;> simp only [Bool.not_false, Bool.true_and, List.any_cons, List.any_nil, Bool.or_false, Span.has, h3,
    decide_true]

/-- The narrow memory holding 0x6E at 0x1002, its last byte; sources and destinations of two bytes begin there. -/
def cornered : State := { State.reset with
  plat := narrow, mem := placed 0x1000 [0x64, 0, 0x6E], args := argsOf 0x1000 1 0x1002 2
  bw := ⟨0x1002#32, 2#32, 0#32, 0x7F#8, 7#4⟩, br := .bound .flat 0x1002#32 2#32
  st := ⟨.mem, 0x1002#32, 2#32, 0#32, 0#17, 0#17⟩ }

/-- 0x1003 is refused: the second byte of each source and destination, and the first one past them. -/
theorem witness_BusErrorRaised :
    let s := cornered
    let f : Frame := ⟨.expand, 0x1002#32, 1#32, 0#32⟩
    let g : Frame := ⟨.lexpand 0, 0x1002#32, 1#32, 0#32⟩
    let units := sampleUnits ContextRegs.zero (compressInput 0 s)
    (∀ k, memAdmits narrow 0x1003#32 k = false ∧ Admitted narrow k ⟨0x1000#32, 3⟩ ∧ Admitted narrow k ⟨0x1002#32, 1⟩) ∧
    (s.raced = .none ∧ s.mem.wf = true ∧ s.host = [] ∧ s.st.kind = .mem ∧ s.st.pos ≠ s.st.size ∧
      2 ≤ s.st.size.toNat - s.st.pos.toNat ∧ s.st.base + s.st.pos + 1#32 = 0x1003#32) ∧
    (UnpackerOk s.br ∧ 1 < (sourceSpan s).size ∧ s.br.used.toNat + 8 * 1 < 9 ∧ g.isRaw s = false ∧
      (sourceSpan s).base + BitVec.ofNat 32 1 = 0x1003#32 ∧
      decodeUnit ((sourceBits s).take (s.br.used.toNat + 8 * 1)) = .error .unitTruncated) ∧
    (f.isRaw s = true ∧ 1 < (undelivered s).size ∧ (undelivered s).base + BitVec.ofNat 32 1 = 0x1003#32 ∧
      1 < f.stride ∧ f.address + BitVec.ofNat 32 1 = 0x1003#32) ∧
    (let t : State := { s with st := ⟨.mem, 0x1000#32, 2#32, 0#32, 0#17, 0#17⟩ }
     streamBytes t = 0x64#8 :: 0#8 :: [] ∧ CanGet 2 t) ∧
    (PackerOk s.bw ∧ 1 < s.bw.cap.toNat - s.bw.emitted.toNat ∧ s.bw.base + s.bw.emitted + BitVec.ofNat 32 1 = 0x1003#32 ∧
      1 < (s.bw.used.toNat + 32) / 8 ∧ s.bw.used ≠ 0#4 ∧ memAdmits narrow (0x1003#32 + 0#32) .write = false) ∧
    ((compressSource s.args).meets (compressTarget s.args) = false ∧ 8 * 1 < (unitsBits units).length ∧
      1 < s.args.arg3.toNat ∧ Admitted s.plat .read (compressSource s.args)) ∧
    (let a := argsOf 0x1002 1 0x1000 2
     (compressSource a).meets (compressTarget a) = false ∧ 1 < 2 * a.arg1.toNat ∧
        (unitsBits (units.take (1 / 2))).length / 8 ≤ a.arg3.toNat) ∧
    (-(2 ^ (15 - g.shift s)) ≤ unitSample (.escape 5) s.ctx ∧ unitSample (.escape 5) s.ctx ≤ 2 ^ (15 - g.shift s) - 1) :=
  ⟨fun k => ⟨by cases k <;> decide, narrow_admits _ _ (by decide) (by decide),
      narrow_admits _ _ (by decide) (by decide)⟩, by decide,
    ⟨⟨by decide, by decide, fun _ => by decide⟩, by decide, by decide, rfl, by decide, by decide⟩, by decide,
    ⟨by decide, by decide, narrow_admits 0x1000#32 2 (by decide) (by decide)⟩,
    ⟨⟨by decide, by decide, by decide⟩, by decide, by decide, by decide, by decide, by decide⟩,
    ⟨by decide, by decide, by decide, narrow_admits 0x1000#32 2 (by decide) (by decide)⟩, by decide, by decide⟩

end Sys2Proof.Tests
end

section
/-! ## The host's accesses to the register window (R33 to R64) -/

namespace Sys2Proof.Machine

variable {s : State}

/-! ### Offsets and the step of an access -/

theorem offsetOf_regBase_add (p : Platform) {off : Nat} (h : off < 4294967296) :
    offsetOf p (p.regBase + BitVec.ofNat 32 off) = off := by
  unfold offsetOf
  bv_omega

theorem aligned_regBase_add (p : Platform) {off : Nat} (h : off < 4294967296) (h4 : off % 4 = 0) :
    aligned p (p.regBase + BitVec.ofNat 32 off) = true := by
  rw [aligned, beq_iff_eq]
  exact (congrArg (· % 4) (offsetOf_regBase_add p h)).trans h4

/-- A step takes the first of the accesses to come (log 3). -/
theorem step_access {a : Access} {rest : List Access} (h : s.host = a :: rest) :
    step s = accessStep engineTurn a { s with host := rest } := by
  rw [step, agentStep, h]

theorem step_write_register {off : Nat} {v : Word} {rest : List Access} (hoff : off < 4294967296) (h4 : off % 4 = 0)
    (h : s.host = .write (s.plat.regBase + BitVec.ofNat 32 off) v :: rest) :
    step s = .next (hostWrite off v { s with host := rest }) := by
  rw [step_access h, accessStep, if_pos (aligned_regBase_add s.plat hoff h4), offsetOf_regBase_add s.plat hoff]

theorem step_read_register {off : Nat} {rest : List Access} (hoff : off < 4294967296) (h4 : off % 4 = 0)
    (h : s.host = .read (s.plat.regBase + BitVec.ofNat 32 off) :: rest) :
    step s = .next (hostRead off { s with host := rest }) := by
  rw [step_access h, accessStep, if_pos (aligned_regBase_add s.plat hoff h4), offsetOf_regBase_add s.plat hoff]

/-! ### What a register read shows -/

theorem isChunkOffset_of_lt (p : Platform) {off : Nat} (h : off < 4096) : isChunkOffset p off = false := by
  have : ¬ 4096 ≤ off := by omega
  simp [isChunkOffset, this]

/-- Below the CHUNK window and outside STAT_HIST, the registers are the named ones (R34). -/
theorem readRegister_named {off : Nat} (h : off < 256 ∨ 320 ≤ off) (hc : off < 4096) (s : State) :
    readRegister off s = namedRegister off s := by
  rw [readRegister, if_neg (by omega), if_neg (by simp [isChunkOffset_of_lt s.plat hc])]

theorem readRegister_hist (k : Fin 16) (s : State) : readRegister (256 + 4 * k.val) s = some s.stat.hist[k] := by
  have hi : (256 + 4 * k.val - 256) / 4 = k.val := by omega
  rw [readRegister, if_pos (by omega), hi, List.getD_eq_getElem _ _ (by simp)]
  simp

/-- The bytes not to be touched before BUSY = 0 is read, after a read of the register at `off` (R351). -/
def State.unreadAfter (off : Nat) (s : State) : List Word := if off = 0x004 ∧ s.busy = false then [] else s.unread

theorem noted_eq (off : Nat) (s : State) : s.noted off = { s with unread := s.unreadAfter off } := by
  unfold State.noted State.unreadAfter
  split <;> rfl

theorem unreadAfter_of_ne {off : Nat} (h : off ≠ 0x004) (s : State) : s.unreadAfter off = s.unread := by
  simp [State.unreadAfter, h]

theorem unreadAfter_status (s : State) : s.unreadAfter 0x004 = if s.busy then s.unread else [] := by
  cases hb : s.busy <;> simp [State.unreadAfter, hb]

/-- A register that the host may read now gives its value, and changes nothing but R351's window (R33, R63). -/
theorem hostRead_of_readable {off : Nat} {v : Word} (h : readRegister off s = some v)
    (hr : s.busy = false ∨ readableWhileBusy s.plat off = true) :
    hostRead off s = { s with rdata := v, unread := s.unreadAfter off } := by
  have hb : ¬ (s.busy && !readableWhileBusy s.plat off) = true := by rcases hr with e | e <;> simp [e]
  unfold hostRead
  rw [h]
  dsimp only
  rw [if_neg hb, noted_eq]

/-- The step in which the host reads such a register. -/
theorem step_read_readable {off : Nat} {v : Word} {rest : List Access} (hoff : off < 4294967296) (h4 : off % 4 = 0)
    (hv : readRegister off s = some v) (hr : s.busy = false ∨ readableWhileBusy s.plat off = true)
    (h : s.host = .read (s.plat.regBase + BitVec.ofNat 32 off) :: rest) :
    step s = .next { s with host := rest, rdata := v, unread := s.unreadAfter off } := by
  rw [step_read_register hoff h4 h, hostRead_of_readable (s := { s with host := rest }) hv hr]
  rfl

/-- The named registers R63 lets a host read while BUSY = 1. -/
theorem readableWhileBusy_of_mem (p : Platform) {off : Nat}
    (h : off ∈ [0x004, 0x010, 0x014, 0x018, 0x01C, 0x024, 0x0D0, 0x0D4]) : readableWhileBusy p off = true := by
  simp only [List.mem_cons, List.not_mem_nil, or_false] at h
  rcases h with rfl | rfl | rfl | rfl | rfl | rfl | rfl | rfl <;> rfl

theorem readableWhileBusy_chunk {p : Platform} {off : Nat} (h : isChunkOffset p off = true) :
    readableWhileBusy p off = true := by
  simp [readableWhileBusy, h]

/-- Whatever a register read gives, it changes only the value returned, the draw count and R351's window. -/
theorem hostRead_frame (off : Nat) (s : State) :
    hostRead off s = { s with
      rdata := (hostRead off s).rdata, draws := (hostRead off s).draws, unread := (hostRead off s).unread } := by
  unfold hostRead
  split
  · rfl
  · split
    · rfl
    · rw [noted_eq]

/-- An offset that names no register reads 0 (R33). -/
theorem hostRead_unnamed {off : Nat} (h : readRegister off s = none) : hostRead off s = { s with rdata := 0#32 } := by
  rw [hostRead, h]

/-- While no command runs a register read draws no free value (R63). -/
theorem hostRead_draws (off : Nat) (h : s.busy = false) : (hostRead off s).draws = s.draws := by
  cases hr : readRegister off s with
  | none => rw [hostRead_unnamed hr]
  | some v => rw [hostRead_of_readable hr (.inl h)]

/-- The bits of STATUS (R36), for all values of its fields. -/
theorem statusWord_fields (b f r l : Bool) (e : ExpState) :
    let w : Word := BitVec.ofNat 32 (b.toNat + 2 * f.toNat + 4 * r.toNat + 8 * l.toNat + 16 * e.code)
    w.getLsbD 0 = b ∧ w.getLsbD 1 = f ∧ w.getLsbD 2 = r ∧ w.getLsbD 3 = l ∧
      (w >>> 4).toNat = e.code ∧ e.code ≤ 3 := by
  cases e <;> revert b f r l <;> decide

/-- ERR's two bytes side by side (R37). -/
theorem errWord_eq (s : State) : s.errWord = s.err.op.setWidth 32 * 256#32 + s.err.cause.setWidth 32 := by
  unfold State.errWord
  bv_omega

theorem namedRegister_of_mem_registerMap (s : State) : ∀ e ∈ registerMap s, namedRegister e.1 s = some e.2 := by
  simp only [registerMap, List.forall_mem_cons]
  simp [namedRegister, errWord_eq, BitVec.signExtend]
  exact ⟨by cases s.br.mode <;> rfl, by cases s.st.kind <;> rfl⟩

theorem registerMap_offset (s : State) :
    ∀ e ∈ registerMap s, e.1 < 4096 ∧ e.1 % 4 = 0 ∧ (e.1 < 256 ∨ 320 ≤ e.1) := by
  simp [registerMap]

/-- Every entry of R34's map is what a read of its offset shows. -/
theorem readRegister_of_mem_registerMap {off : Nat} {v : Word} (h : (off, v) ∈ registerMap s) :
    readRegister off s = some v := by
  obtain ⟨hlt, -, hh⟩ := registerMap_offset s _ h
  rw [readRegister_named hh hlt]
  exact namedRegister_of_mem_registerMap s _ h

/-! ### What a register write changes -/

theorem hostWrite_cmd (v : Word) (s : State) : hostWrite 0x000 v s = writeCmd v s := rfl

theorem hostWrite_status (v : Word) (s : State) : hostWrite 0x004 v s = s.writeStatus v := rfl

theorem hostWrite_arg0 (v : Word) (s : State) : hostWrite 0x010 v s = writeArg (fun a => { a with arg0 := v }) s := rfl

theorem hostWrite_arg1 (v : Word) (s : State) : hostWrite 0x014 v s = writeArg (fun a => { a with arg1 := v }) s := rfl

theorem hostWrite_arg2 (v : Word) (s : State) : hostWrite 0x018 v s = writeArg (fun a => { a with arg2 := v }) s := rfl

theorem hostWrite_arg3 (v : Word) (s : State) : hostWrite 0x01C v s = writeArg (fun a => { a with arg3 := v }) s := rfl

theorem hostWrite_refillCount (v : Word) (s : State) : hostWrite 0x0D8 v s = writeRefillCount v s := rfl

theorem hostWrite_chunk {j : Nat} (v : Word) (h : isChunkOffset s.plat (4096 + 4 * j) = true) :
    hostWrite (4096 + 4 * j) v s = writeChunk j v s := by
  have hj : (4096 + 4 * j - 4096) / 4 = j := by omega
  unfold hostWrite
  rw [if_pos h, hj]

/-- A read-only register, or an offset that names no register, ignores a write (R33). -/
theorem hostWrite_ignored {off : Nat} (v : Word) (h : off ∉ [0x000, 0x004, 0x010, 0x014, 0x018, 0x01C, 0x0D8])
    (hc : isChunkOffset s.plat off = false) : hostWrite off v s = s := by
  unfold hostWrite
  rw [if_neg (by simp [hc])]
  split <;> simp at h ⊢

theorem writeCmd_of_busy (w : Word) (h : s.busy = true) : writeCmd w s = s.setLost := by
  rw [writeCmd, if_pos h]

theorem writeArg_of_busy (f : ArgRegs → ArgRegs) (h : s.busy = true) : writeArg f s = s.setLost := by
  rw [writeArg, if_pos h]

/-- While BUSY = 1 a write to CMD or an ARG register sets LOST and does nothing else (R64). -/
theorem hostWrite_dropped {off : Nat} (v : Word) (hoff : off ∈ [0x000, 0x010, 0x014, 0x018, 0x01C])
    (h : s.busy = true) : hostWrite off v s = s.setLost := by
  simp only [List.mem_cons, List.not_mem_nil, or_false] at hoff
  rcases hoff with rfl | rfl | rfl | rfl | rfl
  · rw [hostWrite_cmd, writeCmd_of_busy v h]
  · rw [hostWrite_arg0, writeArg_of_busy _ h]
  · rw [hostWrite_arg1, writeArg_of_busy _ h]
  · rw [hostWrite_arg2, writeArg_of_busy _ h]
  · rw [hostWrite_arg3, writeArg_of_busy _ h]

theorem writeArg_of_not_busy (f : ArgRegs → ArgRegs) (h : s.busy = false) :
    writeArg f s = { s with args := f s.args } := by
  rw [writeArg, if_neg (by simp [h])]

/-- Bit 3 of the word written, and no other, clears LOST (R36). -/
theorem writeStatus_eq (v : Word) (s : State) : s.writeStatus v = { s with lost := s.lost && !v.getLsbD 3 } := by
  unfold State.writeStatus
  split
  · next h => rw [h, Bool.not_true, Bool.and_false]
  · next h => rw [Bool.not_eq_true _ |>.mp h, Bool.not_false, Bool.and_true]

theorem writeRefillCount_of_refill {k : Word} {p : HoldPoint} (h : s.task = .refill p) :
    writeRefillCount k s = { s with task := .answered k p } := by
  rw [writeRefillCount, h]

/-- With no refill pending REFILL_COUNT ignores a write (R60). -/
theorem writeRefillCount_ignored (k : Word) (h : s.refillReq = false) : writeRefillCount k s = s := by
  unfold writeRefillCount
  split
  · next p hp => simp [State.refillReq, hp] at h
  · rfl

/-! ### The CHUNK window (R55) -/

/-- The CHUNK window has a word for every four bytes of CHUNK. -/
theorem isChunkOffset_word {p : Platform} {j : Nat} (h : 4 * j < p.chunkBytes) :
    isChunkOffset p (4096 + 4 * j) = true := by
  rw [isChunkOffset, Bool.and_eq_true, decide_eq_true_eq, decide_eq_true_eq, windowBytes]
  omega

theorem readRegister_chunk {j : Nat} (h : isChunkOffset s.plat (4096 + 4 * j) = true) :
    readRegister (4096 + 4 * j) s = some (chunkWord s j) := by
  have hj : (4096 + 4 * j - 4096) / 4 = j := by omega
  rw [readRegister, if_neg (by omega), if_pos h, hj]

/-- The four bytes of a CHUNK window word, little-endian. -/
theorem chunkWord_byte (s : State) (j : Nat) {b : Nat} (h : b < 4) :
    (chunkWord s j >>> (8 * b)).setWidth 8 = s.chunk.getD (4 * j + b) 0#8 := by
  have h0 := (s.chunk.getD (4 * j) 0#8).isLt
  have h1 := (s.chunk.getD (4 * j + 1) 0#8).isLt
  have h2 := (s.chunk.getD (4 * j + 2) 0#8).isLt
  have h3 := (s.chunk.getD (4 * j + 3) 0#8).isLt
  apply BitVec.eq_of_toNat_eq
  simp only [chunkWord, chunkByte, BitVec.toNat_setWidth, BitVec.toNat_ushiftRight, BitVec.toNat_ofNat,
    Nat.shiftRight_eq_div_pow]
  interval_cases b
  · simp only [Nat.add_zero]; omega
  all_goals omega

theorem putChunkByte_eq (k b : Nat) (s : State) :
    putChunkByte k b s = { s with
      chunk := if k < s.refill.max.toNat then s.chunk.set k (BitVec.ofNat 8 b) else s.chunk } := by
  unfold putChunkByte
  split <;> rfl

theorem putChunkByte_refill (k b : Nat) (s : State) : (putChunkByte k b s).refill = s.refill := by
  rw [putChunkByte_eq]

theorem length_putChunkByte (k b : Nat) (s : State) : (putChunkByte k b s).chunk.length = s.chunk.length := by
  rw [putChunkByte_eq]
  dsimp only
  split <;> simp

theorem getD_putChunkByte (k b : Nat) {i : Nat} {s : State} (h : i < s.chunk.length) :
    (putChunkByte k b s).chunk.getD i 0#8 =
      if i = k ∧ k < s.refill.max.toNat then BitVec.ofNat 8 b else s.chunk.getD i 0#8 := by
  rw [putChunkByte_eq]
  by_cases hk : k < s.refill.max.toNat
  · by_cases hi : k = i
    · subst hi
      simp [hk, h, List.getD_eq_getElem?_getD]
    · have hi' : ¬ i = k := fun e => hi e.symm
      simp [hk, hi, hi', List.getD_eq_getElem?_getD]
  · simp [hk]

/-- A write of the CHUNK window changes nothing but CHUNK. -/
theorem writeChunk_frame (j : Nat) (v : Word) (s : State) :
    writeChunk j v s = { s with chunk := (writeChunk j v s).chunk } := by
  unfold writeChunk
  split
  · simp only [putChunkByte_eq]
  · rfl

theorem length_writeChunk (j : Nat) (v : Word) (s : State) :
    (writeChunk j v s).chunk.length = s.chunk.length := by
  unfold writeChunk
  split
  · simp only [length_putChunkByte]
  · rfl

/-- What a write of window word `j` leaves in byte `i` of CHUNK. -/
theorem getD_writeChunk (j : Nat) (v : Word) {i : Nat} {s : State} (h : i < s.chunk.length) :
    (writeChunk j v s).chunk.getD i 0#8 =
      if s.refillReq = true ∧ i / 4 = j ∧ i < s.refill.max.toNat then (v >>> (8 * (i % 4))).setWidth 8
      else s.chunk.getD i 0#8 := by
  have hbyte : ∀ b, BitVec.ofNat 8 (v.toNat / 2 ^ (8 * b)) = (v >>> (8 * b)).setWidth 8 := fun b => by
    apply BitVec.eq_of_toNat_eq
    simp [Nat.shiftRight_eq_div_pow]
  unfold writeChunk
  by_cases hr : s.refillReq = true
  · rw [if_pos hr]
    simp only [getD_putChunkByte, length_putChunkByte, putChunkByte_refill, h, hr, true_and]
    by_cases hj : i / 4 = j
    · have hi : i = 4 * j + i % 4 := by omega
      have h4 : i % 4 < 4 := Nat.mod_lt _ (by decide)
      simp only [hj, true_and]
      rw [← hbyte]
      generalize i % 4 = b at *
      subst hi
      interval_cases b <;> simp
    · have hne : ∀ b, b < 4 → ¬ i = 4 * j + b := fun b hb e => hj (by omega)
      have h0 := hne 0 (by decide)
      simp only [Nat.add_zero] at h0
      simp [hj, h0, hne 1 (by decide), hne 2 (by decide), hne 3 (by decide)]
  · rw [if_neg hr, if_neg fun hc => hr hc.1]

end Sys2Proof.Machine
end

section
/-! ## The register window's statements -/

namespace Sys2Proof.Machine

/-- Settles O9: the register's own write rule drops the write. -/
theorem busyWritesDropped : Obligations.BusyWritesDropped := by
  intro s off v rest hoff h hb
  have hlt : off < 4294967296 ∧ off % 4 = 0 := by
    simp only [List.mem_cons, List.not_mem_nil, or_false] at hoff
    omega
  rw [step_write_register hlt.1 hlt.2 h, hostWrite_dropped (s := { s with host := rest }) v hoff hb]
  rfl

/-- An ARG register, read by `get` and set by `set`, takes a write and reads it back. -/
theorem arg_write_then_read {s : State} {off : Nat} {v : Word} {rest : List Access} (get : ArgRegs → Word)
    (set : ArgRegs → ArgRegs) (hoff : 0x010 ≤ off ∧ off ≤ 0x01C) (h4 : off % 4 = 0)
    (hw : ∀ t, hostWrite off v t = writeArg set t) (hr : ∀ t : State, namedRegister off t = some (get t.args))
    (hv : get (set s.args) = v) (hb : s.busy = false)
    (h : s.host = .write (s.plat.regBase + BitVec.ofNat 32 off) v ::
      .read (s.plat.regBase + BitVec.ofNat 32 off) :: rest) :
    ∃ t, step s = .next t ∧ t = { s with host := t.host, args := set s.args } ∧
      step t = .next { t with host := rest, rdata := v } := by
  have hlt : off < 4294967296 := by omega
  have hne : off ≠ 0x004 := by omega
  have hread : ∀ t : State, t.args = set s.args → t.busy = false →
      t.host = .read (t.plat.regBase + BitVec.ofNat 32 off) :: rest →
      step t = .next { t with host := rest, rdata := v } := fun t ht hbt hh => by
    have hvt : readRegister off t = some v := by rw [readRegister_named (by omega) (by omega), hr, ht, hv]
    rw [step_read_readable hlt h4 hvt (.inl hbt) hh, unreadAfter_of_ne hne]
  have hwrite := step_write_register hlt h4 h
  rw [hw] at hwrite
  exact ⟨_, hwrite.trans (congrArg _ (writeArg_of_not_busy set hb)), rfl, hread _ rfl hb rfl⟩

/-- Settles O10: the four registers are four uses of `arg_write_then_read`. -/
theorem argWriteAndRead : Obligations.ArgWriteAndRead := by
  intro s v rest hb
  refine ⟨fun h => ?_, fun h => ?_, fun h => ?_, fun h => ?_⟩
  · exact arg_write_then_read (·.arg0) _ (by decide) (by decide) (hostWrite_arg0 v) (fun _ => rfl) rfl hb h
  · exact arg_write_then_read (·.arg1) _ (by decide) (by decide) (hostWrite_arg1 v) (fun _ => rfl) rfl hb h
  · exact arg_write_then_read (·.arg2) _ (by decide) (by decide) (hostWrite_arg2 v) (fun _ => rfl) rfl hb h
  · exact arg_write_then_read (·.arg3) _ (by decide) (by decide) (hostWrite_arg3 v) (fun _ => rfl) rfl hb h

/-- Settles O11: the write by `writeStatus_eq`, the read by STATUS's place in R34's map. -/
theorem statusWriteAndRead : Obligations.StatusWriteAndRead := by
  intro s v rest
  refine ⟨fun h => ?_, fun h => ⟨s.statusWord, ?_, statusWord_fields _ _ _ _ _⟩⟩
  · rw [step_write_register (off := 0x004) (by decide) (by decide) h, hostWrite_status, writeStatus_eq]
  · rw [step_read_readable (off := 0x004) (by decide) (by decide) rfl (.inr rfl) h, unreadAfter_status]

/-- Settles O12: any aligned read, the refused accesses, R34's map, STAT_HIST, and the ignored writes, in turn. -/
theorem registerReads : Obligations.RegisterReads := by
  intro s addr bytes rest
  refine ⟨fun h ha => ?_, fun h ha => ?_, fun h => ?_, fun off v hv h hr => ?_, fun k hb h => ?_,
    fun off v hlt h4 hoff hc h => ?_⟩
  · refine ⟨_, by rw [step_access h, accessStep, if_pos ha], hostRead_frame _ { s with host := rest },
      fun hb => hostRead_draws (s := { s with host := rest }) _ hb, fun hn => ?_⟩
    rw [hostRead_unnamed (s := { s with host := rest }) hn]
  · rcases h with h | ⟨v, h⟩ <;> rw [step_access h, accessStep, if_neg (by simp [ha])]
  · rw [step_access h, accessStep]
  · obtain ⟨hlt, h4, -⟩ := registerMap_offset s _ hv
    have hread : s.busy = false ∨ readableWhileBusy s.plat off = true :=
      hr.imp_right (readableWhileBusy_of_mem s.plat)
    exact ⟨_, step_read_readable (by omega) h4 (readRegister_of_mem_registerMap hv) hread h, rfl⟩
  · rw [step_read_readable (by omega) (by omega) (readRegister_hist k s) (.inl hb) h, unreadAfter_of_ne (by omega)]
  · rw [step_write_register hlt h4 h, hostWrite_ignored (s := { s with host := rest }) v hoff hc]

/-- Settles O13: byte by byte, the write by `getD_writeChunk` and the read by `chunkWord_byte`. -/
theorem chunkWindow : Obligations.ChunkWindow := by
  intro s j v rest hp hl hj
  obtain ⟨-, hmax⟩ := hp
  have hoff := isChunkOffset_word hj
  have hlt : 4096 + 4 * j < 4294967296 := by omega
  refine ⟨fun h => ?_, fun h => ⟨chunkWord s j, ?_, fun b hb => chunkWord_byte s j hb⟩⟩
  · refine ⟨(writeChunk j v { s with host := rest }).chunk, ?_, length_writeChunk j v _, fun k hk =>
      getD_writeChunk j v (s := { s with host := rest }) hk⟩
    rw [step_write_register hlt (by omega) h, hostWrite_chunk (s := { s with host := rest }) v hoff, writeChunk_frame]
  · rw [step_read_readable hlt (by omega) (readRegister_chunk hoff) (.inr (readableWhileBusy_chunk hoff)) h,
      unreadAfter_of_ne (by omega)]

/-- Settles O14: STATUS follows from the task the write leaves. -/
theorem refillCountWrite : Obligations.RefillCountWrite := by
  intro s k rest h
  have hstep := step_write_register (off := 0x0D8) (by decide) (by decide) h
  rw [hostWrite_refillCount] at hstep
  refine ⟨fun p hp => ⟨_, hstep.trans ?_, rfl, rfl, rfl⟩, fun hr => hstep.trans ?_⟩
  · rw [writeRefillCount_of_refill (s := { s with host := rest }) hp]
  · rw [writeRefillCount_ignored (s := { s with host := rest }) k hr]

end Sys2Proof.Machine
end

section
/-! ## What every state, every running command and every procedure keeps (R62) -/

namespace Sys2Proof.Machine

/-! ### Three predicates on states and results -/

/-- What holds faulted or not: the parameters in range, memory canonical, CHUNK of CHUNK_BYTES bytes. -/
def Grounded (s : State) : Prop := PlatformOk s.plat ∧ s.mem.wf = true ∧ s.chunk.length = s.plat.chunkBytes

/-- What holds inside a command: no fault, and R62's registers in order. -/
def Healthy (s : State) : Prop := Grounded s ∧ s.fault = false ∧ RegistersOk s

/-- A procedure's result from which the invariant can be had: `q` of what it returns; at a raise the grounded part of
the state, as R306 frees the rest; at a hold a refill wait in order (R212). -/
def Res.Sound {α : Type} (q : α → State → Prop) (r : Res α) : Prop :=
  match r with
  | .ok a s => q a s
  | .raise _ _ s => Grounded s
  | .hold p s => Healthy s ∧ RefillOk s ∧ PointOk p s

/-- An outcome that keeps the invariant: its next state, if it has one, meets it. -/
def Keeps (o : Host.Outcome State Fault Refusal) : Prop := ∀ t, o = .next t → Inv t

@[simp] theorem keeps_next {t : State} : Keeps (.next t) ↔ Inv t :=
  ⟨fun h => h t rfl, fun h _ e => by cases e; exact h⟩

@[simp] theorem keeps_fault (r : Fault) : Keeps (.fault r) := fun _ e => by cases e

@[simp] theorem keeps_refused (r : Refusal) : Keeps (.refused r) := fun _ e => by cases e

/-! ### The rules of `Res.Sound` -/

section
variable {α β : Type} {q q' : α → State → Prop} {r : Res α}

@[simp] theorem sound_ok {a : α} {s : State} : (Res.ok a s).Sound q ↔ q a s := Iff.rfl

@[simp] theorem sound_raise {c : Cause} {info : Word} {s : State} :
    (Res.raise c info s : Res α).Sound q ↔ Grounded s := Iff.rfl

@[simp] theorem sound_hold {p : HoldPoint} {s : State} :
    (Res.hold p s : Res α).Sound q ↔ Healthy s ∧ RefillOk s ∧ PointOk p s := Iff.rfl

theorem Res.Sound.imp (h : r.Sound q) (hq : ∀ a s, q a s → q' a s) : r.Sound q' := by
  cases r with
  | ok a s => exact hq a s h
  | raise c info s => exact h
  | hold p s => exact h

theorem Res.Sound.bind {p : β → State → Prop} {k : α → State → Res β} (h : r.Sound q)
    (hk : ∀ a s, q a s → (k a s).Sound p) : (r.bind k).Sound p := by
  cases r with
  | ok a s => exact hk a s h
  | raise c info s => exact h
  | hold p s => exact h

theorem Res.Sound.indexed (i : Word) (h : r.Sound q) : (r.indexed i).Sound q := by
  cases r with
  | ok a s => exact h
  | raise c info s => exact h
  | hold p s => exact h

end

/-! ### Taking the invariant apart and putting it together -/

theorem grounded_of_inv {s : State} (h : Inv s) : Grounded s := by
  obtain ⟨hp, hm, hc, -⟩ := h
  exact ⟨hp, hm, hc⟩

theorem healthy_of_inv {s : State} (h : Inv s) (hf : s.fault = false) : Healthy s ∧ TaskOk s := by
  obtain ⟨hp, hm, hc, -, -, hr⟩ := h
  exact ⟨⟨⟨hp, hm, hc⟩, hf, (hr hf).1⟩, (hr hf).2⟩

/-- Only SOFT_RESET runs while faulted, so every other command in progress runs without a fault (R300). -/
theorem fault_eq_false_of_inv {s : State} (h : Inv s) (hi : s.task ≠ .idle) (hr : s.task ≠ .issued 1#32) :
    s.fault = false := by
  obtain ⟨-, -, -, -, hf, -⟩ := h
  by_contra hc
  rcases hf (by simpa using hc) with e | e
  · exact hi e
  · exact hr e

theorem Healthy.grounded {s : State} (h : Healthy s) : Grounded s := h.1

theorem Grounded.mem_wf {s : State} (h : Grounded s) : s.mem.wf = true := h.2.1

theorem Healthy.inv {s : State} (h : Healthy s) (ht : TaskOk s) (hr : s.task = .idle → s.raced = .none) : Inv s := by
  obtain ⟨⟨hp, hm, hc⟩, hf, hregs⟩ := h
  have hfo : FaultOk s := fun e => absurd e (by simp [hf])
  exact ⟨hp, hm, hc, hr, hfo, fun _ => ⟨hregs, ht⟩⟩

theorem Healthy.inv_finish {s : State} (h : Healthy s) : Inv s.finish :=
  Healthy.inv (s := s.finish) h trivial fun _ => rfl

/-- Fault entry meets the invariant whatever the registers hold (R306). -/
theorem Grounded.inv_faultEntry {s : State} (h : Grounded s) (c : Cause) (op : Nat) (info : Word) :
    Inv (faultEntry c op info s) := by
  obtain ⟨hp, hm, hc⟩ := h
  exact ⟨hp, hm, hc, fun _ => rfl, fun _ => .inl rfl, fun e => by cases e⟩

theorem Healthy.inv_faultEntry {s : State} (h : Healthy s) (c : Cause) (op : Nat) (info : Word) :
    Inv (faultEntry c op info s) := h.grounded.inv_faultEntry c op info

/-- A command's end meets the invariant when its procedure's result is sound and its write set spares memory and
CHUNK. -/
theorem Res.Sound.inv_conclude {α : Type} {q : α → State → Prop} {r : Res α} (h : r.Sound q) (op : Nat)
    {spoil : State → State} {done : α → State → State} (hs : ∀ s, Grounded s → Grounded (spoil s))
    (hd : ∀ a s, q a s → Inv (done a s)) : Inv (conclude op spoil done r) := by
  cases r with
  | ok a s => exact hd a s h
  | raise c info s => exact (hs s h).inv_faultEntry c op info
  | hold p s =>
    obtain ⟨hh, hr, hp⟩ := h
    exact Healthy.inv (s := { s with task := .refill p }) hh ⟨hr, hp⟩ fun e => by cases e

/-! ### The write sets of a fault spare memory and CHUNK (R294, R306) -/

theorem Grounded.congr {s t : State} (h : Grounded s) (hp : t.plat = s.plat) (hm : t.mem = s.mem)
    (hc : t.chunk = s.chunk) : Grounded t := by
  rw [Grounded, hp, hm, hc]
  exact h

theorem Grounded.spoilGet {s : State} (h : Grounded s) : Grounded (spoilGet s) :=
  h.congr (by simp [Machine.spoilGet]) (by simp [Machine.spoilGet]) (by simp [Machine.spoilGet])

theorem Grounded.spoilRead {s : State} (h : Grounded s) : Grounded (spoilRead s) := by
  unfold Machine.spoilRead
  split <;> exact h.congr (by simp) (by simp) (by simp)

theorem Grounded.spoilDecode (f : Frame) {s : State} (h : Grounded s) : Grounded (spoilDecode f s) := by
  unfold Machine.spoilDecode
  split <;> exact h.congr (by simp) (by simp) (by simp)

theorem Grounded.spoilCompress (stats : Bool) {s : State} (h : Grounded s) : Grounded (spoilCompress stats s) := by
  cases stats <;>
    exact h.congr (by simp [Machine.spoilCompress]) (by simp [Machine.spoilCompress]) (by simp [Machine.spoilCompress])

/-! ### The memory port (R82, R83) -/

/-- `t` is `s` after accesses through the memory port: other bytes in canonical memory, free values drawn, written bytes
noted. -/
def PortMoved (s t : State) : Prop :=
  ∃ m d u, Memory.wf m = true ∧ t = { s with mem := m, draws := d, unread := u }

theorem PortMoved.refl {s : State} (h : s.mem.wf = true) : PortMoved s s := ⟨s.mem, s.draws, s.unread, h, rfl⟩

theorem PortMoved.trans {s t u : State} (h : PortMoved s t) (k : PortMoved t u) : PortMoved s u := by
  obtain ⟨_, _, _, -, rfl⟩ := h
  obtain ⟨m, d, w, hm, rfl⟩ := k
  exact ⟨m, d, w, hm, rfl⟩

theorem PortMoved.grounded {s t : State} (h : PortMoved s t) (hs : Grounded s) : Grounded t := by
  obtain ⟨m, d, u, hm, rfl⟩ := h
  obtain ⟨hp, -, hc⟩ := hs
  exact ⟨hp, hm, hc⟩

theorem PortMoved.healthy {s t : State} (h : PortMoved s t) (hs : Healthy s) : Healthy t := by
  obtain ⟨hg, hf, hr⟩ := hs
  have hgt := h.grounded hg
  obtain ⟨m, d, u, -, rfl⟩ := h
  exact ⟨hgt, hf, hr⟩

theorem sound_readByte (a : Word) {s : State} (h : Grounded s) : (readByte a s).Sound fun _ t => PortMoved s t := by
  rcases readByte_cases a s with ⟨-, b, d, e⟩ | ⟨-, e⟩
  · rw [e]; exact ⟨s.mem, d, s.unread, h.mem_wf, rfl⟩
  · rw [e]; exact h

theorem sound_writeByte (a : Word) (b : Byte) {s : State} (h : Grounded s) :
    (writeByte a b s).Sound fun _ t => PortMoved s t := by
  rcases writeByte_cases a b s with ⟨-, v, d, e⟩ | ⟨-, e⟩
  · rw [e]; exact ⟨_, d, s.noteWritten a, Memory.wf_write_word _ _ _ h.mem_wf, rfl⟩
  · rw [e]; exact h

theorem sound_memRead16 (a : Word) {s : State} (h : Grounded s) : (memRead16 a s).Sound fun _ t => PortMoved s t :=
  (sound_readByte a h).bind fun _ _ h1 =>
    (sound_readByte (a + 1#32) (h1.grounded h)).bind fun _ _ h2 => h1.trans h2

theorem sound_memWrite (n : Nat) (a : Word) (v : Nat) {s : State} (h : Grounded s) :
    (memWrite n a v s).Sound fun _ t => PortMoved s t := by
  induction n generalizing a v s with
  | zero => exact PortMoved.refl h.mem_wf
  | succ n ih =>
    exact (sound_writeByte a _ h).bind fun _ _ h1 =>
      (ih (a + 1#32) (v / 256) (h1.grounded h)).imp fun _ _ h2 => h1.trans h2

/-! ### Register updates inside a command -/

theorem Healthy.with_acc {s : State} (h : Healthy s) {a : AccRegs} (ha : AccOk a) : Healthy { s with acc := a } := by
  obtain ⟨hg, hf, -, hbw, hbr, hst, hexp⟩ := h
  exact ⟨hg, hf, ha, hbw, hbr, hst, hexp⟩

theorem Healthy.with_bw {s : State} (h : Healthy s) {b : PackerRegs} (hb : PackerOk b) :
    Healthy { s with bw := b } := by
  obtain ⟨hg, hf, hacc, -, hbr, hst, hexp⟩ := h
  exact ⟨hg, hf, hacc, hb, hbr, hst, hexp⟩

theorem Healthy.with_br {s : State} (h : Healthy s) {b : UnpackerRegs} (hb : UnpackerOk b) :
    Healthy { s with br := b } := by
  obtain ⟨hg, hf, hacc, hbw, -, hst, hexp⟩ := h
  exact ⟨hg, hf, hacc, hbw, hb, hst, hexp⟩

theorem Healthy.with_st {s : State} (h : Healthy s) {t : StreamRegs} (ht : StreamOk s.plat t) :
    Healthy { s with st := t } := by
  obtain ⟨hg, hf, hacc, hbw, hbr, -, hexp⟩ := h
  exact ⟨hg, hf, hacc, hbw, hbr, ht, hexp⟩

theorem Healthy.with_exp {s : State} (h : Healthy s) {e : ExpanderRegs} (he : ExpanderOk e) :
    Healthy { s with exp := e } := by
  obtain ⟨hg, hf, hacc, hbw, hbr, hst, -⟩ := h
  exact ⟨hg, hf, hacc, hbw, hbr, hst, he⟩

theorem Healthy.accOk {s : State} (h : Healthy s) : AccOk s.acc := by
  obtain ⟨-, -, hacc, -⟩ := h
  exact hacc

theorem Healthy.packerOk {s : State} (h : Healthy s) : PackerOk s.bw := by
  obtain ⟨-, -, -, hbw, -⟩ := h
  exact hbw

theorem Healthy.unpackerOk {s : State} (h : Healthy s) : UnpackerOk s.br := by
  obtain ⟨-, -, -, -, hbr, -⟩ := h
  exact hbr

theorem Healthy.streamOk {s : State} (h : Healthy s) : StreamOk s.plat s.st := by
  obtain ⟨-, -, -, -, -, hst, -⟩ := h
  exact hst

theorem Healthy.expanderOk {s : State} (h : Healthy s) : ExpanderOk s.exp := by
  obtain ⟨-, -, -, -, -, -, hexp⟩ := h
  exact hexp

theorem expanderOk_unbound (e : ExpanderRegs) : ExpanderOk { e with state := .unbound } :=
  ⟨fun h => absurd rfl h, by simp⟩

theorem Healthy.invalidateSession {s : State} (h : Healthy s) : Healthy s.invalidateSession :=
  h.with_exp (expanderOk_unbound s.exp)

theorem Healthy.setReturned {s : State} (h : Healthy s) (v : Word) : Healthy (s.setReturned v) := by
  unfold State.setReturned
  split <;> exact h

end Sys2Proof.Machine
end

section
/-! ## Packer, stream unit and unpacker keep a running command healthy -/

namespace Sys2Proof.Machine

/-! ### The registers' own updates -/

theorem accOk_zero : AccOk .zero := ⟨by decide, by decide⟩

theorem packerOk_bound (dst cap : Word) : PackerOk (.bound dst cap) :=
  ⟨by simp [PackerRegs.bound], by simp [PackerRegs.bound], by simp [PackerRegs.bound]⟩

theorem unpackerOk_bound (mode : BrMode) (base limit : Word) : UnpackerOk (.bound mode base limit) :=
  ⟨by simp [UnpackerRegs.bound], by simp [UnpackerRegs.bound], fun _ => by simp [UnpackerRegs.bound]⟩

/-- A stream just bound, at its first byte with an empty working buffer. -/
theorem streamOk_bound (p : Platform) (kind : StKind) (base size : Word) :
    StreamOk p { kind := kind, base := base, size := size, pos := 0#32, fill := 0#17, idx := 0#17 } :=
  ⟨by simp, by simp, by simp⟩

theorem expanderOk_zero : ExpanderOk .zero := expanderOk_unbound .zero

theorem expanderOk_init (sh fmt : Nat) (n : Word) : ExpanderOk (.init sh fmt n) := by
  by_cases h : n = 0#32
  · simp [ExpanderRegs.init, ExpanderOk, h]
  · have h' : ¬ 0#32 = n := fun e => h e.symm
    simp [ExpanderRegs.init, ExpanderOk, h, h']

/-- One sample further, a session stays in order (R261). -/
theorem expanderOk_advance {e : ExpanderRegs} (h : e.pos.toNat < e.nSamples.toNat) : ExpanderOk e.advance := by
  have h1 : (e.pos + 1#32).toNat = e.pos.toNat + 1 := by bv_omega
  have hu : e.advance.state ≠ .unbound := by unfold ExpanderRegs.advance; dsimp only; split <;> simp
  refine ⟨fun _ => ?_, ?_⟩
  · show (e.pos + 1#32).toNat ≤ e.nSamples.toNat
    omega
  · rw [and_iff_right hu]
    unfold ExpanderRegs.advance
    dsimp only
    split <;> simp_all

theorem accOk_push {a : AccRegs} {n : Nat} {v : Word} (h : AccOk a) (hu : a.used.toNat + n ≤ 32)
    (hv : v.toNat < 2 ^ n) : AccOk (a.push n v) := by
  obtain ⟨-, hval⟩ := h
  have hused : (BitVec.ofNat 6 (a.used.toNat + n)).toNat = a.used.toNat + n := by
    rw [BitVec.toNat_ofNat]; omega
  refine ⟨by rw [AccRegs.push, hused]; exact hu, ?_⟩
  show (BitVec.ofNat 32 _).toNat < 2 ^ (BitVec.ofNat 6 _).toNat
  rw [hused, BitVec.toNat_ofNat]
  calc (a.val.toNat * 2 ^ n + v.toNat) % 2 ^ 32
      ≤ a.val.toNat * 2 ^ n + v.toNat := Nat.mod_le _ _
    _ < (a.val.toNat + 1) * 2 ^ n := by rw [Nat.add_mul, Nat.one_mul]; omega
    _ ≤ 2 ^ a.used.toNat * 2 ^ n := Nat.mul_le_mul_right _ hval
    _ = 2 ^ (a.used.toNat + n) := (pow_add _ _ _).symm

theorem accOk_pop {a : AccRegs} (n : Nat) (h : AccOk a) : AccOk (a.pop n) := by
  obtain ⟨hu, -⟩ := h
  have hused : (BitVec.ofNat 6 (a.used.toNat - n)).toNat = a.used.toNat - n := by
    rw [BitVec.toNat_ofNat]; omega
  refine ⟨by rw [AccRegs.pop, hused]; omega, ?_⟩
  show (BitVec.ofNat 32 _).toNat < 2 ^ (BitVec.ofNat 6 _).toNat
  rw [hused, BitVec.toNat_ofNat]
  exact Nat.lt_of_le_of_lt (Nat.mod_le _ _) (Nat.mod_lt _ (by positivity))

/-! ### The packer (R162 to R165) -/

/-- `Emit` moves memory's bytes and BW_EMITTED alone, and has room to. The packer need not be in order: its stage may be
full meanwhile. -/
theorem sound_emit (b : Byte) {s : State} (h : Grounded s) :
    (emit b s).Sound fun _ t => s.bw.emitted ≠ s.bw.cap ∧
      ∃ u, PortMoved s u ∧ t = { u with bw := { u.bw with emitted := u.bw.emitted + 1#32 } } := by
  unfold emit
  split
  · exact h
  · next hne => exact (sound_writeByte _ b h).bind fun _ u hu => ⟨hne, u, hu, rfl⟩

/-- The packer with one byte more emitted and an empty stage is in order. -/
theorem packerOk_emitted {b : PackerRegs} (h : b.emitted.toNat ≤ b.cap.toNat) (hne : b.emitted ≠ b.cap) :
    PackerOk { b with emitted := b.emitted + 1#32, stage := 0#8, used := 0#4 } := by
  refine ⟨by simp, by simp, ?_⟩
  show (b.emitted + 1#32).toNat ≤ b.cap.toNat
  bv_omega

/-- A byte out and the stage emptied, from a healthy state whatever the stage took meanwhile. -/
theorem sound_emit_empty (b stage : Byte) (used : BitVec 4) {s : State} (h : Healthy s) :
    ((emit b { s with bw := { s.bw with stage := stage, used := used } }).bind fun _ s =>
      .ok () { s with bw := { s.bw with stage := 0#8, used := 0#4 } }).Sound fun _ => Healthy := by
  refine (sound_emit b (s := { s with bw := { s.bw with stage := stage, used := used } }) h.grounded).bind ?_
  rintro _ _ ⟨hne, u, ⟨m, d, l, hm, rfl⟩, rfl⟩
  obtain ⟨-, -, hcap⟩ := h.packerOk
  have hp : PortMoved s { s with mem := m, draws := d, unread := l } := ⟨m, d, l, hm, rfl⟩
  exact (hp.healthy h).with_bw (packerOk_emitted hcap hne)

theorem sound_packBit (bit : Bool) {s : State} (h : Healthy s) : (packBit bit s).Sound fun _ => Healthy := by
  obtain ⟨hu, hs, hcap⟩ := h.packerOk
  unfold packBit
  dsimp only
  split
  · exact sound_emit_empty _ _ _ h
  · next h8 =>
    have hu1 : (s.bw.used + 1#4).toNat = s.bw.used.toNat + 1 := by bv_omega
    have hne : s.bw.used.toNat + 1 ≠ 8 := fun e => h8 (BitVec.eq_of_toNat_eq (hu1.trans e))
    refine h.with_bw ⟨by show (s.bw.used + 1#4).toNat ≤ 7; omega, ?_, hcap⟩
    show (BitVec.ofNat 8 _).toNat < 2 ^ (s.bw.used + 1#4).toNat
    have hb := bit.toNat_lt
    rw [hu1, pow_succ, BitVec.toNat_ofNat]
    exact Nat.lt_of_le_of_lt (Nat.mod_le _ _) (by omega)

theorem sound_packBits (v n : Nat) {s : State} (h : Healthy s) : (packBits v n s).Sound fun _ => Healthy := by
  induction n generalizing s with
  | zero => exact h
  | succ n ih => exact (sound_packBit _ h).bind fun _ _ ht => ih ht

theorem sound_flushPacker {s : State} (h : Healthy s) : (flushPacker s).Sound fun _ => Healthy := by
  unfold flushPacker
  split
  · exact h
  · exact sound_emit_empty _ s.bw.stage s.bw.used h

/-! ### The stream unit (R211, R212) -/

/-- What a procedure that reads the stream or the bitstream leaves alone of what a session depends on. -/
structure SameSession (s t : State) : Prop where
  exp : t.exp = s.exp
  mode : t.br.mode = s.br.mode

theorem SameSession.refl (s : State) : SameSession s s := ⟨rfl, rfl⟩

theorem SameSession.trans {s t u : State} (h : SameSession s t) (k : SameSession t u) : SameSession s u :=
  ⟨k.exp.trans h.exp, k.mode.trans h.mode⟩

theorem SameSession.frameOk {s t : State} (h : SameSession s t) {f : Frame} (hf : FrameOk f s) : FrameOk f t := by
  unfold FrameOk at *
  rw [h.exp, h.mode]
  exact hf

/-- What StreamGet and its refill keep: the command stays healthy, with its session and unpacker as they were. -/
structure StreamMoved (s t : State) : Prop where
  healthy : Healthy t
  exp : t.exp = s.exp
  br : t.br = s.br

theorem StreamMoved.sameSession {s t : State} (h : StreamMoved s t) : SameSession s t := ⟨h.exp, by rw [h.br]⟩

/-- One byte further in a CHUNK stream whose working buffer holds a byte. -/
theorem Healthy.chunk_moved {s : State} (h : Healthy s) (hp : s.st.pos ≠ s.st.size) (hi : s.st.idx ≠ s.st.fill) :
    Healthy { s with st := { s.st with idx := s.st.idx + 1#17, pos := s.st.pos + 1#32 } } := by
  obtain ⟨hpos, hidx, hfill⟩ := h.streamOk
  refine h.with_st ⟨?_, ?_, hfill⟩
  · show (s.st.pos + 1#32).toNat ≤ s.st.size.toNat
    bv_omega
  · show (s.st.idx + 1#17).toNat ≤ s.st.fill.toNat
    bv_omega

/-- A refill that StreamGet asks for is in order: R211's maximum fits REFILL_MAX. -/
theorem Healthy.refillOk {s : State} (h : Healthy s) (hk : s.st.kind = .chunk) (hp : s.st.pos ≠ s.st.size)
    (hi : s.st.idx = s.st.fill) :
    RefillOk { s with refill := { offset := s.st.pos, max := BitVec.ofNat 17 (refillMax s) } } := by
  obtain ⟨hpos, -, -⟩ := h.streamOk
  obtain ⟨⟨-, hc⟩, -, -⟩ := h.grounded
  refine ⟨hk, by show s.st.pos.toNat < s.st.size.toNat; bv_omega, hi, rfl, ?_⟩
  show (BitVec.ofNat 17 (refillMax s)).toNat = refillMax s
  rw [BitVec.toNat_ofNat, refillMax]
  omega

theorem pointOk_congr {p : HoldPoint} {s t : State} (h : PointOk p s) (he : t.exp = s.exp) (hb : t.br = s.br) :
    PointOk p t := by
  cases p <;> simp only [PointOk, FrameOk, he, hb] at * <;> exact h

theorem sound_streamGet {p : HoldPoint} {s : State} (h : Healthy s) (hp : PointOk p s) :
    (streamGet p s).Sound fun _ => StreamMoved s := by
  unfold streamGet
  split
  · exact h.grounded
  · split
    · exact h.grounded
    · next hne =>
      refine (sound_readByte _ h.grounded).bind ?_
      rintro b _ ⟨m, d, u, hm, rfl⟩
      have hport : PortMoved s { s with mem := m, draws := d, unread := u } := ⟨m, d, u, hm, rfl⟩
      obtain ⟨hpos, hidx, hfill⟩ := h.streamOk
      refine ⟨(hport.healthy h).with_st ⟨?_, hidx, hfill⟩, rfl, rfl⟩
      show (s.st.pos + 1#32).toNat ≤ s.st.size.toNat
      bv_omega
  · next hk =>
    split
    · exact h.grounded
    · next hne =>
      split
      · next hi => exact ⟨h, h.refillOk hk hne hi, pointOk_congr hp rfl rfl⟩
      · next hi => exact ⟨h.chunk_moved hne hi, rfl, rfl⟩

theorem sound_streamResume (k : Word) {s : State} (h : Healthy s) (hr : RefillOk s) :
    (streamResume k s).Sound fun _ => StreamMoved s := by
  obtain ⟨-, hlt, -, -, hmax⟩ := hr
  obtain ⟨⟨-, hc⟩, -, -⟩ := h.grounded
  rcases streamResume_cases k s with ⟨hk, hle, e⟩ | ⟨-, e⟩ | ⟨-, e⟩
  · rw [e]
    have hk0 : k.toNat ≠ 0 := fun e0 => hk (BitVec.eq_of_toNat_eq e0)
    rw [hmax, refillMax] at hle
    have hfill : (k.setWidth 17).toNat = k.toNat := by rw [BitVec.toNat_setWidth]; omega
    refine ⟨h.with_st ⟨?_, ?_, ?_⟩, rfl, rfl⟩
    · show (s.st.pos + 1#32).toNat ≤ s.st.size.toNat
      bv_omega
    · show (1#17).toNat ≤ (k.setWidth 17).toNat
      rw [hfill, show (1#17).toNat = 1 from rfl]; omega
    · show (k.setWidth 17).toNat ≤ s.plat.chunkBytes
      omega
  · rw [e]; exact h.grounded
  · rw [e]; exact h.grounded

/-! ### The unpacker (R182, R183) -/

/-- What reading bits keeps: the command stays healthy and its session as it was. -/
structure ReadMoved (s t : State) : Prop where
  healthy : Healthy t
  session : SameSession s t

theorem SameSession.readMoved {s t u : State} (h : SameSession s t) (k : ReadMoved t u) : ReadMoved s u :=
  ⟨k.healthy, h.trans k.session⟩

/-- A fetched byte is taken with all its bits; a FLAT unpacker's count stays within its limit. -/
theorem Healthy.loadByte {s : State} (h : Healthy s) (b : Byte)
    (hf : s.br.mode = .flat → s.br.consumed ≠ s.br.limit) : Healthy (loadByte b s) := by
  obtain ⟨-, -, hlim⟩ := h.unpackerOk
  have hu : (8#4).toNat ≤ 8 := by decide
  have hb : b.toNat < 2 ^ (8#4).toNat := b.isLt
  unfold Machine.loadByte countFetch
  split
  · next hall =>
    refine Healthy.with_br (s := s.drawn 1) h ⟨hu, hb, fun hm => ?_⟩
    have hle := hlim hm
    exact absurd (by rw [hall] at hle ⊢; bv_omega) (hf hm)
  · next hall =>
    refine h.with_br ⟨hu, hb, fun hm => ?_⟩
    show (s.br.consumed + 1#32).toNat ≤ s.br.limit.toNat
    have hle := hlim hm
    have hne := hf hm
    bv_omega

@[simp] theorem loadByte_exp (b : Byte) (s : State) : (loadByte b s).exp = s.exp := by
  unfold loadByte countFetch; dsimp only; split <;> rfl

@[simp] theorem loadByte_mode (b : Byte) (s : State) : (loadByte b s).br.mode = s.br.mode := by
  unfold loadByte countFetch; dsimp only; split <;> rfl

@[simp] theorem loadByte_used (b : Byte) (s : State) : (loadByte b s).br.used = 8#4 := rfl

theorem sameSession_loadByte (b : Byte) (s : State) : SameSession s (loadByte b s) :=
  ⟨loadByte_exp b s, loadByte_mode b s⟩

/-- A byte that StreamGet delivered to a STREAM unpacker is taken. -/
theorem StreamMoved.loadByte {s t : State} (h : StreamMoved s t) (b : Byte) (hm : s.br.mode = .stream) :
    ReadMoved s (loadByte b t) := by
  have hm' : t.br.mode = .stream := h.sameSession.mode.trans hm
  exact ⟨h.healthy.loadByte b fun e => absurd (hm'.symm.trans e) (by decide),
    h.sameSession.trans (sameSession_loadByte b t)⟩

theorem sound_brFetch {p : HoldPoint} {s : State} (h : Healthy s) (hp : s.br.mode = .stream → PointOk p s) :
    (brFetch p s).Sound fun b t => ReadMoved s (loadByte b t) := by
  unfold brFetch
  split
  · split
    · exact h.grounded
    · next hne =>
      refine (sound_readByte _ h.grounded).imp ?_
      rintro b t hport
      have ht := hport.healthy h
      have hst : SameSession s t := by obtain ⟨_, _, _, -, rfl⟩ := hport; exact ⟨rfl, rfl⟩
      have hbr : t.br = s.br := by obtain ⟨_, _, _, -, rfl⟩ := hport; rfl
      exact ⟨ht.loadByte b fun _ => by rw [hbr]; exact hne, hst.trans (sameSession_loadByte b t)⟩
  · next hm => exact (sound_streamGet h (hp hm)).imp fun b t ht => ht.loadByte b hm
  · exact h.grounded

theorem sound_needBit {p : HoldPoint} {s : State} (h : Healthy s)
    (hp : s.br.mode = .stream → s.br.used = 0#4 → PointOk p s) :
    (needBit p s).Sound fun _ t => ReadMoved s t ∧ t.br.used ≠ 0#4 := by
  unfold needBit
  split
  · next h0 =>
    exact (sound_brFetch h fun hm => hp hm h0).bind fun b t ht => ⟨ht, by rw [loadByte_used]; decide⟩
  · next h0 => exact ⟨⟨h, .refl s⟩, h0⟩

theorem Healthy.dropBit {s : State} (h : Healthy s) (h0 : s.br.used ≠ 0#4) : Healthy (dropBit s) := by
  obtain ⟨hu, -, hlim⟩ := h.unpackerOk
  have h1 : (s.br.used - 1#4).toNat = s.br.used.toNat - 1 := by bv_omega
  refine h.with_br ⟨?_, ?_, hlim⟩
  · show (s.br.used - 1#4).toNat ≤ 8
    omega
  · show (BitVec.ofNat 8 _).toNat < 2 ^ (s.br.used - 1#4).toNat
    rw [h1, BitVec.toNat_ofNat]
    exact Nat.lt_of_le_of_lt (Nat.mod_le _ _) (Nat.mod_lt _ (by positivity))

/-- `UnpackBits` keeps the command healthy and its value fits the field, if every point it may be held at is in
order. -/
theorem sound_unpackFrom {point : Nat → Nat → HoldPoint} {width : Nat} (n r : Nat) {s : State} (h : Healthy s)
    (hp : ∀ r left t, FieldOk r left width → SameSession s t → t.br.mode = .stream → t.br.used = 0#4 →
      PointOk (point r left) t)
    (hn : n ≤ width) (hr : r < 2 ^ (width - n)) :
    (unpackFrom point n r s).Sound fun v t => ReadMoved s t ∧ v < 2 ^ width := by
  induction n generalizing r s with
  | zero => exact ⟨⟨h, .refl s⟩, hr⟩
  | succ n ih =>
    refine (sound_needBit h fun hm h0 => hp r (n + 1) s ⟨by omega, hn, hr⟩ (.refl s) hm h0).bind ?_
    rintro _ t ⟨⟨ht, hst⟩, h0⟩
    have hr' : 2 * r + (headBit t).toNat < 2 ^ (width - n) := by
      rw [show width - n = width - (n + 1) + 1 by omega, pow_succ]
      have := (headBit t).toNat_lt
      omega
    have hst' : SameSession s (dropBit t) := ⟨hst.exp, hst.mode⟩
    exact (ih _ (ht.dropBit h0) (fun r left u hf hu => hp r left u hf (hst'.trans hu)) (by omega) hr').imp
      fun _ _ ⟨hu, hlt⟩ => ⟨hst'.readMoved hu, hlt⟩

end Sys2Proof.Machine
end

section
/-! ## The decoding loop keeps the invariant -/

namespace Sys2Proof.Machine

/-! ### Reading a code unit (R240) -/

/-- What a decoding command keeps true from one read to the next: it is healthy and its frame is in order. -/
structure Decoding (f : Frame) (s : State) : Prop where
  healthy : Healthy s
  frame : FrameOk f s

theorem SameSession.decoding {s t : State} {f : Frame} (h : SameSession s t) (hf : FrameOk f s) (ht : Healthy t) :
    Decoding f t := ⟨ht, h.frameOk hf⟩

/-- A field of which nothing has been read. -/
theorem fieldOk_zero {width : Nat} (h : 1 ≤ width) : FieldOk 0 width width := ⟨h, Nat.le_refl _, by positivity⟩

/-- A field of a code unit is read, held where its phase says. -/
theorem sound_unitField {f : Frame} {phase : Nat → Nat → UnitPhase} {width n r : Nat} {s : State} (h : Decoding f s)
    (hp : ∀ r left, FieldOk r left width → PhaseOk (phase r left)) (hn : FieldOk r n width) :
    (unpackFrom (fun r left => .unit f (phase r left)) n r s).Sound fun v t => Decoding f t ∧ v < 2 ^ width := by
  obtain ⟨-, hle, hr⟩ := hn
  refine (sound_unpackFrom n r h.healthy (fun r left _ hf hst hm h0 => ?_) hle hr).imp fun _ _ ⟨ht, hv⟩ =>
    ⟨ht.session.decoding h.frame ht.healthy, hv⟩
  exact ⟨hst.frameOk h.frame, hp r left hf, hm, h0⟩

theorem sound_readMag {f : Frame} {code r left : Nat} {sign : Bool} {s : State} (h : Decoding f s) (hc : code ≤ 14)
    (hf : FieldOk r left (code + 1)) : (readMag f code sign r left s).Sound fun _ => Decoding f :=
  (sound_unitField (phase := fun r left => .mag code sign r left) h (fun _ _ hf => ⟨hc, hf⟩) hf).bind
    fun _ _ ⟨ht, _⟩ => ht

theorem sound_readSign {f : Frame} {code : Nat} {s : State} (h : Decoding f s) (hc : code ≤ 14) :
    (readSign f code s).Sound fun _ => Decoding f :=
  (sound_unitField (phase := fun _ _ => .sign code) h (fun _ _ _ => hc) (fieldOk_zero (Nat.le_refl 1))).bind
    fun _ _ ⟨ht, _⟩ => sound_readMag ht hc (fieldOk_zero (Nat.succ_pos code))

theorem sound_readRaw {f : Frame} {r left : Nat} {s : State} (h : Decoding f s) (hf : FieldOk r left 16) :
    (readRaw f r left s).Sound fun _ => Decoding f :=
  (sound_unitField (phase := fun r left => .raw r left) h (fun _ _ hf => hf) hf).bind fun _ _ ⟨ht, _⟩ => ht

/-- A CODE has four bits, and 15 is the escape, so a normal unit's is at most 14 (R118, R119). -/
theorem sound_readCode {f : Frame} {r left : Nat} {s : State} (h : Decoding f s) (hf : FieldOk r left 4) :
    (readCode f r left s).Sound fun _ => Decoding f := by
  refine (sound_unitField (phase := fun r left => .code r left) h (fun _ _ hf => hf) hf).bind ?_
  rintro code t ⟨ht, hlt⟩
  split
  · exact sound_readRaw ht (fieldOk_zero (by decide))
  · next hne => exact sound_readSign ht (by omega)

theorem sound_readUnitFrom {f : Frame} {phase : UnitPhase} {s : State} (h : Decoding f s) (hp : PhaseOk phase) :
    (readUnitFrom f phase s).Sound fun _ => Decoding f := by
  cases phase with
  | code r left => exact sound_readCode h hp
  | sign code => exact sound_readSign h hp
  | mag code sign r left => exact sound_readMag h hp.1 hp.2
  | raw r left => exact sound_readRaw h hp

theorem sound_readUnit {f : Frame} {s : State} (h : Decoding f s) : (readUnit f s).Sound fun _ => Decoding f :=
  sound_readCode h (fieldOk_zero (by decide))

/-! ### The output of a sample and the loop's next iteration (R243, R265, R266) -/

/-- Between two samples: the loop is at its end, or the command goes on in order. -/
structure BetweenSamples (f : Frame) (s : State) : Prop where
  healthy : Healthy s
  frame : f.i = f.n ∨ FrameOk f s

theorem BetweenSamples.inv_beginSample {f : Frame} {s : State} (h : BetweenSamples f s) : Inv (beginSample f s) := by
  obtain ⟨hs, hf⟩ := h
  unfold beginSample
  split
  · unfold completeDecode
    split <;> exact (hs.setReturned _).inv_finish
  · next hne => exact Healthy.inv (s := { s with task := .sample f }) hs (hf.resolve_left hne) fun e => by cases e

/-- The frame after its current sample. -/
def Frame.next (f : Frame) : Frame := { f with i := f.i + 1#32 }

theorem Frame.next_i_toNat {f : Frame} (h : f.i.toNat < f.n.toNat) : f.next.i.toNat = f.i.toNat + 1 := by
  show (f.i + 1#32).toNat = _
  bv_omega

/-- LEXPAND's loop goes on with no session to advance. -/
theorem BetweenSamples.next_lexpand {f : Frame} {shift : Nat} {s t : State} (hc : f.cmd = .lexpand shift)
    (h : FrameOk f s) (ht : Healthy t) (hm : t.br = s.br) : BetweenSamples f.next t := by
  unfold FrameOk at h
  rw [hc] at h
  obtain ⟨hlt, hsh, hflat⟩ := h
  have hi := Frame.next_i_toNat hlt
  refine ⟨ht, or_iff_not_imp_left.mpr fun hne => ?_⟩
  have hne' : f.next.i.toNat ≠ f.n.toNat := fun e => hne (BitVec.eq_of_toNat_eq e)
  unfold FrameOk
  simp only [Frame.next, hc, hm] at *
  exact ⟨by omega, hsh, hflat⟩

/-- A session's loop goes on with EXP_POS one further (R261). -/
theorem BetweenSamples.next_advance {f : Frame} {s t : State} (hc : ∀ shift, f.cmd ≠ .lexpand shift)
    (h : FrameOk f s) (ht : Healthy t) (he : t.exp = s.exp) :
    BetweenSamples f.next { t with exp := t.exp.advance } := by
  have hexp : f.i.toNat < f.n.toNat ∧ s.exp.state ≠ .unbound ∧
      s.exp.pos.toNat + (f.n.toNat - f.i.toNat) ≤ s.exp.nSamples.toNat := by
    unfold FrameOk at h
    split at h
    · next shift e => exact absurd e (hc shift)
    · exact h
  obtain ⟨hlt, hb, hle⟩ := hexp
  have hi := Frame.next_i_toNat hlt
  have hp1 : (s.exp.pos + 1#32).toNat = s.exp.pos.toNat + 1 := by bv_omega
  refine ⟨ht.with_exp (by rw [he]; exact expanderOk_advance (by omega)), or_iff_not_imp_left.mpr fun hne => ?_⟩
  have hne' : f.next.i.toNat ≠ f.n.toNat := fun e => hne (BitVec.eq_of_toNat_eq e)
  have hu : s.exp.advance.state ≠ .unbound := by unfold ExpanderRegs.advance; dsimp only; split <;> simp
  refine ⟨by show f.next.i.toNat < f.n.toNat; omega, ?_⟩
  split
  · next shift e => exact absurd e (hc shift)
  · refine ⟨by rw [he]; exact hu, ?_⟩
    show (t.exp.pos + 1#32).toNat + (f.n.toNat - f.next.i.toNat) ≤ t.exp.nSamples.toNat
    rw [he]
    omega

theorem sound_writeSample (y : Int) {f : Frame} {s : State} (h : Decoding f s) :
    (writeSample y f s).Sound fun _ => BetweenSamples f.next := by
  obtain ⟨hs, hf⟩ := h
  unfold writeSample
  split
  · next shift hc =>
    refine (sound_memWrite _ _ _ hs.grounded).imp fun _ t ht => ?_
    have hbr : t.br = s.br := by obtain ⟨_, _, _, -, rfl⟩ := ht; rfl
    exact .next_lexpand hc hf (ht.healthy hs) hbr
  · next hc =>
    refine (sound_memWrite _ _ _ hs.grounded).bind fun _ t ht => ?_
    have he : t.exp = s.exp := by obtain ⟨_, _, _, -, rfl⟩ := ht; rfl
    exact .next_advance (fun shift e => by rw [hc] at e; cases e) hf (ht.healthy hs) he
  · next vol hc =>
    refine (sound_memWrite _ _ _ hs.grounded).bind fun _ t ht => ?_
    refine (sound_memWrite _ _ _ (ht.healthy hs).grounded).bind fun _ u hu => ?_
    have hsu := ht.trans hu
    have he : u.exp = s.exp := by obtain ⟨_, _, _, -, rfl⟩ := hsu; rfl
    exact .next_advance (fun shift e => by rw [hc] at e; cases e) hf (hsu.healthy hs) he

theorem sound_acceptSample (x : Int) {f : Frame} {s : State} (h : Decoding f s) :
    (acceptSample x f s).Sound fun _ => BetweenSamples f.next := by
  unfold acceptSample
  split
  · exact sound_writeSample _ (s := { s with ctx := s.ctx.push x }) ⟨h.healthy, h.frame⟩
  · exact h.healthy.grounded

theorem inv_endSample {f : Frame} {r : Res Unit} (h : r.Sound fun _ => BetweenSamples f.next) : Inv (endSample f r) :=
  (h.indexed f.i).inv_conclude _ (fun _ => Grounded.spoilDecode f) fun _ _ ht => ht.inv_beginSample

theorem inv_runSample (x : Int) {f : Frame} {s : State} (h : Decoding f s) : Inv (runSample x f s) :=
  inv_endSample (sound_acceptSample x h)

theorem StreamMoved.decoding {s t : State} {f : Frame} (h : StreamMoved s t) (hf : FrameOk f s) : Decoding f t :=
  h.sameSession.decoding hf h.healthy

theorem sound_rawSampleSecond (lo : Byte) {f : Frame} {s : State} (h : Decoding f s) :
    (rawSampleSecond f lo s).Sound fun _ => BetweenSamples f.next :=
  (sound_streamGet (p := .sampleHi f lo) h.healthy h.frame).bind fun _ _ ht =>
    sound_writeSample _ (ht.decoding h.frame)

theorem sound_rawSample {f : Frame} {s : State} (h : Decoding f s) :
    (rawSample f s).Sound fun _ => BetweenSamples f.next :=
  (sound_streamGet (p := .sampleLo f) h.healthy h.frame).bind fun lo _ ht =>
    sound_rawSampleSecond lo (ht.decoding h.frame)

theorem inv_sampleStep {f : Frame} {s : State} (h : Decoding f s) : Inv (sampleStep f s) := by
  unfold sampleStep
  split
  · exact inv_endSample (sound_rawSample h)
  · exact ((sound_readUnit h).indexed f.i).inv_conclude _ (fun _ => Grounded.spoilDecode f) fun u t ht =>
      inv_runSample _ ht

theorem decoding_of_inv {f : Frame} {s : State} (h : Inv s) (ht : s.task = .sample f) : Decoding f s := by
  obtain ⟨hs, hk⟩ := healthy_of_inv h (fault_eq_false_of_inv h (by simp [ht]) (by simp [ht]))
  rw [TaskOk, ht] at hk
  exact ⟨hs, hk⟩

theorem inv_runSamples (k : Nat) {s : State} (h : Inv s) : Inv (runSamples k s) := by
  induction k generalizing s with
  | zero => exact h
  | succ k ih =>
    unfold runSamples
    split
    · next f ht => exact ih (inv_sampleStep (decoding_of_inv h ht))
    · exact h

theorem BetweenSamples.inv_runDecode {f : Frame} {s : State} (h : BetweenSamples f s) : Inv (runDecode f s) :=
  inv_runSamples _ h.inv_beginSample

end Sys2Proof.Machine
end

section
/-! ## Every instruction keeps the invariant -/

namespace Sys2Proof.Machine

variable {s : State}

/-! ### Engine control and the accumulator -/

theorem Grounded.inv_softReset (h : Grounded s) : Inv (softResetState s) := by
  have hs : Healthy (softResetState s) :=
    ⟨h, rfl, accOk_zero, packerOk_bound 0#32 0#32, unpackerOk_bound .none 0#32 0#32,
      streamOk_bound s.plat .none 0#32 0#32, expanderOk_zero⟩
  exact hs.inv trivial fun _ => rfl

theorem execAccPush_keeps (n : Nat) (h : Healthy s) : Keeps (execAccPush n s) := by
  have hacc := h.accOk
  unfold execAccPush
  split_ifs with h32 hroom hfit <;> rw [keeps_next]
  · exact h.inv_faultEntry _ _ _
  · exact h.inv_faultEntry _ _ _
  · exact h.inv_faultEntry _ _ _
  · have hv : s.args.arg0.toNat < 2 ^ n := by
      rcases Nat.lt_or_ge n 32 with hn | hn
      · simpa [hn, fitsWidth] using hfit
      · rw [show n = 32 by omega]; exact s.args.arg0.isLt
    exact (h.with_acc (accOk_push hacc (by omega) hv)).inv_finish

theorem execAccPop_keeps (n : Nat) (h : Healthy s) : Keeps (execAccPop n s) := by
  have hacc := h.accOk
  unfold execAccPop
  split_ifs <;> rw [keeps_next]
  · exact h.inv_faultEntry _ _ _
  · exact h.inv_faultEntry _ _ _
  · exact (h.with_acc (accOk_pop n hacc)).inv_finish

/-! ### The packer and COMPRESS -/

theorem execBwWrite_keeps (n : Nat) (h : Healthy s) : Keeps (execBwWrite n s) := by
  unfold execBwWrite
  split_ifs <;> rw [keeps_next]
  · exact h.inv_faultEntry _ _ _
  · exact h.inv_faultEntry _ _ _
  · exact (sound_packBits _ n h).inv_conclude _ (fun _ ht => ht.congr rfl rfl rfl) fun _ _ ht => ht.inv_finish

theorem execBwClose_keeps (h : Healthy s) : Keeps (execBwClose s) :=
  keeps_next.mpr <| (sound_flushPacker h).inv_conclude _ (fun _ ht => ht.congr rfl rfl rfl) fun _ t ht =>
    Healthy.inv_finish (s := t.setResult t.bw.emitted) ht

theorem execBwLength_keeps (h : Healthy s) : Keeps (execBwLength s) := by
  unfold execBwLength
  extract_lets length
  split <;> rw [keeps_next]
  · exact Healthy.inv_finish (s := s.setResult _) h
  · exact Healthy.inv_finish (s := spoilResult s) h

theorem sound_packUnit (x : Int) (h : Healthy s) : (packUnit x s).Sound fun _ => Healthy := by
  unfold packUnit
  dsimp only
  split
  · exact (sound_packBits _ _ h).bind fun _ _ h1 => (sound_packBits _ _ h1).bind fun _ _ h2 => sound_packBits _ _ h2
  · exact (sound_packBits _ _ h).bind fun _ _ h1 => sound_packBits _ _ h1

theorem sound_compressSample (sh : Nat) (stats : Bool) (i : Nat) (h : Healthy s) :
    (compressSample sh stats i s).Sound fun _ => Healthy := by
  refine (sound_memRead16 _ h.grounded).bind fun r t ht => Res.Sound.bind (q := fun _ => Healthy) ?_ fun code u hu => ?_
  · exact (sound_packUnit _ (ht.healthy h)).bind fun _ _ hu => hu
  · rw [sound_ok]
    split <;> exact hu

theorem sound_compressLoop (sh : Nat) (stats : Bool) (k i : Nat) (h : Healthy s) :
    (compressLoop sh stats k i s).Sound fun _ => Healthy := by
  induction k generalizing i s with
  | zero => exact h
  | succ k ih => exact ((sound_compressSample sh stats i h).indexed _).bind fun _ _ ht => ih (i + 1) ht

theorem Healthy.compressStart (stats : Bool) (h : Healthy s) : Healthy (compressStart stats s) :=
  Healthy.with_bw (s := s.invalidateSession) h.invalidateSession (packerOk_bound s.args.arg2 s.args.arg3)

theorem execCompress_keeps (sh : Nat) (stats : Bool) (h : Healthy s) : Keeps (execCompress sh stats s) := by
  unfold execCompress
  split <;> rw [keeps_next]
  · exact h.inv_faultEntry _ _ _
  · have hbody : (compressBody sh stats (compressStart stats s)).Sound fun _ => Healthy :=
      (sound_compressLoop sh stats _ 0 (h.compressStart stats)).bind fun _ _ ht => (sound_flushPacker ht).indexed _
    exact hbody.inv_conclude _ (fun _ => Grounded.spoilCompress stats) fun _ _ ht => (ht.setReturned _).inv_finish

/-! ### The unpacker and the stream unit -/

theorem inv_endRead {r : Res Nat} (h : r.Sound fun _ => Healthy) : Inv (endRead r) :=
  h.inv_conclude _ (fun _ => Grounded.spoilRead) fun v t ht =>
    Healthy.inv_finish (s := t.setResult (BitVec.ofNat 32 v)) ht

/-- BR_READ reads the `n` bits it has still to read (R183, R185). -/
theorem sound_readField {n r : Nat} (h : Healthy s) (hn : n ≤ 32) (hr : r < 2 ^ (32 - n)) :
    (unpackFrom .read n r s).Sound fun _ => Healthy :=
  (sound_unpackFrom (point := .read) n r h (fun _ _ _ hf _ hm h0 => ⟨hf, hm, h0⟩) hn hr).imp
    fun _ _ ⟨ht, _⟩ => ht.healthy

theorem execBrRead_keeps (n : Nat) (h : Healthy s) : Keeps (execBrRead n s) := by
  unfold execBrRead
  split <;> rw [keeps_next]
  · exact h.inv_faultEntry _ _ _
  · exact inv_endRead (sound_readField h (by omega) (by positivity))

theorem inv_endGet {r : Res Byte} (h : r.Sound fun _ => Healthy) : Inv (endGet r) :=
  h.inv_conclude _ (fun _ => Grounded.spoilGet) fun b t ht =>
    Healthy.inv_finish (s := t.setResult (BitVec.ofNat 32 b.toNat)) ht

theorem inv_endGet16 {r : Res Nat} (h : r.Sound fun _ => Healthy) : Inv (endGet16 r) :=
  h.inv_conclude _ (fun _ => Grounded.spoilGet) fun v t ht =>
    Healthy.inv_finish (s := t.setResult (BitVec.ofNat 32 v)) ht

theorem sound_get16Second (lo : Byte) (h : Healthy s) : (get16Second lo s).Sound fun _ => Healthy :=
  (sound_streamGet (p := .get16Hi lo) h trivial).bind fun _ _ ht => ht.healthy

theorem execStGet_keeps (h : Healthy s) : Keeps (execStGet s) :=
  keeps_next.mpr <| inv_endGet <| (sound_streamGet (p := .get) h trivial).imp fun _ _ ht => ht.healthy

theorem execStGet16_keeps (h : Healthy s) : Keeps (execStGet16 s) :=
  keeps_next.mpr <| inv_endGet16 <| (sound_streamGet (p := .get16Lo) h trivial).bind fun lo _ ht =>
    sound_get16Second lo ht.healthy

/-! ### LEXPAND and the expander -/

theorem Healthy.lexpandStart (h : Healthy s) : Healthy (lexpandStart s) :=
  Healthy.with_br (s := s.invalidateSession) h.invalidateSession (unpackerOk_bound .flat s.args.arg0 s.args.arg1)

theorem execLexpand_keeps (sh : Nat) (h : Healthy s) : Keeps (execLexpand sh s) := by
  unfold execLexpand
  split <;> rw [keeps_next]
  · exact h.inv_faultEntry _ _ _
  · next hsh =>
    refine BetweenSamples.inv_runDecode ⟨h.lexpandStart, or_iff_not_imp_left.mpr fun hne => ?_⟩
    exact ⟨by simp only [lexpandFrame] at *; bv_omega, by omega, rfl⟩

/-- A session with enough samples left may begin an expansion of `n` of them (R265). -/
theorem betweenSamples_expandStart {f : Frame} (h : Healthy s) (hc : ∀ shift, f.cmd ≠ .lexpand shift)
    (hi : f.i = 0#32) (hn : f.n.toNat ≤ s.remaining) : BetweenSamples f (expandStart f s) := by
  refine ⟨h, or_iff_not_imp_left.mpr fun hne => ?_⟩
  have h0 : f.i.toNat = 0 := by rw [hi]; rfl
  have hpos : f.n.toNat ≠ 0 := fun e => hne (BitVec.eq_of_toNat_eq (h0.trans e.symm))
  obtain ⟨hle, -⟩ := h.expanderOk
  have hexp : s.exp.state ≠ .unbound ∧ s.exp.pos.toNat + f.n.toNat ≤ s.exp.nSamples.toNat := by
    unfold State.remaining at hn
    split at hn
    · exact absurd (Nat.le_zero.mp hn) hpos
    · next hb => have := hle hb; exact ⟨hb, by omega⟩
  refine ⟨by omega, ?_⟩
  split
  · next shift e => exact absurd e (hc shift)
  · exact ⟨hexp.1, by rw [h0]; exact hexp.2⟩

theorem execExpExpand_keeps (h : Healthy s) : Keeps (execExpExpand s) := by
  unfold execExpExpand
  split <;> rw [keeps_next]
  · exact h.inv_faultEntry _ _ _
  · next hn =>
    exact (betweenSamples_expandStart h (fun _ e => by cases e) rfl (Nat.le_of_not_lt hn)).inv_runDecode

theorem execExpExpand2_keeps (h : Healthy s) : Keeps (execExpExpand2 s) := by
  unfold execExpExpand2
  split_ifs with hn <;> rw [keeps_next]
  · exact h.inv_faultEntry _ _ _
  · exact h.inv_faultEntry _ _ _
  · exact (betweenSamples_expandStart h (fun _ e => by cases e) rfl (Nat.le_of_not_lt hn)).inv_runDecode

theorem execExpInit_keeps (sh fmt : Nat) (h : Healthy s) : Keeps (execExpInit sh fmt s) := by
  unfold execExpInit
  split_ifs <;> rw [keeps_next]
  · exact h.inv_faultEntry _ _ _
  · exact h.inv_faultEntry _ _ _
  · exact ((h.with_br (unpackerOk_bound .stream 0#32 0#32)).with_exp
      (expanderOk_init sh fmt s.args.arg1)).inv_finish

/-! ### All instructions -/

theorem execUnit_keeps (x : Int) (h : Healthy s) (ht : TaskOk s) : Keeps (execUnit x s) := by
  unfold execUnit
  split
  · next f hf =>
    rw [TaskOk, hf] at ht
    exact keeps_next.mpr (inv_runSample x ⟨h, ht⟩)
  · exact keeps_fault _

theorem exec_keeps (i : Instr) (h : Healthy s) (ht : TaskOk s) : Keeps (exec i s) := by
  cases i with
  | nop => exact keeps_next.mpr h.inv_finish
  | softReset => exact keeps_next.mpr h.grounded.inv_softReset
  | accClear => exact keeps_next.mpr (h.with_acc accOk_zero).inv_finish
  | accPush n => exact execAccPush_keeps n h
  | accPop n => exact execAccPop_keeps n h
  | bitsNeeded => exact keeps_next.mpr (Healthy.inv_finish (s := s.setResult _) h)
  | bwInit => exact keeps_next.mpr (h.with_bw (packerOk_bound _ _)).inv_finish
  | bwWrite n => exact execBwWrite_keeps n h
  | bwClose => exact execBwClose_keeps h
  | bwLength => exact execBwLength_keeps h
  | brInitFlat => exact keeps_next.mpr (h.invalidateSession.with_br (unpackerOk_bound _ _ _)).inv_finish
  | brInitStream => exact keeps_next.mpr (h.invalidateSession.with_br (unpackerOk_bound _ _ _)).inv_finish
  | brRead n => exact execBrRead_keeps n h
  | stBindMem => exact keeps_next.mpr (h.invalidateSession.with_st (streamOk_bound _ _ _ _)).inv_finish
  | stBindChunk => exact keeps_next.mpr (h.invalidateSession.with_st (streamOk_bound _ _ _ _)).inv_finish
  | stGet => exact execStGet_keeps h
  | stGet16 => exact execStGet16_keeps h
  | compress sh stats => exact execCompress_keeps sh stats h
  | lexpand sh => exact execLexpand_keeps sh h
  | expInit sh fmt => exact execExpInit_keeps sh fmt h
  | expExpand => exact execExpExpand_keeps h
  | expExpand2 => exact execExpExpand2_keeps h
  | expDone => exact keeps_next.mpr (Healthy.inv_finish (s := s.setResult _) h)
  | _ => exact execUnit_keeps _ h ht

end Sys2Proof.Machine
end

section
/-! ## Every step keeps the invariant -/

namespace Sys2Proof.Machine

/-! ### The engine's turn -/

/-- What the engine's turn begins with leads to states that meet the invariant. -/
def Fetched.Keeps (r : Fetched) : Prop :=
  match r with
  | .instr i s => Machine.Keeps (exec i s)
  | .settled s => Inv s

theorem Fetched.Keeps.turnWith {touched : List Word} {s : State} (h : (fetch touched s).Keeps) :
    Machine.Keeps (turnWith touched s) := by
  unfold Machine.turnWith
  cases hf : fetch touched s with
  | instr i t => rw [hf] at h; exact h
  | settled t => rw [hf] at h; exact keeps_next.mpr h

theorem fetchedUnit_keeps {f : Frame} {r : Res CodeUnit} (h : r.Sound fun _ => Decoding f) :
    (fetchedUnit f r).Keeps := by
  have hi := h.indexed f.i
  unfold fetchedUnit
  cases hr : r.indexed f.i with
  | ok u s => rw [hr] at hi; exact exec_keeps _ hi.healthy hi.frame
  | raise c info s => rw [hr] at hi; exact (Grounded.spoilDecode f hi).inv_faultEntry _ _ _
  | hold p s =>
    rw [hr] at hi
    obtain ⟨hs, hrf, hp⟩ := hi
    exact Healthy.inv (s := { s with task := .refill p }) hs ⟨hrf, hp⟩ fun e => by cases e

theorem fetchSample_keeps {f : Frame} {s : State} (h : Decoding f s) : (fetchSample f s).Keeps := by
  unfold fetchSample
  split
  · exact inv_sampleStep h
  · exact fetchedUnit_keeps (sound_readUnit h)

/-- While faulted the accepted word is SOFT_RESET's, which needs no register in order (R320). -/
theorem fetchCommand_keeps {w : Word} {s : State} (hg : Grounded s) (hf : s.fault = true → w = 1#32)
    (hr : s.fault = false → Healthy s ∧ TaskOk s) : (fetchCommand w s).Keeps := by
  unfold fetchCommand
  cases hd : decodeCommand w with
  | error r => exact hg.inv_faultEntry _ _ _
  | ok i =>
    cases hfault : s.fault with
    | false => exact exec_keeps i (hr hfault).1 (hr hfault).2
    | true =>
      have hi : i = .softReset := by
        rw [hf hfault] at hd
        cases hd
        rfl
      rw [hi]
      exact keeps_next.mpr hg.inv_softReset

theorem fetchResumed_keeps {k : Word} {p : HoldPoint} {s : State} (h : Healthy s) (hr : RefillOk s) (hp : PointOk p s) :
    (fetchResumed k p s).Keeps := by
  have hres := sound_streamResume k h hr
  cases p with
  | get => exact inv_endGet (hres.imp fun _ _ ht => ht.healthy)
  | get16Lo => exact inv_endGet16 (hres.bind fun lo _ ht => sound_get16Second lo ht.1)
  | get16Hi lo => exact inv_endGet16 (hres.bind fun _ _ ht => ht.healthy)
  | read r left =>
    obtain ⟨⟨-, hle, hlt⟩, hm, -⟩ := hp
    exact inv_endRead (hres.bind fun b _ ht => sound_readField (ht.loadByte b hm).healthy hle hlt)
  | unit f phase =>
    obtain ⟨hf, hph, hm, -⟩ := hp
    refine fetchedUnit_keeps (hres.bind fun b _ ht => ?_)
    have hb := ht.loadByte b hm
    exact sound_readUnitFrom (hb.session.decoding hf hb.healthy) hph
  | sampleLo f => exact inv_endSample (hres.bind fun lo _ ht => sound_rawSampleSecond lo (ht.decoding hp))
  | sampleHi f lo => exact inv_endSample (hres.bind fun _ _ ht => sound_writeSample _ (ht.decoding hp))

theorem turnWith_keeps {s : State} (h : Inv s) (touched : List Word) : Keeps (turnWith touched s) := by
  refine Fetched.Keeps.turnWith ?_
  unfold fetch
  cases ht : s.task with
  | idle => exact h
  | refill p => exact h
  | issued w =>
    have hf : s.fault = true → w = 1#32 := by
      obtain ⟨-, -, -, -, hf, -⟩ := h
      intro e
      simpa [ht] using hf e
    have hg := grounded_of_inv h
    refine fetchCommand_keeps (s := s.foreseen touched) hg hf fun e => ⟨(healthy_of_inv h e).1, ?_⟩
    show TaskOk (s.foreseen touched)
    rw [TaskOk, show (s.foreseen touched).task = s.task from rfl, ht]
    trivial
  | answered k p =>
    obtain ⟨hs, hk⟩ := healthy_of_inv h (fault_eq_false_of_inv h (by simp [ht]) (by simp [ht]))
    rw [TaskOk, ht] at hk
    exact fetchResumed_keeps (s := s.foreseen touched) hs hk.1 hk.2
  | sample f =>
    have hd := decoding_of_inv h ht
    exact fetchSample_keeps (s := s.foreseen touched) ⟨hd.healthy, hd.frame⟩

theorem engineTurn_keeps {s : State} (h : Inv s) : Keeps (engineTurn s) := by
  obtain ⟨touched, d, e⟩ := engineTurn_cases s
  rw [e]
  exact turnWith_keeps (s := s.drawn d) h touched

/-! ### The host side -/

theorem inv_writeCmd {s : State} (w : Word) (h : Inv s) : Inv (writeCmd w s) := by
  unfold writeCmd
  split_ifs with hb hf
  · exact h
  · exact h
  · obtain ⟨hp, hm, hc, -, -, hr⟩ := h
    have hw : s.fault = true → w = 1#32 := fun e => by_contra fun hne => hf ⟨e, hne⟩
    have hfo : FaultOk { s with task := .issued w } := fun e => .inr (congrArg Task.issued (hw e))
    have hbusy : Task.issued w = .idle → s.raced = .none := fun e => by cases e
    exact ⟨hp, hm, hc, hbusy, hfo, fun e => ⟨(hr e).1, trivial⟩⟩

theorem inv_writeArg {s : State} (f : ArgRegs → ArgRegs) (h : Inv s) : Inv (writeArg f s) := by
  unfold writeArg
  split <;> exact h

theorem inv_writeStatus {s : State} (v : Word) (h : Inv s) : Inv (s.writeStatus v) := by
  unfold State.writeStatus
  split <;> exact h

theorem inv_writeRefillCount {s : State} (k : Word) (h : Inv s) : Inv (writeRefillCount k s) := by
  unfold writeRefillCount
  split
  · next p ht =>
    obtain ⟨hs, hk⟩ := healthy_of_inv h (fault_eq_false_of_inv h (by simp [ht]) (by simp [ht]))
    rw [TaskOk, ht] at hk
    exact Healthy.inv (s := { s with task := .answered k p }) hs hk fun e => by cases e
  · exact h

/-- Nothing of the invariant is about CHUNK's bytes. -/
theorem inv_with_chunk {s : State} (h : Inv s) {c : List Byte} (hc : c.length = s.chunk.length) :
    Inv { s with chunk := c } := by
  obtain ⟨hp, hm, hl, hi, hf, hr⟩ := h
  exact ⟨hp, hm, hc.trans hl, hi, hf, hr⟩

theorem inv_putChunkByte {s : State} (k b : Nat) (h : Inv s) : Inv (putChunkByte k b s) := by
  unfold putChunkByte
  split
  · exact inv_with_chunk h (List.length_set ..)
  · exact h

theorem inv_writeChunk {s : State} (j : Nat) (v : Word) (h : Inv s) : Inv (writeChunk j v s) := by
  unfold writeChunk
  split
  · exact inv_putChunkByte _ _ (inv_putChunkByte _ _ (inv_putChunkByte _ _ (inv_putChunkByte _ _ h)))
  · exact h

theorem inv_hostWrite {s : State} (off : Nat) (v : Word) (h : Inv s) : Inv (hostWrite off v s) := by
  unfold hostWrite
  split
  · exact inv_writeChunk _ _ h
  · split
    · exact inv_writeCmd _ h
    · exact inv_writeStatus _ h
    · exact inv_writeArg _ h
    · exact inv_writeArg _ h
    · exact inv_writeArg _ h
    · exact inv_writeArg _ h
    · exact inv_writeRefillCount _ h
    · exact h

theorem inv_hostRead {s : State} (off : Nat) (h : Inv s) : Inv (hostRead off s) := by
  unfold hostRead State.noted
  split
  · exact h
  · split_ifs <;> exact h

theorem inv_hostStore {s : State} (a : Word) (b : Byte) (h : Inv s) : Inv (hostStore a b s) := by
  have hidle : (hostStore a b s).task = .idle → (hostStore a b s).raced = .none := by
    intro e
    have ht : s.task = .idle := by rw [hostStore_frame] at e; exact e
    obtain ⟨-, -, -, hi, -⟩ := h
    have hb : s.busy = false := by simp [State.busy, ht]
    unfold hostStore
    simp only [hb]
    split <;> exact hi ht
  have hm := wf_hostStore a b (grounded_of_inv h).mem_wf
  obtain ⟨hp, -, hc, -, hf, hr⟩ := h
  rw [hostStore_frame] at *
  exact ⟨hp, hm, hc, hidle, hf, hr⟩

theorem inv_hostLoad {s : State} (a : Word) (h : Inv s) : Inv (hostLoad a s) := by
  rw [(hostLoad_frame a s).1]
  exact h

@[simp] theorem length_freeBytes (d n : Nat) : (freeBytes d n).length = n := by
  induction n generalizing d with
  | zero => rfl
  | succ n ih => simp [freeBytes, ih]

theorem inv_resetOn {p : Platform} (h : PlatformOk p) : Inv (State.resetOn p) := by
  have hs : Healthy (State.resetOn p) :=
    ⟨⟨h, wf_resetOn p, length_freeBytes 0 p.chunkBytes⟩, rfl, accOk_zero, packerOk_bound 0#32 0#32,
      unpackerOk_bound .none 0#32 0#32, streamOk_bound p .none 0#32 0#32, expanderOk_zero⟩
  exact hs.inv trivial fun _ => rfl

theorem inv_hardwareReset {s : State} (h : Inv s) : Inv (hardwareReset s) := by
  obtain ⟨hp, hm, -⟩ := h
  obtain ⟨-, -, -, hi, hf, hr⟩ := inv_resetOn hp
  exact ⟨hp, hm, length_freeBytes s.draws s.plat.chunkBytes, hi, hf, hr⟩

/-! ### The step -/

theorem accessStep_keeps {a : Access} {s : State} (h : Inv s) : Keeps (accessStep engineTurn a s) := by
  unfold accessStep
  split
  · split
    · exact keeps_next.mpr (inv_hostWrite _ _ h)
    · exact keeps_refused _
  · split
    · exact keeps_next.mpr (inv_hostRead _ h)
    · exact keeps_refused _
  · exact keeps_refused _
  · exact keeps_next.mpr (inv_hostStore _ _ h)
  · exact keeps_next.mpr (inv_hostLoad _ h)
  · exact keeps_next.mpr (inv_hardwareReset h)
  · exact engineTurn_keeps h

theorem step_keeps {s : State} (h : Inv s) : Keeps (step s) := by
  unfold step agentStep
  split
  · exact engineTurn_keeps h
  · next a rest _ => exact accessStep_keeps (s := { s with host := rest }) h

/-- Settles O59: every access of the host side and every instruction of the engine's turn keeps the invariant. -/
theorem invKept : Obligations.InvKept := fun _ t h e => step_keeps h t e

/-- Settles O58: every register group is zero or freshly bound after reset. -/
theorem invAtReset : Obligations.InvAtReset :=
  ⟨inv_resetOn (p := Config.platform) ⟨by decide, by decide⟩, fun _ h => inv_resetOn h⟩

end Sys2Proof.Machine
end

section
/-! ## A refused byte: what it raises, and the memory port (R82, R83, R305, R307) -/

namespace Sys2Proof.Machine

/-- `r` raises BusError with the refused address `a`, and memory holds `m` at the raise (R82, R305, R307). -/
def Refuses {α : Type} (a : Word) (m : Memory) (r : Res α) : Prop := ∃ t, r = .raise .busError a t ∧ t.mem = m

theorem Refuses.bind {α β : Type} {a : Word} {m : Memory} {r : Res α} (h : Refuses a m r) (k : α → State → Res β) :
    Refuses a m (r.bind k) := by
  obtain ⟨t, rfl, ht⟩ := h
  exact ⟨t, rfl, ht⟩

/-- ERR_INFO of a BusError inside a loop stays the refused address (R305). -/
theorem Refuses.indexed {α : Type} {a : Word} {m : Memory} {r : Res α} (h : Refuses a m r) (i : Word) :
    Refuses a m (r.indexed i) := by
  obtain ⟨t, rfl, ht⟩ := h
  exact ⟨t, rfl, ht⟩

/-- A refused byte ends its command in fault entry: cause 7, its opcode and the refused address (R305, R306). -/
theorem Refuses.conclude {α : Type} {a : Word} {m : Memory} {r : Res α} (h : Refuses a m r) (op : Nat)
    {spoil : State → State} (hs : ∀ s, (spoil s).mem = s.mem) (done : α → State → State) :
    (conclude op spoil done r).fault = true ∧ (conclude op spoil done r).mem = m ∧
      (conclude op spoil done r).err = { cause := 7#8, op := BitVec.ofNat 8 op, info := a } := by
  obtain ⟨t, rfl, rfl⟩ := h
  exact ⟨rfl, hs t, rfl⟩

/-! ### The write sets of a fault spare memory (R294, R306) -/

@[simp] theorem spoilGet_mem (s : State) : (spoilGet s).mem = s.mem := by simp [spoilGet]

@[simp] theorem spoilRead_mem (s : State) : (spoilRead s).mem = s.mem := by unfold spoilRead; split <;> simp

@[simp] theorem spoilDecode_mem (f : Frame) (s : State) : (spoilDecode f s).mem = s.mem := by
  unfold spoilDecode; split <;> simp

@[simp] theorem spoilCompress_mem (stats : Bool) (s : State) : (spoilCompress stats s).mem = s.mem := by
  cases stats <;> simp [spoilCompress]

/-! ### The memory port -/

theorem readByte_refused {a : Word} {s : State} (h : memAdmits s.plat a .read = false) :
    readByte a s = .raise .busError a s := by simp [readByte, h]

theorem writeByte_refused {a : Word} {b : Byte} {s : State} (h : memAdmits s.plat a .write = false) :
    writeByte a b s = .raise .busError a s := by simp [writeByte, h]

theorem add_ofNat_succ (a : Word) (j : Nat) : a + BitVec.ofNat 32 (j + 1) = a + 1#32 + BitVec.ofNat 32 j := by
  rw [Nat.add_comm, BitVec.ofNat_add, ← BitVec.add_assoc]

/-- A byte stored in memory (R82). -/
theorem stores_byte (a : Word) (b : Byte) {s : State} (hm : s.mem.wf = true) :
    Stores a [b] s { s with mem := s.mem.write a.toNat b } := by
  refine ⟨rfl, Memory.wf_write_word _ _ _ hm, ?_, fun x hx => Memory.read_write_other _ _ _ _ (fun e => ?_) hm⟩
  · simp [memoryBytes, Memory.read_write_same _ _ _ hm]
  · rw [BitVec.eq_of_toNat_eq e] at hx
    simp [Span.has] at hx

/-- A `MemWrite` that meets a refused byte has stored the bytes below it, and raises with its address (R83, R307). -/
theorem memWrite_refused (n j v : Nat) (a : Word) {s : State} (hj : j < n) (ha : Admitted s.plat .write ⟨a, j⟩)
    (hx : memAdmits s.plat (a + BitVec.ofNat 32 j) .write = false) (hr : s.raced = .none) (hm : s.mem.wf = true) :
    ∃ t, memWrite n a v s = .raise .busError (a + BitVec.ofNat 32 j) t ∧ Stores a ((leBytes n v).take j) s t := by
  induction j generalizing n a v s with
  | zero =>
    obtain ⟨n, rfl⟩ : ∃ k, n = k + 1 := ⟨n - 1, by omega⟩
    rw [BitVec.add_zero] at hx ⊢
    exact ⟨s, by rw [memWrite, writeByte_refused hx, Res.bind_raise], Stores.refl a hm⟩
  | succ j ih =>
    obtain ⟨n, rfl⟩ : ∃ k, n = k + 1 := ⟨n - 1, by omega⟩
    have hlt := ha.size_lt
    rw [add_ofNat_succ] at hx ⊢
    obtain ⟨t, ht, hst⟩ := ih n (v / 256) (a + 1#32) (by omega)
      (s := { s with mem := s.mem.write a.toNat (BitVec.ofNat 8 v) }) (ha.sub 1 j (by omega)) hx hr
      (Memory.wf_write_word _ _ _ hm)
    refine ⟨t, by rw [memWrite, writeByte_ok (ha.head (by omega)) hr, Res.bind_ok, ht], ?_⟩
    rw [leBytes_succ, List.take_succ_cons]
    exact Stores.trans (x := [_]) (by simp; omega) (stores_byte a _ hm) hst

end Sys2Proof.Machine
end

section
/-! ## A refused byte of a source: the stream unit, the unpacker and a code unit (R182, R183, R211, R240) -/

namespace Sys2Proof.Machine

/-! ### The stream unit (R211) -/

theorem streamGet_refused (p : HoldPoint) {s : State} (hk : s.st.kind = .mem) (hp : s.st.pos ≠ s.st.size)
    (hx : memAdmits s.plat (s.st.base + s.st.pos) .read = false) :
    Refuses (s.st.base + s.st.pos) s.mem (streamGet p s) :=
  ⟨s, by simp [streamGet, hk, hp, readByte_refused hx], rfl⟩

theorem streamGet_mem_ok (p : HoldPoint) {s : State} (hk : s.st.kind = .mem) (hp : s.st.pos ≠ s.st.size)
    (ha : memAdmits s.plat (s.st.base + s.st.pos) .read = true) (hr : s.raced = .none) :
    streamGet p s = .ok (s.mem.read (s.st.base + s.st.pos).toNat)
      { s with st := { s.st with pos := s.st.pos + 1#32 } } := by
  simp [streamGet, hk, hp, readByte_ok ha hr]

/-- A procedure that takes two bytes of a MEM stream, the second of them refused (R214). -/
theorem streamGet_second_refused (p : HoldPoint) {α : Type} {k : Byte → State → Res α} {q : Byte → HoldPoint}
    {l : Byte → Byte → State → Res α} (hnext : ∀ b t, k b t = (streamGet (q b) t).bind (l b)) {s : State}
    (hk : s.st.kind = .mem) (h2 : 2 ≤ s.st.size.toNat - s.st.pos.toNat)
    (ha : memAdmits s.plat (s.st.base + s.st.pos) .read = true) (hr : s.raced = .none)
    (hx : memAdmits s.plat (s.st.base + s.st.pos + 1#32) .read = false) :
    Refuses (s.st.base + s.st.pos + 1#32) s.mem ((streamGet p s).bind k) := by
  have hne : s.st.pos ≠ s.st.size := fun e => by rw [e] at h2; omega
  have hne1 : s.st.pos + 1#32 ≠ s.st.size := fun e => by rw [← e] at h2; bv_omega
  rw [streamGet_mem_ok p hk hne ha hr, Res.bind_ok, hnext]
  rw [BitVec.add_assoc] at hx ⊢
  exact (streamGet_refused (s := { s with st := { s.st with pos := s.st.pos + 1#32 } }) _ hk hne1 hx).bind _

/-- Bytes that a stream has in memory are a MEM stream's. -/
theorem undelivered_of_pos {s : State} (h : 0 < (undelivered s).size) :
    s.st.kind = .mem ∧ undelivered s = ⟨s.st.base + s.st.pos, s.st.size.toNat - s.st.pos.toNat⟩ := by
  unfold undelivered at *
  split at h
  · next hk => exact ⟨hk, rfl⟩
  · simp [Span.empty] at h

/-- A byte further, a MEM stream has the bytes after it to deliver. -/
theorem undelivered_next {s t : State} (h : 0 < (undelivered s).size)
    (ht : t.st = { s.st with pos := s.st.pos + 1#32 }) :
    undelivered t = ⟨(undelivered s).base + 1#32, (undelivered s).size - 1⟩ := by
  obtain ⟨hk, hu⟩ := undelivered_of_pos h
  rw [hu] at h ⊢
  have hlt : s.st.pos.toNat < s.st.size.toNat := by simpa using h
  have h1 : (s.st.pos + 1#32).toNat = s.st.pos.toNat + 1 := by bv_omega
  simp only [undelivered, ht, hk, h1, BitVec.add_assoc, Nat.sub_sub]

/-- The first byte of those a stream has in memory is its next one (R211). -/
theorem streamGet_undelivered (p : HoldPoint) {s : State} (h : 0 < (undelivered s).size) (hr : s.raced = .none) :
    (memAdmits s.plat (undelivered s).base .read = false → Refuses (undelivered s).base s.mem (streamGet p s)) ∧
      (memAdmits s.plat (undelivered s).base .read = true →
        streamGet p s = .ok (s.mem.read (undelivered s).base.toNat)
          { s with st := { s.st with pos := s.st.pos + 1#32 } }) := by
  obtain ⟨hk, hu⟩ := undelivered_of_pos h
  rw [hu] at h ⊢
  have hne : s.st.pos ≠ s.st.size := fun e => by simp [e] at h
  exact ⟨streamGet_refused p hk hne, fun ha => streamGet_mem_ok p hk hne ha hr⟩

/-! ### Fetching a byte from memory (R182) -/

/-- Taking a fetched byte changes at most the unpacker and the draw count (R182). -/
theorem loadByte_frame (b : Byte) (s : State) :
    loadByte b s = { s with br := (loadByte b s).br, draws := (loadByte b s).draws } := by
  unfold loadByte countFetch; dsimp only; split <;> rfl

@[simp] theorem loadByte_plat (b : Byte) (s : State) : (loadByte b s).plat = s.plat := by rw [loadByte_frame]

@[simp] theorem loadByte_mem (b : Byte) (s : State) : (loadByte b s).mem = s.mem := by rw [loadByte_frame]

@[simp] theorem loadByte_raced (b : Byte) (s : State) : (loadByte b s).raced = s.raced := by rw [loadByte_frame]

@[simp] theorem loadByte_st (b : Byte) (s : State) : (loadByte b s).st = s.st := by rw [loadByte_frame]

theorem heldBits_loadByte (b : Byte) (s : State) : heldBits (loadByte b s) = bitsMsb 8 b.toNat := rfl

theorem sourceSpan_dropBit (s : State) : sourceSpan (dropBit s) = sourceSpan s := rfl

/-- The first byte of those the unpacker has in memory is the one it fetches next: it is refused, or the unpacker holds
its eight bits and has the bytes after it to fetch. -/
theorem brFetch_sourceSpan (p : HoldPoint) {s : State} (h : 0 < (sourceSpan s).size) (hr : s.raced = .none) :
    (memAdmits s.plat (sourceSpan s).base .read = false → Refuses (sourceSpan s).base s.mem (brFetch p s)) ∧
      (memAdmits s.plat (sourceSpan s).base .read = true → ∃ t,
        brFetch p s = .ok (s.mem.read (sourceSpan s).base.toNat) t ∧
        t = { s with st := t.st } ∧
        ∀ b, sourceSpan (loadByte b t) = ⟨(sourceSpan s).base + 1#32, (sourceSpan s).size - 1⟩) := by
  cases hm : s.br.mode
  case none => simp [sourceSpan, hm, Span.empty] at h
  case flat =>
    simp only [sourceSpan, hm] at h ⊢
    have hne : s.br.consumed ≠ s.br.limit := fun e => by simp [e] at h
    have hb : brFetch p s = readByte (s.br.base + s.br.consumed) s := by simp [brFetch, hm, hne]
    rw [hb]
    refine ⟨fun hx => ⟨s, readByte_refused hx, rfl⟩, fun ha => ⟨s, readByte_ok ha hr, rfl, fun b => ?_⟩⟩
    have hall : s.br.consumed ≠ 0xFFFFFFFF#32 := by bv_omega
    have h1 : (s.br.consumed + 1#32).toNat = s.br.consumed.toNat + 1 := by bv_omega
    simp only [loadByte, countFetch, hall, if_false, hm, h1, BitVec.add_assoc, Nat.sub_sub]
  case stream =>
    have hu : sourceSpan s = undelivered s := by simp [sourceSpan, hm]
    have hb : brFetch p s = streamGet p s := by simp [brFetch, hm]
    rw [hu] at h ⊢
    rw [hb]
    obtain ⟨hrefused, hok⟩ := streamGet_undelivered p h hr
    refine ⟨hrefused, fun ha => ⟨_, hok ha, rfl, fun b => ?_⟩⟩
    rw [sourceSpan, loadByte_mode, hm]
    exact undelivered_next h (loadByte_st _ _)

/-! ### Reading up to a refused byte (R183) -/

/-- Of its source the unpacker can read exactly the bits `bits`: after them it needs the byte at `a`, which memory
refuses. Memory is `m`. -/
structure Ahead (m : Memory) (a : Word) (bits : List Bool) (s : State) : Prop where
  raced : s.raced = .none
  mem : s.mem = m
  refused : memAdmits s.plat a .read = false
  bytes : ∃ j, j < (sourceSpan s).size ∧ Admitted s.plat .read ⟨(sourceSpan s).base, j⟩ ∧
    (sourceSpan s).base + BitVec.ofNat 32 j = a ∧ bits = heldBits s ++ bytesBits (memoryBytes m (sourceSpan s).base j)

/-- While bits are held, the next bit is the first of them. -/
theorem Ahead.held {m : Memory} {a : Word} {bits : List Bool} {s : State} (h : Ahead m a bits s)
    (h0 : s.br.used ≠ 0#4) : ∃ rest, bits = headBit s :: rest ∧ Ahead m a rest (dropBit s) := by
  obtain ⟨hr, hm, hx, j, hj, hadm, ha, rfl⟩ := h
  exact ⟨_, by rw [heldBits_step h0, List.cons_append, ← sourceSpan_dropBit s], hr, hm, hx, j, hj, hadm, ha, rfl⟩

/-- With no bit held, the next byte is the refused one and no bit is left, or its eight bits come next. -/
theorem Ahead.fetch (p : HoldPoint) {m : Memory} {a : Word} {bits : List Bool} {s : State} (h : Ahead m a bits s)
    (h0 : s.br.used = 0#4) :
    (bits = [] ∧ Refuses a m (brFetch p s)) ∨ ∃ b t, brFetch p s = .ok b t ∧ Ahead m a bits (loadByte b t) := by
  obtain ⟨hr, rfl, hx, j, hj, hadm, rfl, rfl⟩ := h
  have hheld : heldBits s = [] := by simp [heldBits, h0, bitsMsb]
  obtain ⟨hrefused, hok⟩ := brFetch_sourceSpan p (Nat.zero_lt_of_lt hj) hr
  cases j with
  | zero =>
    rw [BitVec.add_zero] at hx ⊢
    exact .inl ⟨by simp [hheld, memoryBytes, bytesBits], hrefused hx⟩
  | succ j =>
    obtain ⟨t, ht, hframe, hspan⟩ := hok (hadm.head (by omega))
    have hnext := hspan (s.mem.read (sourceSpan s).base.toNat)
    rw [hframe] at hnext ht
    refine .inr ⟨_, _, ht, (loadByte_raced _ _).trans hr, by simp, ?_, j, ?_, ?_, ?_, ?_⟩
    · rw [loadByte_plat]; exact hx
    · rw [hnext]; show j < (sourceSpan s).size - 1; omega
    · rw [hnext, loadByte_plat]; exact hadm.sub 1 j (by omega)
    · rw [hnext]; exact (add_ofNat_succ _ j).symm
    · rw [hnext, hheld, heldBits_loadByte, memoryBytes, bytesBits_cons, List.nil_append]

/-- The next bit is needed: it is the first of those at hand, or none is and the refused byte is fetched. -/
theorem needBit_of_ahead (p : HoldPoint) {m : Memory} {a : Word} {bits : List Bool} {s : State} (h : Ahead m a bits s) :
    (bits = [] ∧ Refuses a m (needBit p s)) ∨
      ∃ u rest, needBit p s = .ok () u ∧ bits = headBit u :: rest ∧ Ahead m a rest (dropBit u) := by
  by_cases h0 : s.br.used = 0#4
  · rw [needBit, if_pos h0]
    rcases h.fetch p h0 with ⟨hnil, hx⟩ | ⟨b, t, ht, hb⟩
    · exact .inl ⟨hnil, hx.bind _⟩
    · obtain ⟨rest, hbits, hrest⟩ := hb.held (by rw [loadByte_used]; decide)
      exact .inr ⟨_, rest, by rw [ht, Res.bind_ok], hbits, hrest⟩
  · obtain ⟨rest, hbits, hrest⟩ := h.held h0
    exact .inr ⟨s, rest, by rw [needBit, if_neg h0], hbits, hrest⟩

/-- `UnpackBits` takes the bits at hand as a field of a bit sequence is read (R85), and meets the refused byte when they
do not fill the field. -/
theorem unpackFrom_of_ahead (point : Nat → Nat → HoldPoint) (n r : Nat) {m : Memory} {a : Word} {bits : List Bool}
    {s : State} (h : Ahead m a bits s) :
    (takeBits n r bits = none → Refuses a m (unpackFrom point n r s)) ∧
      ∀ v rest, takeBits n r bits = some (v, rest) →
        ∃ t, unpackFrom point n r s = .ok v t ∧ Ahead m a rest t := by
  induction n generalizing r bits s with
  | zero =>
    refine ⟨nofun, fun v rest e => ?_⟩
    cases e
    exact ⟨s, rfl, h⟩
  | succ n ih =>
    rw [unpackFrom]
    rcases needBit_of_ahead (point r (n + 1)) h with ⟨rfl, hx⟩ | ⟨u, rest, hu, rfl, hrest⟩
    · exact ⟨fun _ => hx.bind _, nofun⟩
    · rw [hu, Res.bind_ok, takeBits]
      exact ih _ hrest

/-- `DecodeUnit` over bits that hold no whole code unit meets the refused byte (R120, R240). -/
theorem readUnit_of_ahead (f : Frame) {m : Memory} {a : Word} {bits : List Bool} {s : State} (h : Ahead m a bits s)
    (hd : decodeUnit bits = .error .unitTruncated) : Refuses a m (readUnit f s) := by
  rw [readUnit, readUnitFrom, readCode]
  obtain ⟨hnone, hsome⟩ := unpackFrom_of_ahead (fun r left => .unit f (.code r left)) 4 0 h
  cases hcode : takeBits 4 0 bits with
  | none => exact (hnone hcode).bind _
  | some c =>
    obtain ⟨code, rest⟩ := c
    obtain ⟨t, ht, hrest⟩ := hsome code rest hcode
    rw [ht, Res.bind_ok]
    split
    · next he =>
      subst he
      obtain ⟨hnone, -⟩ := unpackFrom_of_ahead (fun r left => .unit f (.raw r left)) 16 0 hrest
      cases hraw : takeBits 16 0 rest with
      | none => exact (hnone hraw).bind _
      | some w => simp [decodeUnit, hcode, hraw] at hd
    · next hne =>
      rw [readSign]
      obtain ⟨hnone, hsome⟩ := unpackFrom_of_ahead (fun _ _ => .unit f (.sign code)) 1 0 hrest
      cases hsign : takeBits 1 0 rest with
      | none => exact (hnone hsign).bind _
      | some w =>
        obtain ⟨sign, rest'⟩ := w
        obtain ⟨u, hu, hrest'⟩ := hsome sign rest' hsign
        rw [hu, Res.bind_ok, readMag]
        obtain ⟨hnone, -⟩ :=
          unpackFrom_of_ahead (fun r left => .unit f (.mag code (sign == 1) r left)) (code + 1) 0 hrest'
        cases hmag : takeBits (code + 1) 0 rest' with
        | none => exact (hnone hmag).bind _
        | some w => simp [decodeUnit, hcode, hsign, hmag] at hd

/-- Too few bits are no field. -/
theorem takeBits_of_short {n : Nat} (acc : Nat) {bits : List Bool} (h : bits.length < n) :
    takeBits n acc bits = none := by
  induction n generalizing acc bits with
  | zero => omega
  | succ n ih =>
    cases bits with
    | nil => rfl
    | cons b bs => exact ih _ (by simpa using h)

/-- The unpacker before byte `j` of its source, the first that memory refuses: the bits it holds and those of the bytes
before are at hand (R88, R183). -/
theorem ahead_of_refused {s : State} {j : Nat} (hr : s.raced = .none) (hj : j < (sourceSpan s).size)
    (hadm : Admitted s.plat .read ⟨(sourceSpan s).base, j⟩)
    (hx : memAdmits s.plat ((sourceSpan s).base + BitVec.ofNat 32 j) .read = false) :
    Ahead s.mem ((sourceSpan s).base + BitVec.ofNat 32 j) ((sourceBits s).take (s.br.used.toNat + 8 * j)) s := by
  refine ⟨hr, rfl, hx, j, hj, hadm, rfl, ?_⟩
  have hsrc : sourceBytes s = memoryBytes s.mem (sourceSpan s).base (sourceSpan s).size := by
    have h : 0 < (sourceSpan s).size := Nat.zero_lt_of_lt hj
    unfold sourceSpan sourceBytes at *
    split
    · next hm => simp [hm, Span.empty] at h
    · next hm => simp
    · next hm =>
      simp only [hm] at h ⊢
      obtain ⟨hk, hu⟩ := undelivered_of_pos h
      rw [hu, streamBytes, hk]
  obtain ⟨k, hk⟩ := Nat.exists_eq_add_of_lt hj
  rw [sourceBits, hsrc, hk, Nat.add_assoc, memoryBytes_add, bytesBits_append, ← List.append_assoc]
  exact List.take_left' (by simp [heldBits])

end Sys2Proof.Machine
end

section
/-! ## A refused byte of a destination: a sample's output and the packer (R162 to R165, R243, R265, R266) -/

namespace Sys2Proof.Machine

/-! ### The output of a sample -/

/-- A reconstructed sample whose output meets a refused byte has stored the bytes below it. -/
theorem writeSample_refused (y : Int) (f : Frame) {s : State} {j : Nat} (hj : j < f.stride)
    (ha : Admitted s.plat .write ⟨f.address, j⟩)
    (hx : memAdmits s.plat (f.address + BitVec.ofNat 32 j) .write = false) (hr : s.raced = .none)
    (hm : s.mem.wf = true) :
    ∃ m, Refuses (f.address + BitVec.ofNat 32 j) m (writeSample y f s) ∧
      Stores f.address ((sampleOutput f.cmd y).take j) s { s with mem := m } := by
  have hout : ∀ {n v t}, memWrite n f.address v s = .raise .busError (f.address + BitVec.ofNat 32 j) t →
      Refuses (f.address + BitVec.ofNat 32 j) t.mem (memWrite n f.address v s) := fun e => e ▸ ⟨_, rfl, rfl⟩
  unfold writeSample
  cases hc : f.cmd <;> simp only [Frame.stride, hc] at hj
  case lexpand shift =>
    obtain ⟨t, ht, hst⟩ := memWrite_refused 2 j (lowBits 16 y) f.address hj ha hx hr hm
    exact ⟨t.mem, hout ht, hst.1 ▸ hst⟩
  case expand =>
    obtain ⟨t, ht, hst⟩ := memWrite_refused 2 j (lowBits 16 y) f.address hj ha hx hr hm
    exact ⟨t.mem, (hout ht).bind _, hst.1 ▸ hst⟩
  case expand2 vol =>
    by_cases h4 : j < 4
    · obtain ⟨t, ht, hst⟩ := memWrite_refused 4 j (lowBits 32 (y * vol.toNat)) f.address h4 ha hx hr hm
      refine ⟨t.mem, (hout ht).bind _, ?_⟩
      rw [sampleOutput, List.take_append_of_le_length (by simp; omega), ← hst.1]
      exact hst
    · obtain ⟨k, rfl⟩ : ∃ k, j = 4 + k := ⟨j - 4, by omega⟩
      obtain ⟨t, ht, hst⟩ := memWrite_ok 4 f.address (lowBits 32 (y * vol.toNat))
        (by simpa using ha.sub 0 4 (by omega)) hr hm
      have hframe := hst.1
      obtain ⟨u, hu, hsu⟩ := memWrite_refused 4 k (lowBits 32 (y * vol.toNat)) (f.address + 4#32) (s := t) (by omega)
        (by rw [hframe]; exact ha.sub 4 k (by omega))
        (by rw [hframe, BitVec.add_assoc, ← BitVec.ofNat_add]; exact hx) (by rw [hframe]; exact hr) hst.2.1
      have hsum := Stores.trans (y := (leBytes 4 (lowBits 32 (y * vol.toNat))).take k) (by simp; omega) hst
        (by simpa using hsu)
      refine ⟨u.mem, ⟨u, ?_, rfl⟩, ?_⟩
      · simp only [ht, Res.bind_ok, hu, Res.bind_raise, BitVec.add_assoc, ← BitVec.ofNat_add]
      · rw [sampleOutput, ← hsum.1]
        simpa [List.take_append, List.take_of_length_le] using hsum

/-- Accepting a quantised sample in range, with a refused byte in its output (R240, R241). -/
theorem acceptSample_refused (x : Int) (f : Frame) {s : State} {j : Nat} (hx : inSampleRange x (f.shift s) = true)
    (hj : j < f.stride) (ha : Admitted s.plat .write ⟨f.address, j⟩)
    (hw : memAdmits s.plat (f.address + BitVec.ofNat 32 j) .write = false) (hr : s.raced = .none)
    (hm : s.mem.wf = true) :
    ∃ m, Refuses (f.address + BitVec.ofNat 32 j) m (acceptSample x f s) ∧
      Stores f.address ((sampleOutput f.cmd (x * 2 ^ f.shift s)).take j) s { s with mem := m } := by
  obtain ⟨m, hraise, hst⟩ :=
    writeSample_refused (x * 2 ^ f.shift s) f (s := { s with ctx := s.ctx.push x }) hj ha hw hr hm
  obtain ⟨-, hwf, hbytes, hout⟩ := hst
  exact ⟨m, by rw [acceptSample, if_pos hx]; exact hraise, rfl, hwf, hbytes, hout⟩

/-- A format-0 sample whose two bytes are at hand is their value, to be stored (R264). -/
theorem rawSample_eq_writeSample (f : Frame) {lo hi : Byte} {rest : List Byte} {s : State}
    (hs : streamBytes s = lo :: hi :: rest) (hc : CanGet 2 s) (hr : s.raced = .none) :
    rawSample f s = writeSample (sext16 (get16Value lo hi)) f { s with st := StreamRegs.moved 2 s.st } := by
  obtain ⟨b, t, ht, hgt⟩ := streamGet_ok (.sampleLo f) (CanGet.fst (a := 1) (b := 1) hc) hr
  have hrt : t.raced = .none := by rw [hgt.1]; exact hr
  obtain ⟨c, u, hu, hgu⟩ := streamGet_ok (.sampleHi f b) (CanGet.snd (x := [b]) hc hgt) hrt
  obtain ⟨hframe, hbytes⟩ := hgt.trans hgu
  rw [hs] at hbytes
  obtain ⟨rfl, rfl, -⟩ : lo = b ∧ hi = c ∧ rest = streamBytes u := by simpa using hbytes
  rw [rawSample, ht, Res.bind_ok, rawSampleSecond, hu, Res.bind_ok, hframe]
  rfl

/-! ### The packer up to a refused byte (R162, R163) -/

/-- Of the bytes the packer emits next, byte `j` is the first that memory refuses, and the capacity reaches it. -/
structure PackStop (j : Nat) (s : State) : Prop where
  packer : PackerOk s.bw
  room : j < s.bw.cap.toNat - s.bw.emitted.toNat
  admitted : Admitted s.plat .write ⟨s.bw.base + s.bw.emitted, j⟩
  refused : memAdmits s.plat (s.bw.base + s.bw.emitted + BitVec.ofNat 32 j) .write = false
  raced : s.raced = .none
  wf : s.mem.wf = true

/-- The address of byte `j` of those the packer emits next (R162). -/
def packAddress (j : Nat) (s : State) : Word := s.bw.base + s.bw.emitted + BitVec.ofNat 32 j

/-- `r` is what packing `bits` from `s` on gives when byte `j` is refused: all of them are packed, or they complete that
byte, and BusError is raised with all but the completing bit and those after it packed. -/
def PacksUpTo (j : Nat) (bits : List Bool) (s : State) (r : Res Unit) : Prop :=
  (s.bw.used.toNat + bits.length < 8 * j + 8 → ∃ t, r = .ok () t ∧ Packs bits s t) ∧
    (8 * j + 8 ≤ s.bw.used.toNat + bits.length →
      ∃ u, Packs (bits.take (8 * j + 7 - s.bw.used.toNat)) s u ∧ Refuses (packAddress j s) u.mem r)

/-- Bits that do not complete the refused byte can be packed. -/
theorem PackStop.canPack {j n : Nat} {s : State} (h : PackStop j s) (hn : s.bw.used.toNat + n < 8 * j + 8) :
    CanPack n s := by
  obtain ⟨hp, hroom, hadm, -, -, -⟩ := h
  exact ⟨hp, by omega, by simpa [packSpan] using hadm.sub 0 ((s.bw.used.toNat + n) / 8) (by omega)⟩

/-- After some bits were packed the same byte is refused, that much nearer. -/
theorem PackStop.after {j : Nat} {x : List Bool} {s t : State} (h : PackStop j s) (hp : Packs x s t)
    (hx : s.bw.used.toNat + x.length < 8 * j + 8) :
    PackStop (j - (s.bw.used.toNat + x.length) / 8) t ∧
      packAddress (j - (s.bw.used.toNat + x.length) / 8) t = packAddress j s := by
  obtain ⟨-, hroom, hadm, hrefused, hr, -⟩ := h
  obtain ⟨hframe, -, hbase, hcap, hem, -, hok, hwf, -⟩ := hp
  have hplat : t.plat = s.plat := by rw [hframe]
  have hat : t.bw.base + t.bw.emitted =
      s.bw.base + s.bw.emitted + BitVec.ofNat 32 ((s.bw.used.toNat + x.length) / 8) := by rw [hbase]; bv_omega
  have haddr : packAddress (j - (s.bw.used.toNat + x.length) / 8) t = packAddress j s := by
    rw [packAddress, hat, BitVec.add_assoc, ← BitVec.ofNat_add, Nat.add_sub_of_le (by omega), packAddress]
  refine ⟨⟨hok, by rw [hcap]; omega, ?_, ?_, by rw [hframe]; exact hr, hwf⟩, haddr⟩
  · rw [hplat, hat]; exact hadm.sub _ _ (by omega)
  · rw [hplat]; exact (congrArg (memAdmits s.plat · .write) haddr).trans hrefused

/-- Packing nothing meets no refused byte. -/
theorem packsUpTo_nil {j : Nat} {s : State} (h : PackStop j s) : PacksUpTo j [] s (.ok () s) := by
  obtain ⟨hu, -, -⟩ := h.packer
  exact ⟨fun _ => ⟨s, rfl, Packs.refl h.packer h.wf⟩, fun hc => by simp at hc; omega⟩

/-- Packing some bits, then more bits (R163). -/
theorem PacksUpTo.bind {j : Nat} {x y : List Bool} {s : State} {r : Res Unit} {k : Unit → State → Res Unit}
    (h : PacksUpTo j x s r) (hs : PackStop j s)
    (hk : ∀ i t, Packs x s t → PackStop i t → PacksUpTo i y t (k () t)) : PacksUpTo j (x ++ y) s (r.bind k) := by
  obtain ⟨hok, hrefused⟩ := h
  by_cases hx : s.bw.used.toNat + x.length < 8 * j + 8
  · obtain ⟨t, rfl, ht⟩ := hok hx
    obtain ⟨hstop, haddr⟩ := hs.after ht hx
    obtain ⟨hok', hrefused'⟩ := hk _ t ht hstop
    have hused : t.bw.used.toNat = (s.bw.used.toNat + x.length) % 8 := by
      obtain ⟨-, -, -, -, -, hu, -⟩ := ht; exact hu
    rw [haddr, hused] at hrefused'
    rw [hused] at hok'
    rw [PacksUpTo, List.length_append, Res.bind_ok]
    refine ⟨fun hlt => ?_, fun hle => ?_⟩
    · obtain ⟨u, hu, hyu⟩ := hok' (by omega)
      exact ⟨u, hu, ht.trans hyu⟩
    · obtain ⟨u, hu, hraise⟩ := hrefused' (by omega)
      refine ⟨u, ?_, hraise⟩
      rw [List.take_append, List.take_of_length_le (by omega)]
      convert ht.trans hu using 3
      omega
  · obtain ⟨u, hu, hraise⟩ := hrefused (by omega)
    refine ⟨fun hlt => by simp at hlt; omega, fun _ => ⟨u, ?_, hraise.bind _⟩⟩
    rwa [List.take_append_of_le_length (by omega)]

theorem emit_refused (b : Byte) {s : State} (hne : s.bw.emitted ≠ s.bw.cap)
    (hx : memAdmits s.plat (s.bw.base + s.bw.emitted) .write = false) :
    Refuses (s.bw.base + s.bw.emitted) s.mem (emit b s) :=
  ⟨s, by rw [emit, if_neg hne, writeByte_refused hx, Res.bind_raise], rfl⟩

/-- `Emit` at a refused byte, whatever the stage holds meanwhile. -/
theorem emit_refused_of_stage (b stage : Byte) (used : BitVec 4) {s : State} (hne : s.bw.emitted ≠ s.bw.cap)
    (hx : memAdmits s.plat (s.bw.base + s.bw.emitted) .write = false) :
    Refuses (s.bw.base + s.bw.emitted) s.mem (emit b { s with bw := { s.bw with stage := stage, used := used } }) :=
  emit_refused b (s := { s with bw := { s.bw with stage := stage, used := used } }) hne hx

theorem packBit_packsUpTo {j : Nat} (bit : Bool) {s : State} (h : PackStop j s) :
    PacksUpTo j [bit] s (packBit bit s) := by
  refine ⟨fun hlt => packBit_ok (h.canPack hlt) h.raced h.wf, fun hle => ?_⟩
  obtain ⟨hu, -, -⟩ := h.packer
  have hroom := h.room
  have hx := h.refused
  rw [List.length_singleton] at hle
  obtain ⟨rfl, hu7⟩ : j = 0 ∧ s.bw.used.toNat = 7 := by omega
  have h8 : s.bw.used + 1#4 = 8#4 := by bv_omega
  rw [BitVec.add_zero] at hx
  refine ⟨s, by simpa [hu7] using Packs.refl h.packer h.wf, ?_⟩
  rw [packAddress, BitVec.add_zero, packBit, if_pos h8]
  exact (emit_refused_of_stage _ _ _ (fun e => by rw [e] at hroom; omega) hx).bind _

/-- `PackBits(v, n)` up to a refused byte (R163). -/
theorem packBits_packsUpTo (v n : Nat) {j : Nat} {s : State} (h : PackStop j s) :
    PacksUpTo j (bitsMsb n v) s (packBits v n s) := by
  induction n generalizing j s with
  | zero => exact packsUpTo_nil h
  | succ n ih => exact (packBit_packsUpTo (v.testBit n) h).bind (y := bitsMsb n v) h fun _ _ _ ht => ih ht

/-- The packing of a sample's code unit up to a refused byte (R236). -/
theorem packUnit_packsUpTo (x : Int) {j : Nat} {s : State} (h : PackStop j s) :
    PacksUpTo j (sampleUnit s.ctx x).bits s (packUnit x s) := by
  unfold packUnit sampleUnit
  dsimp only
  generalize x - s.ctx.guess = delta
  have h1 := one_le_bitsNeededOf delta.natAbs
  split
  · rw [CodeUnit.bits_normal _ _ _ (by omega), Nat.sub_add_cancel h1]
    have hsign : bitsMsb 1 (if 0 ≤ delta then 1 else 0) = [decide (0 ≤ delta)] := by split <;> simp_all [bitsMsb]
    rw [← hsign]
    exact (packBits_packsUpTo _ 4 h).bind h fun _ _ _ ht =>
      (packBits_packsUpTo _ 1 ht).bind ht fun _ _ _ hu => packBits_packsUpTo _ _ hu
  · rw [CodeUnit.bits_escape]
    exact (packBits_packsUpTo 15 4 h).bind h fun _ _ _ ht => packBits_packsUpTo _ 16 ht

/-- The flush of a pending partial byte whose place is refused (R165). -/
theorem flushPacker_refused {s : State} (h : PackStop 0 s) (hu : s.bw.used ≠ 0#4) :
    Refuses (s.bw.base + s.bw.emitted) s.mem (flushPacker s) := by
  have hroom := h.room
  have hx := h.refused
  rw [BitVec.add_zero] at hx
  rw [flushPacker, if_neg hu]
  exact (emit_refused _ (fun e => by rw [e] at hroom; omega) hx).bind _

end Sys2Proof.Machine
end

section
/-! ## A refused byte inside COMPRESS (R236, R238) -/

namespace Sys2Proof.Machine

/-! ### The code units of a sequence of samples -/

theorem sampleUnits_append (c : ContextRegs) (xs ys : List Int) :
    sampleUnits c (xs ++ ys) = sampleUnits c xs ++ sampleUnits (pushAll c xs) ys := by
  induction xs generalizing c with
  | nil => rfl
  | cons x xs ih => simp [sampleUnits, ih]

@[simp] theorem length_sampleUnits (c : ContextRegs) (xs : List Int) : (sampleUnits c xs).length = xs.length := by
  induction xs generalizing c with
  | nil => rfl
  | cons x xs ih => simp [sampleUnits, ih]

theorem sampleUnits_take (c : ContextRegs) (xs : List Int) (i : Nat) :
    (sampleUnits c xs).take i = sampleUnits c (xs.take i) := by
  induction xs generalizing c i with
  | nil => simp [sampleUnits]
  | cons x xs ih => cases i <;> simp [sampleUnits, ih]

@[simp] theorem unitsBits_append (us vs : List CodeUnit) : unitsBits (us ++ vs) = unitsBits us ++ unitsBits vs := by
  simp [unitsBits]

/-- A sample takes at most 20 bits (R237). -/
theorem length_unitsBits_sampleUnits (c : ContextRegs) (xs : List Int) :
    (unitsBits (sampleUnits c xs)).length ≤ 20 * xs.length := by
  induction xs generalizing c with
  | nil => simp [sampleUnits]
  | cons x xs ih =>
    have hu := CodeUnit.length_bits_le (sampleUnit_fits c x)
    have hrest := ih (c.push x)
    simp only [sampleUnits, unitsBits_cons, List.length_append, List.length_cons]
    omega

/-- The bits of COMPRESS's first `i` samples (R238). -/
def compressBits (sh i : Nat) (s : State) : List Bool :=
  unitsBits ((sampleUnits ContextRegs.zero (compressInput sh s)).take i)

@[simp] theorem length_compressInput (sh : Nat) (s : State) : (compressInput sh s).length = s.args.arg1.toNat := by
  simp [compressInput, rawSamples]

theorem compressBits_all (sh : Nat) (s : State) :
    compressBits sh s.args.arg1.toNat s = unitsBits (sampleUnits ContextRegs.zero (compressInput sh s)) := by
  rw [compressBits, List.take_of_length_le (by simp)]

theorem length_compressBits_le (sh i : Nat) (s : State) : (compressBits sh i s).length ≤ 20 * s.args.arg1.toNat := by
  rw [compressBits, sampleUnits_take]
  exact (length_unitsBits_sampleUnits _ _).trans (Nat.mul_le_mul_left _ (by simp))

theorem compressBits_prefix {sh i k : Nat} (h : i ≤ k) (s : State) : compressBits sh i s <+: compressBits sh k s := by
  obtain ⟨rest, hrest⟩ := List.take_prefix_take_left (l := sampleUnits ContextRegs.zero (compressInput sh s)) h
  exact ⟨unitsBits rest, by rw [compressBits, compressBits, ← hrest, unitsBits_append]⟩

/-- Quantised sample `i` of COMPRESS (R234, R238). -/
def compressSampleAt (sh i : Nat) (s : State) : Int :=
  asr (sext16 (leValue (memoryBytes s.mem (s.args.arg0 + BitVec.ofNat 32 (2 * i)) 2))) sh

theorem compressInput_take_succ {sh i : Nat} {s : State} (hi : i < s.args.arg1.toNat) :
    (compressInput sh s).take (i + 1) = (compressInput sh s).take i ++ [compressSampleAt sh i s] := by
  rw [List.take_succ_eq_append_getElem (by simpa using hi)]
  simp [compressInput, rawSamples, compressSampleAt]

/-- A sample's unit follows those of the samples before it (R236). -/
theorem compressBits_succ {sh i : Nat} {s : State} (hi : i < s.args.arg1.toNat) :
    compressBits sh (i + 1) s = compressBits sh i s ++
      (sampleUnit (pushAll ContextRegs.zero ((compressInput sh s).take i)) (compressSampleAt sh i s)).bits := by
  simp only [compressBits, sampleUnits_take, compressInput_take_succ hi, sampleUnits_append, unitsBits_append,
    sampleUnits, unitsBits_cons, unitsBits_nil, List.append_nil]

/-! ### The loop up to a sample -/

/-- A COMPRESS that no race touches: other agents leave its bytes alone and its buffers do not overlap (R91, R351). -/
structure Unraced (s : State) : Prop where
  raced : s.raced = .none
  wf : s.mem.wf = true
  apart : (compressSource s.args).meets (compressTarget s.args) = false

theorem Unraced.compressStart_raced {s : State} (h : Unraced s) (stats : Bool) :
    (compressStart stats s).raced = .none := by
  simp [compressStart, h.raced, h.apart]

theorem packSpan_compressStart (n : Nat) (stats : Bool) (s : State) :
    packSpan n (compressStart stats s) = ⟨s.args.arg2, n / 8⟩ := by simp [packSpan, compressStart, PackerRegs.bound]

/-- The bytes COMPRESS packs are none of its samples' (R91). -/
theorem Unraced.apart_at {s : State} (h : Unraced s) {off size : Nat} (hoff : off < 2 * s.args.arg1.toNat)
    (hlt : off < 4294967296) (hsize : size ≤ (compressTarget s.args).size) :
    (Span.mk s.args.arg2 size).has (s.args.arg0 + BitVec.ofNat 32 off) = false := by
  have hout := Span.not_meets h.apart (Span.has_add s.args.arg0 _ off hoff hlt)
  refine Bool.eq_false_iff.mpr fun hc => Bool.eq_false_iff.mp hout ?_
  exact Span.has_of_sub s.args.arg2 (compressTarget s.args).size 0 size _ (by omega) (by simpa using hc)

/-- Bits that fit the capacity fill no byte past COMPRESS's target (R237). -/
theorem compressBits_size_le {sh i : Nat} {s : State} (h : (compressBits sh i s).length / 8 ≤ s.args.arg3.toNat) :
    (compressBits sh i s).length / 8 ≤ (compressTarget s.args).size := by
  have := length_compressBits_le sh i s
  simp only [compressTarget]
  omega

/-- `u` is COMPRESS after its first `i` samples: their units are packed and they are in the Context (R238). -/
structure AfterSamples (sh i : Nat) (stats : Bool) (s u : State) : Prop where
  packs : Packs (compressBits sh i s) (compressStart stats s) { compressStart stats s with mem := u.mem, bw := u.bw }
  plat : u.plat = s.plat
  args : u.args = s.args
  raced : u.raced = .none
  ctx : u.ctx = pushAll ContextRegs.zero ((compressInput sh s).take i)

/-- COMPRESS's loop over its first `i` samples, when their bytes and those their units fill are admitted (R238). -/
theorem compressLoop_first {sh i : Nat} (stats : Bool) {s : State} (h : Unraced s) (hi : i ≤ s.args.arg1.toNat)
    (hread : Admitted s.plat .read ⟨s.args.arg0, 2 * i⟩)
    (hfit : (compressBits sh i s).length / 8 ≤ s.args.arg3.toNat)
    (hwrite : Admitted s.plat .write ⟨s.args.arg2, (compressBits sh i s).length / 8⟩) :
    ∃ u, compressLoop sh stats i 0 (compressStart stats s) = .ok () u ∧ AfterSamples sh i stats s u := by
  have hlt := hread.size_lt
  obtain ⟨rs, hrs⟩ : ∃ rs, rs = (rawSamples s.mem s.args.arg0 s.args.arg1.toNat).take i := ⟨_, rfl⟩
  have hlen : rs.length = i := by simp [hrs, rawSamples, hi]
  have hmap : rs.map (fun r => asr r sh) = (compressInput sh s).take i := by rw [hrs, List.map_take]; rfl
  have hbits : unitsBits (sampleUnits (compressStart stats s).ctx (rs.map fun r => asr r sh)) =
      compressBits sh i s := by
    rw [hmap, compressBits, sampleUnits_take]; rfl
  have key := compressLoop_ok sh stats rs 0 (s := compressStart stats s)
  rw [hbits, hmap] at key
  obtain ⟨m, b, hloop, hpacks⟩ := key
    (fun j hj => by simp [hrs, rawSamples]; rfl)
    (fun j hj => by rw [Nat.zero_add]; exact hread.sub (2 * j) 2 (by omega))
    ⟨packerOk_bound _ _, by simpa [compressStart, PackerRegs.bound] using hfit,
      by rw [packSpan_compressStart]; exact hwrite⟩
    (fun j hj k hk => by
      rw [packSpan_compressStart, Nat.zero_add, BitVec.add_assoc, ← BitVec.ofNat_add]
      exact h.apart_at (by omega) (by omega) (compressBits_size_le hfit))
    (h.compressStart_raced stats) h.wf
  rw [hlen] at hloop
  exact ⟨_, hloop, hpacks, rfl, rfl, h.compressStart_raced stats, rfl⟩

/-- COMPRESS's loop is its first samples and then the others. -/
theorem compressLoop_add (sh : Nat) (stats : Bool) (a b i : Nat) (s : State) :
    compressLoop sh stats (a + b) i s =
      (compressLoop sh stats a i s).bind fun _ s => compressLoop sh stats b (i + a) s := by
  induction a generalizing i s with
  | zero => simp [compressLoop]
  | succ a ih =>
    rw [Nat.succ_add, compressLoop, compressLoop, Res.bind_assoc]
    simp only [ih, Nat.add_assoc, Nat.add_comm 1]

/-- A BusError in a sample after the first ones ends COMPRESS's body (R305). -/
theorem compressBody_refused {sh i : Nat} {stats : Bool} {a : Word} {m : Memory} {s u : State}
    (hi : i < s.args.arg1.toNat) (hloop : compressLoop sh stats i 0 s = .ok () u)
    (hx : Refuses a m (compressSample sh stats i u)) : Refuses a m (compressBody sh stats s) := by
  obtain ⟨k, hk⟩ := Nat.exists_eq_add_of_lt hi
  rw [compressBody, hk, Nat.add_assoc, compressLoop_add, hloop, Res.bind_ok, Nat.zero_add, compressLoop]
  exact ((hx.indexed _).bind _).bind _

/-! ### A refused byte of the source -/

theorem memRead16_refused {a : Word} {j : Nat} {s : State} (hj : j < 2) (ha : Admitted s.plat .read ⟨a, j⟩)
    (hx : memAdmits s.plat (a + BitVec.ofNat 32 j) .read = false) (hr : s.raced = .none) :
    Refuses (a + BitVec.ofNat 32 j) s.mem (memRead16 a s) := by
  rw [memRead16]
  match j, hj with
  | 0, _ =>
    rw [BitVec.add_zero] at hx ⊢
    exact Refuses.bind ⟨s, readByte_refused hx, rfl⟩ _
  | 1, _ =>
    rw [readByte_ok (ha.head (by omega)) hr, Res.bind_ok]
    exact Refuses.bind ⟨s, readByte_refused hx, rfl⟩ _

/-- COMPRESS meets a refused byte of sample `j / 2` with the units of the samples before it packed (R238, R307). -/
theorem compress_source_refused {sh j : Nat} (stats : Bool) {s : State} (h : Unraced s) (hj : j < 2 * s.args.arg1.toNat)
    (hread : Admitted s.plat .read ⟨s.args.arg0, j⟩)
    (hx : memAdmits s.plat (s.args.arg0 + BitVec.ofNat 32 j) .read = false)
    (hfit : (compressBits sh (j / 2) s).length / 8 ≤ s.args.arg3.toNat)
    (hwrite : Admitted s.plat .write ⟨s.args.arg2, (compressBits sh (j / 2) s).length / 8⟩) :
    ∃ m b, Packs (compressBits sh (j / 2) s) (compressStart stats s) { compressStart stats s with mem := m, bw := b } ∧
      Refuses (s.args.arg0 + BitVec.ofNat 32 j) m (compressBody sh stats (compressStart stats s)) := by
  obtain ⟨u, hloop, hu⟩ := compressLoop_first stats h (show j / 2 ≤ s.args.arg1.toNat by omega)
    (by simpa using hread.sub 0 (2 * (j / 2)) (by omega)) hfit hwrite
  have haddr : s.args.arg0 + BitVec.ofNat 32 j =
      u.args.arg0 + BitVec.ofNat 32 (2 * (j / 2)) + BitVec.ofNat 32 (j % 2) := by
    rw [hu.args, BitVec.add_assoc, ← BitVec.ofNat_add, Nat.div_add_mod]
  refine ⟨u.mem, u.bw, hu.packs, compressBody_refused (i := j / 2) (show j / 2 < s.args.arg1.toNat by omega) hloop ?_⟩
  rw [haddr, ← hu.plat] at hx
  rw [haddr]
  refine (memRead16_refused (Nat.mod_lt j (by omega)) ?_ hx hu.raced).bind _
  rw [hu.plat, hu.args]
  exact hread.sub _ _ (by omega)

/-! ### A refused byte of the destination -/

/-- Packing is the same in a state with the same packer and memory. -/
theorem packs_of_same_packer {bits : List Bool} {s t s' : State} (h : Packs bits s t) (hb : s'.bw = s.bw)
    (hm : s'.mem = s.mem) : Packs bits s' { s' with mem := t.mem, bw := t.bw } := by
  obtain ⟨-, h2, h3, h4, h5, h6, h7, h8, h9⟩ := h
  refine ⟨rfl, ?_, by rw [hb]; exact h3, by rw [hb]; exact h4, by rw [hb]; exact h5, by rw [hb]; exact h6, h7, h8, ?_⟩
  · rw [packedBits, packedBits, hb, hm]; exact h2
  · unfold SameOutside packSpan byteAt at *
    rw [hb, hm]; exact h9

/-- After COMPRESS's first samples byte `j` of its output, the first one refused, is still to be completed. -/
theorem AfterSamples.packStop {sh i j : Nat} {stats : Bool} {s u : State} (hu : AfterSamples sh i stats s u)
    (h : Unraced s) (hlen : (compressBits sh i s).length < 8 * j + 8) (hj : j < s.args.arg3.toNat)
    (ha : Admitted s.plat .write ⟨s.args.arg2, j⟩)
    (hx : memAdmits s.plat (s.args.arg2 + BitVec.ofNat 32 j) .write = false) :
    PackStop (j - (compressBits sh i s).length / 8) u ∧
      packAddress (j - (compressBits sh i s).length / 8) u = s.args.arg2 + BitVec.ofNat 32 j ∧
      u.bw.used.toNat = (compressBits sh i s).length % 8 := by
  have hb : s.args.arg2 + 0#32 = s.args.arg2 := BitVec.add_zero _
  have hstart : PackStop j (compressStart stats s) :=
    ⟨packerOk_bound _ _, hj, hb.symm ▸ ha, hb.symm ▸ hx, h.compressStart_raced stats, h.wf⟩
  have hused : (compressStart stats s).bw.used.toNat = 0 := rfl
  obtain ⟨-, -, -, -, -, hmod, -⟩ := id hu.packs
  obtain ⟨hstop, haddr⟩ := hstart.after hu.packs (by omega)
  rw [hused, Nat.zero_add] at hstop haddr hmod
  obtain ⟨hp, hroom, hadm, hrefused, -, hwf⟩ := hstop
  exact ⟨⟨hp, hroom, hu.plat ▸ hadm, hu.plat ▸ hrefused, hu.raced, hwf⟩, haddr.trans (congrArg (· + _) hb), hmod⟩

/-- The units packed so far spare the next sample (R91). -/
theorem AfterSamples.sampleAt {sh i : Nat} {stats : Bool} {s u : State} (hu : AfterSamples sh i stats s u)
    (h : Unraced s) (hi : i < s.args.arg1.toNat) (hread : Admitted s.plat .read (compressSource s.args))
    (hfit : (compressBits sh i s).length / 8 ≤ s.args.arg3.toNat) :
    compressSampleAt sh i u = compressSampleAt sh i s := by
  obtain ⟨-, -, -, -, -, -, -, -, hkept⟩ := hu.packs
  have hsize : 2 * s.args.arg1.toNat < 4294967296 := hread.size_lt
  have hsame : memoryBytes u.mem (s.args.arg0 + BitVec.ofNat 32 (2 * i)) 2 =
      memoryBytes s.mem (s.args.arg0 + BitVec.ofNat 32 (2 * i)) 2 := by
    refine memoryBytes_apart hkept fun k hk => ?_
    rw [packSpan_compressStart, BitVec.add_assoc, ← BitVec.ofNat_add]
    exact h.apart_at (by omega) (by omega) (compressBits_size_le hfit)
  rw [compressSampleAt, hu.args, hsame, compressSampleAt]

/-- A sample of COMPRESS whose unit completes the refused byte (R236, R238). -/
theorem compressSample_refused {sh i j : Nat} (stats : Bool) {s : State} (h : PackStop j s)
    (hread : Admitted s.plat .read ⟨s.args.arg0 + BitVec.ofNat 32 (2 * i), 2⟩)
    (hlen : 8 * j + 8 ≤ s.bw.used.toNat + (sampleUnit s.ctx (compressSampleAt sh i s)).bits.length) :
    ∃ t, Packs ((sampleUnit s.ctx (compressSampleAt sh i s)).bits.take (8 * j + 7 - s.bw.used.toNat)) s t ∧
      Refuses (packAddress j s) t.mem (compressSample sh stats i s) := by
  obtain ⟨t, ht, hx⟩ := (packUnit_packsUpTo (compressSampleAt sh i s) h).2 hlen
  refine ⟨t, ht, ?_⟩
  rw [compressSample, memRead16_ok _ hread h.raced, Res.bind_ok, encodeUnit]
  exact (hx.bind _).bind _

/-- The samples whose units leave the refused byte `j` incomplete: as many as can be. -/
theorem exists_last_sample (sh j : Nat) (s : State) :
    ∃ i, i ≤ s.args.arg1.toNat ∧ (compressBits sh i s).length < 8 * j + 8 ∧
      (i < s.args.arg1.toNat → 8 * j + 8 ≤ (compressBits sh (i + 1) s).length) := by
  refine ⟨Nat.findGreatest (fun i => (compressBits sh i s).length < 8 * j + 8) s.args.arg1.toNat,
    Nat.findGreatest_le _, ?_, fun hlt => ?_⟩
  · exact Nat.findGreatest_spec (P := fun i => (compressBits sh i s).length < 8 * j + 8) (Nat.zero_le _)
      (by simp [compressBits])
  · exact Nat.le_of_not_lt (Nat.findGreatest_is_greatest (P := fun i => (compressBits sh i s).length < 8 * j + 8)
      (Nat.lt_succ_self _) hlt)

/-- COMPRESS meets a refused byte `j` of its output, in the unit that completes it or in the flush, with all the bits
before the completing one packed (R236, R238, R307). -/
theorem compress_target_refused {sh j : Nat} (stats : Bool) {s : State} (h : Unraced s)
    (hlen : 8 * j < (compressBits sh s.args.arg1.toNat s).length) (hj : j < s.args.arg3.toNat)
    (hread : Admitted s.plat .read (compressSource s.args)) (hwrite : Admitted s.plat .write ⟨s.args.arg2, j⟩)
    (hx : memAdmits s.plat (s.args.arg2 + BitVec.ofNat 32 j) .write = false) :
    ∃ m b bits, bits <+: compressBits sh s.args.arg1.toNat s ∧ bits.length / 8 = j ∧
      Packs bits (compressStart stats s) { compressStart stats s with mem := m, bw := b } ∧
      Refuses (s.args.arg2 + BitVec.ofNat 32 j) m (compressBody sh stats (compressStart stats s)) := by
  obtain ⟨i, hi, hbefore, hafter⟩ := exists_last_sample sh j s
  have hfit : (compressBits sh i s).length / 8 ≤ s.args.arg3.toNat := by omega
  obtain ⟨u, hloop, hu⟩ := compressLoop_first stats h hi
    (by simpa using Admitted.sub hread 0 (2 * i) (by omega)) hfit (by simpa using hwrite.sub 0 _ (by omega))
  obtain ⟨hstop, haddr, hused⟩ := hu.packStop h hbefore hj hwrite hx
  rcases Nat.lt_or_eq_of_le hi with hlt | rfl
  · have hnext := hafter hlt
    have hsample := hu.sampleAt h hlt hread hfit
    rw [compressBits_succ hlt, List.length_append, ← hu.ctx, ← hsample] at hnext
    obtain ⟨v, hv, hraise⟩ := compressSample_refused (sh := sh) stats hstop
      (by rw [hu.plat, hu.args]; exact hread.sub (2 * i) 2 (by omega)) (by omega)
    rw [haddr] at hraise
    refine ⟨v.mem, v.bw, _, ?_, ?_, hu.packs.trans (packs_of_same_packer hv rfl rfl),
      compressBody_refused hlt hloop hraise⟩
    · refine List.IsPrefix.trans ?_ (compressBits_prefix hlt s)
      rw [compressBits_succ hlt, ← hu.ctx, ← hsample]
      exact (List.prefix_append_right_inj _).mpr (List.take_prefix _ _)
    · rw [List.length_append, List.length_take]
      omega
  · have hj0 : j - (compressBits sh s.args.arg1.toNat s).length / 8 = 0 := by omega
    have hne : u.bw.used ≠ 0#4 := fun e => by simp [e] at hused; omega
    rw [hj0] at hstop haddr
    rw [packAddress, BitVec.add_zero] at haddr
    refine ⟨u.mem, u.bw, _, List.prefix_rfl, by omega, hu.packs, ?_⟩
    have hbody : compressBody sh stats (compressStart stats s) = (flushPacker u).indexed u.args.arg1 :=
      congrArg (Res.bind · _) hloop
    rw [hbody, ← haddr]
    exact (flushPacker_refused hstop hne).indexed _

/-! ### The command -/

/-- The bytes a COMPRESS filled are the packed bits, as far as they fill bytes, and all it stored (R85, R163). -/
theorem stores_of_packs_compressStart {bits : List Bool} {stats : Bool} {s : State} {m : Memory} {b : PackerRegs}
    (h : Packs bits (compressStart stats s) { compressStart stats s with mem := m, bw := b }) :
    ∃ bytes, bytes.length = bits.length / 8 ∧ bytesBits bytes = bits.take (8 * bytes.length) ∧
      Stores s.args.arg2 bytes s { s with mem := m } := by
  obtain ⟨-, hbits, hbase, -, hem, -, -, hwf, hout⟩ := h
  have hzero : packedBits (compressStart stats s) = [] := rfl
  replace hem : b.emitted.toNat = 0 + (0 + bits.length) / 8 := hem
  replace hbase : b.base = s.args.arg2 := hbase
  rw [Nat.zero_add, Nat.zero_add] at hem
  rw [packSpan_compressStart] at hout
  rw [hzero, List.nil_append] at hbits
  replace hbits : bytesBits (memoryBytes m b.base b.emitted.toNat) ++ bitsMsb b.used.toNat b.stage.toNat = bits := hbits
  rw [hbase, hem] at hbits
  have htake := congrArg (List.take (8 * (bits.length / 8))) hbits
  rw [List.take_left' (by simp)] at htake
  exact ⟨memoryBytes m s.args.arg2 (bits.length / 8), by simp, by rw [length_memoryBytes]; exact htake, rfl, hwf,
    by simp, by rw [length_memoryBytes]; exact hout⟩

/-- COMPRESS that raises BusError keeps the bytes it had filled (R306, R307; log 12). -/
theorem execCompress_refused {sh : Nat} {stats : Bool} {s : State} (hsh : sh ≤ 15) {bits : List Bool} {m : Memory}
    {b : PackerRegs} {a : Word}
    (hp : Packs bits (compressStart stats s) { compressStart stats s with mem := m, bw := b })
    (hx : Refuses a m (compressBody sh stats (compressStart stats s))) :
    ∃ t bytes, exec (.compress sh stats) s = .next t ∧ t.fault = true ∧ bytes.length = bits.length / 8 ∧
      bytesBits bytes = bits.take (8 * bytes.length) ∧ Stores s.args.arg2 bytes s { s with mem := t.mem } ∧
      t.err = { cause := 7#8, op := 0x50#8, info := a } := by
  obtain ⟨bytes, hlen, hbytes, hst⟩ := stores_of_packs_compressStart hp
  obtain ⟨hf, hm, he⟩ := hx.conclude 0x50 (spoilCompress_mem stats) fun _ s => (s.setReturned s.bw.emitted).finish
  exact ⟨_, bytes, if_neg (by omega), hf, hlen, hbytes, hm.symm ▸ hst, he⟩

end Sys2Proof.Machine
end

section
/-! ## BusError in every command that touches memory (R82, R83, R305 to R307) -/

namespace Sys2Proof.Machine

/-! ### Sources -/

/-- ST_GET, and ST_GET16 at its first byte (R215, R216). -/
theorem stGet_busError {s : State} (hk : s.st.kind = .mem) (hp : s.st.pos ≠ s.st.size)
    (hx : memAdmits s.plat (s.st.base + s.st.pos) .read = false) :
    (∃ t, exec .stGet s = .next t ∧ t.fault = true ∧ t.mem = s.mem ∧
        t.err = { cause := 7#8, op := 0x42#8, info := s.st.base + s.st.pos }) ∧
      ∃ t, exec .stGet16 s = .next t ∧ t.fault = true ∧ t.mem = s.mem ∧
        t.err = { cause := 7#8, op := 0x43#8, info := s.st.base + s.st.pos } :=
  ⟨⟨_, rfl, (streamGet_refused .get hk hp hx).conclude 0x42 spoilGet_mem _⟩,
    ⟨_, rfl, ((streamGet_refused .get16Lo hk hp hx).bind get16Second).conclude 0x43 spoilGet_mem _⟩⟩

/-- ST_GET16 at its second byte (R216). -/
theorem stGet16_busError_second {s : State} (hk : s.st.kind = .mem) (hr : s.raced = .none)
    (h2 : 2 ≤ s.st.size.toNat - s.st.pos.toNat) (ha : memAdmits s.plat (s.st.base + s.st.pos) .read = true)
    (hx : memAdmits s.plat (s.st.base + s.st.pos + 1#32) .read = false) :
    ∃ t, exec .stGet16 s = .next t ∧ t.fault = true ∧ t.mem = s.mem ∧
      t.err = { cause := 7#8, op := 0x43#8, info := s.st.base + s.st.pos + 1#32 } :=
  ⟨_, rfl, (streamGet_second_refused .get16Lo (k := get16Second) (fun _ _ => rfl) hk h2 ha hr hx).conclude 0x43
    spoilGet_mem _⟩

/-- BR_READ that needs more bits than are at hand before a refused byte (R185). -/
theorem brRead_busError {n : Nat} {a : Word} {bits : List Bool} {s : State} (h : Ahead s.mem a bits s) (hn : n ≤ 32)
    (hlen : bits.length < n) :
    ∃ t, exec (.brRead n) s = .next t ∧ t.fault = true ∧ t.mem = s.mem ∧
      t.err = { cause := 7#8, op := 0x32#8, info := a } :=
  ⟨_, if_neg (by omega),
    ((unpackFrom_of_ahead .read n 0 h).1 (takeBits_of_short 0 hlen)).conclude 0x32 spoilRead_mem _⟩

section
variable {f : Frame} {s : State}

/-- A decoding command's step over bits that hold no whole code unit before a refused byte (R240). -/
theorem step_unit_busError {a : Word} {bits : List Bool} (ht : s.task = .sample f) (hh : s.host = [])
    (hraw : f.isRaw s = false) (h : Ahead s.mem a bits s) (hd : decodeUnit bits = .error .unitTruncated) :
    ∃ t, step s = .next t ∧ t.fault = true ∧ t.mem = s.mem ∧
      t.err = { cause := 7#8, op := BitVec.ofNat 8 f.op, info := a } := by
  rw [step_sample ht hh, sampleStep, if_neg (by simp [hraw])]
  exact ⟨_, rfl, ((readUnit_of_ahead f h hd).indexed f.i).conclude f.op (spoilDecode_mem f) _⟩

/-- A format-0 sample's step is the raw sample and the end of the iteration (R264). -/
theorem step_raw (ht : s.task = .sample f) (hh : s.host = []) (hraw : f.isRaw s = true) :
    step s = .next (endSample f (rawSample f s)) := by
  rw [step_sample ht hh, sampleStep, if_pos hraw]

/-- A format-0 sample with a refused byte among its two (R214, R264). -/
theorem rawSample_source_refused {j : Nat} (hr : s.raced = .none) (h2 : j < 2) (hj : j < (undelivered s).size)
    (hadm : Admitted s.plat .read ⟨(undelivered s).base, j⟩)
    (hx : memAdmits s.plat ((undelivered s).base + BitVec.ofNat 32 j) .read = false) :
    Refuses ((undelivered s).base + BitVec.ofNat 32 j) s.mem (rawSample f s) := by
  match j, h2 with
  | 0, _ =>
    rw [BitVec.add_zero] at hx ⊢
    exact ((streamGet_undelivered _ hj hr).1 hx).bind _
  | 1, _ =>
    obtain ⟨hk, hu⟩ := undelivered_of_pos (Nat.zero_lt_of_lt hj)
    rw [hu] at hj hadm hx ⊢
    exact streamGet_second_refused _ (k := rawSampleSecond f) (fun _ _ => rfl) hk hj (hadm.head (by omega)) hr hx

/-- The end of a sample whose output meets a refused byte: the bytes below it are stored. -/
theorem endSample_busError {a : Word} {m : Memory} {bytes : List Byte} {r : Res Unit} (h : Refuses a m r)
    (hst : Stores f.address bytes s { s with mem := m }) :
    (endSample f r).fault = true ∧ Stores f.address bytes s { s with mem := (endSample f r).mem } ∧
      (endSample f r).err = { cause := 7#8, op := BitVec.ofNat 8 f.op, info := a } := by
  obtain ⟨hf, hm, he⟩ := (h.indexed f.i).conclude f.op (spoilDecode_mem f) fun _ s => nextSample f s
  exact ⟨hf, hm.symm ▸ hst, he⟩

/-- A format-0 sample's step with a refused byte in its output (R264 to R266). -/
theorem step_raw_output_busError {j : Nat} {lo hi : Byte} {rest : List Byte} (ht : s.task = .sample f)
    (hh : s.host = []) (hraw : f.isRaw s = true) (hr : s.raced = .none) (hm : s.mem.wf = true)
    (hs : streamBytes s = lo :: hi :: rest) (hc : CanGet 2 s) (hj : j < f.stride)
    (ha : Admitted s.plat .write ⟨f.address, j⟩)
    (hx : memAdmits s.plat (f.address + BitVec.ofNat 32 j) .write = false) :
    ∃ t, step s = .next t ∧ t.fault = true ∧
      Stores f.address ((sampleOutput f.cmd (sext16 (get16Value lo hi))).take j) s { s with mem := t.mem } ∧
      t.err = { cause := 7#8, op := BitVec.ofNat 8 f.op, info := f.address + BitVec.ofNat 32 j } := by
  obtain ⟨m, hraise, -, hwf, hbytes, hout⟩ := writeSample_refused (sext16 (get16Value lo hi)) f
    (s := { s with st := StreamRegs.moved 2 s.st }) hj ha hx hr hm
  rw [← rawSample_eq_writeSample f hs hc hr] at hraise
  exact ⟨_, step_raw ht hh hraw, endSample_busError hraise ⟨rfl, hwf, hbytes, hout⟩⟩

/-- A code unit with a refused byte in its output (R240, R243, R265, R266). -/
theorem exec_unit_busError {j : Nat} (u : CodeUnit) (ht : s.task = .sample f) (hr : s.raced = .none)
    (hm : s.mem.wf = true) (hx : inSampleRange (unitSample u s.ctx) (f.shift s) = true) (hj : j < f.stride)
    (ha : Admitted s.plat .write ⟨f.address, j⟩)
    (hw : memAdmits s.plat (f.address + BitVec.ofNat 32 j) .write = false) :
    ∃ t, exec u.instr s = .next t ∧ t.fault = true ∧
      Stores f.address ((sampleOutput f.cmd (unitSample u s.ctx * 2 ^ f.shift s)).take j) s { s with mem := t.mem } ∧
      t.err = { cause := 7#8, op := BitVec.ofNat 8 f.op, info := f.address + BitVec.ofNat 32 j } := by
  obtain ⟨m, hraise, hst⟩ := acceptSample_refused (unitSample u s.ctx) f hx hj ha hw hr hm
  exact ⟨_, exec_unit u ht, endSample_busError hraise hst⟩

end

/-! ### The packer's commands -/

/-- BW_WRITE at a byte that its bits complete (R164). -/
theorem bwWrite_busError {n j : Nat} {s : State} (h : PackStop j s) (hn : n ≤ 32)
    (hv : n = 32 ∨ s.args.arg0.toNat < 2 ^ n) (hj : j < (s.bw.used.toNat + n) / 8) :
    ∃ (k : Nat) (t u : State), exec (.bwWrite n) s = .next t ∧ s.bw.used.toNat + k = 8 * j + 7 ∧
      Packs ((bitsMsb n s.args.arg0.toNat).take k) s u ∧ t.mem = u.mem ∧ t.fault = true ∧
      t.err = { cause := 7#8, op := 0x21#8, info := s.bw.base + s.bw.emitted + BitVec.ofNat 32 j } := by
  obtain ⟨hu, -, -⟩ := h.packer
  obtain ⟨u, hp, hx⟩ := (packBits_packsUpTo s.args.arg0.toNat n h).2 (by rw [length_bitsMsb]; omega)
  obtain ⟨hf, hm, he⟩ := hx.conclude 0x21 spoilPackerFill_mem fun _ s => s.finish
  have hfits : ¬ (n < 32 ∧ ¬ fitsWidth s.args.arg0 n = true) := by
    rintro ⟨hlt, hno⟩
    exact hno (by simpa [fitsWidth] using hv.resolve_left (by omega))
  refine ⟨8 * j + 7 - s.bw.used.toNat, _, u, ?_, by omega, hp, hm, hf, he⟩
  rw [exec, execBwWrite, if_neg (by omega), if_neg hfits]

/-- BW_CLOSE at the byte it flushes (R165). -/
theorem bwClose_busError {s : State} (h : PackStop 0 s) (hu : s.bw.used ≠ 0#4) :
    ∃ t, exec .bwClose s = .next t ∧ t.fault = true ∧ t.mem = s.mem ∧
      t.err = { cause := 7#8, op := 0x22#8, info := s.bw.base + s.bw.emitted } :=
  ⟨_, rfl, (flushPacker_refused h hu).conclude 0x22 (spoil := fun s => spoilResult (spoilPackerFill s))
    (fun _ => rfl) _⟩

/-! ### The statement -/

/-- Settles O60: each command's procedure stops at the first refused byte, and fault entry reports its address. -/
theorem busErrorRaised : Obligations.BusErrorRaised := by
  refine ⟨fun a b s => ⟨readByte_refused, writeByte_refused⟩, fun n j v a s => memWrite_refused n j v a,
    ?_, ?_, ?_, ?_, ?_⟩
  · exact fun s hk hr => ⟨stGet_busError hk, stGet16_busError_second hk hr⟩
  · refine fun s j hr hm => ⟨fun _ hj hadm hx => ?_, fun f ht hh hraw => ⟨fun h2 hj hadm hx => ?_, ?_⟩⟩
    · have hahead := ahead_of_refused hr hj hadm hx
      exact ⟨fun n hn hlt => brRead_busError hahead hn (Nat.lt_of_le_of_lt (List.length_take_le _ _) hlt),
        fun f ht hh hraw hd => step_unit_busError ht hh hraw hahead hd⟩
    · exact ⟨_, step_raw ht hh hraw, ((rawSample_source_refused hr h2 hj hadm hx).indexed f.i).conclude f.op
        (spoilDecode_mem f) _⟩
    · exact fun lo hi rest hs hc hj ha hx => step_raw_output_busError ht hh hraw hr hm hs hc hj ha hx
  · refine fun s j hp hr hm hroom ha hx => ⟨fun n hn hv hj => bwWrite_busError ⟨hp, hroom, ha, hx, hr, hm⟩ hn hv hj, ?_⟩
    rintro rfl hu
    exact bwClose_busError ⟨hp, hroom, ha, hx, hr, hm⟩ hu
  · refine fun sh stats s hsh hr hm hap => ⟨fun j bits hj hread hx hbits hfit hwrite => ?_,
      fun j hlen hj hread hwrite hx => ?_⟩
    · subst hbits
      obtain ⟨m, b, hp, hraise⟩ := compress_source_refused stats ⟨hr, hm, hap⟩ hj hread hx hfit hwrite
      exact execCompress_refused hsh hp hraise
    · rw [← compressBits_all] at hlen ⊢
      obtain ⟨m, b, bits, hprefix, hbytes, hp, hraise⟩ :=
        compress_target_refused stats ⟨hr, hm, hap⟩ hlen hj hread hwrite hx
      obtain ⟨t, bytes, ht, hf, hcount, hval, hst, he⟩ := execCompress_refused hsh hp hraise
      rw [hbytes] at hcount
      rw [hcount] at hval
      refine ⟨t, bytes, ht, hf, hcount, ?_, hst, he⟩
      rw [hval, List.prefix_iff_eq_take.mp hprefix, List.take_take]
      congr 1
      omega
  · exact fun u f s j ht hr hm hlo hhi hj ha hw =>
      exec_unit_busError u ht hr hm (by simp [inSampleRange, hlo, hhi]) hj ha hw

end Sys2Proof.Machine
end

section
/-! ## Command words: their fields, and the rows that accept them (R110 to R116) -/

namespace Sys2Proof.Laws

open Sys2Proof.Machine

/-! ### The fields of any word -/

theorem wordOp_lt (w : Word) : wordOp w < 256 := Nat.mod_lt _ (by decide)

theorem wordImm_lt (w : Word) : wordImm w < 256 := Nat.mod_lt _ (by decide)

theorem wordFlg_lt (w : Word) : wordFlg w < 256 := Nat.mod_lt _ (by decide)

theorem wordReserved_lt (w : Word) : wordReserved w < 256 := by
  have := w.isLt
  unfold wordReserved
  omega

/-- A word is its four fields (R110). -/
theorem word_ext {v w : Word} (ho : wordOp v = wordOp w) (hi : wordImm v = wordImm w) (hf : wordFlg v = wordFlg w)
    (hr : wordReserved v = wordReserved w) : v = w := by
  unfold wordOp wordImm wordFlg wordReserved at *
  exact BitVec.eq_of_toNat_eq (by omega)

/-- A word with nothing in its reserved bits is the command word of its fields (R125). -/
theorem commandWord_fields {w : Word} (h : wordReserved w = 0) :
    commandWord (wordOp w) (wordImm w) (wordFlg w) = w := by
  have ho := wordOp_lt w
  have hi := wordImm_lt w
  have hf := wordFlg_lt w
  exact word_ext (wordOp_commandWord _ _ _ ho) (wordImm_commandWord _ _ _ ho hi)
    (wordFlg_commandWord _ _ _ ho hi hf) ((wordReserved_commandWord _ _ _ ho hi hf).trans h.symm)

@[simp] theorem wordOp_and (v w : Word) : wordOp (v &&& w) = wordOp v &&& wordOp w :=
  Nat.and_mod_two_pow (n := 8)

@[simp] theorem wordImm_and (v w : Word) : wordImm (v &&& w) = wordImm v &&& wordImm w := by
  unfold wordImm
  rw [BitVec.toNat_and, Nat.and_div_two_pow (n := 8)]
  exact Nat.and_mod_two_pow (n := 8)

@[simp] theorem wordFlg_and (v w : Word) : wordFlg (v &&& w) = wordFlg v &&& wordFlg w := by
  unfold wordFlg
  rw [BitVec.toNat_and, Nat.and_div_two_pow (n := 16)]
  exact Nat.and_mod_two_pow (n := 8)

@[simp] theorem wordReserved_and (v w : Word) : wordReserved (v &&& w) = wordReserved v &&& wordReserved w :=
  Nat.and_div_two_pow (n := 24)

/-! ### Decoding and encoding a command -/

/-- A check of unused bits passes and gives its command. -/
theorem ite_ok_eq_ok {p : Prop} [Decidable p] {a i : Instr} {r : Reject} :
    (if p then Except.ok a else .error r) = .ok i ↔ p ∧ a = i := by
  split <;> simp [*]

/-- A word that decodes is the encoding of the well-formed command it decodes to (R113 to R116). -/
theorem encode_of_decodeCommand {w : Word} {i : Instr} (h : decodeCommand w = .ok i) :
    WellFormed i = true ∧ encode i = .command w := by
  simp only [decodeCommand] at h
  split at h
  next => cases h
  next hr =>
    have hw := commandWord_fields (not_not.mp hr)
    have hi := wordImm_lt w
    have hf := wordFlg_lt w
    split at h <;> rename_i hop <;> simp only [ite_ok_eq_ok, Except.ok.injEq, reduceCtorEq] at h
    -- COMPRESS: FLG[0] is a field, so FLG is 0 or 1
    case h_18 =>
      obtain ⟨hlt, rfl⟩ := h
      refine ⟨by simp [WellFormed, hi], ?_⟩
      have : wordFlg w = 0 ∨ wordFlg w = 1 := by omega
      rw [encode, ← hop, ← congrArg Encoded.command hw]
      rcases this with e | e <;> simp [e]
    -- EXP_INIT uses every bit of IMM and FLG
    case h_20 =>
      subst h
      exact ⟨by simp [WellFormed, hi, hf], by rw [encode, ← hop, hw]⟩
    all_goals
      obtain ⟨hz, rfl⟩ := h
      simp only [hop, hz] at hw
      exact ⟨by simp [WellFormed, hi], congrArg Encoded.command hw⟩

/-- Decoding gives an encoded well-formed instruction back (R110 to R119). -/
theorem decode_encode {i : Instr} (h : WellFormed i = true) : decode (encode i) = .ok i := by
  cases i with
  | nop | softReset | accClear | bitsNeeded | bwInit | bwClose | bwLength | brInitFlat | brInitStream | stBindMem
  | stBindChunk | stGet | stGet16 | expExpand | expExpand2 | expDone => rfl
  | accPush n | accPop n | bwWrite n | brRead n | lexpand n =>
    exact decodeCommand_fields (by decide) (of_decide_eq_true h) (by decide) fun w hr ho hi hf => by
      simp [decodeCommand, hr, ho, hi, hf]
  | compress s stats =>
    exact decodeCommand_fields (by decide) (of_decide_eq_true h) (by cases stats <;> decide) fun w hr ho hi hf => by
      cases stats <;> simp [decodeCommand, hr, ho, hi, hf]
  | expInit s fmt =>
    simp only [WellFormed, Bool.and_eq_true, decide_eq_true_eq] at h
    obtain ⟨hs, hfmt⟩ := h
    exact decodeCommand_fields (by decide) hs hfmt fun w hr ho hi hf => by
      simp [decodeCommand, hr, ho, hi, hf]
  | cuD1 sign mag | cuD2 sign mag | cuD3 sign mag | cuD4 sign mag | cuD5 sign mag | cuD6 sign mag | cuD7 sign mag
  | cuD8 sign mag | cuD9 sign mag | cuD10 sign mag | cuD11 sign mag | cuD12 sign mag | cuD13 sign mag
  | cuD14 sign mag | cuD15 sign mag => exact decode_normal _ sign mag (by decide) (of_decide_eq_true h)
  | cuEsc raw =>
    have hd := decodeUnit_escape raw [] (of_decide_eq_true h)
    rw [List.append_nil] at hd
    rw [encode, decode, hd]

/-! ### The rows of the opcode table (R114) -/

/-- The OP that each row's match holds, in order (R113). -/
theorem ops_commandRows : (commandRows.map fun row => wordOp row.2) =
    [0x00, 0x01, 0x10, 0x11, 0x12, 0x13, 0x20, 0x21, 0x22, 0x23, 0x30, 0x31, 0x32, 0x40, 0x41, 0x42, 0x43, 0x50, 0x51,
      0x60, 0x61, 0x62, 0x63] := rfl

theorem nodup_ops_commandRows : (commandRows.map fun row => wordOp row.2).Nodup := by
  rw [ops_commandRows]
  decide

/-- Every row fixes all of OP, and requires the reserved bits to be 0 (R110). -/
theorem op_and_reserved_of_mem : ∀ row ∈ commandRows,
    wordOp row.1 = 255 ∧ wordReserved row.1 = 255 ∧ wordReserved row.2 = 0 := by
  simp [commandRows, wordOp, wordReserved]

theorem and_byte {n : Nat} (h : n < 256) : n &&& 255 = n := by
  rw [Nat.and_two_pow_sub_one_eq_mod n 8, Nat.mod_eq_of_lt h]

theorem and_flag {n : Nat} (h : n < 256) : n &&& 254 = 0 ↔ n < 2 := by
  have hlow : (n &&& 254) % 2 = n % 2 &&& 0 := Nat.and_mod_two_pow (n := 1)
  have hhigh : (n &&& 254) / 2 = n / 2 &&& 2 ^ 7 - 1 := Nat.and_div_two_pow (n := 1)
  rw [Nat.and_zero] at hlow
  rw [Nat.and_two_pow_sub_one_eq_mod] at hhigh
  omega

theorem op_of_rowMatches {w : Word} {row : Word × Word} (hrow : row ∈ commandRows) (h : rowMatches w row = true) :
    wordOp row.2 = wordOp w := by
  obtain ⟨hmask, -⟩ := op_and_reserved_of_mem row hrow
  rw [← beq_iff_eq.mp h, wordOp_and, hmask, and_byte (wordOp_lt w)]

/-- No two rows have the same OP, so no two accept the same word. -/
theorem length_filter_rowMatches_le_one (w : Word) : (commandRows.filter (rowMatches w)).length ≤ 1 := by
  have hops : ((commandRows.filter (rowMatches w)).map fun row => wordOp row.2).Nodup :=
    nodup_ops_commandRows.sublist (List.filter_sublist.map _)
  rwa [List.map_eq_replicate_iff.mpr fun row h => op_of_rowMatches (List.mem_of_mem_filter h) (List.of_mem_filter h),
    List.nodup_replicate] at hops

/-- A row accepts a word by its fields. -/
theorem rowMatches_iff (w : Word) (row : Word × Word) :
    rowMatches w row = true ↔
      wordOp w &&& wordOp row.1 = wordOp row.2 ∧ wordImm w &&& wordImm row.1 = wordImm row.2 ∧
        wordFlg w &&& wordFlg row.1 = wordFlg row.2 ∧ wordReserved w &&& wordReserved row.1 = wordReserved row.2 := by
  rw [rowMatches, beq_iff_eq, ← wordOp_and, ← wordImm_and, ← wordFlg_and, ← wordReserved_and]
  exact ⟨fun h => by simp [h], fun ⟨ho, hi, hf, hr⟩ => word_ext ho hi hf hr⟩

/-- The row of the opcode table that lists an OP. -/
def rowOf (op : Nat) : Option (Word × Word) := commandRows.find? fun row => wordOp row.2 == op

theorem rowOf_op {row : Word × Word} (h : row ∈ commandRows) : rowOf (wordOp row.2) = some row := by
  cases hfind : rowOf (wordOp row.2) with
  | none => exact absurd (List.find?_eq_none.mp hfind row h) (by simp)
  | some found =>
    have hop : wordOp found.2 = wordOp row.2 := by simpa using List.find?_some hfind
    rw [List.inj_on_of_nodup_map nodup_ops_commandRows (List.mem_of_find?_eq_some hfind) h hop]

/-- Only the row of a word's OP can accept it. -/
theorem exists_rowMatches_iff (w : Word) :
    (∃ row ∈ commandRows, rowMatches w row = true) ↔ ∃ row, rowOf (wordOp w) = some row ∧ rowMatches w row = true :=
  ⟨fun ⟨row, hmem, h⟩ => ⟨row, op_of_rowMatches hmem h ▸ rowOf_op hmem, h⟩,
    fun ⟨row, hrow, h⟩ => ⟨row, List.mem_of_find?_eq_some hrow, h⟩⟩

theorem op_of_rowOf {op : Nat} {row : Word × Word} (h : rowOf op = some row) : wordOp row.2 = op := by
  simpa using List.find?_some h

theorem exists_eq_some_and {α : Type} {o : Option α} {a : α} {p : α → Prop} (h : o = some a) :
    (∃ x, o = some x ∧ p x) ↔ p a := by simp [h]

/-- A word is legal exactly when a row accepts it (R114). -/
theorem decodeCommand_ok_iff_row (w : Word) :
    (∃ i, decodeCommand w = .ok i) ↔ ∃ row ∈ commandRows, rowMatches w row = true := by
  have hi := and_byte (wordImm_lt w)
  have hf := and_byte (wordFlg_lt w)
  have hf2 := and_flag (wordFlg_lt w)
  have hr := and_byte (wordReserved_lt w)
  rw [exists_rowMatches_iff]
  simp only [decodeCommand, rowMatches_iff]
  split
  next hne =>
    refine iff_of_false (by simp) fun ⟨row, hrow, _, _, _, h⟩ => hne ?_
    obtain ⟨-, hmask, hmatch⟩ := op_and_reserved_of_mem row (List.mem_of_find?_eq_some hrow)
    rwa [hmask, hmatch, hr] at h
  next heq =>
    rw [not_not] at heq
    generalize wordOp w = op, wordImm w = imm, wordFlg w = flg, wordReserved w = reserved at *
    split
    -- an OP that no row lists
    case h_24 =>
      refine iff_of_false (by simp) fun ⟨row, hrow, _⟩ => ?_
      have hmem := List.mem_map_of_mem (f := fun row => wordOp row.2) (List.mem_of_find?_eq_some hrow)
      rw [op_of_rowOf hrow, ops_commandRows] at hmem
      simp_all
    all_goals
      refine Iff.trans ?_ (exists_eq_some_and rfl).symm
      simp [wordOp, wordImm, wordFlg, wordReserved, ite_ok_eq_ok, hi, hf, hf2, heq]

end Sys2Proof.Laws
end

section
/-! ## Code units: one decoder lemma for all sixteen rows (R118 to R120) -/

namespace Sys2Proof.Laws

open Sys2Proof.Machine

/-- A code unit's instruction is encoded by its bits (R118, R119). -/
theorem encode_instr (u : CodeUnit) : encode u.instr = .unit u.bits := by
  cases u with
  | normal code sign mag => unfold CodeUnit.bits CodeUnit.instr; split <;> rename_i h <;> cases h <;> rfl
  | escape raw => rfl

/-- A code unit's instruction is well formed when its fields fit (R118, R119). -/
theorem wellFormed_instr {u : CodeUnit} (h : u.Fits) : WellFormed u.instr = true := by
  cases u with
  | normal code sign mag =>
    obtain ⟨hc, hm⟩ := h
    interval_cases code <;> exact decide_eq_true hm
  | escape raw => exact decide_eq_true (show raw < 2 ^ 16 from h)

/-- Decoding a sequence that begins with a code unit gives its instruction and what follows it (R120). -/
theorem decodeUnit_bits {u : CodeUnit} (h : u.Fits) (rest : List Bool) :
    decodeUnit (u.bits ++ rest) = .ok (u.instr, rest) := by
  cases u with
  | normal code sign mag =>
    obtain ⟨hc, hm⟩ := h
    rw [CodeUnit.bits_normal _ _ _ hc]
    exact decodeUnit_normal code sign mag rest hc hm
  | escape raw => exact decodeUnit_escape raw rest h

/-! ### Reading a unit from a bit sequence -/

/-- Reading `n` bits of a sequence that has them. -/
theorem takeBits_of_le {n : Nat} {bits : List Bool} (h : n ≤ bits.length) :
    takeBits n 0 bits = some (bitsValue (bits.take n), bits.drop n) := by
  have := takeBits_eq n 0 (bits.take n) (bits.drop n) (List.length_take_of_le h)
  rwa [List.take_append_drop, Nat.zero_mul, Nat.zero_add] at this

theorem bitsMsb_bitsValue_take {n : Nat} {bits : List Bool} (h : n ≤ bits.length) :
    bitsMsb n (bitsValue (bits.take n)) = bits.take n := by
  have := bitsMsb_bitsValue (bits.take n)
  rwa [List.length_take_of_le h] at this

theorem bitsValue_take_lt {n : Nat} {bits : List Bool} (h : n ≤ bits.length) : bitsValue (bits.take n) < 2 ^ n := by
  have := bitsValue_lt (bits.take n)
  rwa [List.length_take_of_le h] at this

/-- The length that a sequence's first four bits tell (R120). -/
def unitLength (bits : List Bool) : Nat :=
  if bitsValue (bits.take 4) = 15 then 20 else 6 + bitsValue (bits.take 4)

/-- A long enough sequence begins with the bits of a code unit that fits (R118 to R120). -/
theorem exists_unit_of_length {bits : List Bool} (h4 : 4 ≤ bits.length) (h : unitLength bits ≤ bits.length) :
    ∃ u : CodeUnit, u.Fits ∧ u.bits = bits.take (unitLength bits) := by
  have hlen : (bits.drop 4).length = bits.length - 4 := List.length_drop
  have hcode := bitsValue_take_lt h4
  have hbits := bitsMsb_bitsValue_take h4
  unfold unitLength at *
  generalize bitsValue (bits.take 4) = code at *
  split_ifs at h ⊢ with hc
  · have hraw : 16 ≤ (bits.drop 4).length := by omega
    refine ⟨.escape (bitsValue ((bits.drop 4).take 16)), bitsValue_take_lt hraw, ?_⟩
    rw [CodeUnit.bits_escape, bitsMsb_bitsValue_take hraw, ← hc, hbits, ← List.take_add]
  · match hdrop : bits.drop 4 with
    | [] => simp [hdrop] at hlen; omega
    | sign :: rest =>
      have hmag : code + 1 ≤ rest.length := by rw [hdrop, List.length_cons] at hlen; omega
      refine ⟨.normal code sign (bitsValue (rest.take (code + 1))), ⟨by omega, bitsValue_take_lt hmag⟩, ?_⟩
      have htake : bits.take (6 + code) = bits.take 4 ++ sign :: rest.take (code + 1) := by
        rw [show 6 + code = 4 + (code + 2) by omega, List.take_add (l := bits), hdrop, List.take_succ_cons]
      rw [CodeUnit.bits_normal _ _ _ (by omega), bitsMsb_bitsValue_take hmag, hbits, htake]
      rfl

/-- A sequence shorter than its unit is no unit (R120). -/
theorem decodeUnit_of_short {bits : List Bool} (h4 : 4 ≤ bits.length) (h : bits.length < unitLength bits) :
    decodeUnit bits = .error .unitTruncated := by
  have hlen : (bits.drop 4).length = bits.length - 4 := List.length_drop
  rw [decodeUnit, takeBits_of_le h4]
  unfold unitLength at h
  generalize bitsValue (bits.take 4) = code at *
  split_ifs at h with hc
  · subst hc
    simp only [takeBits_of_short 0 (show (bits.drop 4).length < 16 by omega)]
  · match bits.drop 4, hlen with
    | [], _ => simp [takeBits]
    | sign :: rest, hlen =>
      have hmag : rest.length < code + 1 := by rw [List.length_cons] at hlen; omega
      simp [takeBits_of_short, takeBits, hmag]

end Sys2Proof.Laws
end

section
/-! ## The statements of the encodings (30_encoding.md) -/

namespace Sys2Proof.Laws

open Sys2Proof.Machine

/-- A word that is no command raises IllegalCommand before any change (R303, R306 (a)). -/
theorem step_illegal {w : Word} {s : State} (ht : s.task = .issued w) (hh : s.host = [])
    (h : ¬ ∃ i, decodeCommand w = .ok i) : step s = .next (faultedUnchanged 5#8 (w.setWidth 8) s) := by
  have hop : BitVec.ofNat 8 (wordOp w) = w.setWidth 8 := by unfold wordOp; bv_omega
  rw [step_of_no_access hh, turnWith, fetch, ht]
  simp only [State.foreseen_nil hh, fetchCommand]
  cases hd : decodeCommand w with
  | ok i => exact absurd ⟨i, hd⟩ h
  | error r => exact congrArg Host.Outcome.next (by rw [faultEntry, hop]; rfl)

/-- Settles O1, row by row: a command word gives its fields back, a code unit its bits. -/
theorem decodeEncodeRoundTrip : Obligations.DecodeEncodeRoundTrip := fun _ => decode_encode

/-- Settles O2, by the OPs that `decodeCommand` lists: each leaves only the fields of its command free. -/
theorem encodeDecodeCommand : Obligations.EncodeDecodeCommand := fun _ _ => encode_of_decodeCommand

/-- Settles O3: the rows have different OPs, and the one that lists a word's OP accepts exactly the legal words. -/
theorem legalWordsMatchOneRow : Obligations.LegalWordsMatchOneRow := by
  intro w
  have hle := length_filter_rowMatches_le_one w
  have hlegal : (∃ i, decodeCommand w = .ok i) ↔ 0 < (commandRows.filter (rowMatches w)).length := by
    rw [decodeCommand_ok_iff_row, List.length_pos_iff_exists_mem]
    simp
  refine ⟨hle, hlegal.trans (by omega), fun s ht hh hnone => step_illegal ht hh ?_⟩
  rw [hlegal]
  omega

/-- Settles O4: a sequence long enough begins with a unit's bits, and a shorter one runs out in its last field. -/
theorem unitLengthFromCode : Obligations.UnitLengthFromCode := by
  intro bits h4
  have hc : bitsValue (bits.take 4) < 2 ^ 4 := bitsValue_take_lt h4
  refine ⟨by omega, by split <;> omega, decodeUnit_of_short h4, fun h => ?_⟩
  obtain ⟨u, hfits, hbits⟩ := exists_unit_of_length h4 h
  refine ⟨u.instr, ?_, wellFormed_instr hfits, (encode_instr u).trans (congrArg _ hbits)⟩
  have := decodeUnit_bits hfits (bits.drop (unitLength bits))
  rwa [hbits, List.take_append_drop] at this

/-- Settles O5, by running the decoder on each word and unit. -/
theorem specWordsDecode : Obligations.SpecWordsDecode := by
  unfold Obligations.SpecWordsDecode
  decide

end Sys2Proof.Laws
end

section
/-! ## Code units as instructions: one lemma for all sixteen (R118, R119, R240) -/

namespace Sys2Proof.Machine

/-- After a sample the loop goes on, or the command completes with its result (R243, R265, R266). -/
theorem nextSample_eq_afterSample (f : Frame) {s : State} (hr : s.raced = .none) :
    nextSample f s = afterSample f s := by
  unfold nextSample beginSample afterSample
  split_ifs
  · unfold completeDecode State.setReturned State.finish
    cases f.cmd <;> simp [hr]
  · rfl

/-- A code unit in range stores its sample, advances the Context and a session, and ends the iteration (R240, R243,
R265, R266). -/
theorem exec_unit_ok (u : CodeUnit) {f : Frame} {s : State} (ht : s.task = .sample f)
    (hx : inSampleRange (unitSample u s.ctx) (f.shift s) = true) (hr : s.raced = .none) (hm : s.mem.wf = true)
    (ha : Admitted s.plat .write { base := f.address, size := f.stride }) :
    ∃ m, Stores f.address (sampleOutput f.cmd (unitSample u s.ctx * 2 ^ f.shift s)) s { s with mem := m } ∧
      exec u.instr s = .next (afterSample f { s with
        mem := m, ctx := s.ctx.push (unitSample u s.ctx), exp := expAfter f.cmd 1 s.exp }) := by
  obtain ⟨m, hacc, hst⟩ := acceptSample_ok (unitSample u s.ctx) f hx ha hr hm
  refine ⟨m, hst, ?_⟩
  rw [exec_unit u ht, runSample, hacc, endSample, Res.indexed_ok, conclude_ok]
  exact congrArg _ (nextSample_eq_afterSample f hr)

/-- What the loop does after a sample, by its three cases: the next sample, LEXPAND's completion, and an expansion's. -/
theorem afterSample_cases (f : Frame) (t : State) :
    (f.i + 1#32 ≠ f.n → afterSample f t = { t with task := .sample { f with i := f.i + 1#32 } }) ∧
    (f.i + 1#32 = f.n → ∀ sh, f.cmd = .lexpand sh →
      afterSample f t = { t with result := t.br.consumed, task := .idle }) ∧
    (f.i + 1#32 = f.n → f.cmd = .expand ∨ (∃ vol, f.cmd = .expand2 vol) →
      afterSample f t = { t with result := t.exp.pos, task := .idle }) := by
  refine ⟨fun h => if_neg h, fun h sh hc => ?_, fun h hc => ?_⟩
  · rw [afterSample, if_pos h, hc]
  · rw [afterSample, if_pos h]
    obtain hc | ⟨vol, hc⟩ := hc <;> rw [hc]

/-- The quantised sample of an escape unit, as two's complement of its 16 bits (R119). -/
theorem escapeSample_eq {raw : Nat} (h : raw < 65536) :
    escapeSample raw = if raw < 32768 then (raw : Int) else (raw : Int) - 65536 := by
  simp only [escapeSample, sext16, BitVec.toInt_eq_toNat_cond, BitVec.toNat_ofNat]
  split_ifs <;> omega

/-- A code unit in range runs as R240, R243, R265 and R266 say, whichever instruction and sample it is. -/
theorem unit_runs {u : CodeUnit} {i : Instr} {x : Int} {f : Frame} {s : State} (hi : i = u.instr)
    (hu : unitSample u s.ctx = x) (ht : s.task = .sample f) (hlo : -(2 ^ (15 - f.shift s)) ≤ x)
    (hhi : x ≤ 2 ^ (15 - f.shift s) - 1) (hr : s.raced = .none) (hm : s.mem.wf = true)
    (ha : Admitted s.plat .write { base := f.address, size := f.stride }) :
    ∃ (m : Memory) (t : State), Stores f.address (sampleOutput f.cmd (x * 2 ^ f.shift s)) s { s with mem := m } ∧
      t = { s with
        mem := m, ctx := { prev1 := BitVec.ofInt 16 x, prev2 := s.ctx.prev1, prev3 := s.ctx.prev2 }
        exp := expAfter f.cmd 1 s.exp } ∧
      (f.i + 1#32 ≠ f.n → exec i s = .next { t with task := .sample { f with i := f.i + 1#32 } }) ∧
      (f.i + 1#32 = f.n → ∀ sh, f.cmd = .lexpand sh →
        exec i s = .next { t with result := t.br.consumed, task := .idle }) ∧
      (f.i + 1#32 = f.n → f.cmd = .expand ∨ (∃ vol, f.cmd = .expand2 vol) →
        exec i s = .next { t with result := t.exp.pos, task := .idle }) := by
  subst hi hu
  obtain ⟨m, hst, he⟩ := exec_unit_ok u ht (by simp [inSampleRange, hlo, hhi]) hr hm ha
  obtain ⟨hnext, hlexpand, hexpand⟩ := afterSample_cases f { s with
    mem := m, ctx := s.ctx.push (unitSample u s.ctx), exp := expAfter f.cmd 1 s.exp }
  rw [he]
  exact ⟨m, _, hst, rfl, fun h => congrArg _ (hnext h), fun h sh hc => congrArg _ (hlexpand h sh hc),
    fun h hc => congrArg _ (hexpand h hc)⟩

/-- Settles O46: each of the fifteen instructions is a normal unit's, of the sample its sign and magnitude give. -/
theorem normalUnitsRun : Obligations.NormalUnitsRun := by
  intro sign mag i f s hi x ht hlo hhi hr hm ha
  obtain ⟨code, hcode⟩ : ∃ code, i = (CodeUnit.normal code sign mag).instr := by
    simp only [List.mem_cons, List.not_mem_nil, or_false] at hi
    rcases hi with rfl | rfl | rfl | rfl | rfl | rfl | rfl | rfl | rfl | rfl | rfl | rfl | rfl | rfl | rfl
    exacts [⟨0, rfl⟩, ⟨1, rfl⟩, ⟨2, rfl⟩, ⟨3, rfl⟩, ⟨4, rfl⟩, ⟨5, rfl⟩, ⟨6, rfl⟩, ⟨7, rfl⟩, ⟨8, rfl⟩, ⟨9, rfl⟩,
      ⟨10, rfl⟩, ⟨11, rfl⟩, ⟨12, rfl⟩, ⟨13, rfl⟩, ⟨14, rfl⟩]
  exact unit_runs hcode rfl ht hlo hhi hr hm ha

/-- Settles O47: the escape unit's sample is its 16 bits in two's complement. -/
theorem escapeUnitRuns : Obligations.EscapeUnitRuns := by
  intro raw f s hraw x ht hlo hhi hr hm ha
  exact unit_runs (u := .escape raw) rfl (escapeSample_eq hraw) ht hlo hhi hr hm ha

end Sys2Proof.Machine
end

section
/-! ## COMPRESS without a fault (R236, R238) -/

namespace Sys2Proof.Machine

/-- COMPRESS with all its samples coded (R238): the memory and the packer it has reached, the last samples in the
Context, and the codes counted. -/
def compressCoded (sh : Nat) (stats : Bool) (m : Memory) (b : PackerRegs) (s : State) : State :=
  { compressStart stats s with
    mem := m, bw := b, ctx := pushAll .zero (compressInput sh s)
    stat := if stats then unitsStat (sampleUnits .zero (compressInput sh s)) else s.stat }

/-- COMPRESS's loop over all its samples, when their bytes and those their units fill are admitted: it packs their
units, pushes them into the Context and counts their codes (R238). -/
theorem compressLoop_all {sh : Nat} (stats : Bool) {s : State} (h : Unraced s)
    (hread : Admitted s.plat .read (compressSource s.args))
    (hc : CanPack (compressBits sh s.args.arg1.toNat s).length (compressStart stats s)) :
    ∃ m b, compressLoop sh stats s.args.arg1.toNat 0 (compressStart stats s) = .ok () (compressCoded sh stats m b s) ∧
      Packs (compressBits sh s.args.arg1.toNat s) (compressStart stats s)
        { compressStart stats s with mem := m, bw := b } := by
  have hlt : 2 * s.args.arg1.toNat < 4294967296 := hread.size_lt
  have hlen : (rawSamples s.mem s.args.arg0 s.args.arg1.toNat).length = s.args.arg1.toNat := by simp [rawSamples]
  have hfit : (compressBits sh s.args.arg1.toNat s).length / 8 ≤ s.args.arg3.toNat := by
    obtain ⟨-, hcap, -⟩ := hc
    simpa [compressStart, PackerRegs.bound] using hcap
  have hbits : unitsBits (sampleUnits (compressStart stats s).ctx
      ((rawSamples s.mem s.args.arg0 s.args.arg1.toNat).map fun r => asr r sh)) =
        compressBits sh s.args.arg1.toNat s := (compressBits_all sh s).symm
  have key := compressLoop_ok sh stats (rawSamples s.mem s.args.arg0 s.args.arg1.toNat) 0 (s := compressStart stats s)
  rw [hbits] at key
  obtain ⟨m, b, hloop, hpacks⟩ := key
    (fun j hj => by simp [rawSamples]; rfl)
    (fun j hj => by rw [Nat.zero_add]; exact hread.sub (2 * j) 2 (by omega))
    hc
    (fun j hj k hk => by
      rw [packSpan_compressStart, Nat.zero_add, BitVec.add_assoc, ← BitVec.ofNat_add]
      exact h.apart_at (by omega) (by omega) (compressBits_size_le hfit))
    (h.compressStart_raced stats) h.wf
  rw [hlen] at hloop
  refine ⟨m, b, hloop.trans ?_, hpacks⟩
  cases stats
  · rfl
  · rw [compressCoded, if_pos rfl, if_pos rfl, ← countUnits_zero]
    rfl

/-- The zero bits that fill COMPRESS's last byte (R238). -/
def compressPadding (sh : Nat) (s : State) : List Bool :=
  List.replicate ((8 - (compressBits sh s.args.arg1.toNat s).length % 8) % 8) false

/-- COMPRESS's body packs all its units and the padding, and leaves the stage empty (R238). -/
theorem compressBody_ok {sh : Nat} (stats : Bool) {s : State} (h : Unraced s)
    (hread : Admitted s.plat .read (compressSource s.args))
    (hc : CanPack ((compressBits sh s.args.arg1.toNat s).length + (compressPadding sh s).length)
      (compressStart stats s)) :
    ∃ m b, compressBody sh stats (compressStart stats s) = .ok () (compressCoded sh stats m b s) ∧
      Packs (compressBits sh s.args.arg1.toNat s ++ compressPadding sh s) (compressStart stats s)
        { compressStart stats s with mem := m, bw := b } ∧ b.stage = 0#8 ∧ b.used = 0#4 := by
  obtain ⟨m, b, hloop, hpacks⟩ := compressLoop_all stats h hread hc.fst
  have hrest := CanPack.snd hc hpacks
  replace hrest : CanPack (compressPadding sh s).length (compressCoded sh stats m b s) := hrest
  obtain ⟨-, -, -, -, -, hused, -, hwf, -⟩ := id hpacks
  replace hused : b.used.toNat = (0 + (compressBits sh s.args.arg1.toNat s).length) % 8 := hused
  have hpad : compressPadding sh s = List.replicate ((8 - b.used.toNat) % 8) false := by
    rw [compressPadding, hused, Nat.zero_add]
  rw [hpad, List.length_replicate] at hrest
  obtain ⟨t, hflush, hp, hstage, hzero⟩ := flushPacker_ok hrest (h.compressStart_raced stats) hwf
  have hpadded := packs_of_same_packer (s' := { compressStart stats s with mem := m, bw := b }) hp rfl rfl
  obtain ⟨hframe, -⟩ := hp
  refine ⟨t.mem, t.bw, ?_, hpacks.trans (hpad ▸ hpadded), hstage, hzero⟩
  rw [compressBody, show (compressStart stats s).args = s.args from rfl, hloop, Res.bind_ok, hflush, hframe]
  rfl

/-- Settles O39: the loop packs the units, the flush pads them, and the packed bits are the bytes in memory. -/
theorem compressWritesCodeUnits : Obligations.CompressWritesCodeUnits := by
  intro sh stats s units len hsh hr hm hcap hread hwrite hap
  have h : Unraced s := ⟨hr, hm, hap⟩
  have hunits : unitsBits units = compressBits sh s.args.arg1.toNat s := (compressBits_all sh s).symm
  have hpad : compressPadding sh s = List.replicate (8 * len - (unitsBits units).length) false := by
    rw [compressPadding, ← hunits]
    congr 1
    omega
  have htotal : (compressBits sh s.args.arg1.toNat s).length + (compressPadding sh s).length = 8 * len := by
    rw [hpad, ← hunits, List.length_replicate]
    omega
  have hdiv : 8 * len / 8 = len := by omega
  obtain ⟨m, b, hbody, hpacks, hstage, hused⟩ := compressBody_ok stats h hread (by
    rw [htotal]
    refine ⟨packerOk_bound _ _, by simpa [compressStart, PackerRegs.bound, hdiv] using hcap, ?_⟩
    rw [packSpan_compressStart, hdiv]
    exact hwrite)
  obtain ⟨bytes, hlen, hbits, hst⟩ := stores_of_packs_compressStart hpacks
  obtain ⟨-, -, hbase, hlimit, hemitted, -⟩ := hpacks
  rw [List.length_append, htotal] at hlen hemitted
  rw [hlen, hdiv, List.take_of_length_le (by rw [List.length_append, htotal]), hpad, ← hunits] at hbits
  replace hemitted : b.emitted.toNat = 0 + (0 + 8 * len) / 8 := hemitted
  have hb : b =
      { base := s.args.arg2, cap := s.args.arg3, emitted := BitVec.ofNat 32 len, stage := 0#8, used := 0#4 } := by
    obtain ⟨base, cap, emitted, stage, used⟩ := b
    subst hbase hlimit hstage hused
    have : emitted = BitVec.ofNat 32 len := by bv_omega
    subst this
    rfl
  refine ⟨m, bytes, hlen.trans hdiv, hbits, hst, ?_⟩
  rw [exec, execCompress, if_neg (by omega), hbody, conclude_ok, hb]
  simp only [State.setReturned, compressCoded, compressStart, State.finish, State.invalidateSession, hr, hap,
    Races.overlapped_false, Races.none_overlap]
  rfl

end Sys2Proof.Machine
end

section
/-! ## The bit accumulator (R140 to R146) -/

namespace Sys2Proof.Machine

/-! ### The registers as a queue of bits, the oldest first (R140) -/

/-- ACC_USED and ACC_VAL hold the bits of `bits`, the oldest as the most significant (R42, R43, R140). -/
def AccRegs.Holds (a : AccRegs) (bits : List Bool) : Prop :=
  a.used.toNat = bits.length ∧ a.val.toNat = bitsValue bits

theorem AccRegs.holds_of_accOk {a : AccRegs} (h : AccOk a) : a.Holds (bitsMsb a.used.toNat a.val.toNat) := by
  obtain ⟨-, hval⟩ := h
  exact ⟨(length_bitsMsb _ _).symm, by rw [bitsValue_bitsMsb, Nat.mod_eq_of_lt hval]⟩

theorem AccRegs.Holds.eq_zero {a : AccRegs} (h : a.Holds []) : a = .zero := by
  obtain ⟨hused, hval⟩ := h
  obtain ⟨val, used⟩ := a
  exact congr (congrArg AccRegs.mk (BitVec.eq_of_toNat_eq hval)) (BitVec.eq_of_toNat_eq hused)

/-- ACC_PUSH appends at the tail, and with room for the bits neither register wraps (R143). -/
theorem AccRegs.Holds.push {a : AccRegs} {bits : List Bool} {n : Nat} {v : Word} (h : a.Holds bits)
    (hroom : bits.length + n ≤ 32) (hv : v.toNat < 2 ^ n) : (a.push n v).Holds (bits ++ bitsMsb n v.toNat) := by
  obtain ⟨hused, hval⟩ := h
  have hlen : (bits ++ bitsMsb n v.toNat).length = bits.length + n := by rw [List.length_append, length_bitsMsb]
  have hvalue : a.val.toNat * 2 ^ n + v.toNat = bitsValue (bits ++ bitsMsb n v.toNat) := by
    rw [bitsValue_append, length_bitsMsb, bitsValue_bitsMsb, Nat.mod_eq_of_lt hv, hval]
  have hlt : bitsValue (bits ++ bitsMsb n v.toNat) < 2 ^ 32 := calc
    _ < 2 ^ (bits ++ bitsMsb n v.toNat).length := bitsValue_lt _
    _ ≤ 2 ^ 32 := Nat.pow_le_pow_right (by omega) (by omega)
  constructor
  · rw [AccRegs.push, BitVec.toNat_ofNat, hused, hlen, Nat.mod_eq_of_lt (by omega)]
  · rw [AccRegs.push, BitVec.toNat_ofNat, hvalue, Nat.mod_eq_of_lt hlt]

theorem AccRegs.toNat_head (n : Nat) (a : AccRegs) : (a.head n).toNat = a.val.toNat / 2 ^ (a.used.toNat - n) := by
  rw [AccRegs.head, BitVec.toNat_ofNat, Nat.mod_eq_of_lt (Nat.lt_of_le_of_lt (Nat.div_le_self _ _) a.val.isLt)]

theorem AccRegs.toNat_pop_val (n : Nat) (a : AccRegs) :
    (a.pop n).val.toNat = a.val.toNat % 2 ^ (a.used.toNat - n) := by
  rw [AccRegs.pop, BitVec.toNat_ofNat, Nat.mod_eq_of_lt (Nat.lt_of_le_of_lt (Nat.mod_le _ _) a.val.isLt)]

theorem AccRegs.toNat_pop_used (n : Nat) (a : AccRegs) : (a.pop n).used.toNat = a.used.toNat - n := by
  rw [AccRegs.pop, BitVec.toNat_ofNat, Nat.mod_eq_of_lt (Nat.lt_of_le_of_lt (Nat.sub_le _ _) a.used.isLt)]

/-- ACC_POP returns the bits at the head and keeps the younger ones (R144). -/
theorem AccRegs.Holds.head_pop {a : AccRegs} {old young : List Bool} (h : a.Holds (old ++ young)) :
    (a.head old.length).toNat = bitsValue old ∧ (a.pop old.length).Holds young := by
  obtain ⟨hused, hval⟩ := h
  have hleft : a.used.toNat - old.length = young.length := by rw [hused, List.length_append]; omega
  rw [bitsValue_append, Nat.mul_comm] at hval
  have hlt := bitsValue_lt young
  refine ⟨?_, ?_, ?_⟩
  · rw [toNat_head, hleft, hval, Nat.mul_add_div (Nat.two_pow_pos _), Nat.div_eq_of_lt hlt, Nat.add_zero]
  · rw [toNat_pop_used, hleft]
  · rw [toNat_pop_val, hleft, hval, Nat.mul_add_mod, Nat.mod_eq_of_lt hlt]

/-! ### The two commands when their checks pass -/

theorem exec_accPush_of_fits {n : Nat} {s : State} (hroom : s.acc.used.toNat + n ≤ 32)
    (hv : s.args.arg0.toNat < 2 ^ n) :
    exec (.accPush n) s = .next { s with acc := s.acc.push n s.args.arg0 }.finish := by
  rw [exec, execAccPush, if_neg (by omega), if_neg (by omega), if_neg (by simp [fitsWidth, hv])]

theorem exec_accPop_of_le {n : Nat} {s : State} (h32 : n ≤ 32) (h : n ≤ s.acc.used.toNat) :
    exec (.accPop n) s = .next ({ s with acc := s.acc.pop n }.setResult (s.acc.head n)).finish := by
  rw [exec, execAccPop, if_neg (by omega), if_neg (by omega)]

/-- A push puts a field's bits behind those held (R146). -/
theorem exec_accPush_holds {s : State} {bits : List Bool} {n : Nat} {v : Word} (h : s.acc.Holds bits)
    (hroom : bits.length + n ≤ 32) (hv : v.toNat < 2 ^ n) :
    ∃ t, exec (.accPush n) (withArg0 v s) = .next t ∧ t.acc.Holds (bits ++ bitsMsb n v.toNat) :=
  ⟨_, exec_accPush_of_fits (s := withArg0 v s) (h.1.symm ▸ hroom) hv, h.push hroom hv⟩

/-- A pop of as many bits as the oldest field has returns the field and leaves the younger bits (R146). -/
theorem exec_accPop_holds {s : State} {n : Nat} {v : Word} {young : List Bool}
    (h : s.acc.Holds (bitsMsb n v.toNat ++ young)) (h32 : n ≤ 32) (hv : v.toNat < 2 ^ n) :
    ∃ t, exec (.accPop n) s = .next t ∧ t.result = v ∧ t.acc.Holds young := by
  obtain ⟨hhead, hyoung⟩ := h.head_pop
  obtain ⟨hused, -⟩ := h
  rw [length_bitsMsb] at hhead hyoung
  rw [bitsValue_bitsMsb, Nat.mod_eq_of_lt hv] at hhead
  rw [List.length_append, length_bitsMsb] at hused
  exact ⟨_, exec_accPop_of_le h32 (by omega), BitVec.eq_of_toNat_eq hhead, hyoung⟩

/-! ### BITS_NEEDED (R141) -/

/-- Every positive width that holds `v` is at least `BitsNeeded(v)`. -/
theorem bitsNeededOf_le {v n : Nat} (hn : 1 ≤ n) (hv : v < 2 ^ n) : bitsNeededOf v ≤ n := by
  refine Nat.max_le.mpr ⟨hn, ?_⟩
  split_ifs with h0
  · omega
  · exact (Nat.log2_lt h0).mpr hv

/-! ### The statements -/

/-- Settles O19. -/
theorem accClearEmpties : Obligations.AccClearEmpties := fun _ => rfl

/-- Settles O20: any of the three checks raises the same fault, and past them the append does not wrap. -/
theorem accPush : Obligations.AccPush := by
  intro n s hacc
  obtain ⟨-, hold⟩ := id hacc
  refine ⟨fun hbad => ?_, fun h32 hroom hfit => ?_⟩
  · rw [exec, execAccPush]
    split_ifs with hn hfull hv
    · rfl
    · rfl
    · rfl
    · simp only [fitsWidth, decide_eq_true_eq] at hv
      omega
  · have hv : s.args.arg0.toNat < 2 ^ n := by
      rcases hfit with rfl | hlt
      · exact s.args.arg0.isLt
      · exact hlt
    obtain ⟨hused, hval⟩ := (AccRegs.holds_of_accOk hacc).push (by rwa [length_bitsMsb]) hv
    rw [bitsValue_append, length_bitsMsb, bitsValue_bitsMsb, bitsValue_bitsMsb, Nat.mod_eq_of_lt hv,
      Nat.mod_eq_of_lt hold] at hval
    rw [List.length_append, length_bitsMsb, length_bitsMsb] at hused
    exact ⟨_, exec_accPush_of_fits hroom hv, hval, hused⟩

/-- Settles O21: either check raises the same fault, and past them the registers hold quotient and remainder. -/
theorem accPop : Obligations.AccPop := by
  intro n s ⟨hused, _⟩
  refine ⟨fun hbad => ?_, fun h => ?_⟩
  · rw [exec, execAccPop]
    split_ifs with hn hfew
    · rfl
    · rfl
    · omega
  · exact ⟨_, _, exec_accPop_of_le (by omega) h, s.acc.toNat_head n, s.acc.toNat_pop_val n, s.acc.toNat_pop_used n⟩

/-- Settles O22: `BitsNeeded` is the least width that holds ARG0, and a word fits 32 bits. -/
theorem bitsNeededIsLeast : Obligations.BitsNeededIsLeast := by
  intro s
  have h32 : bitsNeededOf s.args.arg0.toNat ≤ 32 := bitsNeededOf_le (by omega) s.args.arg0.isLt
  have hr : (BitVec.ofNat 32 (bitsNeededOf s.args.arg0.toNat)).toNat = bitsNeededOf s.args.arg0.toNat := by
    rw [BitVec.toNat_ofNat, Nat.mod_eq_of_lt (by omega)]
  refine ⟨BitVec.ofNat 32 (bitsNeededOf s.args.arg0.toNat), rfl, ?_⟩
  rw [hr]
  exact ⟨one_le_bitsNeededOf _, h32, lt_two_pow_bitsNeededOf _, fun n => bitsNeededOf_le⟩

/-- Settles O23: the pushes put the bits of `a` and of `b` behind the older ones, and the pops take the three fields
from the head in turn. -/
theorem accQueueLaw : Obligations.AccQueueLaw := by
  intro s n1 n2 a b hacc hroom ha hb
  obtain ⟨h32, hold⟩ := id hacc
  have h0 := AccRegs.holds_of_accOk hacc
  obtain ⟨s1, e1, h1⟩ := exec_accPush_holds h0 (n := n1) (by rw [length_bitsMsb]; omega) ha
  obtain ⟨s2, e2, h2⟩ := exec_accPush_holds h1 (n := n2) (by simpa using hroom) hb
  rw [List.append_assoc] at h2
  obtain ⟨s3, e3, hu, h3⟩ := exec_accPop_holds h2 h32 hold
  obtain ⟨s4, e4, hfirst, h4⟩ := exec_accPop_holds h3 (by omega) ha
  obtain ⟨s5, e5, hsecond, h5⟩ := exec_accPop_holds (young := []) (by rwa [List.append_nil]) (by omega) hb
  exact ⟨s1, e1, s2, e2, s3, e3, hu, s4, e4, hfirst, s5, e5, hsecond, h5.eq_zero⟩

end Sys2Proof.Machine
end

section
/-! ## The bit packer (R160 to R166) -/

namespace Sys2Proof.Machine

/-! ### Completion without a race -/

theorem State.finish_of_unraced {s : State} (hr : s.raced = .none) : s.finish = { s with task := .idle } := by
  rw [State.finish, ← hr]

/-! ### BW_WRITE's argument check (R164) -/

theorem exec_bwWrite_of_fits {n : Nat} {s : State} (hn : n ≤ 32) (hv : n = 32 ∨ s.args.arg0.toNat < 2 ^ n) :
    exec (.bwWrite n) s =
      .next (conclude 0x21 spoilPackerFill (fun _ s => s.finish) (packBits s.args.arg0.toNat n s)) := by
  have hfits : ¬ (n < 32 ∧ ¬ fitsWidth s.args.arg0 n = true) := by
    rw [fitsWidth, decide_eq_true_eq]
    omega
  rw [exec, execBwWrite, if_neg (by omega), if_neg hfits]

theorem exec_bwWrite_of_bad {n : Nat} {s : State} (h : 32 < n ∨ (n < 32 ∧ 2 ^ n ≤ s.args.arg0.toNat)) :
    exec (.bwWrite n) s = .next (faultedUnchanged 3#8 0x21#8 s) := by
  rw [exec, execBwWrite]
  split_ifs with hn hv
  · rfl
  · rfl
  · rw [fitsWidth, decide_eq_true_eq] at hv
    omega

/-! ### A full destination (R162) -/

/-- `s` with BW_STAGE and BW_USED holding `stage` and `used`, as `PackBits` leaves them before it emits (R163). -/
def staged (stage : Byte) (used : BitVec 4) (s : State) : State :=
  { s with bw := { s.bw with stage := stage, used := used } }

theorem emit_overflow (b : Byte) {s : State} (h : s.bw.emitted = s.bw.cap) :
    emit b s = .raise .bufferOverflow 0#32 s := by rw [emit, if_pos h]

/-- The bit that completes a byte beyond the capacity stays in the stage, which is then full (R162, R163). -/
theorem packBit_overflow (bit : Bool) {s : State} (hu : s.bw.used.toNat = 7) (h : s.bw.emitted = s.bw.cap) :
    ∃ stage, packBit bit s = .raise .bufferOverflow 0#32 (staged stage 8#4 s) := by
  have h8 : s.bw.used + 1#4 = 8#4 := by bv_omega
  refine ⟨BitVec.ofNat 8 (s.bw.stage.toNat * 2 + bit.toNat), ?_⟩
  rw [packBit, if_pos h8, h8]
  exact congrArg (Res.bind · _) (emit_overflow _ (s := staged _ 8#4 s) h)

/-- `PackBits` of a field is that of its first `a` bits, then of its last `b` (R163). -/
theorem packBits_add (v a b : Nat) (s : State) :
    packBits v (a + b) s = (packBits (v / 2 ^ b) a s).bind fun _ t => packBits v b t := by
  induction a generalizing s with
  | zero => rw [Nat.zero_add, packBits, Res.bind_ok]
  | succ a ih =>
    have hbit : (v / 2 ^ b).testBit a = v.testBit (a + b) := by rw [Nat.testBit_div_two_pow, Nat.add_comm]
    rw [show a + 1 + b = a + b + 1 by omega, packBits, packBits, Res.bind_assoc, hbit]
    simp only [ih]

/-- Bits that complete more bytes than the capacity leaves room for: the bytes that fit are emitted, seven more bits are
staged, and the next one raises (R162, R163). -/
theorem packBits_overflow (v n : Nat) {s : State} (hp : PackerOk s.bw) (hr : s.raced = .none) (hm : s.mem.wf = true)
    (hfull : s.bw.cap.toNat < s.bw.emitted.toNat + (s.bw.used.toNat + n) / 8)
    (hadm : Admitted s.plat .write ⟨s.bw.base + s.bw.emitted, s.bw.cap.toNat - s.bw.emitted.toNat⟩) :
    ∃ (k : Nat) (u : State) (stage : Byte), packBits v n s = .raise .bufferOverflow 0#32 (staged stage 8#4 u) ∧
      s.bw.used.toNat + k = 8 * (s.bw.cap.toNat - s.bw.emitted.toNat) + 7 ∧
      Packs ((bitsMsb n v).take k) s u ∧ u.bw.emitted = s.bw.cap := by
  obtain ⟨hused, -, hemitted⟩ := id hp
  obtain ⟨k, hk⟩ : ∃ k, s.bw.used.toNat + k = 8 * (s.bw.cap.toNat - s.bw.emitted.toNat) + 7 :=
    ⟨8 * (s.bw.cap.toNat - s.bw.emitted.toNat) + 7 - s.bw.used.toNat, by omega⟩
  have hbytes : (s.bw.used.toNat + k) / 8 = s.bw.cap.toNat - s.bw.emitted.toNat := by omega
  obtain ⟨rest, rfl⟩ : ∃ rest, n = k + (rest + 1) := ⟨n - k - 1, by omega⟩
  obtain ⟨u, hu, hpacks⟩ := packBits_ok (v / 2 ^ (rest + 1)) k ⟨hp, by omega, by rwa [packSpan, hbytes]⟩ hr hm
  obtain ⟨-, -, -, hcap, hcount, hstaged, -⟩ := id hpacks
  rw [length_bitsMsb] at hcount hstaged
  have hend : u.bw.emitted = s.bw.cap := BitVec.eq_of_toNat_eq (by omega)
  obtain ⟨stage, hraise⟩ := packBit_overflow (v.testBit rest) (s := u) (by omega) (hend.trans hcap.symm)
  refine ⟨k, u, stage, ?_, hk, ?_, hend⟩
  · rw [packBits_add, hu, Res.bind_ok, packBits, hraise, Res.bind_raise]
  · rwa [bitsMsb_add, List.take_left' (length_bitsMsb _ _)]

/-- A pending byte with no room left is not flushed (R162, R165). -/
theorem flushPacker_overflow {s : State} (hu : s.bw.used ≠ 0#4) (h : s.bw.emitted = s.bw.cap) :
    flushPacker s = .raise .bufferOverflow 0#32 s := by
  rw [flushPacker, if_neg hu, emit_overflow _ h, Res.bind_raise]

/-! ### The statements -/

/-- Settles O24: past the argument check the command is `PackBits`, which appends the field's bits. -/
theorem bwWriteAppends : Obligations.BwWriteAppends := by
  intro n s hn hv hc hr hm
  obtain ⟨t, ht, hp⟩ := packBits_ok s.args.arg0.toNat n hc hr hm
  obtain ⟨hframe, -⟩ := id hp
  have hrt : t.raced = .none := by rw [hframe]; exact hr
  exact ⟨t, by rw [exec_bwWrite_of_fits hn hv, ht, conclude_ok, State.finish_of_unraced hrt], hp⟩

/-- Settles O25: either argument check raises before any change, and `PackBits` raises once the capacity is used up. -/
theorem bwWriteFaults : Obligations.BwWriteFaults := by
  refine fun n s => ⟨exec_bwWrite_of_bad, fun hn hv hp hr hm hfull hadm => ?_⟩
  obtain ⟨k, u, stage, hraise, hk, hpacks, hend⟩ := packBits_overflow s.args.arg0.toNat n hp hr hm hfull hadm
  obtain ⟨hframe, -, hbase, hcap, -⟩ := id hpacks
  refine ⟨k, _, u, by rw [exec_bwWrite_of_fits hn hv, hraise, conclude_raise], hk, hpacks, hend, ?_⟩
  simp only [← hbase, ← hcap]
  rw [hframe]
  rfl

/-- Settles O26: the flush appends the padding, and RESULT takes the count of bytes emitted. -/
theorem bwCloseFlushes : Obligations.BwCloseFlushes := by
  intro s hc hr hm
  obtain ⟨t, ht, hp, hstage, hused⟩ := flushPacker_ok hc hr hm
  obtain ⟨hframe, -⟩ := id hp
  have hrt : (t.setResult t.bw.emitted).raced = .none := by rw [State.setResult_raced, hframe]; exact hr
  refine ⟨t, hp, hused, hstage, ?_⟩
  rw [exec, execBwClose, ht, conclude_ok, State.finish_of_unraced hrt]
  rfl

/-- Settles O27: the flush raises before any change, and fault entry frees only the command's write set. -/
theorem bwCloseOverflows : Obligations.BwCloseOverflows := by
  intro s hu hfull
  refine ⟨_, by rw [exec, execBwClose, flushPacker_overflow hu hfull, conclude_raise], ?_⟩
  rfl

/-- Settles O28: a count that fits 32 bits is RESULT's value. -/
theorem bwLengthCounts : Obligations.BwLengthCounts := by
  intro s hlt
  refine ⟨BitVec.ofNat 32 _, by rw [exec, execBwLength, if_pos hlt]; rfl, ?_⟩
  rw [BitVec.toNat_ofNat, Nat.mod_eq_of_lt hlt]

/-- Settles O30: the five commands have no check, and each one's meaning is its pseudocode's assignments. -/
theorem bindingCommands : Obligations.BindingCommands := fun _ => ⟨rfl, rfl, rfl, rfl, rfl⟩

end Sys2Proof.Machine
end

section
/-! ## The bit unpacker (R180 to R185) -/

namespace Sys2Proof

open Sys2Proof.Machine

/-! ### The bits to come -/

@[simp] theorem length_heldBits (s : State) : (heldBits s).length = s.br.used.toNat := length_bitsMsb _ _

@[simp] theorem length_sourceBits (s : State) :
    (sourceBits s).length = s.br.used.toNat + 8 * (sourceBytes s).length := by
  rw [sourceBits, List.length_append, length_heldBits, length_bytesBits]

@[simp] theorem StreamRegs.moved_size (k : Nat) (t : StreamRegs) : (StreamRegs.moved k t).size = t.size := by
  cases h : t.kind <;> simp [StreamRegs.moved, h]

/-- Reading all the bits at hand fetches all the bytes at hand (R183). -/
theorem fetchCount_all (s : State) : fetchCount (sourceBits s).length s = (sourceBytes s).length := by
  rw [fetchCount, length_sourceBits]
  omega

/-- Once all the bits at hand are read the accumulator is empty (R183). -/
theorem Reads.used_of_all {s u : State} (h : Reads (sourceBits s) s u) : u.br.used = 0#4 := by
  obtain ⟨-, -, -, -, -, -, hused, -⟩ := h
  rw [fetchCount_all, length_sourceBits] at hused
  exact BitVec.eq_of_toNat_eq (by rw [BitVec.toNat_ofNat]; omega)

/-! ### A source that ends -/

/-- The unpacker's source ends with the bytes at hand (R182, R211). -/
def SourceEnds (s : State) : Prop :=
  match s.br.mode with
  | .none => True
  | .flat => s.br.consumed.toNat ≤ s.br.limit.toNat
  | .stream => StreamEnds s

/-- Past the bytes at hand, a stream that ends is at its declared size (R211). -/
theorem StreamEnds.pos_after {s : State} (h : StreamEnds s) (hk : s.st.kind ≠ .none) :
    s.st.pos + BitVec.ofNat 32 (streamBytes s).length = s.st.size := by
  have hlen : s.st.pos.toNat + (streamBytes s).length = s.st.size.toNat := by
    unfold StreamEnds StreamOk at h
    unfold streamBytes
    cases hkind : s.st.kind <;> simp only [hkind] at *
    · exact absurd rfl hk
    · rw [length_memoryBytes]
      omega
    · rw [List.length_take, List.length_drop]
      omega
  have := s.st.size.isLt
  bv_omega

namespace Machine

/-- `StreamGet()` without a stream or at its end raises StreamExhausted (R211). -/
theorem streamGet_exhausted (p : HoldPoint) {s : State} (h : s.st.kind = .none ∨ s.st.pos = s.st.size) :
    streamGet p s = .raise .streamExhausted 0#32 s := by
  rcases h with hkind | hpos
  · simp [streamGet, hkind]
  · cases hkind : s.st.kind <;> simp [streamGet, hkind, hpos]

/-- Past the bytes at hand, a source that ends has no byte to fetch (R182, R211). -/
theorem brFetch_exhausted (p : HoldPoint) {s u : State} (hends : SourceEnds s) (h : Reads (sourceBits s) s u) :
    brFetch p u = .raise .streamExhausted 0#32 u := by
  obtain ⟨-, -, hmode, -, hlimit, hconsumed, -, hst, -⟩ := h
  rw [fetchCount_all] at hconsumed hst
  unfold SourceEnds at hends
  unfold sourceBytes at hconsumed hst
  cases hk : s.br.mode <;> simp only [hk, if_true] at hends hconsumed hst hmode
  · simp [brFetch, hmode]
  · rw [length_memoryBytes] at hconsumed
    have hend : u.br.consumed = u.br.limit := BitVec.eq_of_toNat_eq (by rw [hlimit]; omega)
    simp [brFetch, hmode, hend]
  · have hend : u.st.kind = .none ∨ u.st.pos = u.st.size := by
      rw [hst, StreamRegs.moved_kind, StreamRegs.moved_pos, StreamRegs.moved_size]
      by_cases hkind : s.st.kind = .none
      · exact .inl hkind
      · exact .inr (hends.pos_after hkind)
    rw [brFetch, hmode]
    exact streamGet_exhausted p hend

end Machine

end Sys2Proof

namespace Sys2Proof.Machine

/-- `UnpackBits` that needs more bits than a source that ends has: all of them are read, and the fetch after them
raises (R183). -/
theorem unpackFrom_exhausted (point : Nat → Nat → HoldPoint) {n : Nat} (r : Nat) {s : State} (hends : SourceEnds s)
    (hc : CanRead (sourceBits s).length s) (hr : s.raced = .none) (hlen : (sourceBits s).length < n) :
    ∃ u, unpackFrom point n r s = .raise .streamExhausted 0#32 u ∧ Reads (sourceBits s) s u := by
  obtain ⟨k, rfl⟩ := Nat.exists_eq_add_of_lt hlen
  obtain ⟨u, hu, hread⟩ := unpackFrom_bits (fun r left => point r (left + (k + 1))) r (sourceBits s) []
    (List.append_nil _).symm hc hr
  refine ⟨u, ?_, hread⟩
  rw [Nat.add_assoc, unpackFrom_add, hu, Res.bind_ok, unpackFrom, needBit, if_pos hread.used_of_all,
    brFetch_exhausted _ hends hread, Res.bind_raise, Res.bind_raise]

/-! ### BR_READ -/

/-- BR_READ past its argument check is `UnpackBits` (R185). -/
theorem exec_brRead {n : Nat} (s : State) (hn : n ≤ 32) :
    exec (.brRead n) s = .next (endRead (unpackFrom .read n 0 s)) := by
  rw [exec, execBrRead, if_neg (by omega)]

/-- Where `UnpackBits` returns a value, BR_READ completes with it in RESULT (R185). -/
theorem exec_brRead_ok {n v : Nat} {s t : State} (hn : n ≤ 32) (h : unpackFrom .read n 0 s = .ok v t)
    (hr : t.raced = .none) :
    exec (.brRead n) s = .next { t with result := BitVec.ofNat 32 v, task := .idle } := by
  rw [exec_brRead s hn, h, endRead, conclude_ok, State.finish_of_unraced ((State.setResult_raced _ t).trans hr)]
  rfl

/-- BR_READ on a source that ends with fewer than `n` bits: fault entry, from a state that has read them all. -/
theorem exec_brRead_exhausted {n : Nat} {s : State} (hn : n ≤ 32) (hends : SourceEnds s)
    (hc : CanRead (sourceBits s).length s) (hr : s.raced = .none) (hlen : (sourceBits s).length < n) :
    ∃ u, exec (.brRead n) s = .next (faultEntry .streamExhausted 0x32 0#32 (spoilRead u)) ∧
      Reads (sourceBits s) s u := by
  obtain ⟨u, hu, hread⟩ := unpackFrom_exhausted .read 0 hends hc hr hlen
  exact ⟨u, by rw [exec_brRead s hn, hu, endRead, conclude_raise], hread⟩

/-- The bits of a source that is not a stream are at hand where memory accepts its bytes (R182, R88). -/
theorem canRead_all {s : State} (hm : s.br.mode ≠ .stream) (hends : SourceEnds s)
    (hadm : Admitted s.plat .read (sourceSpan s)) : CanRead (sourceBits s).length s := by
  refine ⟨le_rfl, ?_, ?_⟩ <;> rw [fetchCount_all]
  · unfold sourceSpan sourceBytes fetchSpan at *
    cases hk : s.br.mode <;> simp only [hk, length_memoryBytes] at *
    · exact hadm
    · exact hadm
    · exact absurd rfl hm
  · have := s.br.consumed.isLt
    have := s.br.limit.isLt
    unfold SourceEnds at hends
    unfold sourceBytes
    cases hk : s.br.mode <;> simp only [hk, length_memoryBytes, List.length_nil] at *
    · omega
    · omega
    · exact absurd rfl hm

/-- BR_READ on a FLAT or missing source with fewer than `n` bits: of the write set, the stream unit's registers keep
their values (R294, R306). -/
theorem brRead_exhausted_of_not_stream {n : Nat} {s : State} (hn : n ≤ 32) (hm : s.br.mode ≠ .stream)
    (hends : SourceEnds s) (hadm : Admitted s.plat .read (sourceSpan s)) (hr : s.raced = .none)
    (hlen : (sourceBits s).length < n) :
    ∃ t, exec (.brRead n) s = .next t ∧ t = { faultedUnchanged 2#8 0x32#8 s with
      draws := t.draws, result := t.result
      br := { s.br with consumed := t.br.consumed, acc := t.br.acc, used := t.br.used } } := by
  obtain ⟨u, hexec, hframe, -, hmode, hbase, hlimit, -, -, hst, -⟩ :=
    exec_brRead_exhausted hn hends (canRead_all hm hends hadm) hr hlen
  rw [if_neg hm] at hst
  have hspoil : spoilRead u = spoilResult (spoilUnpackerFill u) := by
    unfold spoilRead
    split
    · next hstream => exact absurd (hmode.symm.trans hstream) hm
    · rfl
  refine ⟨_, hexec, ?_⟩
  simp only [hspoil, ← hmode, ← hbase, ← hlimit]
  rw [hframe, hst]
  rfl

/-- BR_READ on a stream that ends with fewer than `n` bits: the stream unit keeps its binding (R294, R306). -/
theorem brRead_exhausted_of_stream {n : Nat} {s : State} (hn : n ≤ 32) (hm : s.br.mode = .stream)
    (hends : SourceEnds s) (hc : CanRead (sourceBits s).length s) (hr : s.raced = .none)
    (hlen : (sourceBits s).length < n) :
    ∃ t, exec (.brRead n) s = .next t ∧ t = { faultedUnchanged 2#8 0x32#8 s with
      draws := t.draws, result := t.result, refill := t.refill
      br := { s.br with consumed := t.br.consumed, acc := t.br.acc, used := t.br.used }
      st := { s.st with pos := t.st.pos, fill := t.st.fill, idx := t.st.idx } } := by
  obtain ⟨u, hexec, hframe, -, hmode, hbase, hlimit, -, -, hst, -⟩ := exec_brRead_exhausted hn hends hc hr hlen
  rw [if_pos hm] at hst
  have hspoil : spoilRead u = spoilResult (spoilStreamFill (spoilUnpackerFill u)) := by
    rw [spoilRead, hmode, hm]
  have hkind : u.st.kind = s.st.kind := by rw [hst, StreamRegs.moved_kind]
  have hsbase : u.st.base = s.st.base := by rw [hst, StreamRegs.moved_base]
  have hsize : u.st.size = s.st.size := by rw [hst, StreamRegs.moved_size]
  refine ⟨_, hexec, ?_⟩
  simp only [hspoil, ← hmode, ← hbase, ← hlimit, ← hkind, ← hsbase, ← hsize]
  rw [hframe]
  rfl

/-! ### The statements -/

/-- Settles O31: past the argument check the command is `UnpackBits`, whose value goes to RESULT. -/
theorem brReadDelivers : Obligations.BrReadDelivers := by
  intro n s hn hc hr
  obtain ⟨bits, t, hlen, ht, hread⟩ := unpackFrom_ok .read n 0 hc hr
  obtain ⟨hframe, -⟩ := id hread
  rw [Nat.zero_mul, Nat.zero_add] at ht
  exact ⟨bits, t, hlen, hread, exec_brRead_ok hn ht (by rw [hframe]; exact hr)⟩

/-- Settles O32: the argument check raises before any change; past it, each of the three sources ends with the bits at
hand, so that the unpacker reads them all and the fetch after them raises. -/
theorem brReadFaults : Obligations.BrReadFaults := by
  refine fun n s => ⟨fun hn => if_pos hn, fun hn hm hok hr hlen hadm => ?_, fun hn hm _ hr hlen => ?_,
    fun hn hm _ hends hr hlen hc => ?_⟩
  · obtain ⟨-, -, hlimit⟩ := hok
    exact brRead_exhausted_of_not_stream hn (by simp [hm]) (by simpa only [SourceEnds, hm] using hlimit hm) hadm hr hlen
  · have hadm : Admitted s.plat .read (sourceSpan s) := fun a ha => by
      simp [sourceSpan, hm, Span.has, Span.empty] at ha
    exact brRead_exhausted_of_not_stream hn (by simp [hm]) (by simp [SourceEnds, hm]) hadm hr
      (by simpa [sourceBytes, hm] using hlen)
  · exact brRead_exhausted_of_stream hn hm (by simpa only [SourceEnds, hm] using hends) hc hr hlen

end Sys2Proof.Machine
end

section
/-! ## The packer and the unpacker in both directions (R186) -/

namespace Sys2Proof

open Sys2Proof.Machine

/-! ### The bits of a list of fields -/

/-- The bits of a list of fields, each a width and a value, most significant first (R164, R186). -/
def fieldsBits (fields : List (Nat × Word)) : List Bool := fields.flatMap fun f => bitsMsb f.1 f.2.toNat

/-- The zero bits BW_CLOSE puts after the fields (R165, R186). -/
def fieldsPadding (fields : List (Nat × Word)) : List Bool :=
  List.replicate ((8 - (fields.map Prod.fst).sum % 8) % 8) false

/-- The bytes that the fields and their padding fill (R186). -/
def fieldsBytes (fields : List (Nat × Word)) : Nat := ((fields.map Prod.fst).sum + 7) / 8

theorem fieldsBits_cons (n : Nat) (v : Word) (rest : List (Nat × Word)) :
    fieldsBits ((n, v) :: rest) = bitsMsb n v.toNat ++ fieldsBits rest := rfl

@[simp] theorem length_fieldsBits (fields : List (Nat × Word)) :
    (fieldsBits fields).length = (fields.map Prod.fst).sum := by
  simp only [fieldsBits, List.length_flatMap, length_bitsMsb]

theorem length_fieldsPadded (fields : List (Nat × Word)) :
    (fieldsBits fields ++ fieldsPadding fields).length = 8 * fieldsBytes fields := by
  rw [List.length_append, length_fieldsBits, fieldsPadding, List.length_replicate, fieldsBytes]
  omega

theorem bitsMsb_zero (k : Nat) : bitsMsb k 0 = List.replicate k false := by
  simpa [bitsMsb] using bitsMsb_shifted 0 k 0

/-- An accumulator whose pending bits are all zero holds 0 (R62). -/
theorem acc_of_heldBits_zero {s : State} (hok : UnpackerOk s.br) (h : ∀ b ∈ heldBits s, b = false) :
    s.br.acc = 0#8 := by
  obtain ⟨-, hlt, -⟩ := hok
  have hzero : heldBits s = bitsMsb s.br.used.toNat 0 := by
    rw [bitsMsb_zero]
    exact List.eq_replicate_iff.mpr ⟨length_heldBits s, h⟩
  have hvalue := congrArg bitsValue hzero
  rw [heldBits, bitsValue_bitsMsb, bitsValue_bitsMsb, Nat.mod_eq_of_lt hlt, Nat.zero_mod] at hvalue
  exact BitVec.eq_of_toNat_eq hvalue

namespace Machine

/-! ### Packing the fields -/

/-- BW_WRITE of each field appends all their bits; it changes ARG0 and BUSY besides (R164, R186). -/
theorem writeFields_ok (fields : List (Nat × Word)) {s : State} (hfit : ∀ f ∈ fields, f.1 ≤ 32 ∧ f.2.toNat < 2 ^ f.1)
    (hc : CanPack (fieldsBits fields).length s) (hr : s.raced = .none) (hm : s.mem.wf = true) :
    ∃ m b a k, writeFields fields s = .next { s with mem := m, bw := b, args := a, task := k } ∧
      Packs (fieldsBits fields) s { s with mem := m, bw := b } := by
  induction fields generalizing s with
  | nil => exact ⟨s.mem, s.bw, s.args, s.task, rfl, Packs.refl hc.1 hm⟩
  | cons field rest ih =>
    obtain ⟨n, v⟩ := field
    obtain ⟨hn, hv⟩ := hfit (n, v) List.mem_cons_self
    rw [fieldsBits_cons, List.length_append] at hc
    have hfst := hc.fst
    rw [length_bitsMsb] at hfst
    obtain ⟨t, hexec, hpacks⟩ := bwWriteAppends n (withArg0 v s) hn (.inr hv) hfst hr hm
    obtain ⟨hframe, -, -, -, -, -, -, hwf, -⟩ := id hpacks
    have hfirst : Packs (bitsMsb n v.toNat) s { s with mem := t.mem, bw := t.bw } :=
      packs_of_same_packer hpacks rfl rfl
    have hsnd := CanPack.snd hc hfirst
    obtain ⟨m, b, a, k, hwrite, hrest⟩ :=
      ih (s := { withArg0 v s with mem := t.mem, bw := t.bw, task := .idle })
        (fun f hf => hfit f (List.mem_cons_of_mem _ hf)) hsnd hr hwf
    refine ⟨m, b, a, k, ?_, hfirst.trans (packs_of_same_packer hrest rfl rfl)⟩
    rw [writeFields, hexec, hframe]
    exact hwrite

/-- Fields written and closed: all their bits and the padding are packed, and RESULT is the byte count (R165, R186). -/
theorem writeFields_bwClose (fields : List (Nat × Word)) {s : State}
    (hfit : ∀ f ∈ fields, f.1 ≤ 32 ∧ f.2.toNat < 2 ^ f.1) (hused : s.bw.used = 0#4)
    (hc : CanPack (fieldsBits fields ++ fieldsPadding fields).length s) (hr : s.raced = .none) (hm : s.mem.wf = true) :
    ∃ s1 m b a, writeFields fields s = .next s1 ∧
      exec .bwClose s1 = .next { s with mem := m, bw := b, args := a, result := b.emitted, task := .idle } ∧
      Packs (fieldsBits fields ++ fieldsPadding fields) s { s with mem := m, bw := b } := by
  rw [List.length_append] at hc
  obtain ⟨m, b, a, k, hwrite, hpacks⟩ := writeFields_ok fields hfit hc.fst hr hm
  obtain ⟨-, -, -, -, -, hmod, -, hwf, -⟩ := id hpacks
  have hpad : fieldsPadding fields = List.replicate ((8 - b.used.toNat) % 8) false := by
    have hb : b.used.toNat = (fields.map Prod.fst).sum % 8 := by simpa [hused] using hmod
    rw [fieldsPadding, hb]
  have hclose : CanPack ((8 - b.used.toNat) % 8) { s with mem := m, bw := b, args := a, task := k } := by
    have hsnd := CanPack.snd hc hpacks
    rwa [hpad, List.length_replicate] at hsnd
  obtain ⟨t, hzeros, -, -, hexec⟩ := bwCloseFlushes _ hclose hr hwf
  obtain ⟨hframe, -⟩ := id hzeros
  refine ⟨_, t.mem, t.bw, a, hwrite, ?_, hpacks.trans (hpad ▸ packs_of_same_packer hzeros rfl rfl)⟩
  rw [hexec, hframe]

/-- A packer that was empty and took whole bytes has stored exactly those from its base on (R160, R163). -/
theorem bytesBits_of_packs {bits : List Bool} {k : Nat} {s t : State} (h : Packs bits s t) (hlen : bits.length = 8 * k)
    (he : s.bw.emitted = 0#32) (hu : s.bw.used = 0#4) :
    t.bw.emitted.toNat = k ∧ bytesBits (memoryBytes t.mem s.bw.base k) = bits := by
  obtain ⟨-, hbits, hbase, -, hemitted, hused, -⟩ := h
  simp only [he, hu, hlen, BitVec.toNat_ofNat, Nat.zero_mod, Nat.zero_add] at hemitted hused
  have hk : t.bw.emitted.toNat = k := by omega
  have hu' : t.bw.used.toNat = 0 := by omega
  refine ⟨hk, ?_⟩
  simpa [packedBits, hk, hu', hbase, he, hu, bitsMsb, memoryBytes, bytesBits] using hbits

/-! ### Reading the fields back -/

/-- BR_READ when the source's next bits are known (R183, R185). -/
theorem brRead_bits {s : State} {bits rest : List Bool} (hs : sourceBits s = bits ++ rest)
    (hn : bits.length ≤ 32) (hc : CanRead bits.length s) (hr : s.raced = .none) :
    ∃ b g, exec (.brRead bits.length) s =
        .next { s with br := b, st := g, result := BitVec.ofNat 32 (bitsValue bits), task := .idle } ∧
      Reads bits s { s with br := b, st := g } := by
  obtain ⟨t, ht, hread⟩ := unpackFrom_bits .read 0 bits rest hs hc hr
  obtain ⟨hframe, -⟩ := id hread
  rw [Nat.zero_mul, Nat.zero_add] at ht
  have hexec := exec_brRead_ok hn ht (by rw [hframe]; exact hr)
  refine ⟨t.br, t.st, ?_, hframe ▸ hread⟩
  rw [hexec, hframe]

/-- BR_READ of each field's width returns the fields whose bits the source begins with; besides the unpacker and the
stream unit it changes RESULT and BUSY (R185, R186). -/
theorem readsBack_ok (fields : List (Nat × Word)) {rest : List Bool} {s : State}
    (hfit : ∀ f ∈ fields, f.1 ≤ 32 ∧ f.2.toNat < 2 ^ f.1) (hs : sourceBits s = fieldsBits fields ++ rest)
    (hc : CanRead (fieldsBits fields).length s) (hr : s.raced = .none) :
    ∃ b g r k, ReadsBack fields s { s with br := b, st := g, result := r, task := k } ∧
      Reads (fieldsBits fields) s { s with br := b, st := g } := by
  induction fields generalizing s with
  | nil => exact ⟨s.br, s.st, s.result, s.task, rfl, Reads.refl s⟩
  | cons field fields ih =>
    obtain ⟨n, v⟩ := field
    obtain ⟨hn, hv⟩ := hfit (n, v) List.mem_cons_self
    rw [fieldsBits_cons] at hs hc
    rw [List.append_assoc] at hs
    rw [List.length_append] at hc
    obtain ⟨b, g, hexec, hfirst⟩ := brRead_bits hs (by rwa [length_bitsMsb]) hc.fst hr
    rw [length_bitsMsb, bitsValue_bitsMsb, Nat.mod_eq_of_lt hv, BitVec.ofNat_toNat, BitVec.setWidth_eq] at hexec
    obtain ⟨-, hbits, -⟩ := id hfirst
    have hsnd := CanRead.snd hc hfirst
    obtain ⟨b', g', r, k, hback, hrest⟩ :=
      ih (s := { s with br := b, st := g, result := v, task := .idle })
        (fun f hf => hfit f (List.mem_cons_of_mem _ hf)) (List.append_cancel_left (hbits.symm.trans hs)) hsnd hr
    exact ⟨b', g', r, k, ⟨_, hexec, rfl, hback⟩,
      hfirst.trans (Reads.transport hrest (s' := { s with br := b, st := g }) rfl rfl rfl fun _ _ => rfl)⟩

/-- The fields read back by a FLAT unpacker over the bytes of their bits and padding: it has fetched them all and holds
the padding (R186). -/
theorem readsBack_flat (fields : List (Nat × Word)) {s : State} {base limit : Word}
    (hfit : ∀ f ∈ fields, f.1 ≤ 32 ∧ f.2.toNat < 2 ^ f.1) (hbr : s.br = .bound .flat base limit)
    (hlimit : limit.toNat = fieldsBytes fields)
    (hbytes : bytesBits (memoryBytes s.mem base (fieldsBytes fields)) = fieldsBits fields ++ fieldsPadding fields)
    (hadm : Admitted s.plat .read ⟨base, fieldsBytes fields⟩) (hr : s.raced = .none) :
    ∃ t, ReadsBack fields s t ∧ t.br.consumed.toNat = fieldsBytes fields ∧
      t.br.used.toNat = (8 - (fields.map Prod.fst).sum % 8) % 8 ∧ t.br.acc = 0#8 := by
  have hs : sourceBits s = fieldsBits fields ++ fieldsPadding fields := by
    simpa [sourceBits, heldBits, sourceBytes, hbr, UnpackerRegs.bound, bitsMsb, hlimit] using hbytes
  have hcount : fetchCount (fieldsBits fields).length s = fieldsBytes fields := by
    simp [fetchCount, fieldsBytes, hbr, UnpackerRegs.bound]
  have hc : CanRead (fieldsBits fields).length s := by
    refine ⟨by rw [hs, List.length_append]; omega, ?_, ?_⟩ <;> rw [hcount]
    · simpa [fetchSpan, hbr, UnpackerRegs.bound] using hadm
    · have := hadm.size_lt
      simpa [hbr, UnpackerRegs.bound] using this
  obtain ⟨b, g, r, k, hback, -, hbits, -, -, -, hconsumed, hused, -, hok⟩ := readsBack_ok fields hfit hs hc hr
  rw [hcount] at hconsumed hused
  refine ⟨_, hback, by simpa [hbr, UnpackerRegs.bound] using hconsumed, ?_, ?_⟩
  · simp only [hbr, UnpackerRegs.bound, length_fieldsBits, fieldsBytes, BitVec.toNat_ofNat] at hused
    show b.used.toNat = _
    omega
  · have hleft := List.append_cancel_left (hbits.symm.trans hs)
    have hzero : ∀ bit ∈ heldBits { s with br := b, st := g }, bit = false := fun bit hbit => by
      have hmem := List.mem_append_left (bytesBits (sourceBytes { s with br := b, st := g })) hbit
      rw [← sourceBits, hleft] at hmem
      exact List.eq_of_mem_replicate hmem
    exact acc_of_heldBits_zero (hok (by rw [hbr]; exact unpackerOk_bound .flat base limit)) hzero

end Machine

end Sys2Proof

namespace Sys2Proof.Machine

/-- Settles O29: the packed bits are the fields' and the padding; they are the bits of the bytes in memory, so of the
unpacker's source, and what is left of them after the fields is the padding. -/
theorem packUnpackRoundTrip : Obligations.PackUnpackRoundTrip := by
  intro fields s len hfresh hfit hcap hwrite hread hr hm
  replace hfresh : s.bw = .bound s.bw.base s.bw.cap := hfresh
  have hemitted : s.bw.emitted = 0#32 := by rw [hfresh]; rfl
  have hused : s.bw.used = 0#4 := by rw [hfresh]; rfl
  have hlen := length_fieldsPadded fields
  have hc : CanPack (fieldsBits fields ++ fieldsPadding fields).length s := by
    have hsize : 8 * fieldsBytes fields / 8 = len := Nat.mul_div_cancel_left _ (by decide)
    refine ⟨by rw [hfresh]; exact packerOk_bound _ _, ?_, ?_⟩
    · simpa [hlen, hemitted, hused, hsize] using hcap
    · simpa [packSpan, hlen, hemitted, hused, hsize] using hwrite
  obtain ⟨s1, m, b, a, hfields, hclose, hpacks⟩ := writeFields_bwClose fields hfit hused hc hr hm
  obtain ⟨hcount, hbytes⟩ := bytesBits_of_packs hpacks hlen hemitted hused
  obtain ⟨-, hinit, -⟩ := bindingCommands (withArgs s.bw.base b.emitted
    { s with mem := m, bw := b, args := a, result := b.emitted, task := .idle })
  exact ⟨s1, hfields, _, hclose, hcount, _, hinit, readsBack_flat fields hfit rfl hcount hbytes hread rfl⟩

end Sys2Proof.Machine
end

section
/-! ## The stream unit: the bytes at hand, and what comes after them (R211, R212) -/

namespace Sys2Proof

open Sys2Proof.Machine

/-! ### The bytes at hand -/

theorem StreamRegs.moved_of_chunk (k : Nat) {t : StreamRegs} (h : t.kind = .chunk) :
    StreamRegs.moved k t = { t with pos := t.pos + BitVec.ofNat 32 k, idx := t.idx + BitVec.ofNat 17 k } := by
  simp [StreamRegs.moved, h]

/-- Bytes that are not in memory need no admission (R82, R211). -/
theorem canGet_of_chunk {n : Nat} {s : State} (hk : s.st.kind = .chunk) (hn : n ≤ (streamBytes s).length) :
    CanGet n s :=
  ⟨hn, fun a ha => by simp [streamSpan, hk, Span.has, Span.empty] at ha⟩

/-- Reading all the bits at hand of a STREAM unpacker takes all the bytes at hand (R182, R183). -/
theorem Reads.st_of_all {s u : State} (h : Reads (sourceBits s) s u) (hm : s.br.mode = .stream) :
    u.st = StreamRegs.moved (streamBytes s).length s.st := by
  obtain ⟨-, -, -, -, -, -, -, hst, -⟩ := h
  rw [fetchCount_all, if_pos hm] at hst
  simpa only [sourceBytes, hm] using hst

/-- Short of its declared size a CHUNK stream has at hand what it has buffered (R211). -/
theorem MoreToCome.length_streamBytes {s : State} (h : MoreToCome s) :
    (streamBytes s).length = s.st.fill.toNat - s.st.idx.toNat := by
  obtain ⟨hk, ⟨-, -, hfill⟩, hlen, hmore⟩ := h
  simp only [streamBytes, hk, List.length_take, List.length_drop]
  omega

/-! ### After the bytes at hand -/

/-- The stream has no further byte: it is not bound, or is at its declared size (R211). -/
def Exhausted (s : State) : Prop := s.st.kind = .none ∨ s.st.pos = s.st.size

/-- The stream's next byte needs a refill (R211). -/
structure NeedsRefill (s : State) : Prop where
  kind : s.st.kind = .chunk
  pos : s.st.pos ≠ s.st.size
  idx : s.st.idx = s.st.fill

/-- Past the bytes at hand, a CHUNK stream short of its declared size needs a refill. -/
theorem needsRefill_after {s t : State} (h : MoreToCome s)
    (ht : t.st = StreamRegs.moved (streamBytes s).length s.st) : NeedsRefill t := by
  rw [h.length_streamBytes] at ht
  obtain ⟨hk, ⟨-, hidx, -⟩, -, hmore⟩ := h
  rw [StreamRegs.moved_of_chunk _ hk] at ht
  have hsize := s.st.size.isLt
  refine ⟨by rw [ht]; exact hk, ?_, ?_⟩ <;> rw [ht]
  · show s.st.pos + BitVec.ofNat 32 _ ≠ s.st.size
    bv_omega
  · show s.st.idx + BitVec.ofNat 17 _ = s.st.fill
    bv_omega

theorem MoreToCome.needsRefill {s : State} (h : MoreToCome s) (h0 : streamBytes s = []) : NeedsRefill s :=
  needsRefill_after h (by simp [h0])

/-- Past the bytes at hand, a stream that ends has no further byte. -/
theorem exhausted_after {s t : State} (h : StreamEnds s)
    (ht : t.st = StreamRegs.moved (streamBytes s).length s.st) : Exhausted t := by
  rw [Exhausted, ht, StreamRegs.moved_kind, StreamRegs.moved_pos, StreamRegs.moved_size]
  exact or_iff_not_imp_left.mpr h.pos_after

theorem StreamEnds.exhausted {s : State} (h : StreamEnds s) (h0 : streamBytes s = []) : Exhausted s :=
  exhausted_after h (by simp [h0])

/-! ### What a delivery leaves alone -/

theorem Gets.raced {bytes : List Byte} {s t : State} (h : Gets bytes s t) : t.raced = s.raced := by rw [h.1]

theorem Gets.mem {bytes : List Byte} {s t : State} (h : Gets bytes s t) : t.mem = s.mem := by rw [h.1]

theorem Reads.mem {bits : List Bool} {s t : State} (h : Reads bits s t) : t.mem = s.mem := by rw [h.1]

theorem Reads.raced {bits : List Bool} {s t : State} (h : Reads bits s t) : t.raced = s.raced := by rw [h.1]

namespace Machine

/-! ### One byte -/

/-- `StreamGet()` asks for a refill and is held where it was called (R211, R212). -/
theorem streamGet_held (p : HoldPoint) {s : State} (h : NeedsRefill s) :
    streamGet p s = .hold p { s with refill := { offset := s.st.pos, max := BitVec.ofNat 17 (refillMax s) } } := by
  simp [streamGet, h.kind, h.pos, h.idx]

/-- `StreamGet()` delivers the first of the bytes at hand (R211). -/
theorem streamGet_first (p : HoldPoint) {b : Byte} {rest : List Byte} {s : State} (hs : streamBytes s = b :: rest)
    (hc : CanGet 1 s) (hr : s.raced = .none) :
    ∃ t, streamGet p s = .ok b t ∧ Gets [b] s t ∧ streamBytes t = rest := by
  obtain ⟨c, t, ht, hget⟩ := streamGet_ok p hc hr
  obtain ⟨-, hbytes⟩ := id hget
  obtain ⟨rfl, rfl⟩ : b = c ∧ rest = streamBytes t := by simpa [hs] using hbytes
  exact ⟨t, ht, hget, rfl⟩

/-- `StreamGet()` delivers the only byte at hand, after which the stream unit has moved past all of them. -/
theorem streamGet_last (p : HoldPoint) {b : Byte} {s : State} (hs : streamBytes s = [b]) (hc : CanGet 1 s)
    (hr : s.raced = .none) :
    ∃ t, streamGet p s = .ok b t ∧ Gets [b] s t ∧ t.st = StreamRegs.moved (streamBytes s).length s.st := by
  obtain ⟨t, ht, hget, -⟩ := streamGet_first p hs hc hr
  obtain ⟨hframe, -⟩ := id hget
  exact ⟨t, ht, hget, by rw [hs, hframe]⟩

/-! ### ST_GET and ST_GET16 -/

/-- Where StreamGet returns a byte, ST_GET completes with it in RESULT (R215). -/
theorem endGet_ok (b : Byte) (t : State) :
    endGet (.ok b t) = { t with result := b.setWidth 32, task := .idle, raced := .none } := by
  rw [endGet, conclude_ok, BitVec.ofNat_toNat]
  rfl

/-- Where both bytes came, ST_GET16 completes with their value in RESULT (R216). -/
theorem endGet16_ok (lo hi : Byte) {t : State} (hr : t.raced = .none) :
    endGet16 (.ok (get16Value lo hi) t) =
      { t with result := BitVec.ofNat 32 (lo.toNat + 256 * hi.toNat), task := .idle } := by
  rw [endGet16, conclude_ok, State.finish_of_unraced ((State.setResult_raced _ t).trans hr)]
  rfl

/-- ST_GET needs a refill (R211, R215). -/
theorem stGet_held {s : State} (h : NeedsRefill s) : exec .stGet s = .next (heldAt .get s) := by
  rw [exec, execStGet, streamGet_held _ h]
  rfl

/-- R211's largest refill fits REFILL_MAX (R9, R59). -/
theorem heldAt_max (p : HoldPoint) {s : State} (hp : PlatformOk s.plat) :
    (heldAt p s).refill.max.toNat = min s.plat.chunkBytes (s.st.size.toNat - s.st.pos.toNat) := by
  obtain ⟨-, hle⟩ := hp
  rw [heldAt, BitVec.toNat_ofNat]
  omega

/-- A fault of ST_GET or ST_GET16 frees no more than the write set of R294 (R306). -/
theorem faultEntry_spoilGet (c : Cause) (op : Nat) (s : State) :
    let t := faultEntry c op 0#32 (spoilGet s)
    t = { faultedUnchanged c.code (BitVec.ofNat 8 op) s with
      draws := t.draws, result := t.result, refill := t.refill
      st := { s.st with pos := t.st.pos, fill := t.st.fill, idx := t.st.idx } } := rfl

/-- ST_GET16 from its second byte on, when that is at hand (R214). -/
theorem get16Second_ok (lo : Byte) {s : State} (hc : CanGet 1 s) (hr : s.raced = .none) :
    ∃ hi t, get16Second lo s = .ok (get16Value lo hi) t ∧ Gets [hi] s t := by
  obtain ⟨hi, t, ht, hget⟩ := streamGet_ok (.get16Hi lo) hc hr
  exact ⟨hi, t, by rw [get16Second, ht, Res.bind_ok], hget⟩

end Machine

end Sys2Proof

namespace Sys2Proof.Machine

/-- Settles O33: one byte or two from `StreamGet`, and the command's completion. -/
theorem stGetDelivers : Obligations.StGetDelivers := by
  refine fun s hr => ⟨fun hc => ?_, fun hc => ?_⟩
  · obtain ⟨b, t, ht, hget⟩ := streamGet_ok .get hc hr
    exact ⟨b, t, hget, by rw [exec, execStGet, ht, endGet_ok, ← hget.raced.trans hr]⟩
  · obtain ⟨lo, t, ht, hlo⟩ := streamGet_ok .get16Lo (CanGet.fst (a := 1) (b := 1) hc) hr
    obtain ⟨hi, u, hu, hhi⟩ := get16Second_ok lo (CanGet.snd (x := [lo]) hc hlo) (hlo.raced.trans hr)
    have hget : Gets [lo, hi] s u := hlo.trans hhi
    exact ⟨lo, hi, u, hget, by rw [exec, execStGet16, ht, Res.bind_ok, hu, endGet16_ok lo hi (hget.raced.trans hr)]⟩

end Sys2Proof.Machine
end

section
/-! ## A CHUNK stream in step with its medium (R217, R218) -/

namespace Sys2Proof

open Sys2Proof.Machine

section
variable {medium : List Byte} {s : State}

/-- The next buffered byte is the medium's at ST_POS (R217). -/
theorem InStep.head (h : InStep medium s) (hne : s.st.idx ≠ s.st.fill) :
    s.chunk.getD s.st.idx.toNat 0#8 = medium.getD s.st.pos.toNat 0#8 := by
  obtain ⟨-, ⟨-, hidx, -⟩, -, hbytes⟩ := h
  exact (hbytes 0 (by bv_omega)).2

/-- A byte further the stream is in step again (R218). -/
theorem InStep.moved_one (h : InStep medium s) (hne : s.st.idx ≠ s.st.fill) (hlt : s.st.pos.toNat < s.st.size.toNat) :
    InStep medium { s with st := { s.st with idx := s.st.idx + 1#17, pos := s.st.pos + 1#32 } } := by
  obtain ⟨hk, ⟨-, hidx, hfill⟩, hlen, hbytes⟩ := h
  have hpos1 : (s.st.pos + 1#32).toNat = s.st.pos.toNat + 1 := by bv_omega
  have hidx1 : (s.st.idx + 1#17).toNat = s.st.idx.toNat + 1 := by bv_omega
  refine ⟨hk, ⟨hpos1 ▸ hlt, by simp only [hidx1]; bv_omega, hfill⟩, hlen, fun j hj => ?_⟩
  simp only [hpos1, hidx1, Nat.add_assoc, Nat.add_comm 1 j] at hj ⊢
  exact hbytes (j + 1) (by omega)

end

namespace Machine

section
variable {medium : List Byte} {s : State}

/-- Taking a buffered byte of a stream in step delivers the medium's byte at ST_POS, in step again (R211, R218). -/
theorem chunkTake_inStep (h : InStep medium s) (hne : s.st.idx ≠ s.st.fill) (hlt : s.st.pos.toNat < s.st.size.toNat) :
    ∃ t, chunkTake s = .ok (medium.getD s.st.pos.toNat 0#8) t ∧ t.st.pos = s.st.pos + 1#32 ∧ InStep medium t :=
  ⟨_, by rw [chunkTake, h.head hne], rfl, h.moved_one hne hlt⟩

/-- ST_GET completes on a byte of a stream in step; completion leaves the stream alone. -/
theorem endGet_inStep (b : Byte) (h : InStep medium s) :
    (endGet (.ok b s)).task = .idle ∧ (endGet (.ok b s)).result = b.setWidth 32 ∧
      (endGet (.ok b s)).st.pos = s.st.pos ∧ InStep medium (endGet (.ok b s)) := by
  rw [endGet_ok]
  exact ⟨rfl, rfl, rfl, h⟩

/-- A working buffer that a conforming agent filled with the medium's `k` bytes from ST_POS on is in step (R217). -/
theorem inStep_filled {k : Nat} (hk : s.st.kind = .chunk) (hpos : s.st.pos.toNat ≤ s.st.size.toNat)
    (hlen : s.chunk.length = s.plat.chunkBytes) (hfill : k ≤ s.plat.chunkBytes) (h17 : k < 131072)
    (hmedium : s.st.pos.toNat + k ≤ medium.length)
    (hbytes : ∀ j, j < k → s.chunk.getD j 0#8 = medium.getD (s.st.pos.toNat + j) 0#8) :
    InStep medium { s with st := { s.st with fill := (BitVec.ofNat 32 k).setWidth 17, idx := 0#17 } } := by
  have hk17 : ((BitVec.ofNat 32 k).setWidth 17).toNat = k := by
    rw [BitVec.toNat_setWidth, BitVec.toNat_ofNat]
    omega
  refine ⟨hk, ⟨hpos, Nat.zero_le _, by rw [hk17]; exact hfill⟩, hlen, fun j hj => ?_⟩
  rw [hk17] at hj
  refine ⟨?_, by simpa using hbytes j hj⟩
  simp only [BitVec.toNat_ofNat] at hj ⊢
  omega

/-- The answer 0 tells the end of the medium (R211, R212). -/
theorem streamResume_zero (s : State) : streamResume 0#32 s = .raise .streamExhausted 0#32 s := by
  simp [streamResume]

end

/-! ### After a refill -/

/-- With no access to come, an answered refill settles the turn where nothing is left to execute (R212, R213). -/
theorem step_of_settled {k : Word} {p : HoldPoint} {s t : State} (ht : s.task = .answered k p) (hh : s.host = [])
    (h : fetchResumed k p s = .settled t) : step s = .next t := by
  simp only [step_of_no_access hh, turnWith, fetch, ht, State.foreseen_nil hh, h]

/-- With no access to come, an answered refill that completes a code unit executes it (R212, R240). -/
theorem step_of_instr {k : Word} {p : HoldPoint} {i : Instr} {s t : State} (ht : s.task = .answered k p)
    (hh : s.host = []) (h : fetchResumed k p s = .instr i t) : step s = exec i t := by
  simp only [step_of_no_access hh, turnWith, fetch, ht, State.foreseen_nil hh, h]

/-- ST_GET goes on from an answered refill (R212, R213). -/
theorem step_get {k : Word} {s : State} (ht : s.task = .answered k .get) (hh : s.host = []) :
    step s = .next (endGet (streamResume k s)) := step_of_settled ht hh rfl

/-! ### The statement -/

section
variable {medium : List Byte} {s : State}

/-- ST_GET from the working buffer of a stream in step (R211, R218). -/
theorem stGet_buffered (h : InStep medium s) (hlt : s.st.pos.toNat < s.st.size.toNat) (hne : s.st.idx ≠ s.st.fill) :
    ∃ t, exec .stGet s = .next t ∧ t.task = .idle ∧
      t.result = (medium.getD s.st.pos.toNat 0#8).setWidth 32 ∧ t.st.pos = s.st.pos + 1#32 ∧ InStep medium t := by
  obtain ⟨u, htake, hpos, hu⟩ := chunkTake_inStep h hne hlt
  have hget : streamGet .get s = .ok (medium.getD s.st.pos.toNat 0#8) u := by
    have hend : s.st.pos ≠ s.st.size := fun e => by rw [e] at hlt; omega
    obtain ⟨hk, -⟩ := h
    simp only [streamGet, hk, hend, hne, if_false, htake]
  obtain ⟨hidle, hresult, hpos', hin⟩ := endGet_inStep (medium.getD s.st.pos.toNat 0#8) hu
  exact ⟨_, by rw [exec, execStGet, hget], hidle, hresult, hpos'.trans hpos, hin⟩

/-- ST_GET after a refill with the medium's bytes (R212, R217, R218). -/
theorem stGet_refilled {k : Nat} {h : State} (ht : h.task = .answered (BitVec.ofNat 32 k) .get) (hh : h.host = [])
    (hk : h.st.kind = .chunk) (hlt : h.st.pos.toNat < h.st.size.toNat) (hlen : h.chunk.length = h.plat.chunkBytes)
    (h0 : k ≠ 0) (hmax : k ≤ h.refill.max.toNat) (hfill : k ≤ h.plat.chunkBytes)
    (hmedium : h.st.pos.toNat + k ≤ medium.length)
    (hbytes : ∀ j, j < k → h.chunk.getD j 0#8 = medium.getD (h.st.pos.toNat + j) 0#8) :
    ∃ t, step h = .next t ∧ t.task = .idle ∧ t.result = (medium.getD h.st.pos.toNat 0#8).setWidth 32 ∧
      t.st.pos = h.st.pos + 1#32 ∧ InStep medium t := by
  have hmax17 := h.refill.max.isLt
  have hkw : (BitVec.ofNat 32 k).toNat = k := by rw [BitVec.toNat_ofNat]; omega
  have hfilled := inStep_filled (medium := medium) hk hlt.le hlen hfill (by omega) hmedium hbytes
  obtain ⟨u, htake, hpos, hu⟩ := chunkTake_inStep hfilled (by simp only; bv_omega) hlt
  have hresume : streamResume (BitVec.ofNat 32 k) h = .ok (medium.getD h.st.pos.toNat 0#8) u := by
    rw [streamResume, if_neg (by omega), if_neg (by bv_omega), htake]
  obtain ⟨hidle, hresult, hpos', hin⟩ := endGet_inStep (medium.getD h.st.pos.toNat 0#8) hu
  exact ⟨_, by rw [step_get ht hh, hresume], hidle, hresult, hpos'.trans hpos, hin⟩

end

end Machine

end Sys2Proof

namespace Sys2Proof.Machine

/-- Settles O37: a buffered byte is the medium's, a conforming refill puts the buffer in step, and at the medium's end it
answers 0. -/
theorem chunkStreamDeliversMedium : Obligations.ChunkStreamDeliversMedium := by
  intro medium s hp h hlt hh
  refine ⟨fun hne => stGet_buffered h hlt hne, fun he => ?_⟩
  obtain ⟨hk, -, hlen, -⟩ := id h
  refine ⟨heldAt .get s, stGet_held ⟨hk, fun e => by rw [e] at hlt; omega, he⟩, rfl, rfl,
    fun chunk k hmin hsame hbytes => ?_⟩
  rw [heldAt_max _ hp] at hmin
  have hmax := heldAt_max .get hp
  obtain ⟨hchunk, -⟩ := hp
  obtain ⟨u, hu⟩ : ∃ u : State,
      u = { heldAt .get s with chunk := chunk, task := .answered (BitVec.ofNat 32 k) .get } := ⟨_, rfl⟩
  have htask : u.task = .answered (BitVec.ofNat 32 k) .get := by rw [hu]
  have hrefill : u.refill = (heldAt .get s).refill := by rw [hu]
  have hhost : u.host = [] := by rw [hu]; exact hh
  rw [← hu]
  by_cases hend : s.st.pos.toNat < medium.length
  · obtain ⟨t, hstep, hidle, hresult, hpos, hin⟩ :=
      stGet_refilled (medium := medium) htask hhost (by rw [hu]; exact hk)
      (by rw [hu]; exact hlt) (by rw [hu]; exact hsame.trans hlen) (by omega) (by rw [hrefill]; omega)
      (by rw [hu]; show k ≤ s.plat.chunkBytes; omega) (by rw [hu]; show s.st.pos.toNat + k ≤ _; omega)
      (by rw [hu]; exact hbytes)
    rw [hu] at hresult hpos
    exact ⟨t, hstep, hidle, fun _ => ⟨hresult, hpos, hin⟩, fun hle => absurd hend (by omega)⟩
  · obtain rfl : k = 0 := by omega
    exact ⟨_, by rw [step_get htask hhost, streamResume_zero], rfl,
      fun hlt => absurd hlt hend, fun _ => ⟨rfl, rfl⟩⟩

end Sys2Proof.Machine
end

section
/-! ## Reading past the bits at hand: fields and code units, bit by bit (R183, R240) -/

namespace Sys2Proof.Machine

/-! ### A field of bits -/

/-- `UnpackBits` that needs more bits than are at hand reads them all, and fetches a byte at the point they lead to
(R183). -/
theorem unpackFrom_short (point : Nat → Nat → HoldPoint) {n : Nat} (r : Nat) {s : State}
    (hc : CanRead (sourceBits s).length s) (hr : s.raced = .none) (hlen : (sourceBits s).length < n) :
    ∃ u k, Reads (sourceBits s) s u ∧ unpackFrom point n r s =
      (brFetch (point (r * 2 ^ (sourceBits s).length + bitsValue (sourceBits s)) (n - (sourceBits s).length)) u).bind
        k := by
  obtain ⟨k, rfl⟩ := Nat.exists_eq_add_of_lt hlen
  obtain ⟨u, hu, hread⟩ := unpackFrom_bits (fun r left => point r (left + (k + 1))) r (sourceBits s) []
    (List.append_nil _).symm hc hr
  exact ⟨u, _, hread, by
    rw [Nat.add_assoc, unpackFrom_add, hu, Res.bind_ok, unpackFrom, needBit, if_pos hread.used_of_all, Res.bind_assoc,
      Nat.add_sub_cancel_left]⟩

/-- Past the bits at hand of a STREAM unpacker whose stream goes on, a fetch asks for a refill (R182, R211). -/
theorem brFetch_held (p : HoldPoint) {s u : State} (hm : s.br.mode = .stream) (hmore : MoreToCome s)
    (h : Reads (sourceBits s) s u) :
    brFetch p u = .hold p { u with refill := { offset := u.st.pos, max := BitVec.ofNat 17 (refillMax u) } } := by
  obtain ⟨-, -, hmode, -⟩ := id h
  rw [brFetch, hmode, hm]
  exact streamGet_held p (needsRefill_after hmore (h.st_of_all hm))

/-! ### One bit of a code unit (R240) -/

/-- Where one more bit leads a code unit: on in a field, to the next field, or to the whole unit (R118, R119, R240). -/
def UnitPhase.after (b : Bool) : UnitPhase → UnitPhase ⊕ CodeUnit
  | .code r left =>
    if left = 1 then .inl (if 2 * r + b.toNat = 15 then .raw 0 16 else .sign (2 * r + b.toNat))
    else .inl (.code (2 * r + b.toNat) (left - 1))
  | .sign c => .inl (.mag c b 0 (c + 1))
  | .mag c sg r left =>
    if left = 1 then .inr (.normal c sg (2 * r + b.toNat)) else .inl (.mag c sg (2 * r + b.toNat) (left - 1))
  | .raw r left => if left = 1 then .inr (.escape (2 * r + b.toNat)) else .inl (.raw (2 * r + b.toNat) (left - 1))

end Sys2Proof.Machine

namespace Sys2Proof

open Sys2Proof.Machine

/-- A field after one more of its bits, when more are left (R183). -/
theorem FieldOk.more {r left width : Nat} (h : FieldOk r left width) (h1 : left ≠ 1) (b : Bool) :
    FieldOk (2 * r + b.toNat) (left - 1) width ∧
      bitsMsb (width - (left - 1)) (2 * r + b.toNat) = bitsMsb (width - left) r ++ [b] := by
  obtain ⟨hle, hwidth, hr⟩ := h
  have hb := b.toNat_lt
  rw [show width - (left - 1) = width - left + 1 by omega]
  refine ⟨⟨by omega, by omega, ?_⟩, bitsMsb_succ_low _ _ _⟩
  rw [show width - (left - 1) = width - left + 1 by omega, pow_succ]
  omega

/-- A field after its last bit (R183). -/
theorem FieldOk.last {r width : Nat} (h : FieldOk r 1 width) (b : Bool) :
    2 * r + b.toNat < 2 ^ width ∧ bitsMsb width (2 * r + b.toNat) = bitsMsb (width - 1) r ++ [b] := by
  obtain ⟨-, hwidth, hr⟩ := h
  have hb := b.toNat_lt
  obtain ⟨w, rfl⟩ := Nat.exists_eq_add_of_le' hwidth
  rw [Nat.add_sub_cancel] at hr ⊢
  exact ⟨by rw [pow_succ]; omega, bitsMsb_succ_low _ _ _⟩

/-- One more bit of a unit that goes on (R240). -/
theorem PhaseOk.after_inl {p q : UnitPhase} {b : Bool} (hp : PhaseOk p) (h : p.after b = .inl q) :
    PhaseOk q ∧ phaseBits q = phaseBits p ++ [b] := by
  cases p with
  | code r left =>
    rw [UnitPhase.after] at h
    split at h <;> obtain rfl := Sum.inl.inj h
    · next h1 =>
      subst h1
      obtain ⟨hlt, hbits⟩ := FieldOk.last hp b
      split
      · next h15 => exact ⟨⟨by omega, by omega, by decide⟩, by simpa [phaseBits, bitsMsb, h15] using hbits⟩
      · exact ⟨show 2 * r + b.toNat ≤ 14 by omega, hbits⟩
    · next h1 => exact FieldOk.more hp h1 b
  | sign code =>
    obtain rfl := Sum.inl.inj h
    exact ⟨⟨hp, by omega, by omega, by positivity⟩, by simp [phaseBits, bitsMsb]⟩
  | mag code sign r left =>
    obtain ⟨hcode, hfield⟩ := hp
    rw [UnitPhase.after] at h
    split at h
    · cases h
    · next h1 =>
      obtain rfl := Sum.inl.inj h
      obtain ⟨hmore, hbits⟩ := hfield.more h1 b
      exact ⟨⟨hcode, hmore⟩, by simp [phaseBits, hbits]⟩
  | raw r left =>
    rw [UnitPhase.after] at h
    split at h
    · cases h
    · next h1 =>
      obtain rfl := Sum.inl.inj h
      obtain ⟨hmore, hbits⟩ := FieldOk.more hp h1 b
      exact ⟨hmore, by simp only [phaseBits, hbits, List.append_assoc]⟩

/-- The last bit of a unit (R240). -/
theorem PhaseOk.after_inr {p : UnitPhase} {b : Bool} {u : CodeUnit} (hp : PhaseOk p) (h : p.after b = .inr u) :
    u.Fits ∧ u.bits = phaseBits p ++ [b] := by
  cases p with
  | code r left => rw [UnitPhase.after] at h; split at h <;> cases h
  | sign code => cases h
  | mag code sign r left =>
    obtain ⟨hcode, hfield⟩ := hp
    rw [UnitPhase.after] at h
    split at h
    · next h1 =>
      subst h1
      obtain rfl := Sum.inr.inj h
      obtain ⟨hlt, hbits⟩ := hfield.last b
      exact ⟨⟨hcode, hlt⟩, by simp [CodeUnit.bits_normal _ _ _ hcode, phaseBits, hbits]⟩
    · cases h
  | raw r left =>
    rw [UnitPhase.after] at h
    split at h
    · next h1 =>
      subst h1
      obtain rfl := Sum.inr.inj h
      obtain ⟨hlt, hbits⟩ := FieldOk.last hp b
      exact ⟨hlt, by rw [CodeUnit.bits_escape, hbits, phaseBits, List.append_assoc]⟩
    · cases h

/-! ### What a phase's bits decode to -/

/-- The first four bits tell the length (R120). -/
theorem unitLength_code {code : Nat} (h : code < 16) (l : List Bool) :
    Laws.unitLength (bitsMsb 4 code ++ l) = if code = 15 then 20 else 6 + code := by
  rw [Laws.unitLength, List.take_left' (length_bitsMsb 4 code), bitsValue_bitsMsb,
    Nat.mod_eq_of_lt (show code < 2 ^ 4 from h)]

theorem six_le_unitLength (bits : List Bool) : 6 ≤ Laws.unitLength bits := by
  unfold Laws.unitLength
  split_ifs <;> omega

/-- A unit that is still read is shorter than its code tells (R120). -/
theorem PhaseOk.length_lt {p : UnitPhase} (hp : PhaseOk p) (l : List Bool) :
    (phaseBits p).length < Laws.unitLength (phaseBits p ++ l) := by
  cases p with
  | code r left =>
    obtain ⟨h1, -, -⟩ := hp
    have h6 := six_le_unitLength (phaseBits (.code r left) ++ l)
    have hlen : (phaseBits (.code r left)).length = 4 - left := length_bitsMsb _ _
    omega
  | sign code =>
    have hcode : code ≤ 14 := hp
    rw [phaseBits, unitLength_code (by omega), if_neg (by omega), length_bitsMsb]
    omega
  | mag code sign r left =>
    obtain ⟨hcode, h1, -, -⟩ := hp
    rw [phaseBits, List.append_assoc, unitLength_code (by omega), if_neg (by omega)]
    simp only [List.length_append, List.length_cons, length_bitsMsb]
    omega
  | raw r left =>
    obtain ⟨h1, -, -⟩ := hp
    rw [phaseBits, List.append_assoc, unitLength_code (by omega), if_pos rfl]
    simp only [List.length_append, length_bitsMsb]
    omega

/-- What decodes as a unit and a rest is as long as both (R120). -/
theorem length_of_decodeUnit {bits rest : List Bool} {i : Instr} (h : decodeUnit bits = .ok (i, rest)) :
    bits.length = Laws.unitLength bits + rest.length := by
  have h4 : 4 ≤ bits.length := by
    by_contra hlt
    simp [decodeUnit, takeBits_of_short 0 (not_le.mp hlt)] at h
  have hle : Laws.unitLength bits ≤ bits.length := by
    by_contra hlt
    rw [Laws.decodeUnit_of_short h4 (not_le.mp hlt)] at h
    cases h
  obtain ⟨u, hfits, hbits⟩ := Laws.exists_unit_of_length h4 hle
  have hdecode := Laws.decodeUnit_bits hfits (bits.drop (Laws.unitLength bits))
  rw [hbits, List.take_append_drop, h] at hdecode
  obtain ⟨-, rfl⟩ : i = u.instr ∧ rest = bits.drop (Laws.unitLength bits) := by simpa using hdecode
  rw [List.length_drop]
  omega

/-- The bits read of a unit that goes on do not make it (R120). -/
theorem PhaseOk.decodeUnit_ne {p : UnitPhase} (hp : PhaseOk p) (i : Instr) (rest : List Bool) :
    decodeUnit (phaseBits p ++ rest) ≠ .ok (i, rest) := fun h => by
  have hlen := length_of_decodeUnit h
  have hlt := hp.length_lt rest
  rw [List.length_append] at hlen
  omega

end Sys2Proof

namespace Sys2Proof.Machine

/-! ### Reading a code unit, bit by bit (R240) -/

/-- Reading goes on where one more bit led. -/
def readAfter (f : Frame) : UnitPhase ⊕ CodeUnit → State → Res CodeUnit
  | .inl phase, s => readUnitFrom f phase s
  | .inr u, s => .ok u s

/-- `DecodeUnit` reads one bit, held at its phase, and goes on where that leads (R183, R240). -/
theorem readUnitFrom_bit (f : Frame) {phase : UnitPhase} (hp : PhaseOk phase) (s : State) :
    readUnitFrom f phase s =
      (needBit (.unit f phase) s).bind fun _ t => readAfter f (phase.after (headBit t)) (dropBit t) := by
  cases phase with
  | code r left =>
    obtain ⟨h1, -, -⟩ := hp
    obtain ⟨n, rfl⟩ := Nat.exists_eq_add_of_le' h1
    simp only [readUnitFrom, readCode, unpackFrom, Res.bind_assoc]
    congr 1
    funext _ t
    cases n with
    | zero => rw [UnitPhase.after, if_pos rfl, unpackFrom, Res.bind_ok]; split <;> rfl
    | succ n => rw [UnitPhase.after, if_neg (by omega)]; rfl
  | sign code =>
    simp only [readUnitFrom, readSign, unpackFrom, Res.bind_assoc, Res.bind_ok, Nat.mul_zero, Nat.zero_add]
    congr 1
    funext _ t
    rw [show (((headBit t).toNat == 1) = headBit t) by cases headBit t <;> rfl]
    rfl
  | mag code sign r left =>
    obtain ⟨-, h1, -, -⟩ := hp
    obtain ⟨n, rfl⟩ := Nat.exists_eq_add_of_le' h1
    simp only [readUnitFrom, readMag, unpackFrom, Res.bind_assoc]
    congr 1
    funext _ t
    cases n with
    | zero => rw [UnitPhase.after, if_pos rfl]; rfl
    | succ n => rw [UnitPhase.after, if_neg (by omega)]; rfl
  | raw r left =>
    obtain ⟨h1, -, -⟩ := hp
    obtain ⟨n, rfl⟩ := Nat.exists_eq_add_of_le' h1
    simp only [readUnitFrom, readRaw, unpackFrom, Res.bind_assoc]
    congr 1
    funext _ t
    cases n with
    | zero => rw [UnitPhase.after, if_pos rfl]; rfl
    | succ n => rw [UnitPhase.after, if_neg (by omega)]; rfl

/-- A bit at hand is taken and reading goes on where it leads. -/
theorem readUnitFrom_cons (f : Frame) {phase : UnitPhase} (hp : PhaseOk phase) {b : Bool} {bits : List Bool} {s : State}
    (hs : sourceBits s = b :: bits) (hc : CanRead 1 s) (hr : s.raced = .none) :
    ∃ t, readUnitFrom f phase s = readAfter f (phase.after b) t ∧ Reads [b] s t ∧ sourceBits t = bits := by
  obtain ⟨u, hu, hread⟩ := nextBit_ok (.unit f phase) hc hr
  obtain ⟨-, hbits, -⟩ := id hread
  obtain ⟨rfl, rfl⟩ : b = headBit u ∧ bits = sourceBits (dropBit u) := by simpa [hs] using hbits
  exact ⟨dropBit u, by rw [readUnitFrom_bit f hp, hu, Res.bind_ok], hread, rfl⟩

/-- The unit that the bits read and those at hand decode to is the one `DecodeUnit` reads (R240). -/
theorem readUnitFrom_ok (f : Frame) {i : Instr} {bits rest : List Bool} {phase : UnitPhase} {s : State}
    (hp : PhaseOk phase) (hs : sourceBits s = bits ++ rest)
    (hd : decodeUnit (phaseBits phase ++ sourceBits s) = .ok (i, rest)) (hc : CanRead bits.length s)
    (hr : s.raced = .none) :
    ∃ u t, readUnitFrom f phase s = .ok u t ∧ u.instr = i ∧ Reads bits s t := by
  induction bits generalizing phase s with
  | nil =>
    rw [hs] at hd
    exact absurd hd (hp.decodeUnit_ne i rest)
  | cons b bits ih =>
    rw [List.length_cons, Nat.add_comm] at hc
    obtain ⟨t, ht, hread, hrest⟩ := readUnitFrom_cons f hp hs hc.fst hr
    rw [hs, List.cons_append, List.append_cons] at hd
    rw [ht]
    cases hafter : phase.after b with
    | inl q =>
      obtain ⟨hq, hbits⟩ := hp.after_inl hafter
      rw [← hbits, show bits ++ rest = sourceBits t from hrest.symm] at hd
      obtain ⟨u, v, hv, hi, hreads⟩ := ih hq hrest hd (CanRead.snd (x := [b]) hc hread) (hread.raced.trans hr)
      exact ⟨u, v, hv, hi, hread.trans hreads⟩
    | inr u =>
      obtain ⟨hfits, hbits⟩ := hp.after_inr hafter
      rw [← hbits, Laws.decodeUnit_bits hfits] at hd
      obtain ⟨rfl, hnil⟩ : u.instr = i ∧ bits = [] := by simpa using hd
      exact ⟨u, t, rfl, rfl, hnil ▸ hread⟩

/-- Where the bits read and those at hand are no whole unit, `DecodeUnit` reads them all and fetches a byte at the phase
they lead to (R240). -/
theorem readUnitFrom_short (f : Frame) {phase : UnitPhase} {s : State} (hp : PhaseOk phase)
    (hd : decodeUnit (phaseBits phase ++ sourceBits s) = .error .unitTruncated)
    (hc : CanRead (sourceBits s).length s) (hr : s.raced = .none) :
    ∃ phase' u k, phaseBits phase' = phaseBits phase ++ sourceBits s ∧ PhaseOk phase' ∧ Reads (sourceBits s) s u ∧
      readUnitFrom f phase s = (brFetch (.unit f phase') u).bind k := by
  obtain ⟨bits, hs⟩ : ∃ bits, sourceBits s = bits := ⟨_, rfl⟩
  rw [hs] at hd hc ⊢
  induction bits generalizing phase s with
  | nil =>
    have hused : s.br.used = 0#4 := Reads.used_of_all (hs.symm ▸ Reads.refl s)
    exact ⟨phase, s, _, (List.append_nil _).symm, hp, Reads.refl s, by
      rw [readUnitFrom_bit f hp, needBit, if_pos hused, Res.bind_assoc]⟩
  | cons b bits ih =>
    rw [List.length_cons, Nat.add_comm] at hc
    obtain ⟨t, ht, hread, hrest⟩ := readUnitFrom_cons f hp hs hc.fst hr
    rw [List.append_cons] at hd
    rw [ht]
    cases hafter : phase.after b with
    | inl q =>
      obtain ⟨hq, hbits⟩ := hp.after_inl hafter
      rw [← hbits] at hd
      obtain ⟨q', u, k, hq', hok, hreads, hk⟩ :=
        ih hq (hread.raced.trans hr) (CanRead.snd (x := [b]) hc hread) hd hrest
      exact ⟨q', u, k, by rw [hq', hbits, ← List.append_cons], hok, hread.trans hreads, hk⟩
    | inr u =>
      obtain ⟨hfits, hbits⟩ := hp.after_inr hafter
      rw [← hbits, Laws.decodeUnit_bits hfits] at hd
      cases hd

end Sys2Proof.Machine
end

section
/-! ## The end of the stream inside a command (R211, R214, R264, R302, R305) -/

namespace Sys2Proof

open Sys2Proof.Machine

/-- A stream that ends still does so after some of its bytes were delivered (R211). -/
theorem StreamEnds.moved {k : Nat} {s t : State} (h : StreamEnds s) (hk : k ≤ (streamBytes s).length)
    (hst : t.st = StreamRegs.moved k s.st) (hp : t.plat = s.plat) (hch : t.chunk = s.chunk) : StreamEnds t := by
  have hsize := s.st.size.isLt
  unfold StreamEnds StreamOk at *
  unfold streamBytes at hk
  cases hkind : s.st.kind <;> simp only [hkind, hst, hp, hch, StreamRegs.moved_kind] at h hk ⊢
  · rw [length_memoryBytes] at hk
    simp only [StreamRegs.moved_pos, StreamRegs.moved_size]
    bv_omega
  · obtain ⟨⟨hpos, hidx, hfill⟩, hlen, hends⟩ := h
    simp only [List.length_take, List.length_drop] at hk
    simp only [StreamRegs.moved_of_chunk _ hkind]
    have hpos' : (s.st.pos + BitVec.ofNat 32 k).toNat = s.st.pos.toNat + k := by bv_omega
    have hidx' : (s.st.idx + BitVec.ofNat 17 k).toNat = s.st.idx.toNat + k := by bv_omega
    rw [hpos', hidx']
    omega

theorem sourceBytes_of_stream {s : State} (hm : s.br.mode = .stream) : sourceBytes s = streamBytes s := by
  simp only [sourceBytes, hm]

/-- A stream that ends still does so after a STREAM unpacker read bits of it (R182, R211). -/
theorem StreamEnds.reads {bits : List Bool} {s t : State} (h : StreamEnds s) (hm : s.br.mode = .stream)
    (hread : Reads bits s t) : StreamEnds t := by
  have hlen := hread.length_sourceBytes
  obtain ⟨hframe, -, -, -, -, -, -, hst, -⟩ := hread
  rw [if_pos hm] at hst
  rw [sourceBytes_of_stream hm] at hlen
  exact h.moved (by omega) hst (by rw [hframe]) (by rw [hframe])

namespace Machine

/-- ERR_INFO of a fault in a loop is the index, unless it is BusError (R305). -/
theorem Res.indexed_raise {α : Type} (i : Word) {c : Cause} (info : Word) (s : State) (hc : c ≠ .busError) :
    (Res.raise c info s : Res α).indexed i = .raise c i s := by rw [Res.indexed, if_neg hc]

/-! ### ST_GET and ST_GET16 -/

theorem stGet_exhausted {s : State} (h : Exhausted s) :
    exec .stGet s = .next (faultEntry .streamExhausted 0x42 0#32 (spoilGet s)) := by
  rw [exec, execStGet, streamGet_exhausted _ h, endGet, conclude_raise]

theorem stGet16_exhausted {s : State} (h : Exhausted s) :
    exec .stGet16 s = .next (faultEntry .streamExhausted 0x43 0#32 (spoilGet s)) := by
  rw [exec, execStGet16, streamGet_exhausted _ h, Res.bind_raise, endGet16, conclude_raise]

/-- ST_GET16 with one byte left: the byte is delivered, and the second StreamGet raises (R214). -/
theorem stGet16_exhausted_second {s : State} (hends : StreamEnds s) (h1 : (streamBytes s).length = 1)
    (hc : CanGet 1 s) (hr : s.raced = .none) :
    ∃ b u, exec .stGet16 s = .next (faultEntry .streamExhausted 0x43 0#32 (spoilGet u)) ∧ Gets [b] s u := by
  obtain ⟨lo, hs⟩ := List.length_eq_one_iff.mp h1
  obtain ⟨t, ht, hget, hst⟩ := streamGet_last .get16Lo hs hc hr
  refine ⟨lo, t, ?_, hget⟩
  rw [exec, execStGet16, ht, Res.bind_ok, get16Second, streamGet_exhausted _ (exhausted_after hends hst),
    Res.bind_raise, endGet16, conclude_raise]

/-! ### A sample whose source ends -/

section
variable {f : Frame} {s : State}

/-- A code unit's reading raises where the stream ends inside the unit (R240). -/
theorem readUnit_exhausted (f : Frame) (hm : s.br.mode = .stream) (hends : StreamEnds s)
    (hd : decodeUnit (sourceBits s) = .error .unitTruncated) (hc : CanRead (sourceBits s).length s)
    (hr : s.raced = .none) : ∃ u, readUnit f s = .raise .streamExhausted 0#32 u ∧ u.mem = s.mem := by
  obtain ⟨phase, u, k, -, -, hread, hk⟩ :=
    readUnitFrom_short f (phase := .code 0 4) (fieldOk_zero (by decide)) hd hc hr
  refine ⟨u, ?_, hread.mem⟩
  rw [readUnit, hk, brFetch_exhausted _ (by rw [SourceEnds, hm]; exact hends) hread, Res.bind_raise]

/-- A raw sample raises where the stream ends before either of its bytes (R214, R264). -/
theorem rawSample_exhausted (f : Frame) (hends : StreamEnds s) (h2 : (streamBytes s).length < 2)
    (hc : CanGet (streamBytes s).length s) (hr : s.raced = .none) :
    ∃ u, rawSample f s = .raise .streamExhausted 0#32 u ∧ u.mem = s.mem := by
  match hs : streamBytes s, h2 with
  | [], _ => exact ⟨s, by rw [rawSample, streamGet_exhausted _ (hends.exhausted hs), Res.bind_raise], rfl⟩
  | [lo], _ =>
    rw [hs] at hc
    obtain ⟨t, ht, hget, hst⟩ := streamGet_last (.sampleLo f) hs hc hr
    refine ⟨t, ?_, hget.mem⟩
    rw [rawSample, ht, Res.bind_ok, rawSampleSecond, streamGet_exhausted _ (exhausted_after hends hst), Res.bind_raise]

/-- The current sample's source ends inside its code unit or its raw value. -/
def SampleTruncated (f : Frame) (s : State) : Prop :=
  (f.isRaw s = false ∧ s.br.mode = .stream ∧ StreamEnds s ∧ UnpackerOk s.br ∧
      decodeUnit (sourceBits s) = .error .unitTruncated ∧ CanRead (sourceBits s).length s) ∨
    (f.isRaw s = true ∧ StreamEnds s ∧ (streamBytes s).length < 2 ∧ CanGet (streamBytes s).length s)

/-- A sample whose source ends inside it is a fault with its index, and memory is as before it (R305, R307). -/
theorem sampleStep_exhausted (h : SampleTruncated f s) (hr : s.raced = .none) :
    ∃ u, sampleStep f s = faultEntry .streamExhausted f.op f.i u ∧ u.mem = s.mem := by
  rcases h with ⟨hraw, hm, hends, -, hd, hc⟩ | ⟨hraw, hends, h2, hc⟩
  · obtain ⟨u, hu, hmem⟩ := readUnit_exhausted f hm hends hd hc hr
    refine ⟨spoilDecode f u, ?_, (spoilDecode_mem f u).trans hmem⟩
    rw [sampleStep, if_neg (by simp [hraw]), hu, endUnit, Res.indexed_raise _ _ _ (by decide), conclude_raise]
  · obtain ⟨u, hu, hmem⟩ := rawSample_exhausted f hends h2 hc hr
    refine ⟨spoilDecode f u, ?_, (spoilDecode_mem f u).trans hmem⟩
    rw [sampleStep, if_pos hraw, hu, endSample, Res.indexed_raise _ _ _ (by decide), conclude_raise]

end

end Machine

end Sys2Proof
end

section
/-! ## EXP_EXPAND and EXP_EXPAND2 over a stream (R264 to R266) -/

namespace Sys2Proof.Machine

/-! ### The commands' frames -/

/-- Instruction `i` is EXP_EXPAND, or EXP_EXPAND2 with a legal volume, and runs the loop of frame `f` (R265, R266). -/
def ExpandsBy (i : Instr) (f : Frame) (s : State) : Prop :=
  (i = .expExpand ∧ f = expandFrame s.args) ∨
    (i = .expExpand2 ∧ f = expand2Frame s.args ∧ s.args.arg2.toNat ≤ 65536)

section
variable {i : Instr} {f : Frame} {s : State}

theorem ExpandsBy.n (h : ExpandsBy i f s) : f.n = s.args.arg1 := by
  rcases h with ⟨-, rfl⟩ | ⟨-, rfl, -⟩ <;> rfl

theorem ExpandsBy.index (h : ExpandsBy i f s) : f.i = 0#32 := by
  rcases h with ⟨-, rfl⟩ | ⟨-, rfl, -⟩ <;> rfl

theorem ExpandsBy.address (h : ExpandsBy i f s) : f.address = s.args.arg0 := by
  rcases h with ⟨-, rfl⟩ | ⟨-, rfl, -⟩ <;> simp [Frame.address, expandFrame, expand2Frame]

/-- An expansion has no shift and no format of its own: both are the session's (R264). -/
theorem ExpandsBy.cmd (h : ExpandsBy i f s) (sh : Nat) : f.cmd ≠ .lexpand sh := by
  rcases h with ⟨-, rfl⟩ | ⟨-, rfl, -⟩ <;> simp [expandFrame, expand2Frame]

theorem ExpandsBy.isRaw (h : ExpandsBy i f s) (t : State) : f.isRaw t = (t.exp.format == 0#1) := by
  rcases h with ⟨-, rfl⟩ | ⟨-, rfl, -⟩ <;> rfl

theorem ExpandsBy.shift (h : ExpandsBy i f s) (t : State) : f.shift t = t.exp.shift.toNat := by
  rcases h with ⟨-, rfl⟩ | ⟨-, rfl, -⟩ <;> rfl

theorem ExpandsBy.output (h : ExpandsBy i f s) : f.output = ⟨s.args.arg0, f.stride * s.args.arg1.toNat⟩ := by
  rcases h with ⟨-, rfl⟩ | ⟨-, rfl, -⟩ <;> rfl

/-- Past its argument checks the command is its loop (R265, R266). -/
theorem exec_expand (h : ExpandsBy i f s) (hn : s.args.arg1.toNat ≤ s.remaining) :
    exec i s = .next (runDecode f (expandStart f s)) := by
  rcases h with ⟨rfl, rfl⟩ | ⟨rfl, rfl, hvol⟩
  · rw [exec, execExpExpand, if_neg (by omega)]
  · rw [exec, execExpExpand2, if_neg (by omega), if_neg (by omega)]

/-- Without overlapping buffers the command starts from the state as it is (R91). -/
theorem expandStart_of_apart (f : Frame) (h : (undelivered s).meets f.output = false) : expandStart f s = s := by
  rw [expandStart, h, Races.overlapped_false]

theorem exec_expand_apart (h : ExpandsBy i f s) (hn : s.args.arg1.toNat ≤ s.remaining)
    (hap : (undelivered s).meets f.output = false) :
    exec i s = .next (runSamples s.args.arg1.toNat (beginSample f s)) := by
  rw [exec_expand h hn, expandStart_of_apart f hap, runDecode, h.n]

/-- An expansion completes with EXP_POS in RESULT (R265). -/
theorem completeDecode_expand {g : Frame} {t : State} (hc : ∀ sh, g.cmd ≠ .lexpand sh) (hr : t.raced = .none) :
    completeDecode g t = { t with result := t.exp.pos, task := .idle } := by
  unfold completeDecode
  split
  · next sh hsh => exact absurd hsh (hc sh)
  · simp [State.setReturned, State.finish, hr]

/-- EXP_POS after `k` samples of an expansion (R261). -/
theorem expAfter_pos {cmd : DecodeCmd} (hc : ∀ sh, cmd ≠ .lexpand sh) (k : Nat) (e : ExpanderRegs) :
    (expAfter cmd k e).pos = e.pos + BitVec.ofNat 32 k := by
  cases cmd with
  | lexpand sh => exact absurd rfl (hc sh)
  | expand | expand2 => cases k <;> simp [expAfter]

end

/-- Settles O52: the argument checks pass, and the loop takes one raw sample after the other. -/
theorem expandFormat0 : Obligations.ExpandFormat0 := by
  intro bytes rest s f i (h : ExpandsBy i f s) hformat hr hm hlen hn hs hc hadm hap
  have hraw : f.isRaw s = true := by rw [h.isRaw, hformat]; rfl
  obtain ⟨m, -, hst, hrun⟩ := rawLoop_ok s.args.arg1.toNat bytes hlen f (by rw [h.index, h.n]; simp) rest hs
    (hlen ▸ hc) hraw (by rw [h.address, ← h.output]; exact hadm)
    (fun a ha => by rw [h.address, ← h.output]; exact Span.not_meets hap ha) hr hm
  rw [h.address] at hst
  refine ⟨m, hst, ?_⟩
  rw [exec_expand_apart h hn hap, hrun, completeDecode_expand (g := { f with i := f.n }) h.cmd,
    expAfter_pos h.cmd, hlen, BitVec.ofNat_toNat, BitVec.setWidth_eq]
  exact hr

/-! ### One sample of a code unit in the loop -/

/-- Where the frame's samples from the current one on are stored (R88). -/
def Frame.ahead (f : Frame) : Span := ⟨f.address, f.stride * (f.n.toNat - f.i.toNat)⟩

section
variable {f : Frame} {s : State}

/-- What the current sample takes, and what is ahead after it, lie in what is ahead. -/
theorem Frame.ahead_split (h : f.i.toNat < f.n.toNat) :
    f.ahead = ⟨f.address, f.stride + f.next.ahead.size⟩ ∧
      f.next.ahead.base = f.address + BitVec.ofNat 32 f.stride := by
  have hi := Frame.next_i_toNat h
  have hstride : f.next.stride = f.stride := rfl
  have hn : f.next.n = f.n := rfl
  constructor
  · rw [Frame.ahead, Frame.ahead, hi, hstride, hn, Nat.add_comm, ← Nat.mul_succ]
    congr 2
    omega
  · show f.next.address = _
    rw [Frame.address, hi, hstride, Nat.mul_add, Nat.mul_one, BitVec.ofNat_add, ← BitVec.add_assoc]
    rfl

theorem Frame.ahead_of_output (h : f.i.toNat < f.n.toNat) {a : Word}
    (ha : (Span.mk f.address f.stride).has a = true) : f.ahead.has a = true := by
  rw [(Frame.ahead_split h).1]
  exact Span.has_of_sub _ _ 0 f.stride a (by omega) (by simpa using ha)

theorem Frame.ahead_of_next (h : f.i.toNat < f.n.toNat) {a : Word} (ha : f.next.ahead.has a = true) :
    f.ahead.has a = true := by
  obtain ⟨hsplit, hbase⟩ := Frame.ahead_split h
  rw [hsplit]
  refine Span.has_of_sub _ _ f.stride f.next.ahead.size a (le_refl _) ?_
  rw [← hbase]
  exact ha

/-- A decoding command about to read the bits `bits` of code units, which its output leaves alone (R91). -/
structure UnitsAhead (f : Frame) (bits : List Bool) (s : State) : Prop where
  raw : f.isRaw s = false
  source : sourceBits s = bits
  read : CanRead bits.length s
  raced : s.raced = .none
  wf : s.mem.wf = true
  admitted : Admitted s.plat .write f.ahead
  apart : ∀ a, (sourceSpan s).has a = true → f.ahead.has a = false

/-- The state after a sample whose unit was read into `t`: stored, in the Context, counted (R232, R261). -/
def afterUnit (x : Int) (f : Frame) (m : Memory) (t : State) : State :=
  { t with mem := m, ctx := t.ctx.push x, exp := expAfter f.cmd 1 t.exp }

theorem afterUnit_ctx {bits : List Bool} {t : State} (h : Reads bits s t) (x : Int) (f : Frame) (m : Memory) :
    (afterUnit x f m t).ctx = s.ctx.push x := by rw [afterUnit, h.1]

/-- The shift is the command's or the session's, and a sample changes neither (R264). -/
theorem afterUnit_shift {bits : List Bool} {t : State} (h : Reads bits s t) (x : Int) (f : Frame) (m : Memory) :
    f.next.shift (afterUnit x f m t) = f.shift s := by
  rw [afterUnit, h.1]
  unfold Frame.shift
  cases hcmd : f.cmd <;> simp [expAfter, Frame.next, hcmd]

/-- A sample whose unit is at hand and in range is read and stored (R240, R265, R266). -/
theorem UnitsAhead.sampleStep_ok {u : CodeUnit} {rest : List Bool} (h : UnitsAhead f (u.bits ++ rest) s)
    (hu : u.Fits) (hx : inSampleRange (unitSample u s.ctx) (f.shift s) = true) (hi : f.i.toNat < f.n.toNat) :
    ∃ m v, Reads u.bits s v ∧
      Stores f.address (sampleOutput f.cmd (unitSample u s.ctx * 2 ^ f.shift s)) v { v with mem := m } ∧
      sampleStep f s = nextSample f (afterUnit (unitSample u s.ctx) f m v) := by
  obtain ⟨hraw, hs, hc, hr, hm, hadm, -⟩ := h
  rw [List.length_append] at hc
  obtain ⟨v, hv, hread⟩ := readUnit_ok f rest hu hs hc.fst hr
  have hctx : v.ctx = s.ctx := by rw [hread.1]
  have hshift : f.shift v = f.shift s := by rw [hread.1]; rfl
  obtain ⟨m, hacc, hst⟩ := acceptSample_ok (unitSample u s.ctx) f (s := v) (by rw [hshift]; exact hx)
    (by rw [hread.1]; exact fun a ha => hadm a (Frame.ahead_of_output hi ha)) (hread.raced.trans hr) (hread.mem ▸ hm)
  refine ⟨m, v, hread, hshift ▸ hst, ?_⟩
  rw [sampleStep, if_neg (by simp [hraw]), endUnit, hv, Res.indexed_ok, conclude_ok, hctx, runSample, hacc, endSample,
    Res.indexed_ok, conclude_ok, afterUnit]

/-- After a sample the units behind it are ahead (R91, R240). -/
theorem UnitsAhead.next {x : Int} {bits rest : List Bool} {m : Memory} {bytes : List Byte} {v : State}
    (h : UnitsAhead f (bits ++ rest) s) (hread : Reads bits s v) (hlen : bytes.length = f.stride)
    (hst : Stores f.address bytes v { v with mem := m }) (hi : f.i.toNat < f.n.toNat) :
    UnitsAhead f.next rest (afterUnit x f m v) := by
  obtain ⟨hraw, hs, hc, hr, -, hadm, hap⟩ := h
  obtain ⟨hframe, hbits, -⟩ := id hread
  obtain ⟨-, hwf, -, hout⟩ := hst
  rw [List.length_append] at hc
  have hrest : sourceBits v = rest := List.append_cancel_left (hbits.symm.trans hs)
  have hsource : sourceBits (afterUnit x f m v) = sourceBits v :=
    sourceBits_congr rfl rfl rfl fun a ha => hout a <| Bool.eq_false_iff.mpr fun hin =>
      Bool.eq_false_iff.mp (hap a (hread.sourceSpan_sub ha)) (Frame.ahead_of_output hi (hlen ▸ hin))
  refine ⟨?_, hsource.trans hrest, CanRead.congr (s := v) rfl rfl rfl hsource (CanRead.snd hc hread),
    hread.raced.trans hr, hwf, ?_, fun a ha => ?_⟩
  · have hformat : (expAfter f.cmd 1 v.exp).format = s.exp.format := by rw [hframe]; cases f.cmd <;> rfl
    unfold Frame.isRaw at *
    rw [afterUnit, hformat]
    exact hraw
  · show Admitted v.plat .write f.next.ahead
    rw [hframe]
    exact fun a ha => hadm a (Frame.ahead_of_next hi ha)
  · exact Bool.eq_false_iff.mpr fun hin =>
      Bool.eq_false_iff.mp (hap a (hread.sourceSpan_sub ha)) (Frame.ahead_of_next hi hin)

end

/-! ### A stream that ends inside a sample of the loop -/

/-- The loop at a sample that is not its last: that sample's step, and the loop from there. -/
theorem runSamples_beginSample {f : Frame} (k : Nat) {s : State} (hi : f.i.toNat < f.n.toNat) :
    runSamples (k + 1) (beginSample f s) = runSamples k (sampleStep f { s with task := .sample f }) := by
  rw [beginSample, if_neg fun e => by rw [e] at hi; omega, runSamples]

/-- Once the command has ended the loop does nothing more. -/
theorem runSamples_idle (k : Nat) {s : State} (h : s.task = .idle) : runSamples k s = s := by
  cases k with
  | zero => rfl
  | succ k => rw [runSamples, h]

theorem length_unitSamples (c : ContextRegs) (us : List CodeUnit) : (unitSamples c us).length = us.length := by
  induction us generalizing c with
  | nil => rfl
  | cons u us ih => rw [unitSamples, List.length_cons, ih, List.length_cons]

/-- The outputs of some samples fill their strides (R88). -/
theorem length_outputs (f : Frame) (y : Int → Int) (xs : List Int) :
    (xs.flatMap fun x => sampleOutput f.cmd (y x)).length = f.stride * xs.length := by
  simp [List.length_flatMap, length_sampleOutput f, Nat.mul_comm]

/-- Storing bytes changes no register, so it is the same from every state with that memory (R83). -/
theorem stores_transport {a : Word} {bytes : List Byte} {s s' : State} {m : Memory}
    (h : Stores a bytes s { s with mem := m }) (hm : s'.mem = s.mem) : Stores a bytes s' { s' with mem := m } := by
  obtain ⟨-, hwf, hbytes, hout⟩ := h
  exact ⟨rfl, hwf, hbytes, fun x hx => (hout x hx).trans (congrArg (Memory.read · x.toNat) hm.symm)⟩

theorem stores_nil (a : Word) {s : State} {m : Memory} (hm : m = s.mem) (hwf : s.mem.wf = true) :
    Stores a [] s { s with mem := m } := by
  subst hm
  exact Stores.refl a hwf

/-- `t` is a StreamExhausted in the loop of frame `f` from `s` on: it carries the index `i`, and the bytes stored before
it, `bytes` from `a` on, stay (R305, R307). -/
structure ExhaustedAt (i : Word) (a : Word) (bytes : List Byte) (f : Frame) (s t : State) : Prop where
  fault : t.fault = true
  err : t.err = { cause := 2#8, op := BitVec.ofNat 8 f.op, info := i }
  task : t.task = .idle
  stores : Stores a bytes s { s with mem := t.mem }

/-- A sample was stored before the fault. -/
theorem ExhaustedAt.cons {i : Word} {y : Int} {bytes : List Byte} {f : Frame} {s u t : State}
    (h : ExhaustedAt i f.next.address bytes f.next u t) (hi : f.i.toNat < f.n.toNat)
    (hst : Stores f.address (sampleOutput f.cmd y) s { s with mem := u.mem })
    (hlen : f.stride + bytes.length ≤ 4294967296) :
    ExhaustedAt i f.address (sampleOutput f.cmd y ++ bytes) f s t := by
  obtain ⟨hf, he, ht, hrest⟩ := h
  have haddr : f.next.address = f.address + BitVec.ofNat 32 f.stride := (Frame.ahead_split hi).2
  rw [haddr, ← length_sampleOutput f y] at hrest
  exact ⟨hf, he, ht, Stores.trans (by rw [length_sampleOutput]; exact hlen) hst
    (stores_transport (s' := { s with mem := u.mem }) hrest rfl)⟩

/-- Holding a task, the command has the same units ahead. -/
theorem UnitsAhead.withTask {f : Frame} {bits : List Bool} {s : State} (h : UnitsAhead f bits s) (task : Task) :
    UnitsAhead f bits { s with task := task } := by
  obtain ⟨hraw, hs, hc, hr, hwf, hadm, hap⟩ := h
  exact ⟨hraw, hs, hc, hr, hwf, hadm, hap⟩

/-- The loop over code units in range whose stream ends inside the unit after them: their samples are stored, and
StreamExhausted is raised with the index of that unit (R240, R264, R305). -/
theorem runSamples_exhausted (us : List CodeUnit) {rest : List Bool} {f : Frame} {s : State} (k : Nat)
    (h : UnitsAhead f (unitsBits us ++ rest) s) (hm : s.br.mode = .stream) (hends : StreamEnds s) (hok : UnpackerOk s.br)
    (hfit : ∀ u ∈ us, u.Fits) (hx : ∀ x ∈ unitSamples s.ctx us, inSampleRange x (f.shift s) = true)
    (hn : f.i.toNat + us.length < f.n.toNat) (hd : decodeUnit rest = .error .unitTruncated) :
    ExhaustedAt (f.i + BitVec.ofNat 32 us.length) f.address
      ((unitSamples s.ctx us).flatMap fun x => sampleOutput f.cmd (x * 2 ^ f.shift s)) f s
      (runSamples (us.length + (k + 1)) (beginSample f s)) := by
  have hi : f.i.toNat < f.n.toNat := by omega
  induction us generalizing f s with
  | nil =>
    obtain ⟨hraw, hs, hc, hr, hwf, -, -⟩ := h
    rw [unitsBits_nil, List.nil_append] at hs hc
    subst hs
    obtain ⟨u, hu, hmem⟩ := sampleStep_exhausted (s := { s with task := .sample f })
      (.inl ⟨hraw, hm, hends, hok, hd, hc⟩) hr
    rw [List.length_nil, Nat.zero_add, runSamples_beginSample k hi, hu, runSamples_idle k rfl, BitVec.add_zero]
    exact ⟨rfl, rfl, rfl, stores_nil _ hmem hwf⟩
  | cons u us ih =>
    rw [unitsBits_cons, List.append_assoc] at h
    rw [unitSamples] at hx ⊢
    obtain ⟨m, v, hread, hst, hstep⟩ :=
      (h.withTask (.sample f)).sampleStep_ok (hfit u List.mem_cons_self) (hx _ List.mem_cons_self) hi
    obtain ⟨-, -, hmode, -, -, -, -, -, hok'⟩ := id hread
    have hvends : StreamEnds v := StreamEnds.reads (s := { s with task := .sample f }) hends hm hread
    have hahead := (h.withTask (.sample f)).next (x := unitSample u s.ctx) hread (length_sampleOutput f _) hst hi
    have hnext := Frame.next_i_toNat hi
    rw [List.length_cons] at hn
    have hctx : (afterUnit (unitSample u s.ctx) f m v).ctx = s.ctx.push (unitSample u s.ctx) := afterUnit_ctx hread _ _ _
    have hshift : f.next.shift (afterUnit (unitSample u s.ctx) f m v) = f.shift s := afterUnit_shift hread _ _ _
    have hrest := ih hahead (hmode.trans hm) hvends (hok' hok)
      (fun w hw => hfit w (List.mem_cons_of_mem _ hw))
      (by rw [hctx, hshift]; exact fun x hxx => hx x (List.mem_cons_of_mem _ hxx))
      (by rw [hnext]; show _ < f.n.toNat; omega) (by rw [hnext]; show _ < f.n.toNat; omega)
    rw [hctx, hshift] at hrest
    have hindex : f.next.i + BitVec.ofNat 32 us.length = f.i + BitVec.ofNat 32 (us.length + 1) := by
      rw [Nat.add_comm us.length, BitVec.ofNat_add, ← BitVec.add_assoc]; rfl
    rw [hindex] at hrest
    rw [List.length_cons, Nat.add_right_comm, runSamples_beginSample _ hi, hstep, List.flatMap_cons]
    refine hrest.cons hi (stores_transport hst hread.mem.symm) ?_
    have hsize := h.admitted.size_lt
    have hcount := Nat.mul_le_mul_left f.stride (show us.length.succ ≤ f.n.toNat - f.i.toNat by omega)
    have hstride : f.next.stride = f.stride := rfl
    rw [length_outputs, length_unitSamples, hstride, Nat.add_comm, ← Nat.mul_succ]
    omega

end Sys2Proof.Machine
end

section
/-! ## The stream ends (R211, R214, R264) -/

namespace Sys2Proof.Machine

/-- Bytes delivered from a stream show in its position and its buffer only (R211). -/
theorem StreamRegs.moved_frame (k : Nat) (t : StreamRegs) :
    StreamRegs.moved k t = { t with
      pos := (StreamRegs.moved k t).pos, fill := (StreamRegs.moved k t).fill, idx := (StreamRegs.moved k t).idx } := by
  unfold StreamRegs.moved
  split <;> rfl

/-- The output of an expansion that begins is ahead of it (R91). -/
theorem ExpandsBy.ahead {i : Instr} {f : Frame} {s : State} (h : ExpandsBy i f s) : f.ahead = f.output := by
  rw [h.output, Frame.ahead, h.address, h.n, h.index, BitVec.toNat_ofNat, Nat.zero_mod, Nat.sub_zero]

/-- An expansion whose stream ends inside the code unit of sample `us.length` (R264, R305). -/
theorem exec_expand_exhausted {i : Instr} {f : Frame} {s : State} (us : List CodeUnit) {rest : List Bool}
    (h : ExpandsBy i f s) (hahead : UnitsAhead f (unitsBits us ++ rest) s) (hap : (undelivered s).meets f.output = false)
    (hm : s.br.mode = .stream) (hends : StreamEnds s) (hok : UnpackerOk s.br) (hlt : us.length < s.args.arg1.toNat)
    (hn : s.args.arg1.toNat ≤ s.remaining) (hfit : ∀ u ∈ us, u.Fits)
    (hx : ∀ x ∈ unitSamples s.ctx us, inSampleRange x (f.shift s) = true)
    (hd : decodeUnit rest = .error .unitTruncated) :
    ∃ t, exec i s = .next t ∧ ExhaustedAt (BitVec.ofNat 32 us.length) f.address
      ((unitSamples s.ctx us).flatMap fun x => sampleOutput f.cmd (x * 2 ^ f.shift s)) f s t := by
  obtain ⟨k, hk⟩ := Nat.exists_eq_add_of_lt hlt
  have hindex : f.i.toNat + us.length < f.n.toNat := by rw [h.index, h.n]; simpa using hlt
  have hrun := runSamples_exhausted us k hahead hm hends hok hfit hx hindex hd
  rw [h.index, BitVec.zero_add] at hrun
  exact ⟨_, by rw [exec_expand_apart h hn hap, hk, Nat.add_assoc], hrun⟩

/-- Settles O34, over the samples that are stored before the stream ends. -/
theorem stGetExhausted : Obligations.StGetExhausted := by
  refine ⟨fun s h => ?_, fun s hends h1 hc hr => ?_, fun s f ht hh hr h => ?_, ?_⟩
  · exact ⟨⟨_, stGet_exhausted h, faultEntry_spoilGet .streamExhausted 0x42 s⟩,
      ⟨_, stGet16_exhausted h, faultEntry_spoilGet .streamExhausted 0x43 s⟩⟩
  · obtain ⟨b, u, hu, ⟨hframe, -⟩⟩ := stGet16_exhausted_second hends h1 hc hr
    refine ⟨_, hu, ?_⟩
    rw [hframe, StreamRegs.moved_frame]
    rfl
  · obtain ⟨u, hu, hmem⟩ := sampleStep_exhausted h hr
    exact ⟨faultEntry .streamExhausted f.op f.i u, by rw [step_sample ht hh, hu], rfl, rfl, hmem, rfl, rfl⟩
  · intro us rest s f i xs h hformat hm hends hok hr hwf hlt hn hfit hs hd hc hx hadm hap
    have h : ExpandsBy i f s := h
    have hshift : f.shift s = s.exp.shift.toNat := h.shift s
    have hahead : UnitsAhead f (unitsBits us ++ rest) s := by
      refine ⟨?_, hs, hs ▸ hc, hr, hwf, h.ahead ▸ hadm, fun a ha => ?_⟩
      · rw [h.isRaw, hformat]; rfl
      · rw [h.ahead]
        refine Span.not_meets hap ?_
        simpa only [sourceSpan, hm] using ha
    obtain ⟨t, ht, hfault, herr, htask, hst⟩ := exec_expand_exhausted us h hahead hap hm hends hok hlt hn hfit
      (fun x hxx => by obtain ⟨hlo, hhi⟩ := hx x hxx; simp [inSampleRange, hshift, hlo, hhi]) hd
    rw [h.address, hshift] at hst
    exact ⟨t, ht, hfault, herr, htask, hst⟩

end Sys2Proof.Machine
end

section
/-! ## The answer to a refill (R212, R213) -/

namespace Sys2Proof.Machine

/-! ### The byte of the new chunk -/

theorem streamResume_overrun {k : Word} {s : State} (h : s.refill.max.toNat < k.toNat) :
    streamResume k s = .raise .refillOverrun 0#32 s := if_pos h

/-- An answer within REFILL_MAX delivers CHUNK[0] (R212). -/
theorem streamResume_ok {k : Word} {s : State} (h0 : k ≠ 0#32) (hmax : k.toNat ≤ s.refill.max.toNat) :
    streamResume k s = .ok (s.chunk.getD 0 0#8) (refilled k s) := by
  rw [streamResume, if_neg (by omega), if_neg h0]
  rfl

/-- The unpacker counts a byte it takes (R182). -/
theorem loadByte_eq_loaded (b : Byte) {s : State} (h : s.br.consumed ≠ 0xFFFFFFFF#32) : loadByte b s = loaded b s := by
  rw [loadByte, countFetch, if_neg h, loaded]

/-! ### The fault answers -/

/-- Where the refill's byte is refused, the command ends with that fault (R213, R305), whatever it was held for. -/
theorem fetchResumed_raise {c : Cause} {k : Word} (p : HoldPoint) {s : State} (h : streamResume k s = .raise c 0#32 s)
    (hc : c ≠ .busError) :
    ∃ u, u.mem = s.mem ∧ fetchResumed k p s = .settled (faultEntry c (pointOp p) (pointIndex p) u) := by
  cases p with
  | get => exact ⟨spoilGet s, rfl, by rw [fetchResumed, h, endGet, conclude_raise]; rfl⟩
  | get16Lo | get16Hi lo =>
    exact ⟨spoilGet s, rfl, by rw [fetchResumed, h, Res.bind_raise, endGet16, conclude_raise]; rfl⟩
  | read r left =>
    exact ⟨spoilRead s, spoilRead_mem s, by rw [fetchResumed, h, Res.bind_raise, endRead, conclude_raise]; rfl⟩
  | unit f phase =>
    exact ⟨spoilDecode f s, spoilDecode_mem f s, by
      rw [fetchResumed, h, Res.bind_raise, fetchedUnit, Res.indexed_raise _ _ _ hc]; rfl⟩
  | sampleLo f | sampleHi f lo =>
    exact ⟨spoilDecode f s, spoilDecode_mem f s, by
      rw [fetchResumed, h, Res.bind_raise, endSample, Res.indexed_raise _ _ _ hc, conclude_raise]; rfl⟩

section
variable {k : Word} {s : State}

theorem step_answer_raise {c : Cause} {p : HoldPoint} (ht : s.task = .answered k p) (hh : s.host = [])
    (h : streamResume k s = .raise c 0#32 s) (hc : c ≠ .busError) :
    ∃ t, step s = .next t ∧ t.fault = true ∧ t.mem = s.mem ∧ t.task = .idle ∧ t.exp.state = .unbound ∧
      t.err = { cause := c.code, op := BitVec.ofNat 8 (pointOp p), info := pointIndex p } := by
  obtain ⟨u, hmem, hu⟩ := fetchResumed_raise p h hc
  exact ⟨_, step_of_settled ht hh hu, rfl, hmem, rfl, rfl, rfl⟩

/-! ### Going on -/

/-- ST_GET16 goes on at its second byte. -/
theorem step_get16Lo (ht : s.task = .answered k .get16Lo) (hh : s.host = []) (h0 : k ≠ 0#32)
    (hmax : k.toNat ≤ s.refill.max.toNat) :
    step s = .next (endGet16 (get16Second (s.chunk.getD 0 0#8) (refilled k s))) :=
  step_of_settled ht hh (by rw [fetchResumed, streamResume_ok h0 hmax, Res.bind_ok])

/-- ST_GET16 goes on with its second byte. -/
theorem step_get16Hi {lo : Byte} (ht : s.task = .answered k (.get16Hi lo)) (hh : s.host = []) (h0 : k ≠ 0#32)
    (hmax : k.toNat ≤ s.refill.max.toNat) :
    step s = .next (endGet16 (.ok (get16Value lo (s.chunk.getD 0 0#8)) (refilled k s))) :=
  step_of_settled ht hh (by rw [fetchResumed, streamResume_ok h0 hmax, Res.bind_ok])

/-- BR_READ goes on with eight new bits (R183). -/
theorem step_read {r left : Nat} (ht : s.task = .answered k (.read r left)) (hh : s.host = []) (h0 : k ≠ 0#32)
    (hmax : k.toNat ≤ s.refill.max.toNat) :
    step s = .next (endRead (unpackFrom .read left r (loadByte (s.chunk.getD 0 0#8) (refilled k s)))) :=
  step_of_settled ht hh (by rw [fetchResumed, streamResume_ok h0 hmax, Res.bind_ok])

/-- A raw sample goes on at its second byte. -/
theorem step_sampleLo {f : Frame} (ht : s.task = .answered k (.sampleLo f)) (hh : s.host = []) (h0 : k ≠ 0#32)
    (hmax : k.toNat ≤ s.refill.max.toNat) :
    step s = .next (endSample f (rawSampleSecond f (s.chunk.getD 0 0#8) (refilled k s))) :=
  step_of_settled ht hh (by rw [fetchResumed, streamResume_ok h0 hmax, Res.bind_ok])

/-- A raw sample goes on with its second byte. -/
theorem step_sampleHi {f : Frame} {lo : Byte} (ht : s.task = .answered k (.sampleHi f lo)) (hh : s.host = [])
    (h0 : k ≠ 0#32) (hmax : k.toNat ≤ s.refill.max.toNat) :
    step s = .next (endSample f (writeSample (sext16 (get16Value lo (s.chunk.getD 0 0#8))) f (refilled k s))) :=
  step_of_settled ht hh (by rw [fetchResumed, streamResume_ok h0 hmax, Res.bind_ok])

/-- What is fetched at a code unit goes on with eight new bits (R183). -/
theorem fetchResumed_unit (f : Frame) (phase : UnitPhase) (h0 : k ≠ 0#32) (hmax : k.toNat ≤ s.refill.max.toNat) :
    fetchResumed k (.unit f phase) s =
      fetchedUnit f (readUnitFrom f phase (loadByte (s.chunk.getD 0 0#8) (refilled k s))) := by
  rw [fetchResumed, streamResume_ok h0 hmax, Res.bind_ok]

end

/-- A raw sample is stored, and the loop goes on (R264). -/
theorem endSample_writeSample (y : Int) (f : Frame) {s : State} (ha : Admitted s.plat .write ⟨f.address, f.stride⟩)
    (hr : s.raced = .none) (hm : s.mem.wf = true) :
    ∃ m, Stores f.address (sampleOutput f.cmd y) s { s with mem := m } ∧
      endSample f (writeSample y f s) = afterSample f { s with mem := m, exp := expAfter f.cmd 1 s.exp } := by
  obtain ⟨m, hw, hst⟩ := writeSample_ok y f ha hr hm
  refine ⟨m, hst, ?_⟩
  rw [endSample, hw, Res.indexed_ok, conclude_ok]
  exact nextSample_eq_afterSample f hr

/-- A raw sample whose second byte is at hand is stored, and the loop goes on (R214, R264). -/
theorem endSample_rawSampleSecond (f : Frame) (lo : Byte) {s : State} (hc : CanGet 1 s)
    (ha : Admitted s.plat .write ⟨f.address, f.stride⟩) (hr : s.raced = .none) (hm : s.mem.wf = true) :
    ∃ (hi : Byte) (t : State) (m : Memory), Gets [hi] s t ∧
      Stores f.address (sampleOutput f.cmd (sext16 (get16Value lo hi))) t { t with mem := m } ∧
      endSample f (rawSampleSecond f lo s) = afterSample f { t with mem := m, exp := expAfter f.cmd 1 s.exp } := by
  obtain ⟨hi, t, hu, hget⟩ := streamGet_ok (.sampleHi f lo) hc hr
  obtain ⟨hframe, -⟩ := id hget
  have hplat : t.plat = s.plat := by rw [hframe]
  have hexp : t.exp = s.exp := by rw [hframe]
  obtain ⟨m, hst, hend⟩ := endSample_writeSample (sext16 (get16Value lo hi)) f (hplat ▸ ha) (hget.raced.trans hr)
    (hget.mem ▸ hm)
  exact ⟨hi, t, m, hget, hst, by rw [rawSampleSecond, hu, Res.bind_ok, hend, hexp]⟩

/-- BR_READ completes with the bits read before the refill and those behind it (R183, R185). -/
theorem endRead_unpackFrom {r left : Nat} {v : State} (hc : CanRead left v) (hr : v.raced = .none) :
    ∃ bits t, bits.length = left ∧ Reads bits v t ∧ endRead (unpackFrom .read left r v) =
      { t with result := BitVec.ofNat 32 (r * 2 ^ left + bitsValue bits), task := .idle } := by
  obtain ⟨bits, t, hlen, hu, hread⟩ := unpackFrom_ok .read left r hc hr
  refine ⟨bits, t, hlen, hread, ?_⟩
  rw [hu, endRead, conclude_ok, State.finish_of_unraced ((State.setResult_raced _ t).trans (hread.raced.trans hr))]
  rfl

/-- The code unit that the refill completes is fetched (R240). -/
theorem fetchedUnit_readUnitFrom (f : Frame) {i : Instr} {bits rest : List Bool} {phase : UnitPhase} {v : State}
    (hp : PhaseOk phase) (hs : sourceBits v = bits ++ rest)
    (hd : decodeUnit (phaseBits phase ++ sourceBits v) = .ok (i, rest)) (hc : CanRead bits.length v)
    (hr : v.raced = .none) :
    ∃ t, Reads bits v t ∧ sourceBits t = rest ∧
      fetchedUnit f (readUnitFrom f phase v) = .instr i { t with task := .sample f } := by
  obtain ⟨u, t, hu, rfl, hread⟩ := readUnitFrom_ok f hp hs hd hc hr
  obtain ⟨-, hbits, -⟩ := id hread
  refine ⟨t, hread, (List.append_cancel_left (hs.symm.trans hbits)).symm, ?_⟩
  rw [hu, fetchedUnit, Res.indexed_ok]

/-- Settles O36: a split on the answer, and on the point the command is held at. -/
theorem refillResumes : Obligations.RefillResumes := by
  refine ⟨fun s k ht hh => ⟨?_, fun hover => ?_, fun h0 hmax => ?_⟩,
    fun s k p ht hh => ⟨?_, fun hover => ?_⟩, ?_⟩
  · rintro rfl
    exact ⟨_, by rw [step_get ht hh, streamResume_zero, endGet, conclude_raise],
      faultEntry_spoilGet .streamExhausted 0x42 s⟩
  · exact ⟨_, by rw [step_get ht hh, streamResume_overrun hover, endGet, conclude_raise],
      faultEntry_spoilGet .refillOverrun 0x42 s⟩
  · rw [step_get ht hh, streamResume_ok h0 hmax, endGet_ok]
    rfl
  · rintro rfl
    exact step_answer_raise ht hh (streamResume_zero s) (by decide)
  · exact step_answer_raise ht hh (streamResume_overrun hover) (by decide)
  · rintro s u b k p ht hh h0 hmax rfl rfl hr
    refine ⟨?_, ?_, ?_, ?_, ?_⟩
    · rintro rfl hc
      obtain ⟨hi, t, hu, hget⟩ := get16Second_ok (s.chunk.getD 0 0#8) hc hr
      exact ⟨hi, t, hget, by rw [step_get16Lo ht hh h0 hmax, hu, endGet16_ok _ _ (hget.raced.trans hr)]⟩
    · rintro lo rfl
      rw [step_get16Hi ht hh h0 hmax, endGet16_ok lo (s.chunk.getD 0 0#8) (t := refilled k s) hr]
    · rintro f rfl hc hwf hadm
      obtain ⟨hi, t, m, hget, hst, hend⟩ :=
        endSample_rawSampleSecond f (s.chunk.getD 0 0#8) (s := refilled k s) hc hadm hr hwf
      exact ⟨hi, t, m, hget, hst, by rw [step_sampleLo ht hh h0 hmax]; exact congrArg _ hend⟩
    · rintro f lo rfl hwf hadm
      obtain ⟨m, hst, hend⟩ := endSample_writeSample (sext16 (lo.toNat + 256 * (s.chunk.getD 0 0#8).toNat)) f
        (s := refilled k s) hadm hr hwf
      exact ⟨m, hst, by rw [step_sampleHi ht hh h0 hmax]; exact congrArg _ hend⟩
    · rintro v rfl hcount
      have hload : loadByte (s.chunk.getD 0 0#8) (refilled k s) = _ := loadByte_eq_loaded _ hcount
      refine ⟨?_, ?_⟩
      · rintro r left rfl hc
        obtain ⟨bits, t, hlen, hread, hend⟩ := endRead_unpackFrom (r := r) hc hr
        exact ⟨bits, t, hlen, hread, by rw [step_read ht hh h0 hmax, hload, hend]⟩
      · rintro f phase i bits rest rfl hp hs hd hc
        obtain ⟨t, hread, hrest, hfetch⟩ := fetchedUnit_readUnitFrom f hp hs hd hc hr
        exact ⟨t, hread, hrest, step_of_instr ht hh (by rw [fetchResumed_unit f phase h0 hmax, hload, hfetch])⟩

end Sys2Proof.Machine
end

section
/-! ## Refill requests (R211, R212) -/

namespace Sys2Proof

open Sys2Proof.Machine

/-- Where `StreamGet` waits, `x` is held at `p` from state `u` on: REFILL_OFFSET and REFILL_MAX are those of R211. -/
def HeldAt {α : Type} (p : HoldPoint) (u : State) (x : Res α) : Prop :=
  x = .hold p { u with refill := { offset := u.st.pos, max := BitVec.ofNat 17 (refillMax u) } }

section
variable {α β : Type} {p : HoldPoint} {u : State}

theorem HeldAt.bind {x : Res α} (h : HeldAt p u x) (k : α → State → Res β) : HeldAt p u (x.bind k) := by
  rw [HeldAt, h, Res.bind_hold]

theorem HeldAt.indexed {x : Res α} (h : HeldAt p u x) (i : Word) : HeldAt p u (x.indexed i) := by
  rw [HeldAt, h, Res.indexed_hold]

/-- A command that is held waits for the refill (R212). -/
theorem HeldAt.conclude {x : Res α} (h : HeldAt p u x) (op : Nat) (spoil : State → State)
    (done : α → State → State) : conclude op spoil done x = heldAt p u := by
  rw [h, conclude_hold]
  rfl

theorem HeldAt.fetchedUnit {f : Frame} {x : Res CodeUnit} (h : HeldAt p u x) :
    fetchedUnit f x = .settled (heldAt p u) := by
  rw [Machine.fetchedUnit, h.indexed f.i]
  rfl

end

/-! ### At the first byte -/

theorem NeedsRefill.streamGet {s : State} (h : NeedsRefill s) (p : HoldPoint) : HeldAt p s (streamGet p s) :=
  streamGet_held p h

/-- A STREAM unpacker fetches through StreamGet (R182). -/
theorem NeedsRefill.brFetch {s : State} (h : NeedsRefill s) (hm : s.br.mode = .stream) (p : HoldPoint) :
    HeldAt p s (brFetch p s) := by
  rw [Machine.brFetch, hm]
  exact h.streamGet p

/-- With no bit held, BR_READ fetches its first byte at once (R183). -/
theorem NeedsRefill.unpackFrom {s : State} (h : NeedsRefill s) (hm : s.br.mode = .stream) (hu : s.br.used = 0#4)
    {n : Nat} (hn : 1 ≤ n) : HeldAt (.read 0 n) s (unpackFrom .read n 0 s) := by
  obtain ⟨k, rfl⟩ := Nat.exists_eq_add_of_le' hn
  rw [Machine.unpackFrom, needBit, if_pos hu]
  exact ((h.brFetch hm (.read 0 (k + 1))).bind _).bind _

theorem stGet16_held {s : State} (h : NeedsRefill s) : exec .stGet16 s = .next (heldAt .get16Lo s) := by
  rw [exec, execStGet16, endGet16, ((h.streamGet .get16Lo).bind _).conclude]

theorem brRead_held {s u : State} {p : HoldPoint} {n : Nat} (hn : n ≤ 32) (h : HeldAt p u (unpackFrom .read n 0 s)) :
    exec (.brRead n) s = .next (heldAt p u) := by
  rw [exec_brRead s hn, endRead, h.conclude]

/-! ### At a later byte -/

section
variable {s : State}

/-- The only byte at hand is delivered, and the next one needs a refill (R211). -/
theorem MoreToCome.last {lo : Byte} (h : MoreToCome s) (hs : streamBytes s = [lo]) (hr : s.raced = .none)
    (p : HoldPoint) : ∃ u, streamGet p s = .ok lo u ∧ Gets [lo] s u ∧ NeedsRefill u := by
  obtain ⟨u, hu, hget, hst⟩ := streamGet_last p hs (canGet_of_chunk h.1 (by simp [hs])) hr
  exact ⟨u, hu, hget, needsRefill_after h hst⟩

/-- All the bits at hand are read, and `UnpackBits` is held at the next one (R183, R211). -/
theorem MoreToCome.unpackFrom {n r : Nat} (h : MoreToCome s) (hm : s.br.mode = .stream) (hr : s.raced = .none)
    (hc : CanRead (sourceBits s).length s) (hlen : (sourceBits s).length < n) :
    ∃ u, Reads (sourceBits s) s u ∧
      HeldAt (.read (r * 2 ^ (sourceBits s).length + bitsValue (sourceBits s)) (n - (sourceBits s).length)) u
        (unpackFrom .read n r s) := by
  obtain ⟨u, k, hread, hu⟩ := unpackFrom_short .read r hc hr hlen
  refine ⟨u, hread, hu ▸ HeldAt.bind ?_ k⟩
  exact brFetch_held _ hm h hread

/-- All the bits at hand are read, and `DecodeUnit` is held inside its code unit (R211, R240). -/
theorem MoreToCome.readUnitFrom (f : Frame) {phase : UnitPhase} (h : MoreToCome s) (hm : s.br.mode = .stream)
    (hr : s.raced = .none) (hp : PhaseOk phase)
    (hd : decodeUnit (phaseBits phase ++ sourceBits s) = .error .unitTruncated) (hc : CanRead (sourceBits s).length s) :
    ∃ phase' u, phaseBits phase' = phaseBits phase ++ sourceBits s ∧ PhaseOk phase' ∧ Reads (sourceBits s) s u ∧
      HeldAt (.unit f phase') u (readUnitFrom f phase s) := by
  obtain ⟨phase', u, k, hbits, hp', hread, hu⟩ := readUnitFrom_short f hp hd hc hr
  refine ⟨phase', u, hbits, hp', hread, hu ▸ HeldAt.bind ?_ k⟩
  exact brFetch_held _ hm h hread

/-! ### In the step that begins with a sample -/

theorem sampleStep_unit_held {f : Frame} {p : HoldPoint} {u : State} (hraw : f.isRaw s = false)
    (h : HeldAt p u (readUnit f s)) : sampleStep f s = heldAt p u := by
  rw [sampleStep, if_neg (by simp [hraw]), endUnit, (h.indexed f.i).conclude]

theorem sampleStep_raw_held {f : Frame} {p : HoldPoint} {u : State} (hraw : f.isRaw s = true)
    (h : HeldAt p u (rawSample f s)) : sampleStep f s = heldAt p u := by
  rw [sampleStep, if_pos hraw, endSample, (h.indexed f.i).conclude]

end

/-- A byte taken by the unpacker leaves the stream as it is (R182). -/
theorem MoreToCome.loaded {b : Byte} {s : State} (h : MoreToCome s) : MoreToCome (loaded b s) := h

end Sys2Proof
end

section
/-! ## A decoding command's loop as its samples' steps (log 7, log 8) -/

namespace Sys2Proof.Machine

/-! ### The procedures leave the host's accesses to come alone (R11) -/

/-- However the procedure ends, the host accesses to come are then `h`. -/
def Res.HostIs {α : Type} (h : List Access) (r : Res α) : Prop :=
  match r with
  | .ok _ s => s.host = h
  | .raise _ _ s => s.host = h
  | .hold _ s => s.host = h

section
variable {α β : Type} {h : List Access} {r : Res α} {s : State}

theorem Res.HostIs.bind (hr : r.HostIs h) {k : α → State → Res β} (hk : ∀ a t, t.host = h → (k a t).HostIs h) :
    (r.bind k).HostIs h := by
  cases r with
  | ok a t => exact hk a t hr
  | raise c info t => exact hr
  | hold p t => exact hr

theorem Res.HostIs.indexed (hr : r.HostIs h) (i : Word) : (r.indexed i).HostIs h := by
  cases r with
  | ok a t => exact hr
  | raise c info t => exact hr
  | hold p t => exact hr

theorem Res.HostIs.conclude (hr : r.HostIs h) {op : Nat} {spoil : State → State} {done : α → State → State}
    (hspoil : ∀ t, (spoil t).host = t.host) (hdone : ∀ a t, t.host = h → (done a t).host = h) :
    (Machine.conclude op spoil done r).host = h := by
  cases r with
  | ok a t => exact hdone a t hr
  | raise c info t => exact (hspoil t).trans hr
  | hold p t => exact hr

theorem hostIs_readByte (a : Word) (hs : s.host = h) : (readByte a s).HostIs h := by
  rcases readByte_cases a s with ⟨-, b, d, e⟩ | ⟨-, e⟩ <;> rw [e] <;> exact hs

theorem hostIs_memWrite (n : Nat) (a : Word) (v : Nat) (hs : s.host = h) : (memWrite n a v s).HostIs h := by
  induction n generalizing a v s with
  | zero => exact hs
  | succ n ih =>
    have hbyte : (writeByte a (BitVec.ofNat 8 v) s).HostIs h := by
      rcases writeByte_cases a (BitVec.ofNat 8 v) s with ⟨-, w, d, e⟩ | ⟨-, e⟩ <;> rw [e] <;> exact hs
    exact hbyte.bind fun _ _ ht => ih _ _ ht

theorem hostIs_streamGet (p : HoldPoint) (hs : s.host = h) : (streamGet p s).HostIs h := by
  rcases streamGet_cases p s with ⟨b, t, e, ht, -⟩ | ⟨-, e⟩ | ⟨-, -, -, e⟩ | ⟨-, -, -, e⟩ <;> rw [e]
  · rw [ht]; exact hs
  all_goals exact hs

theorem hostIs_brFetch (p : HoldPoint) (hs : s.host = h) : (brFetch p s).HostIs h := by
  unfold brFetch
  split
  · split
    · exact hs
    · exact hostIs_readByte _ hs
  · exact hostIs_streamGet p hs
  · exact hs

theorem hostIs_unpackFrom (point : Nat → Nat → HoldPoint) (n r : Nat) (hs : s.host = h) :
    (unpackFrom point n r s).HostIs h := by
  induction n generalizing r s with
  | zero => exact hs
  | succ n ih =>
    have hbit : (needBit (point r (n + 1)) s).HostIs h := by
      unfold needBit
      split
      · exact (hostIs_brFetch _ hs).bind fun b t ht => by rw [loadByte_frame]; exact ht
      · exact hs
    exact hbit.bind fun _ _ ht => ih _ ht

theorem hostIs_readUnit (f : Frame) (hs : s.host = h) : (readUnit f s).HostIs h := by
  refine (hostIs_unpackFrom _ 4 0 hs).bind fun code t ht => ?_
  split
  · exact (hostIs_unpackFrom _ 16 0 ht).bind fun _ _ hu => hu
  · exact (hostIs_unpackFrom _ 1 0 ht).bind fun _ _ hu => (hostIs_unpackFrom _ _ 0 hu).bind fun _ _ hv => hv

theorem hostIs_writeSample (y : Int) (f : Frame) (hs : s.host = h) : (writeSample y f s).HostIs h := by
  unfold writeSample
  split
  · exact hostIs_memWrite _ _ _ hs
  · exact (hostIs_memWrite _ _ _ hs).bind fun _ _ ht => ht
  · exact (hostIs_memWrite _ _ _ hs).bind fun _ _ ht => (hostIs_memWrite _ _ _ ht).bind fun _ _ hu => hu

theorem hostIs_rawSample (f : Frame) (hs : s.host = h) : (rawSample f s).HostIs h :=
  (hostIs_streamGet _ hs).bind fun _ _ ht => (hostIs_streamGet _ ht).bind fun _ _ hu => hostIs_writeSample _ f hu

theorem hostIs_acceptSample (x : Int) (f : Frame) (hs : s.host = h) : (acceptSample x f s).HostIs h := by
  unfold acceptSample
  split
  · exact hostIs_writeSample _ f (s := { s with ctx := s.ctx.push x }) hs
  · exact hs

end

@[simp] theorem spoilDecode_host (f : Frame) (s : State) : (spoilDecode f s).host = s.host := by
  unfold spoilDecode; split <;> simp

@[simp] theorem State.setReturned_host (v : Word) (s : State) : (s.setReturned v).host = s.host := by
  unfold State.setReturned; split <;> rfl

theorem nextSample_host (f : Frame) (s : State) : (nextSample f s).host = s.host := by
  unfold nextSample beginSample
  split
  · unfold completeDecode
    split <;> simp
  · rfl

/-- One iteration of the loop leaves the host accesses to come alone. -/
theorem sampleStep_host (f : Frame) (s : State) : (sampleStep f s).host = s.host := by
  have hend : ∀ {r : Res Unit}, r.HostIs s.host → (endSample f r).host = s.host := fun hr =>
    (hr.indexed f.i).conclude (spoilDecode_host f) fun _ t ht => (nextSample_host f t).trans ht
  unfold sampleStep
  split
  · exact hend (hostIs_rawSample f rfl)
  · exact ((hostIs_readUnit f rfl).indexed f.i).conclude (spoilDecode_host f) fun _ _ ht =>
      hend (hostIs_acceptSample _ f ht)

/-! ### Between two samples, held, or ended -/

/-- A decoding command that is between two samples, or waits for a refill, or has ended. -/
def InLoop (s : State) : Prop := (∃ f, s.task = .sample f) ∨ (∃ p, s.task = .refill p) ∨ s.task = .idle

/-- However a part of the loop ends, the command is in its loop if it goes on there. -/
theorem inLoop_conclude {α : Type} (op : Nat) (spoil : State → State) {done : α → State → State} (r : Res α)
    (h : ∀ a t, InLoop (done a t)) : InLoop (conclude op spoil done r) := by
  cases r with
  | ok a t => exact h a t
  | raise c info t => exact .inr (.inr rfl)
  | hold p t => exact .inr (.inl ⟨p, rfl⟩)

theorem inLoop_nextSample (f : Frame) (s : State) : InLoop (nextSample f s) := by
  unfold nextSample beginSample
  split
  · refine .inr (.inr ?_)
    unfold completeDecode
    split <;> rfl
  · exact .inl ⟨_, rfl⟩

theorem inLoop_sampleStep (f : Frame) (s : State) : InLoop (sampleStep f s) := by
  have hend : ∀ r, InLoop (endSample f r) := fun r => inLoop_conclude _ _ _ fun _ t => inLoop_nextSample f t
  unfold sampleStep
  split
  · exact hend _
  · exact inLoop_conclude _ _ _ fun _ _ => hend _

/-- With no access to come, nothing happens in a refill wait or after the command's end (R11, R212). -/
theorem runSteps_at_rest (k : Nat) {s : State} (hh : s.host = []) (ht : (∃ p, s.task = .refill p) ∨ s.task = .idle) :
    runSteps k s = .next s := by
  have hstep : step s = .next s := by
    rcases ht with ⟨p, ht⟩ | ht <;> simp only [step_of_no_access hh, turnWith, fetch, ht]
  induction k with
  | zero => rfl
  | succ k ih => rw [runSteps, hstep]; exact ih

/-- The loop's iterations are the machine's steps (log 7). -/
theorem runSteps_eq_runSamples (k : Nat) {s : State} (hh : s.host = []) (h : InLoop s) :
    runSteps k s = .next (runSamples k s) := by
  induction k generalizing s with
  | zero => rfl
  | succ k ih =>
    rcases h with ⟨f, ht⟩ | hrest
    · rw [runSteps, step_sample ht hh, runSamples, ht]
      exact ih ((sampleStep_host f s).trans hh) (inLoop_sampleStep f s)
    · rw [runSteps_at_rest _ hh hrest, runSamples]
      rcases hrest with ⟨p, ht⟩ | ht <;> rw [ht]

/-- A decoding command with samples to go runs their steps one after the other (R11, log 7). -/
theorem runDecode_eq_runSteps {f : Frame} {s : State} (hh : s.host = []) (hi : f.i ≠ f.n) :
    Host.Outcome.next (runDecode f s) = runSteps f.n.toNat { s with task := .sample f } := by
  have hloop : InLoop { s with task := .sample f } := .inl ⟨f, rfl⟩
  rw [runDecode, beginSample, if_neg hi, runSteps_eq_runSamples f.n.toNat (s := { s with task := .sample f }) hh hloop]

end Sys2Proof.Machine
end

section
/-! ## The refill requests of the statement (R211, R212) -/

namespace Sys2Proof

open Sys2Proof.Machine

/-! ### Inside ST_GET16 and BR_READ -/

section
variable {s : State}

theorem stGet16_held_second {lo : Byte} (h : MoreToCome s) (hs : streamBytes s = [lo]) (hr : s.raced = .none) :
    ∃ u, Gets [lo] s u ∧ exec .stGet16 s = .next (heldAt (.get16Hi lo) u) := by
  obtain ⟨u, hu, hget, hneed⟩ := h.last hs hr .get16Lo
  exact ⟨u, hget, by rw [exec, execStGet16, hu, Res.bind_ok, endGet16, get16Second,
    ((hneed.streamGet (.get16Hi lo)).bind _).conclude]⟩

theorem brRead_held_inside {n : Nat} (h : MoreToCome s) (hr : s.raced = .none) (hn : n ≤ 32) (hm : s.br.mode = .stream)
    (hlen : (sourceBits s).length < n) (hc : CanRead (sourceBits s).length s) :
    ∃ u, Reads (sourceBits s) s u ∧
      exec (.brRead n) s = .next (heldAt (.read (bitsValue (sourceBits s)) (n - (sourceBits s).length)) u) := by
  obtain ⟨u, hread, hu⟩ := h.unpackFrom (r := 0) hm hr hc hlen
  rw [Nat.zero_mul, Nat.zero_add] at hu
  exact ⟨u, hread, brRead_held hn hu⟩

/-! ### Inside the step that begins with a sample -/

variable {f : Frame}

theorem step_unit_held (ht : s.task = .sample f) (hh : s.host = []) (h : MoreToCome s) (hr : s.raced = .none)
    (hraw : f.isRaw s = false) (hm : s.br.mode = .stream) (hd : decodeUnit (sourceBits s) = .error .unitTruncated)
    (hc : CanRead (sourceBits s).length s) :
    ∃ phase u, phaseBits phase = sourceBits s ∧ PhaseOk phase ∧ Reads (sourceBits s) s u ∧
      step s = .next (heldAt (.unit f phase) u) := by
  obtain ⟨phase, u, hbits, hp, hread, hu⟩ :=
    h.readUnitFrom f (phase := .code 0 4) hm hr (fieldOk_zero (by decide)) hd hc
  exact ⟨phase, u, hbits, hp, hread, by rw [step_sample ht hh, sampleStep_unit_held hraw hu]⟩

theorem step_raw_held (ht : s.task = .sample f) (hh : s.host = []) (h : MoreToCome s) (hraw : f.isRaw s = true)
    (hs : streamBytes s = []) : step s = .next (heldAt (.sampleLo f) s) := by
  rw [step_sample ht hh, sampleStep_raw_held hraw (((h.needsRefill hs).streamGet (.sampleLo f)).bind _)]

theorem step_raw_held_second {lo : Byte} (ht : s.task = .sample f) (hh : s.host = []) (h : MoreToCome s)
    (hr : s.raced = .none) (hraw : f.isRaw s = true) (hs : streamBytes s = [lo]) :
    ∃ u, Gets [lo] s u ∧ step s = .next (heldAt (.sampleHi f lo) u) := by
  obtain ⟨u, hu, hget, hneed⟩ := h.last hs hr (.sampleLo f)
  have hheld : HeldAt (.sampleHi f lo) u (rawSample f s) := by
    rw [rawSample, hu, Res.bind_ok]
    exact (hneed.streamGet (.sampleHi f lo)).bind _
  exact ⟨u, hget, by rw [step_sample ht hh, sampleStep_raw_held hraw hheld]⟩

/-! ### Again, after a refill that was too short -/

variable {k : Word}

theorem step_get16Lo_held (ht : s.task = .answered k .get16Lo) (hh : s.host = []) (h0 : k ≠ 0#32)
    (hmax : k.toNat ≤ s.refill.max.toNat) (h : MoreToCome (refilled k s)) (hs : streamBytes (refilled k s) = []) :
    step s = .next (heldAt (.get16Hi (s.chunk.getD 0 0#8)) (refilled k s)) := by
  rw [step_get16Lo ht hh h0 hmax, endGet16, get16Second,
    (((h.needsRefill hs).streamGet (.get16Hi (s.chunk.getD 0 0#8))).bind _).conclude]

theorem step_sampleLo_held (ht : s.task = .answered k (.sampleLo f)) (hh : s.host = []) (h0 : k ≠ 0#32)
    (hmax : k.toNat ≤ s.refill.max.toNat) (h : MoreToCome (refilled k s)) (hs : streamBytes (refilled k s) = []) :
    step s = .next (heldAt (.sampleHi f (s.chunk.getD 0 0#8)) (refilled k s)) := by
  rw [step_sampleLo ht hh h0 hmax, endSample, rawSampleSecond,
    ((((h.needsRefill hs).streamGet (.sampleHi f (s.chunk.getD 0 0#8))).bind _).indexed f.i).conclude]

/-- The unpacker of a held command took the new chunk's first byte, and more is needed (R183). -/
theorem step_read_held {r left : Nat} {v : State} (ht : s.task = .answered k (.read r left)) (hh : s.host = [])
    (h0 : k ≠ 0#32) (hmax : k.toNat ≤ s.refill.max.toNat) (hv : loadByte (s.chunk.getD 0 0#8) (refilled k s) = v)
    (h : MoreToCome v) (hr : v.raced = .none) (hm : v.br.mode = .stream) (hc : CanRead (sourceBits v).length v)
    (hlen : (sourceBits v).length < left) :
    ∃ t, Reads (sourceBits v) v t ∧ step s = .next (heldAt
      (.read (r * 2 ^ (sourceBits v).length + bitsValue (sourceBits v)) (left - (sourceBits v).length)) t) := by
  obtain ⟨t, hread, hheld⟩ := h.unpackFrom (r := r) hm hr hc hlen
  exact ⟨t, hread, by rw [step_read ht hh h0 hmax, hv, endRead, hheld.conclude]⟩

theorem step_resumed_unit_held {phase : UnitPhase} {v : State} (ht : s.task = .answered k (.unit f phase))
    (hh : s.host = []) (h0 : k ≠ 0#32) (hmax : k.toNat ≤ s.refill.max.toNat)
    (hv : loadByte (s.chunk.getD 0 0#8) (refilled k s) = v) (h : MoreToCome v) (hr : v.raced = .none)
    (hm : v.br.mode = .stream) (hp : PhaseOk phase)
    (hd : decodeUnit (phaseBits phase ++ sourceBits v) = .error .unitTruncated) (hc : CanRead (sourceBits v).length v) :
    ∃ phase' t, phaseBits phase' = phaseBits phase ++ sourceBits v ∧ PhaseOk phase' ∧ Reads (sourceBits v) v t ∧
      step s = .next (heldAt (.unit f phase') t) := by
  obtain ⟨phase', t, hbits, hp', hread, hheld⟩ := h.readUnitFrom f hm hr hp hd hc
  exact ⟨phase', t, hbits, hp', hread,
    step_of_settled ht hh (by rw [fetchResumed_unit f phase h0 hmax, hv, hheld.fetchedUnit])⟩

end

/-! ### The statement -/

/-- R211's request, at every point StreamGet is called from and at the first byte of each command. -/
theorem requested_at_first {s : State} (hp : PlatformOk s.plat) (h : NeedsRefill s) :
    ∃ r : RefillRegs, r.offset = s.st.pos ∧
      r.max.toNat = min s.plat.chunkBytes (s.st.size.toNat - s.st.pos.toNat) ∧
      exec .stGet s = .next { s with refill := r, task := .refill .get } ∧
      exec .stGet16 s = .next { s with refill := r, task := .refill .get16Lo } ∧
      (∀ n, 1 ≤ n → n ≤ 32 → s.br.mode = .stream → s.br.used = 0#4 →
        exec (.brRead n) s = .next { s with refill := r, task := .refill (.read 0 n) }) ∧
      ∀ p : HoldPoint, streamGet p s = .hold p { s with refill := r } :=
  ⟨(heldAt .get s).refill, rfl, heldAt_max .get hp, stGet_held h, stGet16_held h,
    fun _ h1 h32 hm hu => brRead_held h32 (h.unpackFrom hm hu h1), h.streamGet⟩

/-- Settles O35, point by point; the loops by an induction on their samples. -/
theorem refillRequested : Obligations.RefillRequested := by
  refine ⟨fun s hp hk hlt hidx => requested_at_first hp ⟨hk, fun e => by rw [e] at hlt; omega, hidx⟩,
    fun s h hr => ⟨fun lo hs => stGet16_held_second h hs hr,
      fun n hn hm _ hlen hc => brRead_held_inside h hr hn hm hlen hc⟩,
    fun s f ht hh h hr => ⟨fun hraw hm _ hd hc => step_unit_held ht hh h hr hraw hm hd hc,
      fun hraw hs => step_raw_held ht hh h hraw hs, fun lo hraw hs => step_raw_held_second ht hh h hr hraw hs⟩, ?_,
    fun s hh => ⟨fun sh hsh hn => ?_, fun hrem hn => ?_, fun hrem hvol hn => ?_⟩⟩
  · rintro s u k p ht hh h0 hmax rfl h hr
    refine ⟨?_, ?_, ?_⟩
    · rintro rfl hs
      exact step_get16Lo_held ht hh h0 hmax h hs
    · rintro f rfl hs
      exact step_sampleLo_held ht hh h0 hmax h hs
    · rintro v rfl hcount hm hc
      have hload := loadByte_eq_loaded (s.chunk.getD 0 0#8) (s := refilled k s) hcount
      refine ⟨?_, ?_⟩
      · rintro r left rfl hlen
        exact step_read_held ht hh h0 hmax hload h.loaded hr hm hc hlen
      · rintro f phase rfl hp hd
        exact step_resumed_unit_held ht hh h0 hmax hload h.loaded hr hm hp hd hc
  · rw [exec, execLexpand, if_neg (by omega)]
    exact runDecode_eq_runSteps (f := lexpandFrame sh s.args) (s := lexpandStart s) hh hn.symm
  · rw [exec_expand (.inl ⟨rfl, rfl⟩) hrem]
    exact runDecode_eq_runSteps (f := expandFrame s.args) (s := expandStart (expandFrame s.args) s) hh hn.symm
  · rw [exec_expand (.inr ⟨rfl, rfl, hvol⟩) hrem]
    exact runDecode_eq_runSteps (f := expand2Frame s.args) (s := expandStart (expand2Frame s.args) s) hh hn.symm

end Sys2Proof
end

section
/-! ## The guess, and the argument checks of the codec (R231, R235, R238, R243) -/

namespace Sys2Proof.Machine

/-- Settles O38: each term of the guess is a 16-bit value, and a delta of magnitude below 2^18 needs 18 bits. -/
theorem guessRange : Obligations.GuessRange := by
  intro c x hlo hhi
  have h1 := c.prev1.le_toInt
  have h2 := c.prev2.le_toInt
  have h3 := c.prev3.le_toInt
  have h1' := c.prev1.toInt_lt
  have h2' := c.prev2.toInt_lt
  have h3' := c.prev3.toInt_lt
  have hguess : c.guess = 3 * c.prev1.toInt - 3 * c.prev2.toInt + c.prev3.toInt := rfl
  exact ⟨hguess, by omega, by omega, by omega, by omega, bitsNeededOf_le (by omega) (by omega)⟩

/-- Settles O41: the check of the shift is the first thing either command does. -/
theorem codecShiftRejected : Obligations.CodecShiftRejected := fun _ _ _ hsh => ⟨if_pos hsh, if_pos hsh⟩

end Sys2Proof.Machine
end

section
/-! ## A code unit between two samples: its step, and a sample out of range (R240, R241) -/

namespace Sys2Proof.Machine

/-- Settles O7: with no access to come the step is the plain turn, whose fetch reads the unit at hand. -/
theorem stepRunsCodeUnit : Obligations.StepRunsCodeUnit := by
  intro s f i bits rest ht hh hraw hr hs hd hc
  obtain ⟨t, hread, hrest, hfetch⟩ :=
    fetchedUnit_readUnitFrom f (phase := .code 0 4) (fieldOk_zero (by decide)) hs hd hc hr
  have htask : { t with task := .sample f } = t := by rw [hread.1, ← ht]
  refine ⟨t, hread, hrest, ?_⟩
  rw [step_of_no_access hh, turnWith, fetch, ht]
  simp only [State.foreseen_nil hh, fetchSample, hraw, Bool.false_eq_true, if_false]
  rw [readUnit, hfetch, htask]

theorem inSampleRange_iff {x : Int} {sh : Nat} :
    inSampleRange x sh = true ↔ -(2 ^ (15 - sh)) ≤ x ∧ x ≤ 2 ^ (15 - sh) - 1 := by simp [inSampleRange]

/-- A sample out of range raises before any change (R241). -/
theorem acceptSample_out_of_range {x : Int} {f : Frame} {s : State} (h : inSampleRange x (f.shift s) = false) :
    acceptSample x f s = .raise .sampleRange 0#32 s := by simp [acceptSample, h]

/-- Settles O48: the range check raises before the Context or memory changes, and fault entry spares memory. -/
theorem unitOutOfRange : Obligations.UnitOutOfRange := by
  intro u f s ht hout
  have hrange : inSampleRange (unitSample u s.ctx) (f.shift s) = false := by
    rw [← Bool.not_eq_true, inSampleRange_iff]
    omega
  refine ⟨faultEntry .sampleRange f.op f.i (spoilDecode f s), ?_, rfl, rfl, spoilDecode_mem f s, rfl, rfl⟩
  rw [exec_unit u ht, runSample, acceptSample_out_of_range hrange, endSample, Res.indexed_raise _ _ _ (by decide),
    conclude_raise]

end Sys2Proof.Machine
end

section
/-! ## LEXPAND and the expansions of a format-1 session, without a fault (R240, R243, R264 to R266) -/

namespace Sys2Proof

open Sys2Proof.Machine

/-- After a reading of `bits`, the accumulator holds the first bits of those after them (R183). -/
theorem Reads.heldBits_eq_take {bits rest : List Bool} {s t : State} (h : Reads bits s t)
    (hs : sourceBits s = bits ++ rest) : heldBits t = rest.take t.br.used.toNat := by
  obtain ⟨-, hbits, -⟩ := h
  rw [List.append_cancel_left (hs.symm.trans hbits), sourceBits, List.take_left' (length_heldBits t)]

namespace Machine

/-! ### LEXPAND's start and completion -/

/-- Without overlapping buffers LEXPAND starts unraced (R91). -/
theorem lexpandStart_of_apart {s : State} (hap : (lexpandSource s.args).meets (lexpandTarget s.args) = false) :
    lexpandStart s = { s with
      exp := { s.exp with state := .unbound }, ctx := .zero, br := .bound .flat s.args.arg0 s.args.arg1 } := by
  simp [lexpandStart, hap, State.invalidateSession]

/-- LEXPAND's unpacker begins with all the bits of its source at hand (R243). -/
theorem sourceBits_lexpandStart (s : State) :
    sourceBits (lexpandStart s) = bytesBits (memoryBytes s.mem s.args.arg0 s.args.arg1.toNat) := by
  simp [sourceBits, heldBits, sourceBytes, lexpandStart, UnpackerRegs.bound, State.invalidateSession, bitsMsb]

/-- LEXPAND completes with BR_CONSUMED in RESULT (R243). -/
theorem completeDecode_lexpand {g : Frame} {sh : Nat} {t : State} (hc : g.cmd = .lexpand sh) (hr : t.raced = .none) :
    completeDecode g t = { t with result := t.br.consumed, task := .idle } := by
  unfold completeDecode
  rw [hc]
  simp [State.setReturned, State.finish, hr]

/-- LEXPAND past its argument check is its loop (R243). -/
theorem exec_lexpand {sh : Nat} (s : State) (hsh : sh ≤ 15) :
    exec (.lexpand sh) s =
      .next (runSamples s.args.arg2.toNat (beginSample (lexpandFrame sh s.args) (lexpandStart s))) := by
  rw [exec, execLexpand, if_neg (by omega)]
  rfl

theorem lexpandFrame_address (sh : Nat) (a : ArgRegs) : (lexpandFrame sh a).address = a.arg3 := by
  simp [lexpandFrame, Frame.address]

theorem sourceSpan_lexpandStart (s : State) : sourceSpan (lexpandStart s) = lexpandSource s.args := by
  simp [sourceSpan, lexpandStart, lexpandSource, UnpackerRegs.bound, State.invalidateSession]

theorem fetchSpan_lexpandStart (n : Nat) (s : State) : fetchSpan n (lexpandStart s) = ⟨s.args.arg0, n⟩ := by
  simp [fetchSpan, lexpandStart, UnpackerRegs.bound, State.invalidateSession]

/-- LEXPAND's unpacker can deliver as many bits as its source has, where memory accepts their bytes (R243). -/
theorem canRead_lexpandStart {n : Nat} {s : State} (hn : n ≤ 8 * s.args.arg1.toNat)
    (hread : Admitted s.plat .read ⟨s.args.arg0, (n + 7) / 8⟩) : CanRead n (lexpandStart s) := by
  have hlimit := s.args.arg1.isLt
  have hcount : fetchCount n (lexpandStart s) = (n + 7) / 8 := rfl
  refine ⟨?_, ?_, ?_⟩
  · rwa [sourceBits_lexpandStart, length_bytesBits, length_memoryBytes]
  · rw [hcount, fetchSpan_lexpandStart]
    exact hread
  · rw [hcount]
    show 0 + (n + 7) / 8 < _
    omega

/-- Settles O43: the loop over the units of LEXPAND's source, which its output leaves alone. -/
theorem lexpandDecodes : Obligations.LexpandDecodes := by
  intro sh us rest s xs len hsh hr hm hlen hfit hbits hx hread hwrite hap
  have hstart := lexpandStart_of_apart hap
  have hsource := (sourceBits_lexpandStart s).trans hbits
  have hbound : (unitsBits us).length ≤ 8 * s.args.arg1.toNat := by
    have := congrArg List.length hbits
    rw [length_bytesBits, length_memoryBytes, List.length_append] at this
    omega
  obtain ⟨m, v, hreads, hst, hrun⟩ := unitLoop_ok us (lexpandFrame sh s.args) (s := lexpandStart s)
    (by rw [hlen]; simp [lexpandFrame]) hfit rest hsource (canRead_lexpandStart hbound hread)
    (fun x hxx => inSampleRange_iff.mpr (hx x hxx)) rfl
    (by rw [lexpandFrame_address, hlen]; exact hwrite)
    (fun a ha => by
      rw [lexpandFrame_address, hlen]
      exact Span.not_meets hap (sourceSpan_lexpandStart s ▸ ha))
    (by rw [hstart]; exact hr) hm
  have hheld := hreads.heldBits_eq_take hsource
  obtain ⟨-, -, hmode, hvbase, hvlimit, hconsumed, hused, hvst, -⟩ := hreads
  replace hconsumed : v.br.consumed.toNat = 0 + len := hconsumed
  replace hused : v.br.used.toNat + (unitsBits us).length = 0 + 8 * len := hused
  replace hvst : v.st = s.st := hvst
  have hresult : v.br.consumed = BitVec.ofNat 32 len := by bv_omega
  rw [lexpandFrame_address] at hst
  refine ⟨m, v.br, stores_transport hst rfl, hmode, hvbase, hvlimit, hresult, by omega, hheld, ?_⟩
  rw [exec_lexpand s hsh, ← hlen, hrun, completeDecode_lexpand (sh := sh) rfl, hstart, hvst, hresult]
  · rfl
  · rw [hstart]; exact hr

/-- Settles O51: the argument checks pass, and the loop takes one code unit after the other. -/
theorem expandFormat1 : Obligations.ExpandFormat1 := by
  intro us rest s f i xs (h : ExpandsBy i f s) hformat hmode hr hm hlen hn hfit hs hc hx hadm hap
  have hraw : f.isRaw s = false := by rw [h.isRaw, hformat]; rfl
  have hshift : f.shift s = s.exp.shift.toNat := h.shift s
  have hout : (⟨f.address, f.stride * us.length⟩ : Span) = f.output := by rw [h.address, h.output, hlen]
  obtain ⟨m, u, hreads, hst, hrun⟩ := unitLoop_ok us f (by rw [h.index, h.n, hlen]; simp) hfit rest hs hc
    (fun x hxx => by rw [hshift]; exact inSampleRange_iff.mpr (hx x hxx)) hraw (by rw [hout]; exact hadm)
    (fun a ha => by
      rw [sourceSpan, hmode] at ha
      rw [hout]
      exact Span.not_meets hap ha) hr hm
  rw [h.address, hshift] at hst
  refine ⟨m, u, hreads, hst, ?_⟩
  rw [exec_expand_apart h (hlen ▸ hn) hap, ← hlen, hrun, completeDecode_expand (g := { f with i := f.n }) h.cmd,
    expAfter_pos h.cmd, hlen, BitVec.ofNat_toNat, BitVec.setWidth_eq]
  exact hr

end Machine

end Sys2Proof
end

section
/-! ## What COMPRESS codes, LEXPAND decodes (R236, R240, R244) -/

namespace Sys2Proof.Machine

/-- A 16-bit value survives its two's complement (R13). -/
theorem sext16_lowBits {x : Int} (hlo : -32768 ≤ x) (hhi : x ≤ 32767) : sext16 (lowBits 16 x) = x := by
  simp only [sext16, lowBits, BitVec.toInt_eq_toNat_cond, BitVec.toNat_ofNat]
  split_ifs <;> omega

/-- The unit of a 16-bit sample decodes to the sample (R236, R240). -/
theorem unitSample_sampleUnit (c : ContextRegs) {x : Int} (hlo : -32768 ≤ x) (hhi : x ≤ 32767) :
    unitSample (sampleUnit c x) c = x := by
  unfold sampleUnit
  dsimp only
  split_ifs
  · simp only [unitSample, normalSample, decide_eq_true_eq]
    split_ifs <;> omega
  · exact sext16_lowBits hlo hhi

/-- Decoding follows encoding from the same Context on, sample by sample (R236, R240). -/
theorem unitSamples_sampleUnits (c : ContextRegs) {xs : List Int} (h : ∀ x ∈ xs, -32768 ≤ x ∧ x ≤ 32767) :
    unitSamples c (sampleUnits c xs) = xs := by
  induction xs generalizing c with
  | nil => rfl
  | cons x xs ih =>
    obtain ⟨hlo, hhi⟩ := h x List.mem_cons_self
    rw [sampleUnits, unitSamples, unitSample_sampleUnit c hlo hhi, ih _ fun y hy => h y (List.mem_cons_of_mem x hy)]

theorem fits_of_mem_sampleUnits {c : ContextRegs} {xs : List Int} {u : CodeUnit} (h : u ∈ sampleUnits c xs) :
    u.Fits := by
  induction xs generalizing c with
  | nil => cases h
  | cons x xs ih =>
    rcases List.mem_cons.mp h with rfl | hrest
    · exact sampleUnit_fits c x
    · exact ih hrest

/-- A 16-bit value shifted right by `sh` fits what a shift of `sh` reconstructs (R234, R241). -/
theorem asr_sext16_range (v : Nat) {sh : Nat} (hsh : sh ≤ 15) :
    -(2 ^ (15 - sh)) ≤ asr (sext16 v) sh ∧ asr (sext16 v) sh ≤ 2 ^ (15 - sh) - 1 := by
  have hpow : (2 : Int) ^ (15 - sh) * 2 ^ sh = 2 ^ 15 := by rw [← pow_add, Nat.sub_add_cancel hsh]
  have hlo : -(2 ^ 15) ≤ sext16 v := (BitVec.ofNat 16 v).le_toInt
  have hhi : sext16 v < 2 ^ 15 := (BitVec.ofNat 16 v).toInt_lt
  have hpos : (0 : Int) < 2 ^ sh := by positivity
  constructor
  · rw [asr, Int.le_ediv_iff_mul_le hpos, neg_mul, hpow]
    exact hlo
  · have : asr (sext16 v) sh < 2 ^ (15 - sh) := by
      rw [asr, Int.ediv_lt_iff_lt_mul hpos, hpow]
      exact hhi
    omega

theorem compressInput_range {sh : Nat} {s : State} {x : Int} (hsh : sh ≤ 15) (h : x ∈ compressInput sh s) :
    -(2 ^ (15 - sh)) ≤ x ∧ x ≤ 2 ^ (15 - sh) - 1 := by
  obtain ⟨r, hr, rfl⟩ := List.mem_map.mp h
  obtain ⟨i, -, rfl⟩ := List.mem_map.mp hr
  exact asr_sext16_range _ hsh

theorem unitSamples_compressInput {sh : Nat} (hsh : sh ≤ 15) (s : State) :
    unitSamples .zero (sampleUnits .zero (compressInput sh s)) = compressInput sh s := by
  refine unitSamples_sampleUnits .zero fun x hx => ?_
  obtain ⟨hlo, hhi⟩ := compressInput_range hsh hx
  have hpow : (2 : Int) ^ (15 - sh) ≤ 2 ^ 15 := pow_le_pow_right₀ (by norm_num) (Nat.sub_le 15 sh)
  constructor <;> omega

/-- Settles O45: COMPRESS stores the units' bits, LEXPAND finds them there, and each unit decodes to the sample it
codes. -/
theorem compressLexpandRoundTrip : Obligations.CompressLexpandRoundTrip := by
  intro sh stats s out len output hsh hf hr hm hcap hread hwrite hreadback hout hap hap'
  obtain ⟨m, bytes, hlen, hbits, ⟨-, hwf, hbytes, -⟩, hcompress⟩ :=
    compressWritesCodeUnits sh stats s hsh hr hm hcap hread hwrite hap
  have hlt : len < 4294967296 := Nat.lt_of_le_of_lt hcap s.args.arg3.isLt
  have hresult : (BitVec.ofNat 32 len).toNat = len := by rw [BitVec.toNat_ofNat]; omega
  rw [hlen] at hbytes
  refine ⟨_, hcompress, hf, ?_⟩
  have hinput := unitSamples_compressInput hsh s
  obtain ⟨m', b, ⟨-, -, hsamples, -⟩, -, -, -, -, -, -, hlexpand⟩ :=
    lexpandDecodes sh (sampleUnits .zero (compressInput sh s)) _
      { s with
        mem := m, result := BitVec.ofNat 32 len, ctx := pushAll .zero (compressInput sh s)
        bw := { base := s.args.arg2, cap := s.args.arg3, emitted := BitVec.ofNat 32 len, stage := 0#8, used := 0#4 }
        exp := { s.exp with state := .unbound }
        stat := if stats then unitsStat (sampleUnits .zero (compressInput sh s)) else s.stat
        task := .idle
        args := { arg0 := s.args.arg2, arg1 := BitVec.ofNat 32 len, arg2 := s.args.arg1, arg3 := out } }
      hsh hr hwf (by simp) (fun _ => fits_of_mem_sampleUnits) (by rw [hresult, hbytes]; exact hbits)
      (by rw [hinput]; exact fun x => compressInput_range hsh) hreadback hout
      (by rw [lexpandSource, hresult]; exact hap')
  refine ⟨_, hlexpand, hf, rfl, ?_⟩
  rw [hinput] at hsamples
  rw [← hsamples]
  congr 1
  simp [List.length_flatMap, Nat.mul_comm]

end Sys2Proof.Machine
end

section
/-! ## LEXPAND of a truncated bitstream (R240, R243, R305, R307) -/

namespace Sys2Proof

open Sys2Proof.Machine

/-- A source that ends still does so after bits of it were read (R182, R211). -/
theorem SourceEnds.reads {bits : List Bool} {s t : State} (h : SourceEnds s) (hread : Reads bits s t) :
    SourceEnds t := by
  have hlen := hread.length_sourceBytes
  obtain ⟨-, -, hmode, -, hlimit, hconsumed, -⟩ := id hread
  unfold SourceEnds at h ⊢
  unfold sourceBytes at hlen
  rw [hmode] at hlen ⊢
  cases hk : s.br.mode <;> simp only [hk] at h hlen ⊢
  · rw [length_memoryBytes, length_memoryBytes] at hlen
    rw [hlimit] at hlen ⊢
    omega
  · exact StreamEnds.reads h hk hread

namespace Machine

/-- The loop over the units of samples in range: their outputs are stored, and the loop goes on at the sample behind them,
with the bits behind theirs ahead (R240, R243, R265, R266). -/
theorem UnitsAhead.runSamples_add (us : List CodeUnit) {rest : List Bool} {f : Frame} {s : State} (k : Nat)
    (h : UnitsAhead f (unitsBits us ++ rest) s) (hends : SourceEnds s) (hfit : ∀ u ∈ us, u.Fits)
    (hx : ∀ x ∈ unitSamples s.ctx us, inSampleRange x (f.shift s) = true)
    (hn : f.i.toNat + us.length ≤ f.n.toNat) :
    ∃ t, runSamples (us.length + k) (beginSample f s) =
        runSamples k (beginSample { f with i := f.i + BitVec.ofNat 32 us.length } t) ∧
      UnitsAhead { f with i := f.i + BitVec.ofNat 32 us.length } rest t ∧ SourceEnds t ∧
      Stores f.address ((unitSamples s.ctx us).flatMap fun x => sampleOutput f.cmd (x * 2 ^ f.shift s)) s
        { s with mem := t.mem } := by
  induction us generalizing f s with
  | nil =>
    refine ⟨s, ?_, ?_, hends, Stores.refl _ h.wf⟩
    · rw [List.length_nil, Nat.zero_add, BitVec.add_zero]
    · rwa [List.length_nil, BitVec.add_zero]
  | cons u us ih =>
    rw [List.length_cons] at hn
    have hi : f.i.toNat < f.n.toNat := by omega
    have hnext := Frame.next_i_toNat hi
    have haddr : f.next.address = f.address + BitVec.ofNat 32 f.stride := (Frame.ahead_split hi).2
    rw [unitsBits_cons, List.append_assoc] at h
    rw [unitSamples] at hx ⊢
    obtain ⟨m, v, hread, hst, hstep⟩ :=
      (h.withTask (.sample f)).sampleStep_ok (hfit u List.mem_cons_self) (hx _ List.mem_cons_self) hi
    have hctx : (afterUnit (unitSample u s.ctx) f m v).ctx = s.ctx.push (unitSample u s.ctx) := afterUnit_ctx hread _ _ _
    have hshift : f.next.shift (afterUnit (unitSample u s.ctx) f m v) = f.shift s := afterUnit_shift hread _ _ _
    have hindex : f.next.i + BitVec.ofNat 32 us.length = f.i + BitVec.ofNat 32 (us.length + 1) := by
      rw [Nat.add_comm us.length, BitVec.ofNat_add, ← BitVec.add_assoc]; rfl
    have hvends : SourceEnds v := SourceEnds.reads (s := { s with task := .sample f }) hends hread
    obtain ⟨t, hrun, hahead, htends, hrest⟩ :=
      ih ((h.withTask (.sample f)).next (x := unitSample u s.ctx) hread (length_sampleOutput f _) hst hi)
        hvends (fun w hw => hfit w (List.mem_cons_of_mem _ hw))
        (by rw [hctx, hshift]; exact fun x hxx => hx x (List.mem_cons_of_mem _ hxx))
        (by rw [hnext]; show _ ≤ f.n.toNat; omega)
    replace hrest := stores_transport (s' := { s with mem := m }) hrest rfl
    rw [hctx, hshift, haddr, ← length_sampleOutput f (unitSample u s.ctx * 2 ^ f.shift s)] at hrest
    rw [hindex] at hrun hahead
    refine ⟨t, ?_, hahead, htends, ?_⟩
    · rw [List.length_cons, Nat.add_right_comm, runSamples_beginSample _ hi, hstep]
      exact hrun
    · have hsize := h.admitted.size_lt
      have hcount := Nat.mul_le_mul_left f.stride (show us.length.succ ≤ f.n.toNat - f.i.toNat by omega)
      rw [List.flatMap_cons]
      refine Stores.trans ?_ (stores_transport hst hread.mem.symm) hrest
      rw [length_sampleOutput, length_outputs, length_unitSamples, Nat.add_comm, ← Nat.mul_succ]
      omega

/-- A code unit's reading raises where its source ends inside the unit (R240). -/
theorem readUnit_truncated (f : Frame) {s : State} (hends : SourceEnds s)
    (hd : decodeUnit (sourceBits s) = .error .unitTruncated) (hc : CanRead (sourceBits s).length s)
    (hr : s.raced = .none) : ∃ u, readUnit f s = .raise .streamExhausted 0#32 u ∧ u.mem = s.mem := by
  obtain ⟨phase, u, k, -, -, hread, hk⟩ :=
    readUnitFrom_short f (phase := .code 0 4) (fieldOk_zero (by decide)) hd hc hr
  exact ⟨u, by rw [readUnit, hk, brFetch_exhausted _ hends hread, Res.bind_raise], hread.mem⟩

/-- The loop at a sample whose source ends inside its unit ends in the fault, with memory as it is (R305, R307). -/
theorem UnitsAhead.runSamples_truncated {rest : List Bool} {f : Frame} {s : State} (k : Nat)
    (h : UnitsAhead f rest s) (hends : SourceEnds s) (hi : f.i.toNat < f.n.toNat)
    (hd : decodeUnit rest = .error .unitTruncated) :
    ∃ u, runSamples (k + 1) (beginSample f s) = faultEntry .streamExhausted f.op f.i u ∧ u.mem = s.mem := by
  obtain ⟨hraw, rfl, hc, hr, -, -, -⟩ := h
  obtain ⟨u, hu, hmem⟩ := readUnit_truncated f (s := { s with task := .sample f }) hends hd hc hr
  have hstep : sampleStep f { s with task := .sample f } = faultEntry .streamExhausted f.op f.i (spoilDecode f u) := by
    have hraw' : f.isRaw { s with task := .sample f } = false := hraw
    rw [sampleStep, if_neg (by simp [hraw']), hu, endUnit, Res.indexed_raise _ _ _ (by decide), conclude_raise]
  exact ⟨spoilDecode f u, by rw [runSamples_beginSample k hi, hstep, runSamples_idle k rfl],
    (spoilDecode_mem f u).trans hmem⟩

/-- LEXPAND begins with all the bits of its source ahead, where memory accepts its source and its target (R243). -/
theorem unitsAhead_lexpandStart (sh : Nat) {s : State} (hr : s.raced = .none) (hm : s.mem.wf = true)
    (hread : Admitted s.plat .read (lexpandSource s.args)) (hwrite : Admitted s.plat .write (lexpandTarget s.args))
    (hap : (lexpandSource s.args).meets (lexpandTarget s.args) = false) :
    UnitsAhead (lexpandFrame sh s.args) (sourceBits (lexpandStart s)) (lexpandStart s) := by
  have hahead : (lexpandFrame sh s.args).ahead = lexpandTarget s.args := by
    rw [Frame.ahead, lexpandFrame_address]
    simp [lexpandTarget, lexpandFrame, Frame.stride]
  have hspan := sourceSpan_lexpandStart s
  refine ⟨rfl, rfl, canRead_all nofun (Nat.zero_le _) (by rw [hspan]; exact hread), ?_, hm,
    by rw [hahead]; exact hwrite, fun a ha => ?_⟩
  · rw [lexpandStart_of_apart hap]; exact hr
  · rw [hahead]
    exact Span.not_meets hap (hspan ▸ ha)

/-- Settles O44: the loop over the whole units, and the truncated one behind them. -/
theorem lexpandExhausted : Obligations.LexpandExhausted := by
  intro sh us rest s xs hsh hr hm hlt hfit hbits hd hx hread hwrite hap
  have hahead := unitsAhead_lexpandStart sh hr hm hread hwrite hap
  rw [sourceBits_lexpandStart, hbits] at hahead
  obtain ⟨k, hk⟩ := Nat.exists_eq_add_of_lt hlt
  obtain ⟨t, hrun, hrest, hends, hst⟩ := hahead.runSamples_add us (k + 1) (Nat.zero_le _) hfit
    (fun x hxx => inSampleRange_iff.mpr (hx x hxx)) (by simp [lexpandFrame]; omega)
  obtain ⟨u, hfault, hmem⟩ := hrest.runSamples_truncated k hends (by simp [lexpandFrame]; omega) hd
  rw [lexpandFrame_address] at hst
  refine ⟨_, by rw [exec_lexpand s hsh, hk, Nat.add_assoc, hrun, hfault], rfl, ?_, rfl, ?_⟩
  · simp [faultEntry, lexpandFrame, Cause.code, Frame.op]
  · refine stores_transport (s := lexpandStart s) (m := u.mem) ?_ rfl
    rw [hmem]
    exact hst

end Machine

end Sys2Proof
end

section
/-! ## COMPRESS into too small a destination (R162, R236 to R239, R305, R307) -/

namespace Sys2Proof.Machine

/-! ### A code unit as one field of bits -/

/-- `PackBits` takes the low bits of its value only (R163). -/
theorem packBits_mod (v : Nat) {n m : Nat} (h : n ≤ m) (s : State) : packBits (v % 2 ^ m) n s = packBits v n s := by
  induction n generalizing s with
  | zero => rfl
  | succ n ih =>
    have hbit : (v % 2 ^ m).testBit n = v.testBit n := by
      rw [Nat.testBit_mod_two_pow, decide_eq_true (show n < m from h), Bool.true_and]
    rw [packBits, packBits, hbit]
    simp only [ih (Nat.le_of_succ_le h)]

/-- Packs a sequence of bits, as one field (R85, R163). -/
def packAll (bits : List Bool) (s : State) : Res Unit := packBits (bitsValue bits) bits.length s

theorem packBits_eq_packAll (v n : Nat) (s : State) : packBits v n s = packAll (bitsMsb n v) s := by
  rw [packAll, length_bitsMsb, bitsValue_bitsMsb, packBits_mod v le_rfl]

/-- Packing some bits and then others is packing all of them. -/
theorem packAll_append (x y : List Bool) (s : State) :
    packAll (x ++ y) s = (packAll x s).bind fun _ t => packAll y t := by
  have hhead : (bitsValue x * 2 ^ y.length + bitsValue y) / 2 ^ y.length = bitsValue x := by
    rw [Nat.mul_comm, Nat.mul_add_div (Nat.two_pow_pos _), Nat.div_eq_of_lt (bitsValue_lt y), Nat.add_zero]
  have htail : (bitsValue x * 2 ^ y.length + bitsValue y) % 2 ^ y.length = bitsValue y := by
    rw [Nat.mul_comm, Nat.mul_add_mod, Nat.mod_eq_of_lt (bitsValue_lt y)]
  have hlow : ∀ t, packBits (bitsValue x * 2 ^ y.length + bitsValue y) y.length t = packAll y t := fun t => by
    rw [packAll, ← packBits_mod _ le_rfl, htail]
  rw [packAll, bitsValue_append, List.length_append, packBits_add, hhead]
  simp only [packAll, hlow]

/-- `EncodeUnit` packs the bits of the sample's unit (R236). -/
theorem packUnit_eq_packAll (x : Int) (s : State) : packUnit x s = packAll (sampleUnit s.ctx x).bits s := by
  unfold packUnit sampleUnit
  dsimp only
  generalize x - s.ctx.guess = delta
  have h1 := one_le_bitsNeededOf delta.natAbs
  split
  · have hsign : bitsMsb 1 (if 0 ≤ delta then 1 else 0) = [decide (0 ≤ delta)] := by split <;> simp_all [bitsMsb]
    rw [CodeUnit.bits_normal _ _ _ (by omega), Nat.sub_add_cancel h1, ← hsign]
    simp only [packAll_append, ← packBits_eq_packAll]
  · rw [CodeUnit.bits_escape]
    simp only [packAll_append, ← packBits_eq_packAll]

/-! ### Where the destination is full -/

/-- The destination's last byte is filled and seven more bits are taken; the bit after them raises (R162, R163). -/
theorem packAll_overflow {bits : List Bool} {s : State} (hp : PackerOk s.bw) (hr : s.raced = .none)
    (hm : s.mem.wf = true) (hfull : s.bw.cap.toNat < s.bw.emitted.toNat + (s.bw.used.toNat + bits.length) / 8)
    (hadm : Admitted s.plat .write ⟨s.bw.base + s.bw.emitted, s.bw.cap.toNat - s.bw.emitted.toNat⟩) :
    ∃ k u v, packAll bits s = .raise .bufferOverflow 0#32 v ∧ v.mem = u.mem ∧
      s.bw.used.toNat + k = 8 * (s.bw.cap.toNat - s.bw.emitted.toNat) + 7 ∧ Packs (bits.take k) s u := by
  obtain ⟨k, u, stage, hraise, hk, hpacks, -⟩ := packBits_overflow (bitsValue bits) bits.length hp hr hm hfull hadm
  rw [bitsMsb_bitsValue] at hpacks
  exact ⟨k, u, _, hraise, rfl, hk, hpacks⟩

/-- A sample of COMPRESS whose unit completes a byte too many (R236, R238). -/
theorem compressSample_overflow {sh i : Nat} (stats : Bool) {s : State} (hp : PackerOk s.bw) (hr : s.raced = .none)
    (hm : s.mem.wf = true) (hread : Admitted s.plat .read ⟨s.args.arg0 + BitVec.ofNat 32 (2 * i), 2⟩)
    (hfull : s.bw.cap.toNat < s.bw.emitted.toNat +
      (s.bw.used.toNat + (sampleUnit s.ctx (compressSampleAt sh i s)).bits.length) / 8)
    (hadm : Admitted s.plat .write ⟨s.bw.base + s.bw.emitted, s.bw.cap.toNat - s.bw.emitted.toNat⟩) :
    ∃ k u v, compressSample sh stats i s = .raise .bufferOverflow 0#32 v ∧ v.mem = u.mem ∧
      s.bw.used.toNat + k = 8 * (s.bw.cap.toNat - s.bw.emitted.toNat) + 7 ∧
      Packs ((sampleUnit s.ctx (compressSampleAt sh i s)).bits.take k) s u := by
  obtain ⟨k, u, v, hraise, hrest⟩ := packAll_overflow hp hr hm hfull hadm
  rw [← packUnit_eq_packAll, compressSampleAt] at hraise
  exact ⟨k, u, v, by rw [compressSample, memRead16_ok _ hread hr, Res.bind_ok, encodeUnit, hraise]; rfl, hrest⟩

/-- A fault in a sample after the first ones ends COMPRESS's body, with the sample's index (R305). -/
theorem compressBody_raise {sh i : Nat} {stats : Bool} {c : Cause} {info : Word} {s u v : State}
    (hi : i < s.args.arg1.toNat) (hloop : compressLoop sh stats i 0 s = .ok () u)
    (hraise : compressSample sh stats i u = .raise c info v) (hc : c ≠ .busError) :
    compressBody sh stats s = .raise c (BitVec.ofNat 32 i) v := by
  obtain ⟨k, hk⟩ := Nat.exists_eq_add_of_lt hi
  rw [compressBody, hk, Nat.add_assoc, compressLoop_add, hloop, Res.bind_ok, Nat.zero_add, compressLoop, hraise,
    Res.indexed_raise _ _ _ hc]
  rfl

/-- The packer after COMPRESS's first samples: their bits fill the bytes emitted and the stage (R160, R163). -/
theorem AfterSamples.packer {sh i : Nat} {stats : Bool} {s u : State} (hu : AfterSamples sh i stats s u) :
    PackerOk u.bw ∧ u.mem.wf = true ∧ u.bw.base = s.args.arg2 ∧ u.bw.cap = s.args.arg3 ∧
      u.bw.emitted = BitVec.ofNat 32 ((compressBits sh i s).length / 8) ∧
      u.bw.used.toNat = (compressBits sh i s).length % 8 ∧ u.bw.emitted.toNat = (compressBits sh i s).length / 8 := by
  obtain ⟨-, -, hbase, hcap, hemitted, hused, hok, hwf, -⟩ := hu.packs
  replace hemitted : u.bw.emitted.toNat = 0 + (0 + (compressBits sh i s).length) / 8 := hemitted
  replace hused : u.bw.used.toNat = (0 + (compressBits sh i s).length) % 8 := hused
  rw [Nat.zero_add] at hused
  rw [Nat.zero_add, Nat.zero_add] at hemitted
  exact ⟨hok, hwf, hbase, hcap, by rw [← hemitted, BitVec.ofNat_toNat, BitVec.setWidth_eq], hused, hemitted⟩

/-- The room that the packer has left is admitted where all of COMPRESS's destination is. -/
theorem AfterSamples.admitted_room {sh i : Nat} {stats : Bool} {s u : State} (hu : AfterSamples sh i stats s u)
    (hfit : (compressBits sh i s).length / 8 ≤ s.args.arg3.toNat)
    (hwrite : Admitted s.plat .write ⟨s.args.arg2, s.args.arg3.toNat⟩) :
    Admitted u.plat .write ⟨u.bw.base + u.bw.emitted, u.bw.cap.toNat - u.bw.emitted.toNat⟩ := by
  obtain ⟨-, -, hbase, hcap, hemitted, -, hcount⟩ := hu.packer
  rw [hcount, hbase, hcap, hemitted, hu.plat]
  exact hwrite.sub _ _ (by omega)

/-- COMPRESS whose output is longer than its capacity: BufferOverflow in the unit, or the flush, that completes the first
byte too many, once the bits before that byte's last are packed (R239, R305, R307). -/
theorem compress_overflow {sh : Nat} (stats : Bool) {s : State} (h : Unraced s)
    (hshort : s.args.arg3.toNat < ((compressBits sh s.args.arg1.toNat s).length + 7) / 8)
    (hread : Admitted s.plat .read (compressSource s.args))
    (hwrite : Admitted s.plat .write ⟨s.args.arg2, s.args.arg3.toNat⟩) :
    ∃ i v b bits, compressBody sh stats (compressStart stats s) = .raise .bufferOverflow (BitVec.ofNat 32 i) v ∧
      i ≤ s.args.arg1.toNat ∧ (compressBits sh i s).length / 8 ≤ s.args.arg3.toNat ∧
      (i < s.args.arg1.toNat → s.args.arg3.toNat < (compressBits sh (i + 1) s).length / 8) ∧
      bits <+: compressBits sh s.args.arg1.toNat s ∧ bits.length / 8 = s.args.arg3.toNat ∧
      Packs bits (compressStart stats s) { compressStart stats s with mem := v.mem, bw := b } := by
  obtain ⟨i, hi, hbefore, hafter⟩ := exists_last_sample sh s.args.arg3.toNat s
  have hfit : (compressBits sh i s).length / 8 ≤ s.args.arg3.toNat := by omega
  obtain ⟨u, hloop, hu⟩ := compressLoop_first stats h hi
    (by simpa using Admitted.sub hread 0 (2 * i) (by omega)) hfit (by simpa using hwrite.sub 0 _ (by omega))
  obtain ⟨hok, hwf, -, hcap, -, hused, hcount⟩ := hu.packer
  have hroom := hu.admitted_room hfit hwrite
  rcases Nat.lt_or_eq_of_le hi with hlt | rfl
  · have hnext := hafter hlt
    have hsample := hu.sampleAt h hlt hread hfit
    rw [compressBits_succ hlt, List.length_append, ← hu.ctx, ← hsample] at hnext
    obtain ⟨k, w, v, hraise, hmem, hk, hpacks⟩ := compressSample_overflow (sh := sh) stats hok hu.raced hwf
      (by rw [hu.plat, hu.args]; exact hread.sub (2 * i) 2 (by omega)) (by rw [hcap]; omega) hroom
    rw [hcap] at hk
    refine ⟨i, v, w.bw, _, compressBody_raise hlt hloop hraise (by decide), hi, hfit,
      fun _ => by rw [compressBits_succ hlt, List.length_append, ← hu.ctx, ← hsample]; omega, ?_, ?_,
      hmem ▸ hu.packs.trans (packs_of_same_packer hpacks rfl rfl)⟩
    · refine List.IsPrefix.trans ?_ (compressBits_prefix hlt s)
      rw [compressBits_succ hlt, ← hu.ctx, ← hsample]
      exact (List.prefix_append_right_inj _).mpr (List.take_prefix _ _)
    · rw [List.length_append, List.length_take]
      omega
  · have hne : u.bw.used ≠ 0#4 := fun e => by simp [e] at hused; omega
    have hend : u.bw.emitted = u.bw.cap := BitVec.eq_of_toNat_eq (by rw [hcap]; omega)
    refine ⟨_, u, u.bw, _, ?_, le_rfl, hfit, fun hlt => absurd hlt (lt_irrefl _), List.prefix_rfl, by omega, hu.packs⟩
    have hbody : compressBody sh stats (compressStart stats s) = (flushPacker u).indexed u.args.arg1 :=
      congrArg (Res.bind · _) hloop
    rw [hbody, flushPacker_overflow hne hend, Res.indexed_raise _ _ _ (by decide), hu.args, BitVec.ofNat_toNat,
      BitVec.setWidth_eq]

/-- COMPRESS's end: completion with the byte count in RESULT, or fault entry over its write set (R238, R306). -/
def compressEnd (stats : Bool) (r : Res Unit) : State :=
  conclude 0x50 (spoilCompress stats) (fun _ s => (s.setReturned s.bw.emitted).finish) r

/-- COMPRESS past its argument check (R238). -/
theorem exec_compress {sh : Nat} (stats : Bool) (s : State) (hsh : sh ≤ 15) :
    exec (.compress sh stats) s = .next (compressEnd stats (compressBody sh stats (compressStart stats s))) := by
  rw [exec, execCompress, if_neg (by omega)]
  rfl

/-- Settles O40: a unit has at most 20 bits; and past the argument check the overflow ends COMPRESS's body with the bits
that fit packed. -/
theorem compressCapacity : Obligations.CompressCapacity := by
  intro sh stats s units len
  have hunits : unitsBits units = compressBits sh s.args.arg1.toNat s := (compressBits_all sh s).symm
  refine ⟨by rw [hunits]; exact length_compressBits_le sh _ s, fun hsh hr hm hshort hread hwrite hap => ?_⟩
  obtain ⟨i, v, b, bits, hbody, hi, hfit, hnext, hprefix, hcount, hpacks⟩ :=
    compress_overflow stats ⟨hr, hm, hap⟩ (by rw [← hunits]; exact hshort) hread hwrite
  obtain ⟨bytes, hlen, hbits, hst⟩ := stores_of_packs_compressStart hpacks
  rw [hcount] at hlen
  have hexec : exec (.compress sh stats) s =
      .next (faultEntry .bufferOverflow 0x50 (BitVec.ofNat 32 i) (spoilCompress stats v)) := by
    rw [exec_compress stats s hsh, hbody, compressEnd, conclude_raise]
  refine ⟨_, bytes, i, hexec, rfl, rfl, hi, hfit, hnext, rfl, rfl, hlen, ?_, ?_⟩
  · have hle := hprefix.length_le
    rw [hbits, hlen, hunits, List.take_append_of_le_length (by omega), List.prefix_iff_eq_take.mp hprefix, List.take_take]
    congr 1
    omega
  · have hmem : (spoilCompress stats v).mem = v.mem := spoilCompress_mem stats v
    exact stores_transport (m := (spoilCompress stats v).mem) (hmem ▸ hst) rfl

end Sys2Proof.Machine
end

section
/-! ## COMPRESS with and without statistics (R245) -/

namespace Sys2Proof.Machine

/-! ### What the statistics count (R61) -/

/-- The buckets add up to `n` samples, and the escapes are bucket 15 (R245). -/
def StatRegs.Counts (n : Nat) (σ : StatRegs) : Prop :=
  σ.esc = σ.hist[15] ∧ (σ.hist.toList.map BitVec.toNat).sum = n

theorem counts_zero : StatRegs.Counts 0 .zero := ⟨rfl, rfl⟩

/-- The sum of the buckets, bucket by bucket. -/
theorem sum_buckets (hist : Vector Word 16) :
    (hist.toList.map BitVec.toNat).sum = ∑ k : Fin 16, hist[k].toNat := by
  have hofFn : hist = Vector.ofFn fun k => hist[k] := Vector.ext fun k hk => by simp
  conv_lhs => rw [hofFn, Vector.toList_ofFn, List.map_ofFn, List.sum_ofFn]
  rfl

/-- A sample's code adds one to its bucket, and no bucket wraps before the samples do (R238). -/
theorem StatRegs.Counts.count {n code : Nat} {σ : StatRegs} (h : σ.Counts n) (hcode : code ≤ 15)
    (hn : n + 1 < 4294967296) : (σ.count code).Counts (n + 1) := by
  obtain ⟨hesc, hsum⟩ := h
  rw [sum_buckets] at hsum
  constructor
  · simp only [StatRegs.count, Vector.getElem_ofFn, hesc, eq_comm (a := code)]
    rfl
  · have hbucket : ∀ k : Fin 16, (σ.count code).hist[k].toNat =
        σ.hist[k].toNat + if k = ⟨code, by omega⟩ then 1 else 0 := fun k => by
      have hle : σ.hist[k].toNat ≤ n :=
        hsum ▸ Finset.single_le_sum (f := fun k : Fin 16 => σ.hist[k].toNat) (fun _ _ => Nat.zero_le _)
          (Finset.mem_univ k)
      simp only [StatRegs.count, Fin.getElem_fin, Vector.getElem_ofFn, Fin.ext_iff]
      split
      · rw [BitVec.toNat_add, Nat.mod_eq_of_lt]
        · rfl
        · exact Nat.lt_of_le_of_lt (Nat.add_le_add_right hle 1) hn
      · rfl
    rw [sum_buckets, Finset.sum_congr rfl fun k _ => hbucket k, Finset.sum_add_distrib, hsum]
    simp

theorem unitCode_le (x : Int) (c : ContextRegs) : unitCode x c ≤ 15 := by
  unfold unitCode
  dsimp only
  split <;> omega

/-! ### Two runs that differ in their statistics only -/

/-- State `t` is `s` but for its statistics, which are `τ`; those of `s` have counted `n` samples. -/
structure StatTwins (n : Nat) (τ : StatRegs) (s t : State) : Prop where
  counts : s.stat.Counts n
  same : t = { s with stat := τ }

/-- Two runs of a procedure that return the same value or raise the same fault, in states that differ in their statistics
only. -/
inductive Res.Twins {α : Type} (n : Nat) (τ : StatRegs) : Res α → Res α → Prop
  | ok {a : α} {s t : State} (h : StatTwins n τ s t) : Twins n τ (.ok a s) (.ok a t)
  | raise {c : Cause} {info : Word} {s t : State} (h : t = { s with stat := τ }) :
    Twins n τ (.raise c info s) (.raise c info t)

section
variable {α β : Type} {n m : Nat} {τ : StatRegs} {s t : State} {r r' : Res α}

theorem Res.Twins.bind {k k' : α → State → Res β} (h : r.Twins n τ r')
    (hk : ∀ a s t, StatTwins n τ s t → (k a s).Twins m τ (k' a t)) : (r.bind k).Twins m τ (r'.bind k') := by
  cases h with
  | ok h => exact hk _ _ _ h
  | raise h => exact .raise h

theorem Res.Twins.indexed (h : r.Twins n τ r') (i : Word) : (r.indexed i).Twins n τ (r'.indexed i) := by
  cases h with
  | ok h => exact .ok h
  | raise h => exact .raise h

theorem StatTwins.readByte (h : StatTwins n τ s t) (a : Word) :
    (readByte a s).Twins n τ (readByte a t) := by
  obtain ⟨hcounts, rfl⟩ := h
  unfold Machine.readByte
  dsimp only
  split_ifs
  · exact .ok ⟨hcounts, rfl⟩
  · exact .ok ⟨hcounts, rfl⟩
  · exact .raise rfl

theorem StatTwins.writeByte (h : StatTwins n τ s t) (a : Word) (b : Byte) :
    (writeByte a b s).Twins n τ (writeByte a b t) := by
  obtain ⟨hcounts, rfl⟩ := h
  unfold Machine.writeByte
  dsimp only
  split_ifs
  · exact .ok ⟨hcounts, rfl⟩
  · exact .ok ⟨hcounts, rfl⟩
  · exact .raise rfl

theorem StatTwins.memRead16 (h : StatTwins n τ s t) (a : Word) : (memRead16 a s).Twins n τ (memRead16 a t) :=
  (h.readByte a).bind fun _ _ _ h => (h.readByte _).bind fun _ _ _ h => .ok h

/-- The packer's registers take the same values in both. -/
theorem StatTwins.withPacker (h : StatTwins n τ s t) (f : PackerRegs → PackerRegs) :
    StatTwins n τ { s with bw := f s.bw } { t with bw := f t.bw } := by
  obtain ⟨hcounts, rfl⟩ := h
  exact ⟨hcounts, rfl⟩

theorem StatTwins.bw (h : StatTwins n τ s t) : t.bw = s.bw := by rw [h.same]

theorem StatTwins.emit (h : StatTwins n τ s t) (b : Byte) : (emit b s).Twins n τ (emit b t) := by
  unfold Machine.emit
  rw [h.bw]
  split
  · exact .raise h.same
  · exact (h.writeByte _ b).bind fun _ _ _ h => .ok (h.withPacker fun bw => { bw with emitted := bw.emitted + 1#32 })

theorem StatTwins.packBit (h : StatTwins n τ s t) (bit : Bool) : (packBit bit s).Twins n τ (packBit bit t) := by
  have hstaged := h.withPacker fun bw =>
    { bw with stage := BitVec.ofNat 8 (bw.stage.toNat * 2 + bit.toNat), used := bw.used + 1#4 }
  unfold Machine.packBit
  rw [h.bw] at hstaged ⊢
  dsimp only
  split
  · exact (hstaged.emit _).bind fun _ _ _ h => .ok (h.withPacker fun bw => { bw with stage := 0#8, used := 0#4 })
  · exact .ok hstaged

theorem StatTwins.packBits (h : StatTwins n τ s t) (v j : Nat) : (packBits v j s).Twins n τ (packBits v j t) := by
  induction j generalizing s t with
  | zero => exact .ok h
  | succ j ih => exact (h.packBit _).bind fun _ _ _ h => ih h

theorem StatTwins.flushPacker (h : StatTwins n τ s t) : (flushPacker s).Twins n τ (flushPacker t) := by
  unfold Machine.flushPacker
  rw [h.bw]
  split
  · exact .ok h
  · exact (h.emit _).bind fun _ _ _ h => .ok (h.withPacker fun bw => { bw with stage := 0#8, used := 0#4 })

theorem StatTwins.packUnit (h : StatTwins n τ s t) (x : Int) : (packUnit x s).Twins n τ (packUnit x t) := by
  have hctx : t.ctx = s.ctx := by rw [h.same]
  rw [packUnit_eq_packAll, packUnit_eq_packAll, hctx]
  exact h.packBits _ _

/-- The sample is pushed in both runs, and counted in the one (R238). -/
theorem StatTwins.counted (h : StatTwins n τ s t) (x : Int) {code : Nat} (hcode : code ≤ 15)
    (hn : n + 1 < 4294967296) :
    StatTwins (n + 1) τ { s with ctx := s.ctx.push x, stat := s.stat.count code } { t with ctx := t.ctx.push x } := by
  obtain ⟨hcounts, rfl⟩ := h
  exact ⟨hcounts.count hcode hn, rfl⟩

/-- A sample of COMPRESS with statistics and without (R238). -/
theorem StatTwins.compressSample (h : StatTwins n τ s t) (sh i : Nat) (hn : n + 1 < 4294967296) :
    (compressSample sh true i s).Twins (n + 1) τ (compressSample sh false i t) := by
  have hargs : t.args = s.args := by rw [h.same]
  unfold Machine.compressSample
  rw [hargs]
  refine (h.memRead16 _).bind fun v u w h => ?_
  have hctx : w.ctx = u.ctx := by rw [h.same]
  unfold encodeUnit
  rw [Res.bind_assoc, Res.bind_assoc, hctx]
  exact (h.packUnit _).bind fun _ _ _ h => .ok (h.counted _ (unitCode_le _ _) hn)

theorem StatTwins.compressLoop (h : StatTwins n τ s t) (sh k i : Nat) (hn : n + k < 4294967296) :
    (compressLoop sh true k i s).Twins (n + k) τ (compressLoop sh false k i t) := by
  induction k generalizing n i s t with
  | zero => exact .ok h
  | succ k ih =>
    rw [show n + (k + 1) = n + 1 + k by omega] at hn ⊢
    exact ((h.compressSample sh i (by omega)).indexed _).bind fun _ _ _ h => ih h (i + 1) hn

end

/-- COMPRESS with statistics and without: the one counts every sample (R238, R245). -/
theorem compressBody_twins (sh : Nat) (s : State) :
    (compressBody sh true (compressStart true s)).Twins s.args.arg1.toNat s.stat
      (compressBody sh false (compressStart false s)) := by
  have hstart : StatTwins 0 s.stat (compressStart true s) (compressStart false s) := ⟨counts_zero, rfl⟩
  have hloop := hstart.compressLoop sh s.args.arg1.toNat 0 (by rw [Nat.zero_add]; exact s.args.arg1.isLt)
  rw [Nat.zero_add] at hloop
  exact hloop.bind fun _ u v h => by
    have hargs : v.args = u.args := by rw [h.same]
    rw [hargs]
    exact h.flushPacker.indexed _

/-- RESULT takes the same value whatever the statistics are. -/
theorem State.setReturned_withStat (v : Word) (σ : StatRegs) (s : State) :
    State.setReturned v { s with stat := σ } = { s.setReturned v with stat := σ } := by
  unfold State.setReturned
  dsimp only
  split <;> rfl

/-- Twin runs end with the same memory, fault and result, and the statistics of one of them counted (R245). -/
theorem Res.Twins.compressEnd {n : Nat} {τ : StatRegs} {r r' : Res Unit} (h : r.Twins n τ r') {t u : State}
    (ht : compressEnd true r = t) (hu : compressEnd false r' = u) :
    t.mem = u.mem ∧ t.fault = u.fault ∧ t.err = u.err ∧
      (t.fault = false → t.result = u.result ∧ u.stat = τ ∧ t.stat.Counts n) := by
  subst ht hu
  cases h with
  | @ok _ s _ h =>
    obtain ⟨hcounts, rfl⟩ := h
    have hstat : (s.setReturned s.bw.emitted).stat = s.stat := by unfold State.setReturned; split <;> rfl
    simp only [Machine.compressEnd, conclude_ok, State.setReturned_withStat]
    exact ⟨rfl, rfl, rfl, fun _ => ⟨rfl, rfl, hstat ▸ hcounts⟩⟩
  | raise h =>
    subst h
    simp [Machine.compressEnd]

/-- Settles O42: the runs with statistics and without are twins to their end, so the one's statistics are all that
differs. -/
theorem compressStatistics : Obligations.CompressStatistics := by
  intro sh s t u _ ht hu
  by_cases hsh : 15 < sh
  · obtain ⟨hreject, -⟩ := codecShiftRejected sh true s hsh
    obtain ⟨hreject', -⟩ := codecShiftRejected sh false s hsh
    obtain rfl := Host.Outcome.next.inj (hreject.symm.trans ht)
    obtain rfl := Host.Outcome.next.inj (hreject'.symm.trans hu)
    exact ⟨rfl, rfl, rfl, fun hf => nomatch hf⟩
  · rw [exec_compress true s (by omega), Host.Outcome.next.injEq] at ht
    rw [exec_compress false s (by omega), Host.Outcome.next.injEq] at hu
    exact (compressBody_twins sh s).compressEnd ht hu

end Sys2Proof.Machine
end

section
/-! ## The expander's argument checks, EXP_INIT and EXP_DONE (R263, R265 to R267) -/

namespace Sys2Proof.Machine

/-- EXP_INIT with a shift and a format in range is its assignments (R263). -/
theorem exec_expInit {sh fmt : Nat} (s : State) (hsh : sh ≤ 15) (hfmt : fmt ≤ 1) :
    exec (.expInit sh fmt) s =
      .next { s with ctx := .zero, br := .bound .stream 0#32 0#32, exp := .init sh fmt s.args.arg1 }.finish := by
  rw [exec, execExpInit, if_neg (by omega), if_neg (by omega)]

/-- EXP_INIT rejects a bad shift or format before any change (R263). -/
theorem exec_expInit_rejected {sh fmt : Nat} (s : State) (h : 15 < sh ∨ 1 < fmt) :
    exec (.expInit sh fmt) s = .next (faultedUnchanged 3#8 0x60#8 s) := by
  rw [exec, execExpInit]
  by_cases hsh : 15 < sh
  · rw [if_pos hsh]; rfl
  · rw [if_neg hsh, if_pos (h.resolve_left hsh)]; rfl

/-- Settles O50: the checks, then the assignments; a shift fits 4 bits and a format 1. -/
theorem expInitStartsSession : Obligations.ExpInitStartsSession := by
  intro sh fmt s
  refine ⟨exec_expInit_rejected s, fun hsh hfmt => ⟨_, exec_expInit s hsh hfmt, rfl, rfl, ?_, ?_, rfl⟩⟩
  · exact (BitVec.toNat_ofNat fmt 1).trans (Nat.mod_eq_of_lt (by omega))
  · exact (BitVec.toNat_ofNat sh 4).trans (Nat.mod_eq_of_lt (by omega))

theorem exec_expExpand_rejected {s : State} (h : s.remaining < s.args.arg1.toNat) :
    exec .expExpand s = .next (faultedUnchanged 3#8 0x61#8 s) := by
  rw [exec, execExpExpand, if_pos h]
  rfl

theorem exec_expExpand2_rejected {s : State} (h : s.remaining < s.args.arg1.toNat ∨ 65536 < s.args.arg2.toNat) :
    exec .expExpand2 s = .next (faultedUnchanged 3#8 0x62#8 s) := by
  rw [exec, execExpExpand2]
  by_cases hn : s.remaining < s.args.arg1.toNat
  · rw [if_pos hn]; rfl
  · rw [if_neg hn, if_pos (h.resolve_left hn)]; rfl

/-- Settles O53: the checks come first in both commands, and EXP_DONE only sets RESULT. -/
theorem expandRejectsAndDone : Obligations.ExpandRejectsAndDone :=
  fun _ => ⟨exec_expExpand_rejected, exec_expExpand2_rejected, rfl⟩

end Sys2Proof.Machine
end

section
/-! ## An expansion's loop as a sequence of samples (R240, R264 to R266) -/

namespace Sys2Proof.Machine

/-- One sample of frame `f`: a raw one, or a code unit read and executed (R240, R264). -/
def takeSample (f : Frame) (s : State) : Res Unit :=
  if f.isRaw s then rawSample f s
  else (readUnit f s).bind fun u s => acceptSample (unitSample u s.ctx) f s

/-- `k` samples from frame `f` on, a fault with its index (R305). -/
def takeSamples : Nat → Frame → State → Res Unit
  | 0, _, s => .ok () s
  | k + 1, f, s =>
    ((takeSample f { s with task := .sample f }).indexed f.i).bind fun _ s => takeSamples k f.next s

/-- The loop's step is its sample and the end of the iteration. -/
theorem sampleStep_eq_endSample (f : Frame) (s : State) : sampleStep f s = endSample f (takeSample f s) := by
  unfold sampleStep takeSample
  split
  · rfl
  · cases readUnit f s <;> rfl

/-- In a refill wait the loop does nothing more (R212). -/
theorem runSamples_held (k : Nat) {p : HoldPoint} {s : State} (h : s.task = .refill p) : runSamples k s = s := by
  cases k with
  | zero => rfl
  | succ k => rw [runSamples, h]

/-- The loop of a decoding command ends as its samples do: with their fault, their refill wait, or, after the last of
them, completion. -/
theorem runSamples_eq_conclude (k : Nat) {f : Frame} (s : State) (hk : f.i.toNat + k = f.n.toNat) :
    runSamples k (beginSample f s) =
      conclude f.op (spoilDecode f) (fun _ s => completeDecode f s) (takeSamples k f s) := by
  induction k generalizing f s with
  | zero => rw [runSamples, beginSample, if_pos (BitVec.eq_of_toNat_eq hk), takeSamples, conclude_ok]
  | succ k ih =>
    have hi : f.i.toNat < f.n.toNat := by omega
    rw [runSamples_beginSample k hi, sampleStep_eq_endSample, takeSamples]
    cases takeSample f { s with task := .sample f } with
    | ok _ u =>
      have hnext : f.next.i.toNat + k = f.next.n.toNat := by
        rw [Frame.next_i_toNat hi]
        exact (Nat.add_right_comm _ _ _).trans hk
      exact ih u hnext
    | raise c info u => exact runSamples_idle k rfl
    | hold p u => exact runSamples_held k rfl

/-- `a + b` samples are `a` samples and then `b` more. -/
theorem takeSamples_add (a b : Nat) (f : Frame) (s : State) :
    takeSamples (a + b) f s =
      (takeSamples a f s).bind fun _ s => takeSamples b { f with i := f.i + BitVec.ofNat 32 a } s := by
  induction a generalizing f s with
  | zero => simp [takeSamples]
  | succ a ih =>
    have hi : f.next.i + BitVec.ofNat 32 a = f.i + BitVec.ofNat 32 (a + 1) := by
      rw [Nat.add_comm a, BitVec.ofNat_add, ← BitVec.add_assoc]; rfl
    rw [Nat.add_right_comm, takeSamples, takeSamples, Res.bind_assoc]
    congr 1
    funext _ u
    rw [ih, hi]
    rfl

/-- A command that is idle without a fault has returned a value. -/
theorem ok_of_conclude_idle {α : Type} {op : Nat} {spoil : State → State} {done : α → State → State} {r : Res α}
    (hi : (conclude op spoil done r).task = .idle) (hf : (conclude op spoil done r).fault = false) :
    ∃ x u, r = .ok x u := by
  cases r with
  | ok x u => exact ⟨x, u, rfl⟩
  | raise c info u => exact absurd hf (by simp [faultEntry])
  | hold p u => exact absurd hi (by simp)

/-! ### What a command's samples do to its session and its stream -/

/-- From `s₀` on, `k` samples of a session were taken to reach `s`, perhaps with reads of the next one: the stream unit
has moved on within its stream, and that many fewer samples remain (R211, R265). -/
structure Progress (s₀ : State) (k : Nat) (s : State) : Prop where
  raced : s.raced = s₀.raced
  kind : s.st.kind = s₀.st.kind
  base : s.st.base = s₀.st.base
  size : s.st.size = s₀.st.size
  pos_ge : s₀.st.pos.toNat ≤ s.st.pos.toNat
  pos_le : s.st.pos.toNat ≤ s.st.size.toNat
  left : k ≤ s₀.remaining → s.remaining + k = s₀.remaining

theorem Progress.refl {s : State} (h : s.st.pos.toNat ≤ s.st.size.toNat) : Progress s 0 s :=
  ⟨rfl, rfl, rfl, rfl, le_rfl, h, fun _ => rfl⟩

section
variable {s₀ s t : State} {k : Nat}

/-- Progress shows in the stream unit, the session and the races alone. -/
theorem Progress.congr (h : Progress s₀ k s) (hr : t.raced = s.raced) (hst : t.st = s.st) (he : t.exp = s.exp) :
    Progress s₀ k t := by
  obtain ⟨hraced, hkind, hbase, hsize, hge, hle, hleft⟩ := h
  rw [← hst] at hkind hbase hsize hge hle
  refine ⟨hr.trans hraced, hkind, hbase, hsize, hge, hle, ?_⟩
  unfold State.remaining at *
  rwa [he]

/-- A byte was delivered from short of the stream's end (R211). -/
theorem Progress.moved (h : Progress s₀ k s) (hne : s.st.pos ≠ s.st.size) (idx : BitVec 17) :
    Progress s₀ k { s with st := { s.st with idx := idx, pos := s.st.pos + 1#32 } } := by
  obtain ⟨hraced, hkind, hbase, hsize, hge, hle, hleft⟩ := h
  have hpos : (s.st.pos + 1#32).toNat = s.st.pos.toNat + 1 := by bv_omega
  have hlt : s.st.pos.toNat ≠ s.st.size.toNat := fun e => hne (BitVec.eq_of_toNat_eq e)
  refine ⟨hraced, hkind, hbase, hsize, ?_, ?_, hleft⟩
  · show _ ≤ (s.st.pos + 1#32).toNat
    omega
  · show (s.st.pos + 1#32).toNat ≤ _
    rw [hpos]
    show _ ≤ s.st.size.toNat
    omega

/-- A session that is bound has the samples from EXP_POS on to produce (R265). -/
theorem remaining_of_bound (h : s.exp.state ≠ .unbound) : s.remaining = s.exp.nSamples.toNat - s.exp.pos.toNat := by
  unfold State.remaining
  split
  · next hs => exact absurd hs h
  · rfl

/-- A produced sample leaves one fewer to come (R261, R265). -/
theorem remaining_advance (h : 1 ≤ s.remaining) :
    State.remaining { s with exp := s.exp.advance } + 1 = s.remaining := by
  have hs : s.exp.state ≠ .unbound := fun hu => by simp [State.remaining, hu] at h
  have hadv : s.exp.advance.state ≠ .unbound := by unfold ExpanderRegs.advance; dsimp only; split <;> simp
  rw [remaining_of_bound hs] at h ⊢
  rw [remaining_of_bound (s := { s with exp := s.exp.advance }) hadv]
  show s.exp.nSamples.toNat - (s.exp.pos + 1#32).toNat + 1 = _
  bv_omega

theorem Progress.advance (h : Progress s₀ k s) : Progress s₀ (k + 1) { s with exp := s.exp.advance } := by
  obtain ⟨hraced, hkind, hbase, hsize, hge, hle, hleft⟩ := h
  refine ⟨hraced, hkind, hbase, hsize, hge, hle, fun hk => ?_⟩
  have hs := hleft (by omega)
  have hadv := remaining_advance (s := s) (by omega)
  omega

/-- What a MEM stream has still to deliver later, it had still to deliver (R91). -/
theorem Progress.undelivered_sub (h : Progress s₀ k s) {a : Word} (ha : (undelivered s).has a = true) :
    (undelivered s₀).has a = true := by
  obtain ⟨-, hkind, hbase, hsize, hge, hle, -⟩ := h
  unfold undelivered at *
  rw [hkind, hbase, hsize] at ha
  rw [hsize] at hle
  cases hk : s₀.st.kind <;> simp only [hk] at ha ⊢
  · exact ha
  · have hpos : s₀.st.base + s.st.pos =
        s₀.st.base + s₀.st.pos + BitVec.ofNat 32 (s.st.pos.toNat - s₀.st.pos.toNat) := by bv_omega
    rw [hpos] at ha
    exact Span.has_of_sub _ _ _ _ a (by omega) ha
  · exact ha

end

/-! ### The same samples under other arguments -/

/-- `t` is `s` but for what tells one command from another: ARG0 to ARG3, which are `a`, RESULT, and the running
command. -/
def SameButCommand (a : ArgRegs) (s t : State) : Prop :=
  ∃ r τ, t = { s with args := a, result := r, task := τ }

/-- Two runs abreast: `s` has taken `k` samples from `s₀` on, and `t` is `s` with the arguments `a`. -/
structure Abreast (s₀ : State) (a : ArgRegs) (k : Nat) (s t : State) : Prop where
  progress : Progress s₀ k s
  same : SameButCommand a s t

/-- Where `r` returns, `r'` returns the same value, and the two runs are abreast after `k` samples. -/
def Res.Follows {α : Type} (s₀ : State) (a : ArgRegs) (k : Nat) (r r' : Res α) : Prop :=
  match r with
  | .ok x u => ∃ v, r' = .ok x v ∧ Abreast s₀ a k u v
  | _ => True

section
variable {α β : Type} {s₀ s t : State} {a : ArgRegs} {k m : Nat} {r r' : Res α}

theorem Res.Follows.bind {c c' : α → State → Res β} (h : r.Follows s₀ a k r')
    (hc : ∀ x u v, Abreast s₀ a k u v → (c x u).Follows s₀ a m (c' x v)) :
    (r.bind c).Follows s₀ a m (r'.bind c') := by
  cases r with
  | ok x u =>
    obtain ⟨v, rfl, huv⟩ := h
    exact hc x u v huv
  | raise | hold => trivial

theorem Res.Follows.indexed (h : r.Follows s₀ a k r') (i j : Word) : (r.indexed i).Follows s₀ a k (r'.indexed j) := by
  cases r with
  | ok x u =>
    obtain ⟨v, rfl, huv⟩ := h
    exact ⟨v, rfl, huv⟩
  | raise | hold => trivial

theorem Abreast.ok (h : Abreast s₀ a k s t) (x : α) : (Res.ok x s).Follows s₀ a k (.ok x t) := ⟨t, rfl, h⟩

/-! #### The memory port and the stream unit -/

theorem Abreast.readByte (h : Abreast s₀ a k s t) (x : Word) :
    (readByte x s).Follows s₀ a k (readByte x t) := by
  obtain ⟨hp, r, τ, rfl⟩ := h
  unfold Machine.readByte
  dsimp only
  split_ifs
  · exact ⟨_, rfl, hp.congr rfl rfl rfl, r, τ, rfl⟩
  · exact ⟨_, rfl, hp, r, τ, rfl⟩
  · trivial

theorem Abreast.writeByte (h : Abreast s₀ a k s t) (x : Word) (b : Byte) :
    (writeByte x b s).Follows s₀ a k (writeByte x b t) := by
  obtain ⟨hp, r, τ, rfl⟩ := h
  unfold Machine.writeByte
  dsimp only
  split_ifs
  · exact ⟨_, rfl, hp.congr rfl rfl rfl, r, τ, rfl⟩
  · exact ⟨_, rfl, hp.congr rfl rfl rfl, r, τ, rfl⟩
  · trivial

theorem Abreast.memWrite (h : Abreast s₀ a k s t) (n : Nat) (x : Word) (v : Nat) :
    (memWrite n x v s).Follows s₀ a k (memWrite n x v t) := by
  induction n generalizing x v s t with
  | zero => exact h.ok ()
  | succ n ih => exact (h.writeByte _ _).bind fun _ _ _ h => ih h _ _

theorem Abreast.st (h : Abreast s₀ a k s t) : t.st = s.st := by obtain ⟨-, _, _, rfl⟩ := h; rfl

theorem Abreast.br (h : Abreast s₀ a k s t) : t.br = s.br := by obtain ⟨-, _, _, rfl⟩ := h; rfl

theorem Abreast.ctx (h : Abreast s₀ a k s t) : t.ctx = s.ctx := by obtain ⟨-, _, _, rfl⟩ := h; rfl

theorem Abreast.exp (h : Abreast s₀ a k s t) : t.exp = s.exp := by obtain ⟨-, _, _, rfl⟩ := h; rfl

/-- StreamGet delivers the same byte wherever it is called from (R211). -/
theorem Abreast.streamGet (h : Abreast s₀ a k s t) (p q : HoldPoint) :
    (streamGet p s).Follows s₀ a k (streamGet q t) := by
  unfold Machine.streamGet
  rw [h.st]
  cases s.st.kind with
  | none => trivial
  | mem =>
    dsimp only
    split
    · trivial
    · next hne =>
      have hread := h.readByte (s.st.base + s.st.pos)
      rcases readByte_cases (s.st.base + s.st.pos) s with ⟨-, b, d, e⟩ | ⟨-, e⟩ <;> rw [e] at hread ⊢
      · obtain ⟨_, hv, hp, r, τ, rfl⟩ := hread
        rw [hv]
        exact ⟨_, rfl, hp.moved hne s.st.idx, r, τ, rfl⟩
      · trivial
  | chunk =>
    dsimp only
    split_ifs with hne
    · trivial
    · trivial
    · obtain ⟨hp, r, τ, rfl⟩ := h
      exact ⟨_, rfl, hp.moved hne (s.st.idx + 1#17), r, τ, rfl⟩

/-! #### The unpacker -/

theorem Abreast.brFetch (h : Abreast s₀ a k s t) (p q : HoldPoint) : (brFetch p s).Follows s₀ a k (brFetch q t) := by
  unfold Machine.brFetch
  rw [h.br]
  cases s.br.mode with
  | flat =>
    dsimp only
    split
    · trivial
    · exact h.readByte _
  | stream => exact h.streamGet p q
  | none => trivial

theorem Abreast.loadByte (h : Abreast s₀ a k s t) (b : Byte) : Abreast s₀ a k (loadByte b s) (loadByte b t) := by
  obtain ⟨hp, r, τ, rfl⟩ := h
  unfold Machine.loadByte countFetch
  dsimp only
  split <;> exact ⟨hp.congr rfl rfl rfl, r, τ, rfl⟩

theorem Abreast.dropBit (h : Abreast s₀ a k s t) : Abreast s₀ a k (dropBit s) (dropBit t) := by
  obtain ⟨hp, r, τ, rfl⟩ := h
  exact ⟨hp.congr rfl rfl rfl, r, τ, rfl⟩

theorem Abreast.needBit (h : Abreast s₀ a k s t) (p q : HoldPoint) : (needBit p s).Follows s₀ a k (needBit q t) := by
  unfold Machine.needBit
  rw [h.br]
  split
  · exact (h.brFetch p q).bind fun b _ _ h => (h.loadByte b).ok ()
  · exact h.ok ()

/-- The same bits are read wherever a refill would hold (R183). -/
theorem Abreast.unpackFrom (h : Abreast s₀ a k s t) (p q : Nat → Nat → HoldPoint) (n r : Nat) :
    (unpackFrom p n r s).Follows s₀ a k (unpackFrom q n r t) := by
  induction n generalizing r s t with
  | zero => exact h.ok r
  | succ n ih =>
    refine (h.needBit _ _).bind fun _ u v h => ?_
    have hbit : headBit v = headBit u := by rw [headBit, headBit, h.br]
    rw [hbit]
    exact ih h.dropBit _

/-- The same code unit is read in either frame (R240). -/
theorem Abreast.readUnit (h : Abreast s₀ a k s t) (f g : Frame) : (readUnit f s).Follows s₀ a k (readUnit g t) := by
  refine (h.unpackFrom _ _ 4 0).bind fun code u v h => ?_
  split
  · exact (h.unpackFrom _ _ 16 0).bind fun raw _ _ h => h.ok (CodeUnit.escape raw)
  · exact (h.unpackFrom _ _ 1 0).bind fun sign _ _ h =>
      (h.unpackFrom _ _ (code + 1) 0).bind fun mag _ _ h => h.ok (CodeUnit.normal code (sign == 1) mag)

/-! #### A sample -/

/-- Two frames of a session whose current samples go to the same place. -/
structure Frame.Alongside (f g : Frame) : Prop where
  cmd : g.cmd = f.cmd
  session : ∀ sh, f.cmd ≠ .lexpand sh
  address : g.address = f.address

/-- A sample's output is where the one before it ends (R88). -/
theorem Frame.next_address (f : Frame) : f.next.address = f.address + BitVec.ofNat 32 f.stride := by
  show f.target + BitVec.ofNat 32 (f.stride * (f.i + 1#32).toNat) =
    f.target + BitVec.ofNat 32 (f.stride * f.i.toNat) + _
  simp only [BitVec.ofNat_mul, BitVec.ofNat_toNat, BitVec.setWidth_eq, BitVec.mul_add, BitVec.mul_one, BitVec.add_assoc]

theorem Frame.stride_congr {f g : Frame} (h : g.cmd = f.cmd) : g.stride = f.stride := by
  rw [Frame.stride, h, Frame.stride]

theorem Frame.Alongside.next {f g : Frame} (h : f.Alongside g) : f.next.Alongside g.next :=
  ⟨h.cmd, h.session, by rw [Frame.next_address, Frame.next_address, h.address, Frame.stride_congr h.cmd]⟩

variable {f g : Frame}

theorem Frame.Alongside.isRaw (h : f.Alongside g) (hst : Abreast s₀ a k s t) : g.isRaw t = f.isRaw s := by
  rw [Frame.isRaw, h.cmd, hst.exp, Frame.isRaw]

theorem Frame.Alongside.shift (h : f.Alongside g) (hst : Abreast s₀ a k s t) : g.shift t = f.shift s := by
  rw [Frame.shift, h.cmd, hst.exp, Frame.shift]

theorem Abreast.advance (h : Abreast s₀ a k s t) :
    Abreast s₀ a (k + 1) { s with exp := s.exp.advance } { t with exp := t.exp.advance } := by
  obtain ⟨hp, r, τ, rfl⟩ := h
  exact ⟨hp.advance, r, τ, rfl⟩

/-- The same output, and both sessions advance (R265, R266). -/
theorem Abreast.writeSample (h : Abreast s₀ a k s t) (hfg : f.Alongside g) (y : Int) :
    (writeSample y f s).Follows s₀ a (k + 1) (writeSample y g t) := by
  unfold Machine.writeSample
  rw [hfg.cmd, hfg.address]
  split
  · next sh hc => exact absurd hc (hfg.session sh)
  · exact (h.memWrite _ _ _).bind fun _ _ _ h => h.advance.ok ()
  · exact (h.memWrite _ _ _).bind fun _ _ _ h => (h.memWrite _ _ _).bind fun _ _ _ h => h.advance.ok ()

theorem Abreast.push (h : Abreast s₀ a k s t) (x : Int) :
    Abreast s₀ a k { s with ctx := s.ctx.push x } { t with ctx := t.ctx.push x } := by
  obtain ⟨hp, r, τ, rfl⟩ := h
  exact ⟨hp.congr rfl rfl rfl, r, τ, rfl⟩

theorem Abreast.acceptSample (h : Abreast s₀ a k s t) (hfg : f.Alongside g) (x : Int) :
    (acceptSample x f s).Follows s₀ a (k + 1) (acceptSample x g t) := by
  unfold Machine.acceptSample
  rw [hfg.shift h]
  split
  · exact (h.push x).writeSample hfg _
  · trivial

theorem Abreast.rawSample (h : Abreast s₀ a k s t) (hfg : f.Alongside g) :
    (rawSample f s).Follows s₀ a (k + 1) (rawSample g t) :=
  (h.streamGet _ _).bind fun _ _ _ h => (h.streamGet _ _).bind fun _ _ _ h => h.writeSample hfg _

theorem Abreast.takeSample (h : Abreast s₀ a k s t) (hfg : f.Alongside g) :
    (takeSample f s).Follows s₀ a (k + 1) (takeSample g t) := by
  unfold Machine.takeSample
  rw [hfg.isRaw h]
  split
  · exact h.rawSample hfg
  · refine (h.readUnit f g).bind fun x _ _ h => ?_
    rw [h.ctx]
    exact h.acceptSample hfg _

theorem Abreast.withTask (h : Abreast s₀ a k s t) (τ τ' : Task) :
    Abreast s₀ a k { s with task := τ } { t with task := τ' } := by
  obtain ⟨hp, r, _, rfl⟩ := h
  exact ⟨hp.congr rfl rfl rfl, r, τ', rfl⟩

/-- Samples are the same in either frame, under either command's arguments. -/
theorem Abreast.takeSamples (h : Abreast s₀ a k s t) (hfg : f.Alongside g) (m : Nat) :
    (takeSamples m f s).Follows s₀ a (k + m) (takeSamples m g t) := by
  induction m generalizing k s t f g with
  | zero => exact h.ok ()
  | succ m ih =>
    rw [Nat.add_comm m, ← Nat.add_assoc, Nat.add_comm 1]
    exact (((h.withTask (.sample f) (.sample g)).takeSample hfg).indexed _ _).bind fun _ _ _ h => ih h hfg.next

end

end Sys2Proof.Machine
end

section
/-! ## R268: two expansions one after the other are one expansion -/

namespace Sys2Proof.Machine

/-- Parts of spans apart are apart (R91). -/
theorem meets_of_sub {r r' t t' : Span} (h : r.meets t = false) (hr : ∀ x, r'.has x = true → r.has x = true)
    (ht : ∀ x, t'.has x = true → t.has x = true) : r'.meets t' = false := by
  refine Bool.eq_false_iff.mpr fun hm => ?_
  have hdisjoint : ∀ x, r'.has x = true → t'.has x = true → False := fun x hx hx' => by
    have := Span.not_meets h (hr x hx)
    rw [ht x hx'] at this
    cases this
  simp only [Span.meets, Bool.and_eq_true, Bool.or_eq_true, decide_eq_true_eq] at hm
  obtain ⟨⟨hr0, ht0⟩, hin | hin⟩ := hm
  · exact hdisjoint _ hin (Span.has_base _ _ ht0)
  · exact hdisjoint _ (Span.has_base _ _ hr0) hin

/-- The frame of a session's command `cmd` with the arguments `a`, before its first sample (R265, R266). -/
def expansion (cmd : DecodeCmd) (a : ArgRegs) : Frame := { cmd := cmd, target := a.arg0, n := a.arg1, i := 0#32 }

/-- The frame of an expansion is its instruction's and its volume's (R265, R266). -/
theorem exists_expandsBy {i : Instr} {stride : Nat} {vol : Word}
    (hi : (i = .expExpand ∧ stride = 2) ∨ (i = .expExpand2 ∧ stride = 8)) (hvol : i = .expExpand2 → vol.toNat ≤ 65536) :
    ∃ cmd, (∀ a, (expansion cmd a).stride = stride) ∧
      ∀ s : State, s.args.arg2 = vol → ExpandsBy i (expansion cmd s.args) s := by
  rcases hi with ⟨rfl, rfl⟩ | ⟨rfl, rfl⟩
  · exact ⟨.expand, fun _ => rfl, fun s _ => .inl ⟨rfl, rfl⟩⟩
  · refine ⟨.expand2 vol, fun _ => rfl, fun s hs => .inr ⟨rfl, ?_, hs ▸ hvol rfl⟩⟩
    rw [← hs]
    rfl

/-- An expansion that does not fault has passed its argument checks (R265, R266). -/
theorem expand_checks_of_no_fault {i : Instr} {s t : State} (hi : i = .expExpand ∨ i = .expExpand2)
    (h : exec i s = .next t) (hf : t.fault = false) :
    s.args.arg1.toNat ≤ s.remaining ∧ (i = .expExpand2 → s.args.arg2.toNat ≤ 65536) := by
  have hreject : ∀ {op}, exec i s ≠ .next (faultedUnchanged 3#8 op s) := fun e => by
    obtain rfl := Host.Outcome.next.inj (h.symm.trans e)
    cases hf
  rcases hi with rfl | rfl
  · exact ⟨Nat.le_of_not_lt fun hn => hreject (exec_expExpand_rejected hn), fun e => nomatch e⟩
  · exact ⟨Nat.le_of_not_lt fun hn => hreject (exec_expExpand2_rejected (.inl hn)),
      fun _ => Nat.le_of_not_lt fun hn => hreject (exec_expExpand2_rejected (.inr hn))⟩

section
variable {i : Instr} {f : Frame} {s t : State}

/-- An expansion is its samples and their conclusion. -/
theorem exec_expand_eq_conclude (h : ExpandsBy i f s) (hn : s.args.arg1.toNat ≤ s.remaining)
    (hap : (undelivered s).meets f.output = false) :
    exec i s = .next (conclude f.op (spoilDecode f) (fun _ s => completeDecode f s)
      (takeSamples s.args.arg1.toNat f s)) := by
  rw [exec_expand_apart h hn hap, runSamples_eq_conclude]
  rw [h.index, h.n]
  exact Nat.zero_add _

end

/-- Samples move the session and its stream on (R211, R265). -/
theorem progress_of_takeSamples {m : Nat} {f : Frame} {s u : State} (hsession : ∀ sh, f.cmd ≠ .lexpand sh)
    (hpos : s.st.pos.toNat ≤ s.st.size.toNat) (h : takeSamples m f s = .ok () u) : Progress s m u := by
  have hstart : Abreast s s.args 0 s s := ⟨Progress.refl hpos, s.result, s.task, rfl⟩
  have hrun := hstart.takeSamples (f := f) (g := f) ⟨rfl, hsession, rfl⟩ m
  rw [h] at hrun
  obtain ⟨_, _, hend⟩ := hrun
  rw [← Nat.zero_add m]
  exact hend.progress

/-- An expansion that ends without a fault has taken all its samples, and RESULT is EXP_POS (R265). -/
theorem exec_expand_completed {i : Instr} {f : Frame} {s t : State} (h : ExpandsBy i f s)
    (hn : s.args.arg1.toNat ≤ s.remaining) (hap : (undelivered s).meets f.output = false) (hr : s.raced = .none)
    (hpos : s.st.pos.toNat ≤ s.st.size.toNat) (he : exec i s = .next t) (ht : t.task = .idle) (hf : t.fault = false) :
    ∃ u, takeSamples s.args.arg1.toNat f s = .ok () u ∧ Progress s s.args.arg1.toNat u ∧
      t = { u with result := u.exp.pos, task := .idle } := by
  rw [exec_expand_eq_conclude h hn hap] at he
  obtain rfl := Host.Outcome.next.inj he
  obtain ⟨_, u, hu⟩ := ok_of_conclude_idle ht hf
  have hprogress := progress_of_takeSamples h.cmd hpos hu
  refine ⟨u, hu, hprogress, ?_⟩
  rw [hu, conclude_ok, completeDecode_expand h.cmd (hprogress.raced.trans hr)]

/-- The samples of two commands, one after the other, are those of one command whose frame runs alongside theirs. -/
theorem takeSamples_of_chunks {m1 m2 : Nat} {f1 f2 f : Frame} {a1 a2 a : ArgRegs} {r : Word} {τ : Task}
    {s u1 u2 : State} (hpos : s.st.pos.toNat ≤ s.st.size.toNat)
    (h1 : takeSamples m1 f1 { s with args := a1 } = .ok () u1)
    (h2 : takeSamples m2 f2 { u1 with args := a2, result := r, task := τ } = .ok () u2)
    (hf1 : f1.Alongside f) (hf2 : f2.Alongside { f with i := f.i + BitVec.ofNat 32 m1 }) :
    ∃ v, takeSamples (m1 + m2) f { s with args := a } = .ok () v ∧ Abreast s a (m1 + m2) u2 v := by
  have hstart : Abreast s a 0 { s with args := a1 } { s with args := a } :=
    ⟨(Progress.refl hpos).congr rfl rfl rfl, s.result, s.task, rfl⟩
  have hrun1 := hstart.takeSamples hf1 m1
  rw [h1] at hrun1
  obtain ⟨v1, hv1, hp1, r', τ', rfl⟩ := hrun1
  have hmiddle : Abreast s a (0 + m1) { u1 with args := a2, result := r, task := τ }
      { u1 with args := a, result := r', task := τ' } := ⟨hp1.congr rfl rfl rfl, r', τ', rfl⟩
  have hrun2 := hmiddle.takeSamples hf2 m2
  rw [h2, Nat.zero_add] at hrun2
  obtain ⟨v2, hv2, hend⟩ := hrun2
  exact ⟨v2, by rw [takeSamples_add, hv1, Res.bind_ok, hv2], hend⟩

theorem remaining_lt (s : State) : s.remaining < 4294967296 := by
  unfold State.remaining
  split
  · decide
  · exact Nat.lt_of_le_of_lt (Nat.sub_le _ _) s.exp.nSamples.isLt

theorem expansion_address (cmd : DecodeCmd) (a : ArgRegs) : (expansion cmd a).address = a.arg0 := by
  simp [Frame.address, expansion]

/-- The frame of the second of two commands runs alongside that of the single one from sample `n1` on (R268). -/
theorem expansion_alongside {cmd : DecodeCmd} (hsession : ∀ sh, cmd ≠ .lexpand sh) {a b : ArgRegs} {n1 : Word}
    (hb : b.arg0 = a.arg0 + BitVec.ofNat 32 ((expansion cmd a).stride * n1.toNat)) :
    (expansion cmd b).Alongside { expansion cmd a with i := 0#32 + BitVec.ofNat 32 n1.toNat } := by
  refine ⟨rfl, hsession, ?_⟩
  rw [expansion_address, hb]
  simp [Frame.address, expansion, Frame.stride]

/-- The bytes of each of two runs of samples are among those of both (R268). -/
theorem chunks_sub (t : Word) (stride n1 n2 : Nat) (x : Word) :
    ((Span.mk t (stride * n1)).has x = true → (Span.mk t (stride * (n1 + n2))).has x = true) ∧
      ((Span.mk (t + BitVec.ofNat 32 (stride * n1)) (stride * n2)).has x = true →
        (Span.mk t (stride * (n1 + n2))).has x = true) := by
  have hsize : stride * (n1 + n2) = stride * n1 + stride * n2 := Nat.mul_add _ _ _
  refine ⟨fun hx => ?_, Span.has_of_sub t _ _ _ x (by omega)⟩
  exact Span.has_of_sub t _ 0 (stride * n1) x (by omega) (by simpa using hx)

/-- Settles O54. The first command's samples are the single command's first `n1`, in a state that differs only in what
tells the commands apart; its remaining ones are the second command's. -/
theorem chunkInvariance : Obligations.ChunkInvariance := by
  intro i stride s s1 s2 t vol a3 n1 n2 hi _ hr hst hap he1 ht1 hf1 he2 ht2 hf2
  obtain ⟨hpos, -⟩ := hst
  have hexp : i = .expExpand ∨ i = .expExpand2 := hi.imp And.left And.left
  obtain ⟨hn1, hvol⟩ := expand_checks_of_no_fault hexp he1 hf1
  obtain ⟨hn2, -⟩ := expand_checks_of_no_fault hexp he2 hf2
  obtain ⟨cmd, hstride, hby⟩ := exists_expandsBy (vol := vol) hi hvol
  have hsession : ∀ sh, cmd ≠ .lexpand sh := (hby { s with args := ⟨t, n1, vol, a3⟩ } rfl).cmd
  have hout : ∀ a : ArgRegs, (expansion cmd a).output = ⟨a.arg0, stride * a.arg1.toNat⟩ := fun a => by
    rw [Frame.output, hstride]; rfl
  obtain ⟨u1, hu1, hp1, rfl⟩ := exec_expand_completed (hby _ rfl) hn1
    (by rw [hout]; exact meets_of_sub hap (fun _ h => h) fun x => (chunks_sub t _ _ _ x).1) hr hpos he1 ht1 hf1
  obtain ⟨u2, hu2, hp2, rfl⟩ := exec_expand_completed (hby _ rfl) hn2
    (by rw [hout]; exact meets_of_sub hap (fun _ => hp1.undelivered_sub) fun x => (chunks_sub t _ _ _ x).2)
    (hp1.raced.trans hr) hp1.pos_le he2 ht2 hf2
  obtain ⟨hsum, hn⟩ : (n1 + n2).toNat = n1.toNat + n2.toNat ∧ n1.toNat + n2.toNat ≤ s.remaining := by
    have hleft : u1.remaining + n1.toNat = s.remaining := hp1.left hn1
    replace hn2 : n2.toNat ≤ u1.remaining := hn2
    have hlt := remaining_lt s
    bv_omega
  obtain ⟨v, hv, hpv, r, τ, rfl⟩ := takeSamples_of_chunks (s := s)
    (f := expansion cmd ⟨t, n1 + n2, vol, a3⟩) (a := ⟨t, n1 + n2, vol, a3⟩) hpos hu1 hu2
    ⟨rfl, hsession, by simp only [expansion_address]⟩ (expansion_alongside hsession (by rw [hstride]))
  rw [exec_expand_eq_conclude (hby { s with args := ⟨t, n1 + n2, vol, a3⟩ } rfl) (hsum ▸ hn)
    (by rw [hout]; exact hsum ▸ hap), hsum, hv, conclude_ok]
  exact congrArg Host.Outcome.next (completeDecode_expand hsession (hpv.raced.trans hr))

end Sys2Proof.Machine
end

section
/-! ## NOP (R290) -/

namespace Sys2Proof.Machine

/-- Settles O15: NOP is its completion. -/
theorem nopChangesNothing : Obligations.NopChangesNothing := fun _ => rfl

end Sys2Proof.Machine
end

section
/-! ## The footprint table (R294) -/

namespace Sys2Proof.Machine

/-! ### However a procedure ends -/

/-- The procedure ends in `p` when it returns, and in `e` when it raises or is held. -/
def Res.Ends {α : Type} (p e : State → Prop) (r : Res α) : Prop :=
  match r with
  | .ok _ s => p s
  | .raise _ _ s => e s
  | .hold _ s => e s

section
variable {α β : Type} {p p' e e' : State → Prop} {r : Res α}

theorem Res.Ends.imp (h : r.Ends p e) (hp : ∀ t, p t → p' t) (he : ∀ t, e t → e' t) : r.Ends p' e' := by
  cases r with
  | ok a t => exact hp t h
  | raise c info t => exact he t h
  | hold q t => exact he t h

theorem Res.Ends.bind {k : α → State → Res β} (h : r.Ends p e) (hk : ∀ a t, p t → (k a t).Ends p' e) :
    (r.bind k).Ends p' e := by
  cases r with
  | ok a t => exact hk a t h
  | raise c info t => exact h
  | hold q t => exact h

theorem Res.Ends.indexed (h : r.Ends p e) (i : Word) : (r.indexed i).Ends p e := by
  cases r with
  | ok a t => exact h
  | raise c info t => exact h
  | hold q t => exact h

/-- What holds of a command's end: of its completion, of its fault entry and of its refill wait (R300, R306, R212). -/
theorem Res.Ends.conclude {P : State → Prop} {op : Nat} {spoil : State → State} {done : α → State → State}
    (h : r.Ends p e) (hdone : ∀ a t, p t → P (done a t))
    (hraise : ∀ c info t, e t → P (faultEntry c op info (spoil t)))
    (hhold : ∀ q t, e t → P { t with task := .refill q }) : P (Machine.conclude op spoil done r) := by
  cases r with
  | ok a t => exact hdone a t h
  | raise c info t => exact hraise c info t h
  | hold q t => exact hhold q t h

end

/-! ### The groups of the table's columns -/

/-- A group of the state that a row of the footprint table names, or that none names. -/
inductive Group where
  /-- ARG0 to ARG3, CHUNK, STATUS.LOST and the host's side, in no row. -/
  | inputs
  /-- Which bytes other agents access later, and those of them that were written (R351): in no row. -/
  | watch
  | acc
  | bw
  /-- "BR*". -/
  | br
  /-- BR_MODE, which of "BR*" only a binding writes. -/
  | brMode
  | st
  | refill
  | ctx
  /-- The expander but for EXP_STATE, which every fault writes (R306). -/
  | exp
  | result
  | stat
  | mem

/-- The group is in `t` as in `s`. Where no byte is watched, none is noted as written (R351, log 14). -/
def Group.Same (g : Group) (s t : State) : Prop :=
  match g with
  | .inputs =>
    t.args = s.args ∧ t.chunk = s.chunk ∧ t.plat = s.plat ∧ t.host = s.host ∧ t.rdata = s.rdata ∧ t.lost = s.lost
  | .watch => s.raced.watched = [] → t.raced.watched = [] ∧ t.unread = s.unread
  | .acc => t.acc = s.acc
  | .bw => t.bw = s.bw
  | .br => t.br = s.br
  | .brMode => t.br.mode = s.br.mode
  | .st => t.st = s.st
  | .refill => t.refill = s.refill
  | .ctx => t.ctx = s.ctx
  | .exp => t.exp = { s.exp with state := t.exp.state }
  | .result => t.result = s.result
  | .stat => t.stat = s.stat
  | .mem => t.mem = s.mem ∧ t.unread = s.unread

theorem Group.Same.refl (g : Group) (s : State) : g.Same s s := by
  cases g <;> simp [Group.Same]

theorem Group.Same.trans {g : Group} {s t u : State} (h : g.Same s t) (k : g.Same t u) : g.Same s u := by
  cases g with
  | inputs | mem => simp_all [Group.Same]
  | watch =>
    intro hs
    obtain ⟨ht, htu⟩ := h hs
    obtain ⟨hu, huu⟩ := k ht
    exact ⟨hu, huu.trans htu⟩
  | exp =>
    obtain h : t.exp = _ := h
    exact Eq.trans k (by rw [h])
  | _ => exact Eq.trans k h

/-- From `s` to `t` no group outside `W` changed. -/
def Confined (W : List Group) (s t : State) : Prop := ∀ g, g ∉ W → g.Same s t

section
variable {W W' : List Group} {s t u : State}

theorem Confined.refl (W : List Group) (s : State) : Confined W s s := fun g _ => Group.Same.refl g s

theorem Confined.trans (h : Confined W s t) (k : Confined W t u) : Confined W s u :=
  fun g hg => (h g hg).trans (k g hg)

theorem Confined.mono (h : Confined W s t) (hW : W ⊆ W') : Confined W' s t := fun g hg => h g fun hm => hg (hW hm)

/-- Being confined, group by group: the form in which `simp` decides it of a written-out update. -/
theorem confined_iff : Confined W s t ↔
    (.inputs ∉ W → Group.inputs.Same s t) ∧ (.watch ∉ W → Group.watch.Same s t) ∧
    (.acc ∉ W → t.acc = s.acc) ∧ (.bw ∉ W → t.bw = s.bw) ∧ (.br ∉ W → t.br = s.br) ∧
    (.brMode ∉ W → t.br.mode = s.br.mode) ∧ (.st ∉ W → t.st = s.st) ∧ (.refill ∉ W → t.refill = s.refill) ∧
    (.ctx ∉ W → t.ctx = s.ctx) ∧ (.exp ∉ W → t.exp = { s.exp with state := t.exp.state }) ∧
    (.result ∉ W → t.result = s.result) ∧ (.stat ∉ W → t.stat = s.stat) ∧
    (.mem ∉ W → t.mem = s.mem ∧ t.unread = s.unread) := by
  refine ⟨fun h => ⟨h _, h _, h _, h _, h _, h _, h _, h _, h _, h _, h _, h _, h _⟩, ?_⟩
  rintro ⟨hin, hwatch, hacc, hbw, hbr, hmode, hst, hrefill, hctx, hexp, hresult, hstat, hmem⟩ g
  cases g <;> assumption

end

@[simp] theorem Races.none_watched : Races.none.watched = [] := rfl

@[simp] theorem Races.overlapped_watched (b : Bool) (r : Races) : (r.overlapped b).watched = r.watched := rfl

/-! ### The updates of the state that write no group, or one -/

section
variable (W : List Group) (s : State)

theorem confined_task (τ : Task) : Confined W s { s with task := τ } := by
  simp [confined_iff, Group.Same]

theorem confined_finish : Confined W s s.finish := by
  simp [confined_iff, Group.Same]

/-- Fault entry writes what no row names, and EXP_STATE (R306). -/
theorem confined_faultEntry (c : Cause) (op : Nat) (info : Word) : Confined W s (faultEntry c op info s) := by
  simp [confined_iff, Group.Same]

theorem confined_overlapped (b : Bool) : Confined W s { s with raced := s.raced.overlapped b } := by
  simp [confined_iff, Group.Same]

variable {W}

theorem confined_setResult (v : Word) (h : .result ∈ W) : Confined W s (s.setResult v) := by
  simp [confined_iff, Group.Same, h]

theorem confined_setReturned (v : Word) (h : .result ∈ W) : Confined W s (s.setReturned v) := by
  unfold State.setReturned
  split <;> simp [confined_iff, Group.Same, h, State.drawn]

theorem confined_with_bw (b : PackerRegs) (h : .bw ∈ W) : Confined W s { s with bw := b } := by
  simp [confined_iff, Group.Same, h]

theorem confined_with_ctx (c : ContextRegs) (h : .ctx ∈ W) : Confined W s { s with ctx := c } := by
  simp [confined_iff, Group.Same, h]

theorem confined_with_exp (e : ExpanderRegs) (h : .exp ∈ W) : Confined W s { s with exp := e } := by
  simp [confined_iff, Group.Same, h]

end

/-! ### The write sets of a fault are rows of the table (R294, R306) -/

@[simp] theorem spoilUnpackerFill_mode (s : State) : (spoilUnpackerFill s).br.mode = s.br.mode := rfl

section
variable {W : List Group} (s : State)

theorem confined_spoilPackerFill (h : .bw ∈ W) : Confined W s (spoilPackerFill s) := by
  simp [confined_iff, Group.Same, h]

theorem confined_spoilResult (h : .result ∈ W) : Confined W s (spoilResult s) := by
  simp [confined_iff, Group.Same, h]

theorem confined_spoilGet : Confined [.st, .refill, .result] s (spoilGet s) := by
  simp [confined_iff, Group.Same, spoilGet]

theorem confined_spoilRead : Confined [.br, .st, .refill, .result] s (spoilRead s) := by
  unfold spoilRead
  split <;> simp [confined_iff, Group.Same]

/-- The groups of COMPRESS's row. -/
def compressWrites (stats : Bool) : List Group :=
  (if stats then [.stat] else []) ++ [.bw, .ctx, .mem, .result]

/-- COMPRESS writes the statistics only when its word asks for them (R238). -/
@[simp] theorem mem_compressWrites {g : Group} {stats : Bool} :
    g ∈ compressWrites stats ↔ stats = true ∧ g = .stat ∨ g ∈ [Group.bw, .ctx, .mem, .result] := by
  cases stats <;> simp [compressWrites]

theorem confined_spoilCompress (stats : Bool) : Confined (compressWrites stats) s (spoilCompress stats s) := by
  cases stats <;> simp [confined_iff, Group.Same, spoilCompress]

/-- The groups of a decoding command's row. -/
def decodeWrites (cmd : DecodeCmd) : List Group :=
  match cmd with
  | .lexpand _ => [.br, .brMode, .ctx, .mem, .result]
  | _ => [.br, .st, .refill, .ctx, .exp, .mem, .result]

theorem confined_spoilDecode (f : Frame) : Confined (decodeWrites f.cmd) s (spoilDecode f s) := by
  unfold spoilDecode
  cases f.cmd <;> simp [confined_iff, Group.Same, decodeWrites]

end
end Sys2Proof.Machine
end

section
/-! ## The groups each procedure writes (R294) -/

namespace Sys2Proof.Machine

/-- However the procedure ends, no group outside `W` changed since `s`. -/
def Res.Writes {α : Type} (W : List Group) (s : State) (r : Res α) : Prop := r.Ends (Confined W s) (Confined W s)

section
variable {α β : Type} {W W' : List Group} {s : State} {r : Res α}

theorem writes_ok {a : α} {t : State} (h : Confined W s t) : (Res.ok a t).Writes W s := h

theorem writes_raise (c : Cause) (info : Word) : (Res.raise c info s : Res α).Writes W s := Confined.refl W s

theorem Res.Writes.mono (h : r.Writes W s) (hW : W ⊆ W') : r.Writes W' s :=
  h.imp (fun _ ht => ht.mono hW) fun _ ht => ht.mono hW

/-- What a procedure writes after some updates counts with them. -/
theorem Res.Writes.after {t : State} (h : r.Writes W t) (hs : Confined W s t) : r.Writes W s :=
  h.imp (fun _ => hs.trans) fun _ => hs.trans

theorem Res.Writes.bind {k : α → State → Res β} (h : r.Writes W s)
    (hk : ∀ a t, Confined W s t → (k a t).Writes W t) : (r.bind k).Writes W s :=
  Ends.bind h fun a t ht => (hk a t ht).after ht

theorem Res.Writes.indexed (h : r.Writes W s) (i : Word) : (r.indexed i).Writes W s := Ends.indexed h i

/-- A command's end keeps to a row that holds its procedure's groups, its completion's and its write set. -/
theorem Res.Writes.conclude (h : r.Writes W s) (hW : W ⊆ W') {op : Nat} {spoil : State → State}
    {done : α → State → State} (hdone : ∀ a t, Confined W' t (done a t)) (hspoil : ∀ t, Confined W' t (spoil t)) :
    Confined W' s (Machine.conclude op spoil done r) :=
  Ends.conclude (h.mono hW) (fun a t ht => ht.trans (hdone a t))
    (fun c info t ht => (ht.trans (hspoil t)).trans (confined_faultEntry W' _ c op info))
    fun q t ht => ht.trans (confined_task W' t (.refill q))

end

section
variable (s : State)

/-! ### The memory port (R82, R83) -/

theorem writes_readByte (a : Word) : (readByte a s).Writes [] s := by
  rcases readByte_cases a s with ⟨-, b, d, e⟩ | ⟨-, e⟩ <;> rw [e]
  · exact writes_ok (by simp [confined_iff, Group.Same])
  · exact writes_raise _ _

theorem writes_memRead16 (a : Word) : (memRead16 a s).Writes [] s :=
  (writes_readByte s a).bind fun _ t _ => (writes_readByte t _).bind fun _ u _ => writes_ok (.refl _ u)

theorem noteWritten_of_unwatched (a : Word) (h : s.raced.watched = []) : s.noteWritten a = s.unread := by
  simp [State.noteWritten, h]

theorem writes_writeByte (a : Word) (b : Byte) : (writeByte a b s).Writes [.mem] s := by
  rcases writeByte_cases a b s with ⟨-, v, d, e⟩ | ⟨-, e⟩ <;> rw [e]
  · exact writes_ok (by simp +contextual [confined_iff, Group.Same, noteWritten_of_unwatched])
  · exact writes_raise _ _

theorem writes_memWrite (n : Nat) (a : Word) (v : Nat) : (memWrite n a v s).Writes [.mem] s := by
  induction n generalizing a v s with
  | zero => exact writes_ok (.refl _ s)
  | succ n ih => exact (writes_writeByte s a _).bind fun _ t _ => ih t _ _

/-! ### The packer (R162 to R165, R236) -/

theorem writes_emit (b : Byte) : (emit b s).Writes [.bw, .mem] s := by
  unfold emit
  split
  · exact writes_raise _ _
  · exact ((writes_writeByte s _ b).mono (by simp)).bind fun _ t _ => writes_ok (confined_with_bw t _ (by simp))

theorem writes_packBit (bit : Bool) : (packBit bit s).Writes [.bw, .mem] s := by
  have hstage : ∀ b : PackerRegs, Confined [.bw, .mem] s { s with bw := b } := fun b => confined_with_bw s b (by simp)
  unfold packBit
  dsimp only
  split
  · exact ((writes_emit _ _).bind fun _ t _ => writes_ok (confined_with_bw t _ (by simp))).after (hstage _)
  · exact writes_ok (hstage _)

theorem writes_packBits (v n : Nat) : (packBits v n s).Writes [.bw, .mem] s := by
  induction n generalizing s with
  | zero => exact writes_ok (.refl _ s)
  | succ n ih => exact (writes_packBit s _).bind fun _ t _ => ih t

theorem writes_flushPacker : (flushPacker s).Writes [.bw, .mem] s := by
  unfold flushPacker
  split
  · exact writes_ok (.refl _ s)
  · exact (writes_emit s _).bind fun _ t _ => writes_ok (confined_with_bw t _ (by simp))

theorem writes_packUnit (x : Int) : (packUnit x s).Writes [.bw, .mem] s := by
  unfold packUnit
  dsimp only
  split
  · exact (writes_packBits s _ _).bind fun _ t _ => (writes_packBits t _ _).bind fun _ u _ => writes_packBits u _ _
  · exact (writes_packBits s _ _).bind fun _ t _ => writes_packBits t _ _

theorem writes_encodeUnit (x : Int) : (encodeUnit x s).Writes [.bw, .ctx, .mem] s :=
  ((writes_packUnit s x).mono (by simp)).bind fun _ t _ => writes_ok (confined_with_ctx t _ (by simp))

/-! ### COMPRESS's loop (R238) -/

theorem writes_compressSample (sh : Nat) (stats : Bool) (i : Nat) :
    (compressSample sh stats i s).Writes (compressWrites stats) s := by
  refine ((writes_memRead16 s _).mono (by simp)).bind fun r t _ => ?_
  refine ((writes_encodeUnit t _).mono (by simp)).bind fun code u _ => writes_ok ?_
  cases stats
  · exact .refl _ u
  · simp [confined_iff, Group.Same]

theorem writes_compressLoop (sh : Nat) (stats : Bool) (k i : Nat) :
    (compressLoop sh stats k i s).Writes (compressWrites stats) s := by
  induction k generalizing i s with
  | zero => exact writes_ok (.refl _ s)
  | succ k ih => exact ((writes_compressSample s sh stats i).indexed _).bind fun _ t _ => ih t (i + 1)

theorem writes_compressBody (sh : Nat) (stats : Bool) :
    (compressBody sh stats s).Writes (compressWrites stats) s :=
  (writes_compressLoop s sh stats _ 0).bind fun _ t _ =>
    ((writes_flushPacker t).mono (by simp)).indexed _

theorem confined_compressStart (stats : Bool) : Confined (compressWrites stats) s (compressStart stats s) := by
  cases stats <;> simp [confined_iff, Group.Same, compressStart]

/-! ### The stream unit (R211, R214) -/

theorem writes_streamGet (p : HoldPoint) : (streamGet p s).Writes [.st, .refill] s := by
  rcases streamGet_cases p s with ⟨b, t, e, ht, -⟩ | ⟨-, e⟩ | ⟨-, -, -, e⟩ | ⟨-, -, -, e⟩ <;> rw [e]
  · rw [ht]
    exact writes_ok (by simp [confined_iff, Group.Same])
  · exact writes_raise _ _
  · exact writes_raise _ _
  · show Confined _ s _
    simp [confined_iff, Group.Same]

theorem writes_get16Second (lo : Byte) : (get16Second lo s).Writes [.st, .refill] s :=
  (writes_streamGet s _).bind fun _ t _ => writes_ok (.refl _ t)

end

/-! ### The unpacker and a code unit (R182, R183, R240) -/

/-- A procedure that may write the groups `W` may read bits in `s`: the unpacker is among them, its binding is not, and
the stream unit is if the unpacker reads from it. -/
structure Sourced (W : List Group) (s : State) : Prop where
  br : .br ∈ W
  brMode : .brMode ∉ W
  stream : s.br.mode = .stream → .st ∈ W ∧ .refill ∈ W

section
variable {W : List Group} {s : State}

theorem Sourced.congr {t : State} (h : Sourced W s) (ht : t.br.mode = s.br.mode) : Sourced W t :=
  ⟨h.br, h.brMode, fun e => h.stream (ht ▸ e)⟩

theorem Sourced.after {t : State} (h : Sourced W s) (ht : Confined W s t) : Sourced W t := h.congr (ht .brMode h.brMode)

/-- The unpacker's own registers change and its mode stays. -/
theorem Sourced.confined_with_br {b : UnpackerRegs} (h : Sourced W s) (hb : b.mode = s.br.mode) :
    Confined W s { s with br := b } := by
  simp [confined_iff, Group.Same, h.br, hb]

theorem Sourced.confined_loadByte (h : Sourced W s) (b : Byte) : Confined W s (loadByte b s) := by
  rw [loadByte_frame]
  simp [confined_iff, Group.Same, h.br]

theorem Sourced.writes_brFetch (h : Sourced W s) (p : HoldPoint) : (brFetch p s).Writes W s := by
  unfold brFetch
  split
  · split
    · exact writes_raise _ _
    · exact (writes_readByte s _).mono (by simp)
  · next hm => exact (writes_streamGet s p).mono (by simp [h.stream hm])
  · exact writes_raise _ _

theorem Sourced.writes_needBit (h : Sourced W s) (p : HoldPoint) : (needBit p s).Writes W s := by
  unfold needBit
  split
  · exact (h.writes_brFetch p).bind fun b t ht => writes_ok ((h.after ht).confined_loadByte b)
  · exact writes_ok (.refl _ s)

theorem Sourced.writes_unpackFrom (h : Sourced W s) (point : Nat → Nat → HoldPoint) (n r : Nat) :
    (unpackFrom point n r s).Writes W s := by
  induction n generalizing r s with
  | zero => exact writes_ok (.refl _ s)
  | succ n ih =>
    refine (h.writes_needBit _).bind fun _ t ht => ?_
    have hdrop : Confined W t (dropBit t) := (h.after ht).confined_with_br rfl
    exact (ih ((h.after ht).after hdrop) _).after hdrop

theorem Sourced.writes_readUnit (h : Sourced W s) (f : Frame) : (readUnit f s).Writes W s := by
  refine (h.writes_unpackFrom _ 4 0).bind fun code t ht => ?_
  have h4 := h.after ht
  split
  · exact (h4.writes_unpackFrom _ 16 0).bind fun _ u _ => writes_ok (.refl _ u)
  · refine (h4.writes_unpackFrom _ 1 0).bind fun _ u hu => ?_
    exact ((h4.after hu).writes_unpackFrom _ _ 0).bind fun _ v _ => writes_ok (.refl _ v)

end

/-! ### A sample of a decoding command (R243, R264 to R266) -/

/-- The groups the samples of a decoding command write: of its row, all but the binding and RESULT. -/
def loopWrites (cmd : DecodeCmd) : List Group :=
  match cmd with
  | .lexpand _ => [.br, .ctx, .mem]
  | _ => [.br, .st, .refill, .ctx, .exp, .mem]

theorem loopWrites_subset (cmd : DecodeCmd) : loopWrites cmd ⊆ decodeWrites cmd := by
  cases cmd <;> simp [loopWrites, decodeWrites]

section
variable {f : Frame} {s : State}

theorem writes_writeSample (y : Int) (f : Frame) (s : State) : (writeSample y f s).Writes (loopWrites f.cmd) s := by
  unfold writeSample
  cases f.cmd with
  | lexpand sh => exact (writes_memWrite s 2 _ _).mono (by simp [loopWrites])
  | expand =>
    refine ((writes_memWrite s 2 _ _).mono (by simp [loopWrites])).bind fun _ t _ => writes_ok ?_
    exact confined_with_exp t _ (by simp [loopWrites])
  | expand2 vol =>
    refine ((writes_memWrite s 4 _ _).mono (by simp [loopWrites])).bind fun _ t _ => ?_
    refine ((writes_memWrite t 4 _ _).mono (by simp [loopWrites])).bind fun _ u _ => writes_ok ?_
    exact confined_with_exp u _ (by simp [loopWrites])

theorem writes_acceptSample (x : Int) (f : Frame) (s : State) :
    (acceptSample x f s).Writes (loopWrites f.cmd) s := by
  unfold acceptSample
  split
  · refine (writes_writeSample _ f _).after (confined_with_ctx s _ ?_)
    cases f.cmd <;> simp [loopWrites]
  · exact writes_raise _ _

/-- Only a session's commands take raw samples, and their row has the stream unit (R264). -/
theorem writes_rawSample (hraw : f.isRaw s = true) : (rawSample f s).Writes (loopWrites f.cmd) s := by
  have hstream : [.st, .refill] ⊆ loopWrites f.cmd := by
    unfold Frame.isRaw at hraw
    cases hc : f.cmd with
    | lexpand sh => simp [hc] at hraw
    | expand | expand2 => simp [loopWrites]
  refine ((writes_streamGet s _).mono hstream).bind fun _ t _ => ?_
  exact ((writes_streamGet t _).mono hstream).bind fun _ u _ => writes_writeSample _ f u

theorem writes_takeSample (h : Sourced (loopWrites f.cmd) s) : (takeSample f s).Writes (loopWrites f.cmd) s := by
  unfold takeSample
  split
  · next hraw => exact writes_rawSample hraw
  · exact (h.writes_readUnit f).bind fun _ t _ => writes_acceptSample _ f t

theorem writes_takeSamples (k : Nat) (h : Sourced (loopWrites f.cmd) s) :
    (takeSamples k f s).Writes (loopWrites f.cmd) s := by
  induction k generalizing f s with
  | zero => exact writes_ok (.refl _ s)
  | succ k ih =>
    have htask : Confined (loopWrites f.cmd) s { s with task := .sample f } := confined_task _ s _
    have hone := (writes_takeSample (h.after htask)).after htask
    exact (hone.indexed f.i).bind fun _ t ht => ih (f := f.next) (h.after ht)

theorem confined_completeDecode (f : Frame) (s : State) : Confined (decodeWrites f.cmd) s (completeDecode f s) := by
  have hend : ∀ v, Confined (decodeWrites f.cmd) s (s.setReturned v).finish := fun v =>
    (confined_setReturned s v (by cases f.cmd <;> simp [decodeWrites])).trans (confined_finish _ _)
  unfold completeDecode
  split <;> exact hend _

/-- A decoding command's loop, whatever its outcome, writes the command's row. -/
theorem confined_runDecode (hi : f.i = 0#32) (h : Sourced (loopWrites f.cmd) s) :
    Confined (decodeWrites f.cmd) s (runDecode f s) := by
  rw [runDecode, runSamples_eq_conclude _ _ (by simp [hi])]
  exact (writes_takeSamples _ h).conclude (loopWrites_subset _) (fun _ t => confined_completeDecode f t)
    fun t => confined_spoilDecode t f

/-- A code unit executed between two samples writes the running command's row. -/
theorem confined_runSample (x : Int) (f : Frame) (s : State) : Confined (decodeWrites f.cmd) s (runSample x f s) := by
  refine ((writes_acceptSample x f s).indexed f.i).conclude (loopWrites_subset _) (fun _ t => ?_)
    fun t => confined_spoilDecode t f
  unfold nextSample beginSample
  split
  · exact confined_completeDecode f.next t
  · exact confined_task _ t _

end

end Sys2Proof.Machine
end

section
/-! ## No instruction writes outside its row (R294, R39) -/

namespace Sys2Proof.Machine

/-- The footprint table (R294), EXP_STATE aside, which any fault writes (R306). A code unit writes what the decoding
command it runs in may write. SOFT_RESET's row is not a list of groups but all of them (R341), so it has none here. -/
def footprint (i : Instr) : List Group :=
  match i with
  | .nop | .softReset => []
  | .accClear | .accPush _ => [.acc]
  | .accPop _ => [.acc, .result]
  | .bitsNeeded | .bwLength | .expDone => [.result]
  | .bwInit => [.bw]
  | .bwWrite _ => [.bw, .mem]
  | .bwClose => [.bw, .mem, .result]
  | .brInitFlat | .brInitStream => [.br, .brMode]
  | .brRead _ => [.br, .st, .refill, .result]
  | .stBindMem | .stBindChunk => [.st]
  | .stGet | .stGet16 => [.st, .refill, .result]
  | .compress _ stats => compressWrites stats
  | .lexpand sh => decodeWrites (.lexpand sh)
  | .expInit _ _ => [.br, .brMode, .ctx, .exp]
  | .expExpand | .expExpand2 => decodeWrites .expand
  | _ => .brMode :: decodeWrites .expand

/-- The instruction's next state, if it has one, differs from `s` in the groups `W` only. -/
def Confines (W : List Group) (s : State) (o : Host.Outcome State Fault Refusal) : Prop :=
  ∀ t, o = .next t → Confined W s t

section
variable {W : List Group} {s : State}

theorem confines_next {t : State} (h : Confined W s t) : Confines W s (.next t) := fun _ e => by
  obtain rfl := Host.Outcome.next.inj e
  exact h

theorem confines_rejected (c : Cause) (op : Nat) (info : Word) : Confines W s (.next (faultEntry c op info s)) :=
  confines_next (confined_faultEntry W s c op info)

end

variable (s : State)

/-! ### The instructions, one by one -/

theorem execAccPush_confines (n : Nat) : Confines [.acc] s (execAccPush n s) := by
  unfold execAccPush
  split_ifs
  · exact confines_rejected _ _ _
  · exact confines_rejected _ _ _
  · exact confines_rejected _ _ _
  · exact confines_next (by simp [confined_iff, Group.Same])

theorem execAccPop_confines (n : Nat) : Confines [.acc, .result] s (execAccPop n s) := by
  unfold execAccPop
  split_ifs
  · exact confines_rejected _ _ _
  · exact confines_rejected _ _ _
  · exact confines_next (by simp [confined_iff, Group.Same])

theorem execBwWrite_confines (n : Nat) : Confines [.bw, .mem] s (execBwWrite n s) := by
  unfold execBwWrite
  split_ifs
  · exact confines_rejected _ _ _
  · exact confines_rejected _ _ _
  · exact confines_next <| (writes_packBits s _ n).conclude (List.Subset.refl _) (fun _ t => confined_finish _ t)
      fun t => confined_spoilPackerFill t (by simp)

theorem execBwClose_confines : Confines [.bw, .mem, .result] s (execBwClose s) :=
  confines_next <| (writes_flushPacker s).conclude (by simp)
    (fun _ t => (confined_setResult t _ (by simp)).trans (confined_finish _ _))
    fun t => (confined_spoilPackerFill t (by simp)).trans (confined_spoilResult _ (by simp))

theorem execBwLength_confines : Confines [.result] s (execBwLength s) := by
  unfold execBwLength
  extract_lets length
  split
  · exact confines_next ((confined_setResult s _ (by simp)).trans (confined_finish _ _))
  · exact confines_next ((confined_spoilResult s (by simp)).trans (confined_finish _ _))

theorem execBrRead_confines (n : Nat) : Confines [.br, .st, .refill, .result] s (execBrRead n s) := by
  have hsource : Sourced [.br, .st, .refill, .result] s := ⟨by simp, by simp, by simp⟩
  unfold execBrRead
  split
  · exact confines_rejected _ _ _
  · exact confines_next <| (hsource.writes_unpackFrom _ n 0).conclude (List.Subset.refl _)
      (fun _ t => (confined_setResult t _ (by simp)).trans (confined_finish _ _)) confined_spoilRead

theorem execStGet_confines : Confines [.st, .refill, .result] s (execStGet s) :=
  confines_next <| (writes_streamGet s .get).conclude (by simp)
    (fun _ t => (confined_setResult t _ (by simp)).trans (confined_finish _ _)) confined_spoilGet

theorem execStGet16_confines : Confines [.st, .refill, .result] s (execStGet16 s) :=
  confines_next <| ((writes_streamGet s .get16Lo).bind fun lo t _ => writes_get16Second t lo).conclude (by simp)
    (fun _ t => (confined_setResult t _ (by simp)).trans (confined_finish _ _)) confined_spoilGet

theorem execCompress_confines (sh : Nat) (stats : Bool) :
    Confines (compressWrites stats) s (execCompress sh stats s) := by
  unfold execCompress
  split
  · exact confines_rejected _ _ _
  · exact confines_next <| ((writes_compressBody _ sh stats).after (confined_compressStart s stats)).conclude
      (List.Subset.refl _)
      (fun _ t => (confined_setReturned t _ (by simp)).trans (confined_finish _ _))
      fun t => confined_spoilCompress t stats

/-- LEXPAND binds the unpacker to a FLAT source, so its loop leaves the stream unit alone (R243). -/
theorem execLexpand_confines (sh : Nat) : Confines (decodeWrites (.lexpand sh)) s (execLexpand sh s) := by
  have hstart : Confined (decodeWrites (.lexpand sh)) s (lexpandStart s) := by
    simp [confined_iff, Group.Same, lexpandStart, decodeWrites]
  have hsource : Sourced (loopWrites (.lexpand sh)) (lexpandStart s) :=
    ⟨by simp [loopWrites], by simp [loopWrites], fun e => by cases e⟩
  unfold execLexpand
  split
  · exact confines_rejected _ _ _
  · exact confines_next (hstart.trans (confined_runDecode (f := lexpandFrame sh s.args) rfl hsource))

theorem execExpInit_confines (sh fmt : Nat) : Confines [.br, .brMode, .ctx, .exp] s (execExpInit sh fmt s) := by
  unfold execExpInit
  split_ifs
  · exact confines_rejected _ _ _
  · exact confines_rejected _ _ _
  · exact confines_next (by simp [confined_iff, Group.Same])

/-- The loop of a session's command, whatever its volume. -/
theorem confined_expand {f : Frame} (hcmd : ∀ sh, f.cmd ≠ .lexpand sh) (hi : f.i = 0#32) :
    Confined (decodeWrites .expand) s (runDecode f (expandStart f s)) := by
  obtain ⟨hloop, hrow⟩ : Sourced (loopWrites f.cmd) (expandStart f s) ∧ decodeWrites f.cmd = decodeWrites .expand := by
    cases hc : f.cmd with
    | lexpand sh => exact absurd hc (hcmd sh)
    | expand | expand2 => exact ⟨⟨by simp [loopWrites], by simp [loopWrites], by simp [loopWrites]⟩, rfl⟩
  exact (confined_overlapped _ s _).trans (hrow ▸ confined_runDecode hi hloop)

theorem execExpExpand_confines : Confines (decodeWrites .expand) s (execExpExpand s) := by
  unfold execExpExpand
  split
  · exact confines_rejected _ _ _
  · exact confines_next (confined_expand s (f := expandFrame s.args) (fun sh => by simp [expandFrame]) rfl)

theorem execExpExpand2_confines : Confines (decodeWrites .expand) s (execExpExpand2 s) := by
  unfold execExpExpand2
  split_ifs
  · exact confines_rejected _ _ _
  · exact confines_rejected _ _ _
  · exact confines_next (confined_expand s (f := expand2Frame s.args) (fun sh => by simp [expand2Frame]) rfl)

theorem execUnit_confines (x : Int) : Confines (.brMode :: decodeWrites .expand) s (execUnit x s) := by
  unfold execUnit
  split
  · next f _ =>
    refine confines_next ((confined_runSample x f s).mono ?_)
    cases f.cmd <;> simp [decodeWrites]
  · exact fun _ e => by cases e

/-! ### All instructions -/

/-- Every instruction but SOFT_RESET keeps to its row, completed, held or faulted (R294). -/
theorem exec_confines {i : Instr} (hi : i ≠ .softReset) : Confines (footprint i) s (exec i s) := by
  cases i with
  | nop => exact confines_next (confined_finish _ s)
  | softReset => exact absurd rfl hi
  | accClear => exact confines_next (by simp [confined_iff, Group.Same, footprint])
  | accPush n => exact execAccPush_confines s n
  | accPop n => exact execAccPop_confines s n
  | bitsNeeded => exact confines_next ((confined_setResult s _ (by simp [footprint])).trans (confined_finish _ _))
  | bwInit => exact confines_next ((confined_with_bw s _ (by simp [footprint])).trans (confined_finish _ _))
  | bwWrite n => exact execBwWrite_confines s n
  | bwClose => exact execBwClose_confines s
  | bwLength => exact execBwLength_confines s
  | brInitFlat => exact confines_next (by simp [confined_iff, Group.Same, footprint])
  | brInitStream => exact confines_next (by simp [confined_iff, Group.Same, footprint])
  | brRead n => exact execBrRead_confines s n
  | stBindMem => exact confines_next (by simp [confined_iff, Group.Same, footprint])
  | stBindChunk => exact confines_next (by simp [confined_iff, Group.Same, footprint])
  | stGet => exact execStGet_confines s
  | stGet16 => exact execStGet16_confines s
  | compress sh stats => exact execCompress_confines s sh stats
  | lexpand sh => exact execLexpand_confines s sh
  | expInit sh fmt => exact execExpInit_confines s sh fmt
  | expExpand => exact execExpExpand_confines s
  | expExpand2 => exact execExpExpand2_confines s
  | expDone => exact confines_next ((confined_setResult s _ (by simp [footprint])).trans (confined_finish _ _))
  | _ => exact execUnit_confines s _

end Sys2Proof.Machine
end

section
/-! ## The table's columns: which rows name a group (R294) -/

namespace Sys2Proof.Machine

section
variable {i : Instr} {w : Word}

theorem inputs_not_mem_footprint (i : Instr) : .inputs ∉ footprint i := by
  cases i <;> simp [footprint, decodeWrites]

theorem watch_not_mem_footprint (i : Instr) : .watch ∉ footprint i := by
  cases i <;> simp [footprint, decodeWrites]

theorem acc_not_mem_footprint (hclear : i ≠ .accClear) (hpush : ∀ n, i ≠ .accPush n) (hpop : ∀ n, i ≠ .accPop n) :
    .acc ∉ footprint i := by
  cases i <;> simp_all [footprint, decodeWrites]

theorem bw_not_mem_footprint (hinit : i ≠ .bwInit) (hwrite : ∀ n, i ≠ .bwWrite n) (hclose : i ≠ .bwClose)
    (hcompress : ∀ sh st, i ≠ .compress sh st) : .bw ∉ footprint i := by
  cases i <;> simp_all [footprint, decodeWrites]

theorem stat_not_mem_footprint (hcompress : ∀ sh, i ≠ .compress sh true) : .stat ∉ footprint i := by
  cases i <;> simp_all [footprint, decodeWrites]

/-- Of the commands, BR_READ, LEXPAND, EXP_INIT and the expansions write the unpacker, besides its own bindings. -/
theorem br_not_mem_footprint (hw : encode i = .command w) (hflat : i ≠ .brInitFlat) (hstream : i ≠ .brInitStream)
    (hread : ∀ n, i ≠ .brRead n) (hlexpand : ∀ sh, i ≠ .lexpand sh) (hinit : ∀ sh fmt, i ≠ .expInit sh fmt)
    (hexpand : i ≠ .expExpand) (hexpand2 : i ≠ .expExpand2) : .br ∉ footprint i := by
  cases i <;> simp_all [footprint, encode]

theorem st_not_mem_footprint (hw : encode i = .command w) (hmem : i ≠ .stBindMem) (hchunk : i ≠ .stBindChunk)
    (hget : i ≠ .stGet) (hget16 : i ≠ .stGet16) (hread : ∀ n, i ≠ .brRead n) (hexpand : i ≠ .expExpand)
    (hexpand2 : i ≠ .expExpand2) : .st ∉ footprint i := by
  cases i <;> simp_all [footprint, decodeWrites, encode]

theorem refill_not_mem_footprint (hw : encode i = .command w) (hget : i ≠ .stGet) (hget16 : i ≠ .stGet16)
    (hread : ∀ n, i ≠ .brRead n) (hexpand : i ≠ .expExpand) (hexpand2 : i ≠ .expExpand2) : .refill ∉ footprint i := by
  cases i <;> simp_all [footprint, decodeWrites, encode]

theorem ctx_not_mem_footprint (hw : encode i = .command w) (hcompress : ∀ sh st, i ≠ .compress sh st)
    (hlexpand : ∀ sh, i ≠ .lexpand sh) (hinit : ∀ sh fmt, i ≠ .expInit sh fmt) (hexpand : i ≠ .expExpand)
    (hexpand2 : i ≠ .expExpand2) : .ctx ∉ footprint i := by
  cases i <;> simp_all [footprint, encode]

theorem exp_not_mem_footprint (hw : encode i = .command w) (hinit : ∀ sh fmt, i ≠ .expInit sh fmt)
    (hexpand : i ≠ .expExpand) (hexpand2 : i ≠ .expExpand2) : .exp ∉ footprint i := by
  cases i <;> simp_all [footprint, decodeWrites, encode]

theorem result_not_mem_footprint (hw : encode i = .command w) (hpop : ∀ n, i ≠ .accPop n) (hneeded : i ≠ .bitsNeeded)
    (hclose : i ≠ .bwClose) (hlength : i ≠ .bwLength) (hread : ∀ n, i ≠ .brRead n) (hget : i ≠ .stGet)
    (hget16 : i ≠ .stGet16) (hcompress : ∀ sh st, i ≠ .compress sh st) (hlexpand : ∀ sh, i ≠ .lexpand sh)
    (hexpand : i ≠ .expExpand) (hexpand2 : i ≠ .expExpand2) (hdone : i ≠ .expDone) : .result ∉ footprint i := by
  cases i <;> simp_all [footprint, encode]

theorem mem_not_mem_footprint (hw : encode i = .command w) (hwrite : ∀ n, i ≠ .bwWrite n) (hclose : i ≠ .bwClose)
    (hcompress : ∀ sh st, i ≠ .compress sh st) (hlexpand : ∀ sh, i ≠ .lexpand sh) (hexpand : i ≠ .expExpand)
    (hexpand2 : i ≠ .expExpand2) : .mem ∉ footprint i := by
  cases i <;> simp_all [footprint, encode]

end

/-- Settles O56: every instruction keeps to its row, and each group is in the rows the statement names. -/
theorem registerFootprint : Obligations.RegisterFootprint := by
  intro i s t h hi
  have hrow : Confined (footprint i) s t := exec_confines s hi t h
  obtain ⟨hargs, hchunk, hplat, hhost, hrdata, hlost⟩ := hrow .inputs (inputs_not_mem_footprint i)
  refine ⟨hargs, hchunk, hplat, hhost, hrdata, hlost, fun hw => (hrow .watch (watch_not_mem_footprint i) hw).2,
    fun h1 h2 h3 => hrow .acc (acc_not_mem_footprint h1 h2 h3),
    fun h1 h2 h3 h4 => hrow .bw (bw_not_mem_footprint h1 h2 h3 h4),
    fun h1 => hrow .stat (stat_not_mem_footprint h1), fun w hw => ?_⟩
  exact ⟨fun h1 h2 h3 h4 h5 h6 h7 => hrow .br (br_not_mem_footprint hw h1 h2 h3 h4 h5 h6 h7),
    fun h1 h2 h3 h4 h5 h6 h7 => hrow .st (st_not_mem_footprint hw h1 h2 h3 h4 h5 h6 h7),
    fun h1 h2 h3 h4 h5 => hrow .refill (refill_not_mem_footprint hw h1 h2 h3 h4 h5),
    fun h1 h2 h3 h4 h5 => hrow .ctx (ctx_not_mem_footprint hw h1 h2 h3 h4 h5),
    fun h1 h2 h3 => hrow .exp (exp_not_mem_footprint hw h1 h2 h3),
    fun h1 h2 h3 h4 h5 h6 h7 h8 h9 h10 h11 h12 =>
      hrow .result (result_not_mem_footprint hw h1 h2 h3 h4 h5 h6 h7 h8 h9 h10 h11 h12),
    fun h1 h2 h3 h4 h5 h6 => hrow .mem (mem_not_mem_footprint hw h1 h2 h3 h4 h5 h6)⟩

end Sys2Proof.Machine
end

section
/-! ## What a procedure stores, it stores within a span (R83, R88) -/

namespace Sys2Proof.Machine

/-- From `s` to `t` canonical memory stays canonical and changes no byte outside `r`. -/
def Within (r : Span) (s t : State) : Prop := s.mem.wf = true → t.mem.wf = true ∧ SameOutside r s t

section
variable {r r' : Span} {s t u : State}

theorem Within.of_mem (hm : t.mem = s.mem) : Within r s t := fun h =>
  ⟨hm ▸ h, fun _ _ => by rw [byteAt, hm, byteAt]⟩

theorem Within.refl (r : Span) (s : State) : Within r s s := .of_mem rfl

theorem Within.trans (h : Within r s t) (k : Within r t u) : Within r s u := fun hs => by
  obtain ⟨ht, hst⟩ := h hs
  obtain ⟨hu, htu⟩ := k ht
  exact ⟨hu, fun a ha => (htu a ha).trans (hst a ha)⟩

/-- What happens before the first store does not count. -/
theorem Within.start (h : Within r t u) (hm : t.mem = s.mem) : Within r s u := Within.trans (.of_mem hm) h

theorem Within.congr (h : Within r s t) (hm : u.mem = t.mem) : Within r s u := h.trans (.of_mem hm)

theorem Within.mono (h : Within r s t) (hr : ∀ a, r.has a = true → r'.has a = true) : Within r' s t := fun hs => by
  obtain ⟨ht, hst⟩ := h hs
  exact ⟨ht, fun a ha => hst a (Bool.eq_false_iff.mpr fun hin => Bool.eq_false_iff.mp ha (hr a hin))⟩

theorem Within.sameOutside (h : Within r s t) (hs : s.mem.wf = true) : SameOutside r s t := (h hs).2

/-- A row without memory stores nothing. -/
theorem Confined.within {W : List Group} (h : Confined W s t) (hW : .mem ∉ W) : Within r s t := .of_mem (h .mem hW).1

/-- One byte is stored at its own address. -/
theorem within_write (a : Word) (b : Byte) (hm : t.mem = s.mem.write a.toNat b) : Within ⟨a, 1⟩ s t := fun hs =>
  ⟨hm ▸ Memory.wf_write_word s.mem a b hs, fun x hx => by
    have hne : x.toNat ≠ a.toNat := fun e => by
      rw [BitVec.eq_of_toNat_eq e, Span.has_base a 1 Nat.one_pos] at hx
      cases hx
    rw [byteAt, hm, Memory.read_write_other s.mem _ _ b hne hs, byteAt]⟩

end

/-- However the procedure ends, it stored within `r` only. -/
def Res.StoresIn {α : Type} (r : Span) (s : State) (x : Res α) : Prop := x.Ends (Within r s) (Within r s)

section
variable {α β : Type} {r r' : Span} {s : State} {x : Res α}

theorem Res.StoresIn.mono (h : x.StoresIn r s) (hr : ∀ a, r.has a = true → r'.has a = true) : x.StoresIn r' s :=
  h.imp (fun _ ht => ht.mono hr) fun _ ht => ht.mono hr

theorem Res.StoresIn.after {t : State} (h : x.StoresIn r t) (hs : Within r s t) : x.StoresIn r s :=
  h.imp (fun _ => hs.trans) fun _ => hs.trans

theorem Res.StoresIn.bind {k : α → State → Res β} (h : x.StoresIn r s) (hk : ∀ a t, (k a t).StoresIn r t) :
    (x.bind k).StoresIn r s :=
  Ends.bind h fun a t ht => (hk a t).after ht

theorem Res.StoresIn.indexed (h : x.StoresIn r s) (i : Word) : (x.indexed i).StoresIn r s := Ends.indexed h i

theorem Res.Writes.storesIn {W : List Group} (h : x.Writes W s) (hW : .mem ∉ W) : x.StoresIn r s :=
  h.imp (fun _ ht => ht.within hW) fun _ ht => ht.within hW

/-- Neither the end of a command nor its write set stores anything (R306). -/
theorem Res.Ends.within_conclude {p : State → Prop} {op : Nat} {spoil : State → State} {done : α → State → State}
    (h : x.Ends p (Within r s)) (hp : ∀ t, p t → Within r s t) (hdone : ∀ a t, (done a t).mem = t.mem)
    (hspoil : ∀ t, (spoil t).mem = t.mem) : Within r s (Machine.conclude op spoil done x) :=
  h.conclude (fun a t ht => (hp t ht).congr (hdone a t)) (fun _ _ t ht => ht.congr (hspoil t))
    fun _ _ ht => ht.congr rfl

theorem storesIn_writeByte (a : Word) (b : Byte) (s : State) : (writeByte a b s).StoresIn ⟨a, 1⟩ s := by
  rcases writeByte_cases a b s with ⟨-, v, d, e⟩ | ⟨-, e⟩ <;> rw [e]
  · exact within_write a v rfl
  · exact Within.refl _ s

theorem storesIn_memWrite (n : Nat) (a : Word) (v : Nat) (s : State) : (memWrite n a v s).StoresIn ⟨a, n⟩ s := by
  induction n generalizing a v s with
  | zero => exact Within.refl _ s
  | succ n ih =>
    refine ((storesIn_writeByte a _ s).mono fun x hx => ?_).bind fun _ t => (ih (a + 1#32) _ t).mono fun x hx => ?_
    · exact Span.has_of_sub a (n + 1) 0 1 x (by omega) (by simpa using hx)
    · exact Span.has_of_sub a (n + 1) 1 n x (by omega) hx

end

/-! ### A sample of a decoding command -/

section
variable {f : Frame}

/-- A sample's output is `stride` bytes at the sample's address (R88, R243, R265, R266). -/
theorem storesIn_writeSample (y : Int) (f : Frame) (s : State) :
    (writeSample y f s).StoresIn ⟨f.address, f.stride⟩ s := by
  unfold writeSample Frame.stride
  cases f.cmd with
  | lexpand sh => exact storesIn_memWrite 2 _ _ s
  | expand => exact (storesIn_memWrite 2 _ _ s).bind fun _ t => Within.of_mem rfl
  | expand2 vol =>
    refine ((storesIn_memWrite 4 _ _ s).mono fun x hx => ?_).bind fun _ t =>
      ((storesIn_memWrite 4 _ _ t).mono fun x hx => ?_).bind fun _ u => Within.of_mem rfl
    · exact Span.has_of_sub _ 8 0 4 x (by omega) (by simpa using hx)
    · exact Span.has_of_sub _ 8 4 4 x (by omega) hx

theorem storesIn_acceptSample (x : Int) (f : Frame) (s : State) :
    (acceptSample x f s).StoresIn ⟨f.address, f.stride⟩ s := by
  unfold acceptSample
  split
  · exact (storesIn_writeSample _ f _).after (.of_mem rfl)
  · exact Within.refl _ s

/-- Any state may read bits when every group the reading can write is listed. -/
theorem sourced_any (s : State) : Sourced [.br, .st, .refill] s := ⟨by simp, by simp, by simp⟩

theorem storesIn_takeSample (f : Frame) (s : State) : (takeSample f s).StoresIn ⟨f.address, f.stride⟩ s := by
  unfold takeSample
  split
  · exact ((writes_streamGet s _).storesIn (by simp)).bind fun _ t =>
      ((writes_streamGet t _).storesIn (by simp)).bind fun _ u => storesIn_writeSample _ f u
  · exact (((sourced_any s).writes_readUnit f).storesIn (by simp)).bind fun _ t => storesIn_acceptSample _ f t

/-- The current sample's bytes are among those the frame writes. -/
theorem Frame.has_output (hi : f.i.toNat < f.n.toNat) {a : Word} (ha : (Span.mk f.address f.stride).has a = true) :
    f.output.has a = true := by
  refine Span.has_of_sub f.target _ (f.stride * f.i.toNat) f.stride a ?_ ha
  rw [← Nat.mul_succ]
  exact Nat.mul_le_mul_left _ hi

theorem storesIn_takeSamples (k : Nat) (s : State) (hk : f.i.toNat + k = f.n.toNat) :
    (takeSamples k f s).StoresIn f.output s := by
  induction k generalizing f s with
  | zero => exact Within.refl _ s
  | succ k ih =>
    have hi : f.i.toNat < f.n.toNat := by omega
    have hone := ((storesIn_takeSample f { s with task := .sample f }).mono fun _ => f.has_output hi).after
      (.of_mem (s := s) rfl)
    refine (hone.indexed f.i).bind fun _ t => ih (f := f.next) t ?_
    rw [Frame.next_i_toNat hi]
    exact (Nat.add_right_comm _ _ _).trans hk

theorem completeDecode_mem (f : Frame) (s : State) : (completeDecode f s).mem = s.mem := by
  unfold completeDecode State.setReturned
  split <;> split <;> rfl

/-- A decoding command's loop stores within its frame's output, whatever its outcome (R88). -/
theorem within_runDecode (hi : f.i = 0#32) (s : State) : Within f.output s (runDecode f s) := by
  have hk : f.i.toNat + f.n.toNat = f.n.toNat := by simp [hi]
  rw [runDecode, runSamples_eq_conclude _ _ hk]
  exact (storesIn_takeSamples _ s hk).within_conclude (fun _ ht => ht) (fun _ t => completeDecode_mem f t)
    (spoilDecode_mem f)

/-- A code unit executed between two samples stores that sample's bytes only (R240). -/
theorem within_runSample (x : Int) (f : Frame) (s : State) :
    Within ⟨f.address, f.stride⟩ s (runSample x f s) := by
  refine ((storesIn_acceptSample x f s).indexed f.i).within_conclude (fun _ ht => ht) (fun _ t => ?_)
    (spoilDecode_mem f)
  unfold nextSample beginSample
  split
  · exact completeDecode_mem f.next t
  · rfl

end

end Sys2Proof.Machine
end

section
/-! ## What the packer stores (R160 to R165, R236 to R238) -/

namespace Sys2Proof.Machine

/-- Fewer than eight bits wait in the stage, and no more bytes are out than there is room for (R62). -/
def PackerFits (b : PackerRegs) : Prop := b.used.toNat ≤ 7 ∧ b.emitted.toNat ≤ b.cap.toNat

theorem packerFits_of_ok {b : PackerRegs} (h : PackerOk b) : PackerFits b := by
  obtain ⟨hused, -, hcap⟩ := h
  exact ⟨hused, hcap⟩

/-- The bytes that `n` more bits may complete, up to the capacity. -/
def packRoom (n : Nat) (s : State) : Span :=
  { base := s.bw.base + s.bw.emitted
    size := min (s.bw.cap.toNat - s.bw.emitted.toNat) ((s.bw.used.toNat + n) / 8) }

/-- From `s` to `t` the packer took at most `n` bits, and stored the bytes they completed and nothing else. -/
structure TakesBits (n : Nat) (s t : State) : Prop where
  base : t.bw.base = s.bw.base
  cap : t.bw.cap = s.bw.cap
  fits : PackerFits t.bw
  emitted : s.bw.emitted.toNat ≤ t.bw.emitted.toNat
  count : 8 * t.bw.emitted.toNat + t.bw.used.toNat ≤ 8 * s.bw.emitted.toNat + s.bw.used.toNat + n
  within : Within (packRoom n s) s t

/-- A packer procedure given at most `n` bits, however it ends. -/
def Res.Packing {α : Type} (n : Nat) (s : State) (x : Res α) : Prop :=
  x.Ends (TakesBits n s) (Within (packRoom n s) s)

section
variable {α β : Type} {m n : Nat} {s t u : State}

theorem TakesBits.of_same (h : PackerFits s.bw) (hbw : t.bw = s.bw) (hm : t.mem = s.mem) : TakesBits n s t := by
  refine ⟨?_, ?_, ?_, ?_, ?_, .of_mem hm⟩ <;> rw [hbw]
  · exact h
  · exact Nat.le_add_right _ _

/-- The room of fewer bits is part of the room of more. -/
theorem packRoom_mono (s : State) (h : m ≤ n) {a : Word} (ha : (packRoom m s).has a = true) :
    (packRoom n s).has a = true := by
  refine Span.has_of_sub _ _ 0 _ a ?_ (by simpa [packRoom] using ha)
  omega

/-- After at most `m` bits, the room of `n` more is part of the room of `m + n`. -/
theorem TakesBits.room (h : TakesBits m s t) {a : Word} (ha : (packRoom n t).has a = true) :
    (packRoom (m + n) s).has a = true := by
  obtain ⟨hbase, hcap, ⟨-, hle⟩, hemitted, hcount, -⟩ := h
  have hoffset : t.bw.base + t.bw.emitted =
      s.bw.base + s.bw.emitted + BitVec.ofNat 32 (t.bw.emitted.toNat - s.bw.emitted.toNat) := by
    rw [hbase]
    bv_omega
  rw [packRoom, hoffset] at ha
  refine Span.has_of_sub _ _ _ _ a ?_ ha
  rw [hcap] at *
  omega

theorem TakesBits.trans (h : TakesBits m s t) (k : TakesBits n t u) : TakesBits (m + n) s u where
  base := k.base.trans h.base
  cap := k.cap.trans h.cap
  fits := k.fits
  emitted := h.emitted.trans k.emitted
  count := by have := h.count; have := k.count; omega
  within := (h.within.mono fun _ => packRoom_mono s (Nat.le_add_right m n)).trans (k.within.mono fun _ => h.room)

theorem TakesBits.mono (h : TakesBits m s t) (hn : m ≤ n) : TakesBits n s t where
  base := h.base
  cap := h.cap
  fits := h.fits
  emitted := h.emitted
  count := h.count.trans (by omega)
  within := h.within.mono fun _ => packRoom_mono s hn

theorem packing_ok {a : α} (h : TakesBits n s t) : (Res.ok a t).Packing n s := h

theorem Res.Packing.mono {x : Res α} (h : x.Packing m s) (hn : m ≤ n) : x.Packing n s :=
  h.imp (fun _ ht => ht.mono hn) fun _ ht => ht.mono fun _ => packRoom_mono s hn

theorem Res.Packing.bind {x : Res α} {k : α → State → Res β} (h : x.Packing m s)
    (hk : ∀ a t, PackerFits t.bw → (k a t).Packing n t) : (x.bind k).Packing (m + n) s := by
  have hfail : x.Ends (TakesBits m s) (Within (packRoom (m + n) s) s) :=
    h.imp (fun _ ht => ht) fun _ ht => ht.mono fun _ => packRoom_mono s (Nat.le_add_right m n)
  refine hfail.bind fun a t ht => (hk a t ht.fits).imp (fun _ => ht.trans) fun u hu => ?_
  exact (ht.within.mono fun _ => packRoom_mono s (Nat.le_add_right m n)).trans (hu.mono fun _ => ht.room)

theorem Res.Packing.indexed {x : Res α} (h : x.Packing n s) (i : Word) : (x.indexed i).Packing n s :=
  Ends.indexed h i

/-- What touches neither the packer nor memory takes no bits. -/
theorem Res.Writes.packing {W : List Group} {x : Res α} (h : x.Writes W s) (hs : PackerFits s.bw) (hbw : .bw ∉ W)
    (hm : .mem ∉ W) : x.Packing 0 s :=
  h.imp (fun _ ht => .of_same hs (ht .bw hbw) (ht .mem hm).1) fun _ ht => ht.within hm

/-- Everything `Emit` can do: with room for it, a byte at the next address, BW_EMITTED one further; or nothing, and a
fault (R162). -/
theorem emit_cases (b : Byte) (s : State) :
    (s.bw.emitted ≠ s.bw.cap ∧ ∃ t, emit b s = .ok () t ∧ Within ⟨s.bw.base + s.bw.emitted, 1⟩ s t ∧
        t.bw = { s.bw with emitted := s.bw.emitted + 1#32 }) ∨
      ∃ c info, emit b s = .raise c info s := by
  unfold emit
  split
  · exact .inr ⟨_, _, rfl⟩
  · next hne =>
    rcases writeByte_cases (s.bw.base + s.bw.emitted) b s with ⟨-, v, d, e⟩ | ⟨-, e⟩ <;> rw [e]
    · exact .inl ⟨hne, _, rfl, within_write _ v rfl, rfl⟩
    · exact .inr ⟨_, _, rfl⟩

/-- The stage given out as a byte, on behalf of the `n` bits that fill it up (R163, R165). -/
theorem packing_emit (b stage : Byte) (used : BitVec 4) (hs : PackerFits s.bw) (hn : 8 ≤ s.bw.used.toNat + n) :
    ((emit b { s with bw := { s.bw with stage := stage, used := used } }).bind fun _ s =>
      .ok () { s with bw := { s.bw with stage := 0#8, used := 0#4 } }).Packing n s := by
  obtain ⟨-, hle⟩ := hs
  rcases emit_cases b { s with bw := { s.bw with stage := stage, used := used } } with
    ⟨hne, t, e, hwithin, hbw⟩ | ⟨c, info, e⟩ <;> rw [e]
  · have hlt : s.bw.emitted.toNat < s.bw.cap.toNat := by
      replace hne : s.bw.emitted ≠ s.bw.cap := hne
      bv_omega
    have hnext : (s.bw.emitted + 1#32).toNat = s.bw.emitted.toNat + 1 := by bv_omega
    have hroom : Within (packRoom n s) s t := fun hwf => by
      refine (hwithin.mono fun a ha => ?_) hwf
      refine Span.has_of_sub _ _ 0 1 a ?_ (by simpa using ha)
      omega
    refine packing_ok ⟨?_, ?_, ?_, ?_, ?_, hroom.congr rfl⟩ <;> simp only [hbw, PackerFits, hnext]
    · exact ⟨by decide, hlt⟩
    · omega
    · simp only [BitVec.toNat_ofNat]
      omega
  · exact Within.of_mem rfl

theorem packing_packBit (bit : Bool) (hs : PackerFits s.bw) : (packBit bit s).Packing 1 s := by
  have ⟨hused, hle⟩ := hs
  have hnext : (s.bw.used + 1#4).toNat = s.bw.used.toNat + 1 := by bv_omega
  unfold packBit
  dsimp only
  split
  · next hfull => exact packing_emit _ _ _ hs (by rw [← hnext, hfull]; decide)
  · next hfull =>
    have hlt : s.bw.used.toNat + 1 ≠ 8 := fun e => hfull (BitVec.eq_of_toNat_eq (hnext.trans e))
    refine packing_ok ⟨rfl, rfl, ⟨?_, hle⟩, Nat.le_refl _, ?_, .of_mem rfl⟩
    · show (s.bw.used + 1#4).toNat ≤ 7
      omega
    · show 8 * s.bw.emitted.toNat + (s.bw.used + 1#4).toNat ≤ _
      omega

theorem packing_packBits (v n : Nat) (hs : PackerFits s.bw) : (packBits v n s).Packing n s := by
  induction n generalizing s with
  | zero => exact TakesBits.of_same hs rfl rfl
  | succ n ih => exact ((packing_packBit _ hs).bind fun _ _ ht => ih ht).mono (by omega)

/-- The padding is as good as seven more bits (R165). -/
theorem packing_flushPacker (hs : PackerFits s.bw) : (flushPacker s).Packing 7 s := by
  unfold flushPacker
  split
  · exact TakesBits.of_same hs rfl rfl
  · next hused =>
    have hpos : s.bw.used.toNat ≠ 0 := fun e => hused (BitVec.eq_of_toNat_eq e)
    exact packing_emit _ s.bw.stage s.bw.used hs (by omega)

/-! ### COMPRESS (R236 to R238) -/

/-- No code unit is longer than 20 bits (R237). -/
theorem packing_packUnit (x : Int) (hs : PackerFits s.bw) : (packUnit x s).Packing 20 s := by
  unfold packUnit
  dsimp only
  split
  · next hw =>
    exact ((packing_packBits _ 4 hs).bind fun _ _ ht =>
      (packing_packBits _ 1 ht).bind fun _ _ hu => packing_packBits _ _ hu).mono (by omega)
  · exact (packing_packBits _ 4 hs).bind fun _ _ ht => packing_packBits _ 16 ht

theorem packing_compressSample (sh : Nat) (stats : Bool) (i : Nat) (hs : PackerFits s.bw) :
    (compressSample sh stats i s).Packing 20 s := by
  have hkept : ∀ {t u : State}, PackerFits t.bw → u.bw = t.bw → u.mem = t.mem → TakesBits 0 t u := TakesBits.of_same
  refine (((writes_memRead16 s _).packing hs (by simp) (by simp)).bind (n := 20) fun r t ht => ?_).mono (by omega)
  refine Res.Packing.bind (m := 20) (n := 0) ?_ fun code u hu => ?_
  · exact (packing_packUnit _ ht).bind (n := 0) fun _ _ hv => hkept hv rfl rfl
  · split <;> exact hkept hu rfl rfl

theorem packing_compressLoop (sh : Nat) (stats : Bool) (k i : Nat) (hs : PackerFits s.bw) :
    (compressLoop sh stats k i s).Packing (20 * k) s := by
  induction k generalizing i s with
  | zero => exact TakesBits.of_same hs rfl rfl
  | succ k ih =>
    exact (((packing_compressSample sh stats i hs).indexed _).bind fun _ _ ht => ih (i + 1) ht).mono (by omega)

theorem packing_compressBody (sh : Nat) (stats : Bool) (hs : PackerFits s.bw) :
    (compressBody sh stats s).Packing (20 * s.args.arg1.toNat + 7) s :=
  (packing_compressLoop sh stats _ 0 hs).bind fun _ _ ht => (packing_flushPacker ht).indexed _

end

end Sys2Proof.Machine
end

section
/-! ## The memory a storing instruction may change (R88, R294, R306, R307) -/

namespace Sys2Proof.Machine

/-- The instruction's next state, if it has one, differs from `s` in the bytes of `r` only. -/
def StoresOnly (r : Span) (s : State) (o : Host.Outcome State Fault Refusal) : Prop :=
  ∀ t, o = .next t → Within r s t

section
variable {r : Span} {s : State}

theorem storesOnly_next {t : State} (h : Within r s t) : StoresOnly r s (.next t) := fun _ e => by
  obtain rfl := Host.Outcome.next.inj e
  exact h

theorem storesOnly_rejected (c : Cause) (op : Nat) (info : Word) :
    StoresOnly r s (.next (faultEntry c op info s)) := storesOnly_next (.of_mem rfl)

end

section
variable (s : State)

/-- BW_WRITE stores the bytes its bits complete, up to the capacity (R162, R164). -/
theorem execBwWrite_storesOnly (n : Nat) (hs : PackerOk s.bw) : StoresOnly (packSpan n s) s (execBwWrite n s) := by
  have hroom : ∀ a, (packRoom n s).has a = true → (packSpan n s).has a = true := fun a ha => by
    refine Span.has_of_sub _ _ 0 _ a ?_ (by simpa [packRoom] using ha)
    omega
  unfold execBwWrite
  split_ifs
  · exact storesOnly_rejected _ _ _
  · exact storesOnly_rejected _ _ _
  · refine storesOnly_next (Within.mono ?_ hroom)
    exact (packing_packBits _ n (packerFits_of_ok hs)).within_conclude (fun _ ht => ht.within) (fun _ _ => rfl)
      fun _ => rfl

/-- BW_CLOSE stores at most the one byte at BW_BASE + BW_EMITTED (R165). -/
theorem execBwClose_storesOnly : StoresOnly ⟨s.bw.base + s.bw.emitted, 1⟩ s (execBwClose s) := by
  have hflush : (flushPacker s).StoresIn ⟨s.bw.base + s.bw.emitted, 1⟩ s := by
    unfold flushPacker
    split
    · exact Within.refl _ s
    · rcases emit_cases (BitVec.ofNat 8 (s.bw.stage.toNat * 2 ^ (8 - s.bw.used.toNat))) s with
        ⟨-, t, e, hwithin, -⟩ | ⟨c, info, e⟩ <;> rw [e]
      · exact hwithin.congr rfl
      · exact Within.refl _ s
  exact storesOnly_next (hflush.within_conclude (fun _ ht => ht) (fun _ _ => rfl) fun _ => rfl)

/-- COMPRESS begins with an empty packer at ARG2, and its code units and padding have at most 20n + 7 bits (R237). -/
theorem execCompress_storesOnly (sh : Nat) (stats : Bool) :
    StoresOnly (compressTarget s.args) s (execCompress sh stats s) := by
  have hroom : packRoom (20 * s.args.arg1.toNat + 7) (compressStart stats s) = compressTarget s.args := by
    simp [packRoom, compressTarget, compressStart, PackerRegs.bound]
  have hfits : PackerFits (compressStart stats s).bw := packerFits_of_ok (packerOk_bound _ _)
  have hbody := packing_compressBody sh stats hfits
  unfold execCompress
  split
  · exact storesOnly_rejected _ _ _
  · refine storesOnly_next (Within.start (t := compressStart stats s) ?_ rfl)
    rw [← hroom]
    exact hbody.within_conclude (fun _ ht => ht.within)
      (fun _ t => by unfold State.setReturned; split <;> rfl) (spoilCompress_mem stats)

theorem execLexpand_storesOnly (sh : Nat) : StoresOnly (lexpandTarget s.args) s (execLexpand sh s) := by
  unfold execLexpand
  split
  · exact storesOnly_rejected _ _ _
  · exact storesOnly_next ((within_runDecode (f := lexpandFrame sh s.args) rfl (lexpandStart s)).start rfl)

theorem execExpExpand_storesOnly : StoresOnly (expandFrame s.args).output s (execExpExpand s) := by
  unfold execExpExpand
  split
  · exact storesOnly_rejected _ _ _
  · exact storesOnly_next ((within_runDecode (f := expandFrame s.args) rfl (expandStart _ s)).start rfl)

theorem execExpExpand2_storesOnly : StoresOnly (expand2Frame s.args).output s (execExpExpand2 s) := by
  unfold execExpExpand2
  split_ifs
  · exact storesOnly_rejected _ _ _
  · exact storesOnly_rejected _ _ _
  · exact storesOnly_next ((within_runDecode (f := expand2Frame s.args) rfl (expandStart _ s)).start rfl)

theorem exec_unit_storesOnly (u : CodeUnit) {f : Frame} (h : s.task = .sample f) :
    StoresOnly ⟨f.address, f.stride⟩ s (exec u.instr s) := by
  rw [exec_unit u h]
  exact storesOnly_next (within_runSample _ f s)

end

/-- Settles O57, instruction by instruction. -/
theorem memoryFootprint : Obligations.MemoryFootprint := fun s t hs =>
  ⟨fun n hok h => (execBwWrite_storesOnly s n hok t h).sameOutside hs,
    fun h => (execBwClose_storesOnly s t h).sameOutside hs,
    fun sh stats h => (execCompress_storesOnly s sh stats t h).sameOutside hs,
    fun sh h => (execLexpand_storesOnly s sh t h).sameOutside hs,
    fun h => (execExpExpand_storesOnly s t h).sameOutside hs,
    fun h => (execExpExpand2_storesOnly s t h).sameOutside hs,
    fun u _ hf h => (exec_unit_storesOnly s u hf t h).sameOutside hs⟩

end Sys2Proof.Machine
end

section
/-! ## An accepted command word (R300) -/

namespace Sys2Proof.Machine

variable {s : State} {w : Word}

/-- A word that no rule drops is accepted, and kept until the engine's turn (R300, log 7). -/
theorem writeCmd_of_accepted (hb : s.busy = false) (h : s.fault = false ∨ w = 1#32) :
    writeCmd w s = { s with task := .issued w } := by
  have hf : ¬ (s.fault = true ∧ w ≠ 1#32) := by rintro ⟨hf, hw⟩; simp [hf, hw] at h
  rw [writeCmd, if_neg (by simp [hb]), if_neg hf]

/-- While FAULT = 1 every word but SOFT_RESET's is dropped (R300, R320). -/
theorem writeCmd_of_faulted (hb : s.busy = false) (hf : s.fault = true) (hw : w ≠ 1#32) :
    writeCmd w s = s.setLost := by
  rw [writeCmd, if_neg (by simp [hb]), if_pos ⟨hf, hw⟩]

/-- Settles O8: the three cases of CMD's own write rule. -/
theorem commandIssue : Obligations.CommandIssue := by
  intro s w rest h
  have hstep : step s = .next (writeCmd w { s with host := rest }) := by
    rw [step_write_register (off := 0x000) (by decide) (by decide) (by simpa using h), hostWrite_cmd]
  refine ⟨fun hb => ?_, fun hb hf hw => ?_, fun hb ha => ?_⟩
  · rw [hstep, writeCmd_of_busy (s := { s with host := rest }) w hb]
    rfl
  · rw [hstep, writeCmd_of_faulted (s := { s with host := rest }) hb hf hw]
    rfl
  · rw [hstep, writeCmd_of_accepted (s := { s with host := rest }) hb ha]

/-- The engine's turn after a legal word was accepted is the word's instruction (R300). -/
theorem turnWith_issued {i : Instr} (touched : List Word) (ht : s.task = .issued w) (hd : decodeCommand w = .ok i) :
    turnWith touched s = exec i (s.foreseen touched) := by
  simp only [turnWith, fetch, ht, fetchCommand, hd]

/-- Settles O6: the turn for the addresses that `engineTurn_cases` gives, none of them without a store to come. -/
theorem stepRunsIssuedCommand : Obligations.StepRunsIssuedCommand := by
  intro s w i ht hd
  refine ⟨fun hh => ?_, fun rest hh => ⟨?_, fun hno => ?_⟩⟩
  · rw [step_of_no_access hh, turnWith_issued [] ht hd, State.foreseen_nil hh]
  · obtain ⟨touched, k, e⟩ := engineTurn_cases { s with host := rest }
    refine ⟨touched, k, ?_⟩
    rw [step_access hh, accessStep, e]
    exact turnWith_issued (s := State.drawn k { s with host := rest }) touched ht hd
  · rw [step_access hh, accessStep, engineTurn_of_no_store (s := { s with host := rest }) hno]
    exact turnWith_issued (s := { s with host := rest }) [] ht hd

end Sys2Proof.Machine
end

section
/-! ## What every procedure carries along, and what it raises (R302, R305, R306) -/

namespace Sys2Proof.Machine

/-! ### What a running command's procedures leave alone -/

/-- The part of the state that no procedure of the pseudocode writes, returning, raising or held: STATUS.FAULT and
STATUS.LOST, ARG0 to ARG3, CHUNK, the platform and the accumulator. -/
structure Carry where
  fault : Bool
  lost : Bool
  args : ArgRegs
  chunk : List Byte
  plat : Platform
  acc : AccRegs

/-- That part of `s`. -/
def State.carry (s : State) : Carry :=
  { fault := s.fault, lost := s.lost, args := s.args, chunk := s.chunk, plat := s.plat, acc := s.acc }

theorem carry_fault {s t : State} (h : t.carry = s.carry) : t.fault = s.fault := congrArg Carry.fault h

theorem carry_lost {s t : State} (h : t.carry = s.carry) : t.lost = s.lost := congrArg Carry.lost h

theorem carry_args {s t : State} (h : t.carry = s.carry) : t.args = s.args := congrArg Carry.args h

theorem carry_chunk {s t : State} (h : t.carry = s.carry) : t.chunk = s.chunk := congrArg Carry.chunk h

theorem carry_plat {s t : State} (h : t.carry = s.carry) : t.plat = s.plat := congrArg Carry.plat h

theorem carry_acc {s t : State} (h : t.carry = s.carry) : t.acc = s.acc := congrArg Carry.acc h

/-! ### ERR_INFO of a raised cause -/

/-- The platform refuses the engine's accesses of one kind to the byte at `a` (R9, R82). -/
def RefusedAt (p : Platform) (a : Word) : Prop := memAdmits p a .read = false ∨ memAdmits p a .write = false

/-- ERR_INFO of a cause that a procedure raises (R305): for BusError a refused address, for every other one an index in
`J`. OutOfBounds is never among them: only the commands' argument checks raise it. -/
def RaiseInfo (p : Platform) (J : Word → Prop) (c : Cause) (info : Word) : Prop :=
  match c with
  | .busError => RefusedAt p info
  | .outOfBounds => False
  | _ => J info

theorem RaiseInfo.mono {p : Platform} {J J' : Word → Prop} {c : Cause} {info : Word} (h : RaiseInfo p J c info)
    (hJ : ∀ v, J v → J' v) : RaiseInfo p J' c info := by
  cases c with
  | busError | outOfBounds => exact h
  | _ => exact hJ info h

/-- Inside a loop the index takes the place of what the procedure gave, but for a refused address (R305). -/
theorem RaiseInfo.indexed {p : Platform} {J : Word → Prop} {c : Cause} {info : Word} (h : RaiseInfo p J c info)
    (i : Word) : RaiseInfo p (· = i) c (if c = .busError then info else i) := by
  cases c with
  | busError | outOfBounds => exact h
  | _ => rfl

/-! ### However a procedure ends -/

/-- The procedure carries along what a running command leaves alone, and what it raises has its ERR_INFO (R305). -/
def Res.Raises {α : Type} (J : Word → Prop) (s : State) (r : Res α) : Prop :=
  match r with
  | .ok _ t => t.carry = s.carry
  | .raise c info t => t.carry = s.carry ∧ RaiseInfo s.plat J c info
  | .hold _ t => t.carry = s.carry

section
variable {α β : Type} {J J' : Word → Prop} {s t : State} {r : Res α}

theorem raises_ok {a : α} (h : t.carry = s.carry) : (Res.ok a t).Raises J s := h

theorem raises_raise {c : Cause} {info : Word} (h : RaiseInfo s.plat J c info) :
    (Res.raise c info s : Res α).Raises J s := ⟨rfl, h⟩

theorem raises_hold {p : HoldPoint} (h : t.carry = s.carry) : (Res.hold p t : Res α).Raises J s := h

theorem Res.Raises.mono (h : r.Raises J s) (hJ : ∀ v, J v → J' v) : r.Raises J' s := by
  cases r with
  | ok a u => exact h
  | raise c info u => exact ⟨h.1, h.2.mono hJ⟩
  | hold p u => exact h

/-- What a procedure does after some updates. -/
theorem Res.Raises.after (h : r.Raises J t) (ht : t.carry = s.carry) : r.Raises J s := by
  cases r with
  | ok a u => exact h.trans ht
  | raise c info u =>
    obtain ⟨hu, hinfo⟩ := h
    exact ⟨hu.trans ht, carry_plat ht ▸ hinfo⟩
  | hold p u => exact h.trans ht

theorem Res.Raises.bind {k : α → State → Res β} (h : r.Raises J s)
    (hk : ∀ a t, t.carry = s.carry → (k a t).Raises J t) : (r.bind k).Raises J s := by
  cases r with
  | ok a u => exact (hk a u h).after h
  | raise c info u => exact h
  | hold p u => exact h

theorem Res.Raises.indexed (h : r.Raises J s) (i : Word) : (r.indexed i).Raises (· = i) s := by
  cases r with
  | ok a u => exact h
  | raise c info u => exact ⟨h.1, h.2.indexed i⟩
  | hold p u => exact h

end

/-! ### The memory port (R82, R83) -/

section
variable (s : State)

theorem raises_readByte (a : Word) : (readByte a s).Raises (· = 0#32) s := by
  rcases readByte_cases a s with ⟨-, b, d, e⟩ | ⟨hr, e⟩ <;> rw [e]
  · exact raises_ok rfl
  · exact raises_raise (.inl hr)

theorem raises_writeByte (a : Word) (b : Byte) : (writeByte a b s).Raises (· = 0#32) s := by
  rcases writeByte_cases a b s with ⟨-, v, d, e⟩ | ⟨hr, e⟩ <;> rw [e]
  · exact raises_ok rfl
  · exact raises_raise (.inr hr)

theorem raises_memRead16 (a : Word) : (memRead16 a s).Raises (· = 0#32) s :=
  (raises_readByte s a).bind fun _ t _ => (raises_readByte t _).bind fun _ _ _ => raises_ok rfl

theorem raises_memWrite (n : Nat) (a : Word) (v : Nat) : (memWrite n a v s).Raises (· = 0#32) s := by
  induction n generalizing a v s with
  | zero => exact raises_ok rfl
  | succ n ih => exact (raises_writeByte s a _).bind fun _ t _ => ih t _ _

/-! ### The packer and COMPRESS's loop (R162 to R165, R236, R238) -/

theorem raises_emit (b : Byte) : (emit b s).Raises (· = 0#32) s := by
  unfold emit
  split
  · exact raises_raise rfl
  · exact (raises_writeByte s _ b).bind fun _ _ _ => raises_ok rfl

theorem raises_packBit (bit : Bool) : (packBit bit s).Raises (· = 0#32) s := by
  have hstage : ∀ (t : State) (b : PackerRegs), State.carry { t with bw := b } = t.carry := fun _ _ => rfl
  unfold packBit
  dsimp only
  split
  · exact ((raises_emit _ _).bind fun _ t _ => raises_ok (hstage t _)).after (hstage s _)
  · exact raises_ok rfl

theorem raises_packBits (v n : Nat) : (packBits v n s).Raises (· = 0#32) s := by
  induction n generalizing s with
  | zero => exact raises_ok rfl
  | succ n ih => exact (raises_packBit s _).bind fun _ t _ => ih t

theorem raises_flushPacker : (flushPacker s).Raises (· = 0#32) s := by
  unfold flushPacker
  split
  · exact raises_ok rfl
  · exact (raises_emit s _).bind fun _ _ _ => raises_ok rfl

theorem raises_packUnit (x : Int) : (packUnit x s).Raises (· = 0#32) s := by
  unfold packUnit
  dsimp only
  split
  · exact (raises_packBits s _ _).bind fun _ t _ => (raises_packBits t _ _).bind fun _ u _ => raises_packBits u _ _
  · exact (raises_packBits s _ _).bind fun _ t _ => raises_packBits t _ _

theorem raises_compressSample (sh : Nat) (stats : Bool) (i : Nat) :
    (compressSample sh stats i s).Raises (· = 0#32) s := by
  refine (raises_memRead16 s _).bind fun r t _ => ?_
  have hencode : (encodeUnit (asr (sext16 r) sh) t).Raises (· = 0#32) t :=
    (raises_packUnit t _).bind fun _ _ _ => raises_ok rfl
  refine hencode.bind fun code u _ => ?_
  cases stats <;> exact raises_ok rfl

/-- The samples of COMPRESS have indices below the sample count (R305). -/
theorem raises_compressLoop (sh : Nat) (stats : Bool) (k i : Nat) {n : Nat} (hn : i + k ≤ n) :
    (compressLoop sh stats k i s).Raises (·.toNat ≤ n) s := by
  induction k generalizing i s with
  | zero => exact raises_ok rfl
  | succ k ih =>
    have hi : (BitVec.ofNat 32 i).toNat ≤ n := (Nat.mod_le _ _).trans (by omega)
    refine (((raises_compressSample s sh stats i).indexed _).mono fun v hv => hv ▸ hi).bind fun _ t _ => ?_
    exact ih t (i + 1) (by omega)

/-- COMPRESS's flush comes after its samples, with the sample count (R305). -/
theorem raises_compressBody (sh : Nat) (stats : Bool) :
    (compressBody sh stats s).Raises (·.toNat ≤ s.args.arg1.toNat) s := by
  refine (raises_compressLoop s sh stats _ 0 (Nat.zero_add _).le).bind fun _ t ht => ?_
  exact ((raises_flushPacker t).indexed _).mono fun v hv => by rw [hv, carry_args ht]

/-! ### The stream unit and the unpacker (R182, R183, R211 to R214) -/

theorem raises_streamGet (p : HoldPoint) : (streamGet p s).Raises (· = 0#32) s := by
  rcases streamGet_cases p s with ⟨b, t, e, ht, -⟩ | ⟨-, e⟩ | ⟨-, -, hr, e⟩ | ⟨-, -, -, e⟩ <;> rw [e]
  · exact raises_ok (by rw [ht]; rfl)
  · exact raises_raise rfl
  · exact raises_raise (.inl hr)
  · exact raises_hold rfl

theorem raises_streamResume (k : Word) : (streamResume k s).Raises (· = 0#32) s := by
  rcases streamResume_cases k s with ⟨-, -, e⟩ | ⟨-, e⟩ | ⟨-, e⟩ <;> rw [e]
  · exact raises_ok rfl
  · exact raises_raise rfl
  · exact raises_raise rfl

theorem raises_get16Second (lo : Byte) : (get16Second lo s).Raises (· = 0#32) s :=
  (raises_streamGet s _).bind fun _ _ _ => raises_ok rfl

theorem loadByte_carry (b : Byte) : (loadByte b s).carry = s.carry := by rw [loadByte_frame]; rfl

theorem raises_brFetch (p : HoldPoint) : (brFetch p s).Raises (· = 0#32) s := by
  unfold brFetch
  split
  · split
    · exact raises_raise rfl
    · exact raises_readByte s _
  · exact raises_streamGet s p
  · exact raises_raise rfl

theorem raises_unpackFrom (point : Nat → Nat → HoldPoint) (n r : Nat) :
    (unpackFrom point n r s).Raises (· = 0#32) s := by
  induction n generalizing r s with
  | zero => exact raises_ok rfl
  | succ n ih =>
    have hbit : (needBit (point r (n + 1)) s).Raises (· = 0#32) s := by
      unfold needBit
      split
      · exact (raises_brFetch s _).bind fun b t _ => raises_ok (loadByte_carry t b)
      · exact raises_ok rfl
    exact hbit.bind fun _ t _ => (ih (dropBit t) _).after rfl

/-! ### A code unit from any of its bits on (R240) -/

theorem raises_readMag (f : Frame) (code : Nat) (sign : Bool) (r left : Nat) :
    (readMag f code sign r left s).Raises (· = 0#32) s :=
  (raises_unpackFrom s _ left r).bind fun _ _ _ => raises_ok rfl

theorem raises_readSign (f : Frame) (code : Nat) : (readSign f code s).Raises (· = 0#32) s :=
  (raises_unpackFrom s _ 1 0).bind fun _ t _ => raises_readMag t f code _ 0 _

theorem raises_readRaw (f : Frame) (r left : Nat) : (readRaw f r left s).Raises (· = 0#32) s :=
  (raises_unpackFrom s _ left r).bind fun _ _ _ => raises_ok rfl

theorem raises_readUnitFrom (f : Frame) (phase : UnitPhase) : (readUnitFrom f phase s).Raises (· = 0#32) s := by
  cases phase with
  | code r left =>
    refine (raises_unpackFrom s _ left r).bind fun code t _ => ?_
    split
    · exact raises_readRaw t f 0 16
    · exact raises_readSign t f code
  | sign code => exact raises_readSign s f code
  | mag code sign r left => exact raises_readMag s f code sign r left
  | raw r left => exact raises_readRaw s f r left

/-! ### A sample of a decoding command (R241, R243, R264 to R266) -/

theorem raises_writeSample (y : Int) (f : Frame) : (writeSample y f s).Raises (· = 0#32) s := by
  unfold writeSample
  cases f.cmd with
  | lexpand sh => exact raises_memWrite s 2 _ _
  | expand => exact (raises_memWrite s 2 _ _).bind fun _ _ _ => raises_ok rfl
  | expand2 vol =>
    exact (raises_memWrite s 4 _ _).bind fun _ t _ => (raises_memWrite t 4 _ _).bind fun _ _ _ => raises_ok rfl

theorem raises_acceptSample (x : Int) (f : Frame) : (acceptSample x f s).Raises (· = 0#32) s := by
  unfold acceptSample
  split
  · exact (raises_writeSample _ _ f).after rfl
  · exact raises_raise rfl

theorem raises_rawSampleSecond (f : Frame) (lo : Byte) : (rawSampleSecond f lo s).Raises (· = 0#32) s :=
  (raises_streamGet s _).bind fun _ t _ => raises_writeSample t _ f

theorem raises_takeSample (f : Frame) : (takeSample f s).Raises (· = 0#32) s := by
  unfold takeSample
  split
  · exact (raises_streamGet s _).bind fun lo t _ => raises_rawSampleSecond t f lo
  · exact (raises_readUnitFrom s f (.code 0 4)).bind fun _ t _ => raises_acceptSample t _ f

/-- The samples of a decoding command have indices below its sample count (R305). -/
theorem raises_takeSamples (k : Nat) {f : Frame} (hk : f.i.toNat + k = f.n.toNat) :
    (takeSamples k f s).Raises (·.toNat < f.n.toNat) s := by
  induction k generalizing f s with
  | zero => exact raises_ok rfl
  | succ k ih =>
    have hi : f.i.toNat < f.n.toNat := by omega
    have hone := ((raises_takeSample { s with task := .sample f } f).indexed f.i).after (s := s) rfl
    refine (hone.mono fun v hv => hv ▸ hi).bind fun _ t _ => ih (f := f.next) t ?_
    rw [Frame.next_i_toNat hi]
    exact (Nat.add_right_comm _ _ _).trans hk

end

end Sys2Proof.Machine
end

section
/-! ## How an instruction ends: with FAULT as it was, or in fault entry (R301, R306) -/

namespace Sys2Proof.Machine

/-! ### Fault entry after a running command -/

/-- `t` is fault entry (R306) on what a command left of `s`: of opcode `op`, with a cause and an ERR_INFO that are in
`P`. -/
structure Faulted (op : Byte) (P : Cause → Word → Prop) (s t : State) : Prop where
  fault : t.fault = true
  task : t.task = .idle
  session : t.exp.state = .unbound
  err : ∃ c info, t.err = { cause := c.code, op := op, info := info } ∧ P c info
  args : t.args = s.args
  lost : t.lost = s.lost
  chunk : t.chunk = s.chunk
  plat : t.plat = s.plat
  acc : t.acc = s.acc

/-- No fault was entered and none left, or the command faulted. -/
def Ended (op : Byte) (P : Cause → Word → Prop) (s t : State) : Prop := t.fault = s.fault ∨ Faulted op P s t

/-- The outcome's next state, if it has one, has ended so. -/
def Ends (op : Byte) (P : Cause → Word → Prop) (s : State) (o : Host.Outcome State Fault Refusal) : Prop :=
  ∀ t, o = .next t → Ended op P s t

section
variable {op : Byte} {P P' : Cause → Word → Prop} {s t u : State}

theorem Faulted.after (h : Faulted op P t u) (ht : t.carry = s.carry) : Faulted op P s u where
  fault := h.fault
  task := h.task
  session := h.session
  err := h.err
  args := h.args.trans (carry_args ht)
  lost := h.lost.trans (carry_lost ht)
  chunk := h.chunk.trans (carry_chunk ht)
  plat := h.plat.trans (carry_plat ht)
  acc := h.acc.trans (carry_acc ht)

theorem Faulted.mono (h : Faulted op P s t) (hP : ∀ c info, P c info → P' c info) : Faulted op P' s t := by
  obtain ⟨c, info, he, hc⟩ := h.err
  exact { h with err := ⟨c, info, he, hP c info hc⟩ }

/-- Every cause a fault records is one of R302's. -/
theorem Faulted.cause_range (h : Faulted op P s t) : 1 ≤ t.err.cause.toNat ∧ t.err.cause.toNat ≤ 7 := by
  obtain ⟨c, info, he, -⟩ := h.err
  rw [he]
  exact c.code_range

theorem Faulted.err_op (h : Faulted op P s t) : t.err.op = op := by
  obtain ⟨c, info, he, -⟩ := h.err
  rw [he]

theorem Faulted.err_info (h : Faulted op P s t) (Q : ErrRegs → Prop)
    (hQ : ∀ c info, P c info → Q { cause := c.code, op := op, info := info }) : Q t.err := by
  obtain ⟨c, info, he, hc⟩ := h.err
  rw [he]
  exact hQ c info hc

theorem faulted_faultEntry {n : Nat} {c : Cause} {info : Word} (ht : t.carry = s.carry) (hP : P c info) :
    Faulted (BitVec.ofNat 8 n) P s (faultEntry c n info t) :=
  Faulted.after (t := t) ⟨rfl, rfl, rfl, ⟨c, info, rfl, hP⟩, rfl, rfl, rfl, rfl, rfl⟩ ht

theorem Ended.after (h : Ended op P t u) (ht : t.carry = s.carry) : Ended op P s u :=
  h.imp (fun hu => hu.trans (carry_fault ht)) fun hu => hu.after ht

theorem Ended.mono (h : Ended op P s t) (hP : ∀ c info, P c info → P' c info) : Ended op P' s t :=
  h.imp_right fun ht => ht.mono hP

theorem ends_next (h : Ended op P s t) : Ends op P s (.next t) := fun _ e => by
  obtain rfl := Host.Outcome.next.inj e
  exact h

theorem ends_completed (h : t.fault = s.fault) : Ends op P s (.next t) := ends_next (.inl h)

theorem Ends.mono {o : Host.Outcome State Fault Refusal} (h : Ends op P s o) (hP : ∀ c info, P c info → P' c info) :
    Ends op P' s o := fun t e => (h t e).mono hP

/-- A command's end, if its completion leaves FAULT alone and its write set what every command leaves alone. -/
theorem Res.Raises.ended_conclude {α : Type} {J : Word → Prop} {r : Res α} (h : r.Raises J s) {n : Nat}
    {spoil : State → State} {done : α → State → State} (hdone : ∀ a t, (done a t).fault = t.fault)
    (hspoil : ∀ t, (spoil t).carry = t.carry) :
    Ended (BitVec.ofNat 8 n) (RaiseInfo s.plat J) s (conclude n spoil done r) := by
  cases r with
  | ok a t => exact .inl ((hdone a t).trans (carry_fault h))
  | raise c info t =>
    obtain ⟨ht, hinfo⟩ := h
    exact .inr (faulted_faultEntry ((hspoil t).trans ht) hinfo)
  | hold p t => exact .inl (carry_fault h)

end

/-! ### Completions and write sets (R301, R306) -/

@[simp] theorem State.setReturned_fault (v : Word) (s : State) : (s.setReturned v).fault = s.fault := by
  unfold State.setReturned; split <;> rfl

theorem completeDecode_fault (f : Frame) (s : State) : (completeDecode f s).fault = s.fault := by
  unfold completeDecode; split <;> simp

theorem nextSample_fault (f : Frame) (s : State) : (nextSample f s).fault = s.fault := by
  unfold nextSample beginSample
  split
  · exact completeDecode_fault _ s
  · rfl

theorem spoilRead_carry (s : State) : (spoilRead s).carry = s.carry := by unfold spoilRead; split <;> rfl

theorem spoilDecode_carry (f : Frame) (s : State) : (spoilDecode f s).carry = s.carry := by
  unfold spoilDecode; split <;> simp [State.carry]

theorem spoilCompress_carry (stats : Bool) (s : State) : (spoilCompress stats s).carry = s.carry := by
  cases stats <;> simp [State.carry, spoilCompress]

/-! ### The ends of the commands that a refill may hold -/

section
variable {s : State}

theorem ended_endGet {r : Res Byte} (h : r.Raises (· = 0#32) s) :
    Ended 0x42#8 (RaiseInfo s.plat (· = 0#32)) s (endGet r) :=
  h.ended_conclude (fun _ _ => rfl) fun _ => rfl

theorem ended_endGet16 {r : Res Nat} (h : r.Raises (· = 0#32) s) :
    Ended 0x43#8 (RaiseInfo s.plat (· = 0#32)) s (endGet16 r) :=
  h.ended_conclude (fun _ _ => rfl) fun _ => rfl

theorem ended_endRead {r : Res Nat} (h : r.Raises (· = 0#32) s) :
    Ended 0x32#8 (RaiseInfo s.plat (· = 0#32)) s (endRead r) :=
  h.ended_conclude (fun _ _ => rfl) spoilRead_carry

theorem ended_endSample {J : Word → Prop} {f : Frame} {r : Res Unit} (h : r.Raises J s) :
    Ended (BitVec.ofNat 8 f.op) (RaiseInfo s.plat (· = f.i)) s (endSample f r) :=
  (h.indexed f.i).ended_conclude (fun _ t => nextSample_fault f t) (spoilDecode_carry f)

/-- A code unit's sample in the loop of frame `f` (R240, R241). -/
theorem ended_runSample (x : Int) (f : Frame) (s : State) :
    Ended (BitVec.ofNat 8 f.op) (RaiseInfo s.plat (· = f.i)) s (runSample x f s) :=
  ended_endSample (raises_acceptSample s x f)

/-- A decoding command's loop, from its first sample on. -/
theorem ended_runDecode {f : Frame} (hi : f.i = 0#32) (s : State) :
    Ended (BitVec.ofNat 8 f.op) (RaiseInfo s.plat (·.toNat < f.n.toNat)) s (runDecode f s) := by
  have hk : f.i.toNat + f.n.toNat = f.n.toNat := by simp [hi]
  rw [runDecode, runSamples_eq_conclude _ _ hk]
  exact (raises_takeSamples s _ hk).ended_conclude (fun _ t => completeDecode_fault f t) (spoilDecode_carry f)

end

end Sys2Proof.Machine
end

section
/-! ## What a fault of an instruction records (R302, R305) -/

namespace Sys2Proof.Machine

/-- The indices of a fault inside a command's loop, COMPRESS's flush among them; 0 outside a loop (R305). -/
def indexOk (i : Instr) (a : ArgRegs) (v : Word) : Prop :=
  match i with
  | .compress _ _ => v.toNat ≤ a.arg1.toNat
  | .lexpand _ => v.toNat < a.arg2.toNat
  | .expExpand => v.toNat < a.arg1.toNat
  | .expExpand2 => v.toNat < a.arg1.toNat
  | _ => v = 0#32

/-- ERR_INFO of a command's fault: 0 for its argument checks, or what its procedures raise (R305). -/
def CommandFault (i : Instr) (s : State) (c : Cause) (info : Word) : Prop :=
  c = .outOfBounds ∧ info = 0#32 ∨ RaiseInfo s.plat (indexOk i s.args) c info

section
variable {i : Instr} {op : Byte} {s : State}

/-- An argument check's fault (R306 (a)). -/
theorem ends_rejected (n : Nat) :
    Ends (BitVec.ofNat 8 n) (CommandFault i s) s (.next (faultEntry .outOfBounds n 0#32 s)) :=
  ends_next (.inr (faulted_faultEntry rfl (.inl ⟨rfl, rfl⟩)))

theorem Ended.command {t : State} {J : Word → Prop} (h : Ended op (RaiseInfo s.plat J) s t)
    (hJ : ∀ v, J v → indexOk i s.args v) : Ends op (CommandFault i s) s (.next t) :=
  ends_next (h.mono fun _ _ hr => .inr (hr.mono hJ))

end

section
variable (s : State)

/-! ### The commands that can fault, one by one -/

theorem execAccPush_ends (n : Nat) : Ends 0x11#8 (CommandFault (.accPush n) s) s (execAccPush n s) := by
  unfold execAccPush
  split_ifs
  · exact ends_rejected _
  · exact ends_rejected _
  · exact ends_rejected _
  · exact ends_completed rfl

theorem execAccPop_ends (n : Nat) : Ends 0x12#8 (CommandFault (.accPop n) s) s (execAccPop n s) := by
  unfold execAccPop
  split_ifs
  · exact ends_rejected _
  · exact ends_rejected _
  · exact ends_completed rfl

theorem execBwWrite_ends (n : Nat) : Ends 0x21#8 (CommandFault (.bwWrite n) s) s (execBwWrite n s) := by
  unfold execBwWrite
  split_ifs
  · exact ends_rejected _
  · exact ends_rejected _
  · refine Ended.command (J := (· = 0#32)) ?_ fun _ hv => hv
    exact (raises_packBits s _ n).ended_conclude (fun _ _ => rfl) fun _ => rfl

theorem execBwClose_ends : Ends 0x22#8 (CommandFault .bwClose s) s (execBwClose s) := by
  refine Ended.command (J := (· = 0#32)) ?_ fun _ hv => hv
  exact (raises_flushPacker s).ended_conclude (fun _ _ => rfl) fun _ => rfl

theorem execBwLength_ends : Ends 0x23#8 (CommandFault .bwLength s) s (execBwLength s) := by
  unfold execBwLength
  extract_lets length
  split <;> exact ends_completed rfl

theorem execBrRead_ends (n : Nat) : Ends 0x32#8 (CommandFault (.brRead n) s) s (execBrRead n s) := by
  unfold execBrRead
  split
  · exact ends_rejected _
  · exact (ended_endRead (raises_unpackFrom s _ n 0)).command fun _ hv => hv

theorem execStGet_ends : Ends 0x42#8 (CommandFault .stGet s) s (execStGet s) :=
  (ended_endGet (raises_streamGet s _)).command fun _ hv => hv

theorem execStGet16_ends : Ends 0x43#8 (CommandFault .stGet16 s) s (execStGet16 s) :=
  (ended_endGet16 ((raises_streamGet s _).bind fun lo t _ => raises_get16Second t lo)).command fun _ hv => hv

theorem execCompress_ends (sh : Nat) (stats : Bool) :
    Ends 0x50#8 (CommandFault (.compress sh stats) s) s (execCompress sh stats s) := by
  unfold execCompress
  split
  · exact ends_rejected _
  · have hbody := (raises_compressBody (compressStart stats s) sh stats).after (s := s) rfl
    exact (hbody.ended_conclude (fun _ t => by simp) (spoilCompress_carry stats)).command fun _ hv => hv

theorem execLexpand_ends (sh : Nat) : Ends 0x51#8 (CommandFault (.lexpand sh) s) s (execLexpand sh s) := by
  unfold execLexpand
  split
  · exact ends_rejected _
  · have hloop := (ended_runDecode (f := lexpandFrame sh s.args) rfl (lexpandStart s)).after (s := s) rfl
    exact hloop.command fun _ hv => hv

theorem execExpInit_ends (sh fmt : Nat) : Ends 0x60#8 (CommandFault (.expInit sh fmt) s) s (execExpInit sh fmt s) := by
  unfold execExpInit
  split_ifs
  · exact ends_rejected _
  · exact ends_rejected _
  · exact ends_completed rfl

theorem execExpExpand_ends : Ends 0x61#8 (CommandFault .expExpand s) s (execExpExpand s) := by
  unfold execExpExpand
  split
  · exact ends_rejected _
  · have hloop :=
      (ended_runDecode (f := expandFrame s.args) rfl (expandStart (expandFrame s.args) s)).after (s := s) rfl
    exact hloop.command fun _ hv => hv

theorem execExpExpand2_ends : Ends 0x62#8 (CommandFault .expExpand2 s) s (execExpExpand2 s) := by
  unfold execExpExpand2
  split_ifs
  · exact ends_rejected _
  · exact ends_rejected _
  · have hloop :=
      (ended_runDecode (f := expand2Frame s.args) rfl (expandStart (expand2Frame s.args) s)).after (s := s) rfl
    exact hloop.command fun _ hv => hv

end

/-! ### All instructions -/

section
variable {i : Instr} {w : Word} {s : State}

/-- A word's low byte is the opcode its row gives it (R110). -/
theorem setWidth_commandWord (op imm flg : Nat) : (commandWord op imm flg).setWidth 8 = BitVec.ofNat 8 op := by
  apply BitVec.eq_of_toNat_eq
  simp only [commandWord, BitVec.toNat_setWidth, BitVec.toNat_ofNat]
  omega

/-- The opcode of the encoding is the one of the row (R113). -/
theorem Ends.of_encode {P : Cause → Word → Prop} {o : Host.Outcome State Fault Refusal} {op imm flg : Nat}
    (h : Ends (BitVec.ofNat 8 op) P s o) (hw : Encoded.command (commandWord op imm flg) = .command w) :
    Ends (w.setWidth 8) P s o := by
  rw [← Encoded.command.inj hw, setWidth_commandWord]
  exact h

/-- Every command but SOFT_RESET leaves FAULT as it was, or faults with its own opcode and R305's ERR_INFO. -/
theorem exec_ends (hw : encode i = .command w) (hi : i ≠ .softReset) :
    Ends (w.setWidth 8) (CommandFault i s) s (exec i s) := by
  cases i with
  | nop => exact ends_completed rfl
  | softReset => exact absurd rfl hi
  | accClear => exact ends_completed rfl
  | accPush n => exact (execAccPush_ends s n).of_encode hw
  | accPop n => exact (execAccPop_ends s n).of_encode hw
  | bitsNeeded => exact ends_completed rfl
  | bwInit => exact ends_completed rfl
  | bwWrite n => exact (execBwWrite_ends s n).of_encode hw
  | bwClose => exact (execBwClose_ends s).of_encode hw
  | bwLength => exact (execBwLength_ends s).of_encode hw
  | brInitFlat => exact ends_completed rfl
  | brInitStream => exact ends_completed rfl
  | brRead n => exact (execBrRead_ends s n).of_encode hw
  | stBindMem => exact ends_completed rfl
  | stBindChunk => exact ends_completed rfl
  | stGet => exact (execStGet_ends s).of_encode hw
  | stGet16 => exact (execStGet16_ends s).of_encode hw
  | compress sh stats => exact (execCompress_ends s sh stats).of_encode hw
  | lexpand sh => exact (execLexpand_ends s sh).of_encode hw
  | expInit sh fmt => exact (execExpInit_ends s sh fmt).of_encode hw
  | expExpand => exact (execExpExpand_ends s).of_encode hw
  | expExpand2 => exact (execExpExpand2_ends s).of_encode hw
  | expDone => exact ends_completed rfl
  | _ => cases hw

/-- An instruction that is encoded by stream bits executes a quantised sample (R117, R240). -/
theorem exec_of_encode_unit {bits : List Bool} (h : encode i = .unit bits) (s : State) :
    ∃ x, exec i s = execUnit x s := by
  cases i with
  | nop | softReset | accClear | accPush | accPop | bitsNeeded | bwInit | bwWrite | bwClose | bwLength | brInitFlat
  | brInitStream | brRead | stBindMem | stBindChunk | stGet | stGet16 | compress | lexpand | expInit | expExpand
  | expExpand2 | expDone => cases h
  | _ => exact ⟨_, rfl⟩

/-- A code unit faults with the opcode of the decoding command it runs in, and its sample's index (R305). -/
theorem execUnit_ends (x : Int) {f : Frame} (hf : s.task = .sample f) :
    Ends (BitVec.ofNat 8 f.op) (RaiseInfo s.plat (· = f.i)) s (execUnit x s) := by
  rw [execUnit, hf]
  exact ends_next (ended_runSample x f s)

end

end Sys2Proof.Machine
end

section
/-! ## What a fault of the engine's turn records (R303, R305, R306) -/

namespace Sys2Proof.Machine

/-! ### ERR_INFO by what the engine is doing -/

/-- ERR_INFO of a fault of the command running in `s`, as R305 gives it. -/
def TurnFault (s : State) (c : Cause) (info : Word) : Prop :=
  InfoOk s { cause := c.code, op := taskOp s.task, info := info }

section
variable {s : State} {c : Cause} {info w : Word} {i : Instr}

theorem commandInfoOk_of_index {a : ArgRegs} {e : ErrRegs} (hd : decodeCommand w = .ok i)
    (h : if e.cause = 3#8 then e.info = 0#32 else indexOk i a e.info) : CommandInfoOk w a e := by
  unfold CommandInfoOk
  rw [hd]
  cases i with
  | compress | lexpand | expExpand | expExpand2 => exact h
  | _ => exact (ite_self (e.info = 0#32)).mp h

/-- A fault of an accepted word before its first refill wait. -/
theorem turnFault_issued (ht : s.task = .issued w) (hd : decodeCommand w = .ok i) (h : CommandFault i s c info) :
    TurnFault s c info := by
  unfold TurnFault InfoOk
  rw [ht]
  rcases h with ⟨rfl, rfl⟩ | h
  · exact commandInfoOk_of_index hd rfl
  · cases c with
    | busError => exact h
    | outOfBounds => exact h.elim
    | _ => exact commandInfoOk_of_index hd h

/-- A word that is no command (R303). -/
theorem turnFault_illegal {r : Reject} (ht : s.task = .issued w) (hd : decodeCommand w = .error r) :
    TurnFault s .illegalCommand 0#32 := by
  unfold TurnFault InfoOk
  rw [ht]
  show CommandInfoOk w s.args _
  unfold CommandInfoOk
  rw [hd]

/-- A fault of a command that goes on from a refill wait. -/
theorem turnFault_answered {k : Word} {p : HoldPoint} (ht : s.task = .answered k p)
    (h : RaiseInfo s.plat (· = pointIndex p) c info) : TurnFault s c info := by
  unfold TurnFault InfoOk
  rw [ht]
  cases c with
  | outOfBounds => exact h.elim
  | _ => exact h

/-- A fault of a decoding command between two samples. -/
theorem turnFault_sample {f : Frame} (ht : s.task = .sample f) (h : RaiseInfo s.plat (· = f.i) c info) :
    TurnFault s c info := by
  unfold TurnFault InfoOk
  rw [ht]
  cases c with
  | outOfBounds => exact h.elim
  | _ => exact h

end

/-! ### What the turn begins with, and how it ends -/

/-- What the engine's turn begins with has ended so, or ends so when it is executed. -/
def Fetched.Ends (op : Byte) (P : Cause → Word → Prop) (s : State) (r : Fetched) : Prop :=
  match r with
  | .instr i t => Machine.Ends op P s (exec i t)
  | .settled t => Ended op P s t

section
variable {op : Byte} {P P' : Cause → Word → Prop} {s t : State}

theorem Fetched.Ends.after {r : Fetched} (h : r.Ends op P t) (ht : t.carry = s.carry) : r.Ends op P s := by
  cases r with
  | instr i u => exact fun v e => (h v e).after ht
  | settled u => exact Ended.after h ht

theorem Fetched.Ends.mono {r : Fetched} (h : r.Ends op P s) (hP : ∀ c info, P c info → P' c info) :
    r.Ends op P' s := by
  cases r with
  | instr i u => exact Machine.Ends.mono h hP
  | settled u => exact Ended.mono h hP

theorem Fetched.Ends.turnWith {touched : List Word} (h : (fetch touched s).Ends op P s) :
    Machine.Ends op P s (turnWith touched s) := by
  unfold Machine.turnWith
  cases hf : fetch touched s with
  | instr i t => rw [hf] at h; exact h
  | settled t => rw [hf] at h; exact ends_next h

theorem Ended.raises_after {J : Word → Prop} {u : State} (h : Ended op (RaiseInfo t.plat J) t u)
    (ht : t.carry = s.carry) : Ended op (RaiseInfo s.plat J) s u := by
  rw [← carry_plat ht]
  exact h.after ht

/-- A code unit read from any of its bits on faults while it is read or while it is executed, with the same opcode and
index (R240, R305). -/
theorem fetchedUnit_ends {f : Frame} {r : Res CodeUnit} (h : r.Raises (· = 0#32) s) :
    (fetchedUnit f r).Ends (BitVec.ofNat 8 f.op) (RaiseInfo s.plat (· = f.i)) s := by
  have hi := h.indexed f.i
  unfold fetchedUnit
  cases hr : r.indexed f.i with
  | ok u t =>
    rw [hr] at hi
    have ht : t.carry = s.carry := hi
    intro v e
    rw [exec_unit u rfl] at e
    exact ends_next ((ended_runSample _ f { t with task := .sample f }).raises_after ht) v e
  | raise c info t =>
    rw [hr] at hi
    obtain ⟨ht, hinfo⟩ := hi
    exact .inr (faulted_faultEntry ((spoilDecode_carry f t).trans ht) hinfo)
  | hold p t =>
    rw [hr] at hi
    exact .inl (carry_fault hi)

theorem fetchSample_ends (f : Frame) (s : State) :
    (fetchSample f s).Ends (BitVec.ofNat 8 f.op) (RaiseInfo s.plat (· = f.i)) s := by
  unfold fetchSample
  split
  · rw [sampleStep_eq_endSample]
    exact ended_endSample (raises_takeSample s f)
  · exact fetchedUnit_ends (raises_readUnitFrom s f (.code 0 4))

theorem fetchResumed_ends (k : Word) (p : HoldPoint) (s : State) :
    (fetchResumed k p s).Ends (BitVec.ofNat 8 (pointOp p)) (RaiseInfo s.plat (· = pointIndex p)) s := by
  have hres := raises_streamResume s k
  cases p with
  | get => exact ended_endGet hres
  | get16Lo => exact ended_endGet16 (hres.bind fun lo t _ => raises_get16Second t lo)
  | get16Hi lo => exact ended_endGet16 (hres.bind fun _ _ _ => raises_ok rfl)
  | read r left =>
    exact ended_endRead (hres.bind fun b t _ => (raises_unpackFrom _ _ left r).after (loadByte_carry t b))
  | unit f phase =>
    exact fetchedUnit_ends (hres.bind fun b t _ => (raises_readUnitFrom _ f phase).after (loadByte_carry t b))
  | sampleLo f => exact ended_endSample (hres.bind fun lo t _ => raises_rawSampleSecond t f lo)
  | sampleHi f lo => exact ended_endSample (hres.bind fun hi t _ => raises_writeSample t _ f)

/-- An accepted word but SOFT_RESET's, legal or not (R300, R303). -/
theorem fetchCommand_ends {w : Word} (ht : s.task = .issued w) (hw : w ≠ 1#32) :
    (fetchCommand w s).Ends (w.setWidth 8) (TurnFault s) s := by
  unfold fetchCommand
  cases hd : decodeCommand w with
  | error r =>
    have hop : BitVec.ofNat 8 (wordOp w) = w.setWidth 8 := by unfold wordOp; bv_omega
    rw [← hop]
    exact .inr (faulted_faultEntry rfl (turnFault_illegal ht hd))
  | ok i =>
    obtain ⟨-, henc⟩ := Laws.encode_of_decodeCommand hd
    have hi : i ≠ .softReset := by
      rintro rfl
      exact hw (Encoded.command.inj henc).symm
    exact (exec_ends henc hi).mono fun _ _ => turnFault_issued ht hd

/-- The engine's turn leaves FAULT as it was or faults as R306 says, unless it runs SOFT_RESET. -/
theorem turnWith_ends (touched : List Word) (hr : s.task ≠ .issued 1#32) :
    Ends (taskOp s.task) (TurnFault s) s (turnWith touched s) := by
  refine Fetched.Ends.turnWith ?_
  unfold fetch
  cases ht : s.task with
  | idle => exact .inl rfl
  | refill p => exact .inl rfl
  | issued w =>
    have hw : w ≠ 1#32 := fun e => hr (e ▸ ht)
    exact (fetchCommand_ends (s := s.foreseen touched) ht hw).after rfl
  | answered k p =>
    exact ((fetchResumed_ends k p _).mono fun _ _ => turnFault_answered (s := s.foreseen touched) ht).after rfl
  | sample f =>
    exact ((fetchSample_ends f _).mono fun _ _ => turnFault_sample (s := s.foreseen touched) ht).after rfl

end

/-- An idle engine has nothing to do (log 19). -/
theorem turnWith_of_not_busy (touched : List Word) {s : State} (hb : s.busy = false) :
    turnWith touched s = .next s := by
  unfold State.busy at hb
  split at hb
  · next ht => simp only [turnWith, fetch, ht]
  · cases hb

end Sys2Proof.Machine
end

section
/-! ## What a step does to FAULT (R306, R320) -/

namespace Sys2Proof.Machine

/-! ### The host side leaves FAULT alone but for hardware reset -/

theorem writeCmd_fault (w : Word) (s : State) : (writeCmd w s).fault = s.fault := by
  unfold writeCmd; split_ifs <;> rfl

theorem writeArg_fault (f : ArgRegs → ArgRegs) (s : State) : (writeArg f s).fault = s.fault := by
  unfold writeArg; split <;> rfl

theorem writeRefillCount_fault (k : Word) (s : State) : (writeRefillCount k s).fault = s.fault := by
  unfold writeRefillCount; split <;> rfl

theorem hostWrite_fault (off : Nat) (v : Word) (s : State) : (hostWrite off v s).fault = s.fault := by
  unfold hostWrite
  split
  · rw [writeChunk_frame]
  · split
    · exact writeCmd_fault v s
    · rw [writeStatus_eq]
    · exact writeArg_fault _ s
    · exact writeArg_fault _ s
    · exact writeArg_fault _ s
    · exact writeArg_fault _ s
    · exact writeRefillCount_fault v s
    · rfl

/-- Only hardware reset, of all accesses of the host side, writes FAULT (R33, R95, R340). -/
theorem accessStep_fault {turn : State → Host.Outcome State Fault Refusal} {a : Access} {s t : State}
    (he : a ≠ .engine) (hr : a ≠ .hardwareReset) (h : accessStep turn a s = .next t) : t.fault = s.fault := by
  cases a with
  | write addr v =>
    simp only [accessStep] at h
    split at h <;> cases h
    exact hostWrite_fault _ v s
  | read addr =>
    simp only [accessStep] at h
    split at h <;> cases h
    rw [hostRead_frame]
  | otherWidth addr bytes => cases h
  | store addr b =>
    cases h
    rw [hostStore_frame]
  | load addr =>
    cases h
    rw [(hostLoad_frame addr s).1]
  | hardwareReset => exact absurd rfl hr
  | engine => exact absurd rfl he

/-! ### The step -/

/-- The step is the engine's turn (log 3). -/
def EngineNext (s : State) : Prop := s.host = [] ∨ ∃ rest, s.host = .engine :: rest

/-- The engine's turn of a step is a turn from a state that differs only in the schedule and the draws. -/
theorem step_of_engineNext {s : State} (h : EngineNext s) :
    ∃ touched u, u.carry = s.carry ∧ u.task = s.task ∧ step s = turnWith touched u := by
  rcases h with h | ⟨rest, h⟩
  · exact ⟨[], s, rfl, rfl, step_of_no_access h⟩
  · obtain ⟨touched, d, e⟩ := engineTurn_cases { s with host := rest }
    exact ⟨touched, State.drawn d { s with host := rest }, rfl, rfl, by rw [step_access h, accessStep, e]⟩

theorem turnFault_congr {s t : State} (ht : t.carry = s.carry) (htask : t.task = s.task) :
    TurnFault t = TurnFault s := by
  funext c info
  unfold TurnFault InfoOk
  rw [htask, carry_plat ht, carry_args ht]

theorem busy_congr {s t : State} (h : t.task = s.task) : t.busy = s.busy := by
  unfold State.busy
  rw [h]

/-- Everything a step can do to FAULT: it leaves it as it was; it is hardware reset, or the engine running SOFT_RESET,
which clear it; or it is the engine's turn in a running command, which enters a fault (R306, R320). -/
theorem step_fault_cases {s t : State} (h : step s = .next t) :
    t.fault = s.fault ∨ (∃ rest, s.host = .hardwareReset :: rest) ∧ t.fault = false ∨
      EngineNext s ∧ (s.task = .issued 1#32 ∧ t.fault = false ∨
        s.busy = true ∧ Faulted (taskOp s.task) (TurnFault s) s t) := by
  by_cases hn : EngineNext s
  · obtain ⟨touched, u, hu, htask, e⟩ := step_of_engineNext hn
    rw [e] at h
    by_cases hreset : s.task = .issued 1#32
    · rw [turnWith_issued touched (htask.trans hreset) (i := .softReset) rfl] at h
      cases h
      exact .inr (.inr ⟨hn, .inl ⟨hreset, rfl⟩⟩)
    · cases hb : s.busy with
      | false =>
        rw [turnWith_of_not_busy touched ((busy_congr htask).trans hb)] at h
        cases h
        exact .inl (carry_fault hu)
      | true =>
        have hend := (turnWith_ends touched (htask ▸ hreset) t h).after hu
        rw [htask, turnFault_congr hu htask] at hend
        exact hend.imp_right fun hf => .inr ⟨hn, .inr ⟨rfl, hf⟩⟩
  · cases hh : s.host with
    | nil => exact absurd (.inl hh) hn
    | cons a rest =>
      rw [step_access hh] at h
      by_cases hr : a = .hardwareReset
      · rw [hr] at h ⊢
        rw [← Host.Outcome.next.inj h]
        exact .inr (.inl ⟨⟨rest, rfl⟩, hardwareReset_fault _⟩)
      · have he : a ≠ .engine := fun e => hn (.inr ⟨rest, e ▸ hh⟩)
        exact .inl (accessStep_fault (s := { s with host := rest }) he hr h)

/-- Settles O18: what clears FAULT is one of the two resets. -/
theorem faultExit : Obligations.FaultExit := by
  intro s t h hs ht
  rcases step_fault_cases h with hsame | ⟨hreset, -⟩ | ⟨hn, ⟨hsoft, -⟩ | ⟨-, hf⟩⟩
  · simp [hs, ht] at hsame
  · exact .inr hreset
  · exact .inl ⟨hsoft, hn⟩
  · simp [hf.fault] at ht

/-! ### The record of a fault -/

section
variable {op : Byte} {P : Cause → Word → Prop} {s t : State}

theorem Faulted.not_busy (h : Faulted op P s t) : t.busy = false := by rw [State.busy, h.task]

theorem Faulted.no_refill (h : Faulted op P s t) : t.refillReq = false := by rw [State.refillReq, h.task]

/-- What ends with FAULT set that began without has faulted. -/
theorem Ended.faulted (h : Ended op P s t) (hs : s.fault = false) (ht : t.fault = true) : Faulted op P s t :=
  h.resolve_left fun e => by simp [hs, ht] at e

/-- A fault of an instruction has its own opcode if it is a command's, and that of the running decoding command if it is
a code unit's (R306). -/
theorem exec_faulted {i : Instr} (hs : s.fault = false) (h : exec i s = .next t) (ht : t.fault = true) :
    ∃ op P, Faulted op P s t ∧ (∀ w, encode i = .command w → op = w.setWidth 8) ∧
      ∀ f, s.task = .sample f → (∃ bits, encode i = .unit bits) → op = BitVec.ofNat 8 f.op := by
  cases he : encode i with
  | command w =>
    have hi : i ≠ .softReset := by
      rintro rfl
      cases h
      cases ht
    refine ⟨_, _, (exec_ends he hi t h).faulted hs ht, fun w' e => ?_, fun f _ hu => ?_⟩
    · rw [Encoded.command.inj e]
    · obtain ⟨bits, e⟩ := hu
      cases e
  | unit bits =>
    obtain ⟨x, hx⟩ := exec_of_encode_unit he s
    rw [hx] at h
    cases htask : s.task with
    | sample f =>
      refine ⟨_, _, (execUnit_ends x htask t h).faulted hs ht, fun _ e => (nomatch e), fun g hg _ => ?_⟩
      rw [Task.sample.inj hg]
    | idle | issued | refill | answered => simp [execUnit, htask] at h

end

/-- Settles O55: the instruction's fault by `exec_faulted`, the step's by what a step can do to FAULT. -/
theorem faultRecord : Obligations.FaultRecord := by
  refine ⟨fun i s t hs h ht => ?_, fun s t hs h ht => ?_⟩
  · obtain ⟨op, P, hf, hcommand, hunit⟩ := exec_faulted hs h ht
    have ⟨hlo, hhi⟩ := hf.cause_range
    exact ⟨hf.task, hf.session, hf.no_refill, hf.not_busy, hlo, hhi, hf.args, hf.lost, hf.chunk, hf.plat,
      fun w e => hf.err_op.trans (hcommand w e), fun f hg hu => hf.err_op.trans (hunit f hg hu)⟩
  · rcases step_fault_cases h with hsame | ⟨-, hclear⟩ | ⟨hn, ⟨-, hclear⟩ | ⟨hb, hf⟩⟩
    · simp [hs, ht] at hsame
    · simp [ht] at hclear
    · simp [ht] at hclear
    · have ⟨hlo, hhi⟩ := hf.cause_range
      exact ⟨hn, hb, hf.task, hf.session, hf.no_refill, hf.not_busy, hlo, hhi, hf.err_op,
        hf.err_info (InfoOk s) fun _ _ hinfo => hinfo, hf.args, hf.lost, hf.chunk, hf.plat, hf.acc⟩

end Sys2Proof.Machine
end

section
/-! ## The two resets (R291, R340, R341) -/

namespace Sys2Proof.Machine

/-- SOFT_RESET gives the reset state but for ARG0 to ARG3, CHUNK and memory, and the model's own fields (R291, R341). -/
theorem softResetState_eq (s : State) :
    softResetState s = { State.resetOn s.plat with
      args := s.args, chunk := s.chunk, mem := s.mem, host := s.host, rdata := s.rdata, draws := s.draws
      unread := s.unread } := rfl

/-- The step in which the platform asserts hardware reset (R340). -/
theorem step_hardwareReset {s : State} {rest : List Access} (h : s.host = .hardwareReset :: rest) :
    step s = .next (hardwareReset { s with host := rest }) := by
  rw [step_access h, accessStep]

/-- No flag of STATUS is set after hardware reset (R36, R340). -/
theorem statusWord_hardwareReset (s : State) : (hardwareReset s).statusWord = 0#32 := rfl

/-- ERR is 0 after hardware reset (R37, R340). -/
theorem errWord_hardwareReset (s : State) : (hardwareReset s).errWord = 0#32 := rfl

end Sys2Proof.Machine

namespace Sys2Proof.Laws

open Sys2Proof.Machine

/-- Settles O16: the command is its reset state, and while BUSY = 1 CMD's own write rule drops its word. -/
theorem softResetState : Obligations.SoftResetState := by
  intro s
  refine ⟨congrArg _ (softResetState_eq s), fun rest h hb => ?_⟩
  obtain ⟨hdropped, -, -⟩ := commandIssue s 1#32 rest h
  exact hdropped hb

/-- Settles O17: the step is `hardwareReset`, whose registers are those of `State.resetOn`. -/
theorem hardwareReset : Obligations.HardwareReset := by
  intro s rest h
  refine ⟨_, step_hardwareReset h, length_freeBytes s.draws s.plat.chunkBytes, rfl, statusWord_hardwareReset _,
    errWord_hardwareReset _, ?_⟩
  simp [ErrRegs.zero]

end Sys2Proof.Laws
end

section
/-! ## A code unit outside a decoding command (log 8) -/

namespace Sys2Proof.Machine

/-- Between two samples is the only place where a code unit has an effect (R240, log 8). -/
theorem execUnit_stray (x : Int) {s : State} (h : ∀ f, s.task ≠ .sample f) :
    execUnit x s = .fault .strayCodeUnit := by
  cases ht : s.task with
  | sample f => exact absurd ht (h f)
  | idle | issued | refill | answered => rw [execUnit, ht]

/-- Settles O49: whichever unit it is, it executes a quantised sample. -/
theorem strayUnitStops : Obligations.StrayUnitStops := by
  intro u s h
  obtain ⟨x, hx⟩ := exec_of_encode_unit (Laws.encode_instr u) s
  rw [hx, execUnit_stray x h]

end Sys2Proof.Machine
end
